-- ==== Sys2Proof/Word.lean ====
section
/-! DEFINITION. The word types of the machine and the association list that stands for sparse state. -/

namespace Sys2Proof

/-- A byte. -/
abbrev Byte := BitVec 8
/-- A 32-bit register element or instruction word (R49, R76). -/
abbrev Word := BitVec 32
/-- A 64-bit register, address or latch (R51, R56). -/
abbrev Dword := BitVec 64
/-- A set of lanes of a group: bit l stands for lane l (R54). -/
abbrev Mask := BitVec 32

/-- Sparse state: pairs of key and value, keys rising, no key twice. -/
abbrev Map (α : Type) := List (Nat × α)

end Sys2Proof
end

