-- ==== Sys2Proof/Config.lean ====
section
/-! DEFINITION. The constants of this chip and the free values: what the specification leaves open. -/

namespace Sys2Proof.Config

/-- IDENT of the first state (R12). -/
def ident : Nat := 0x5CA1041104100100
/-- Dies of the package, and cores, slices and banks of a die (R13, R16). -/
def dies : Nat := 4
def coresPerDie : Nat := 64
def cores : Nat := 256
/-- Hardware queues of a die (R401). -/
def queuesPerDie : Nat := 64
/-- Group slots of a port (R171). -/
def slotsPerPort : Nat := 24
/-- Register units of a port: 192 units of 1 KiB (R171). -/
def unitsPerPort : Nat := 192
/-- Scratchpad granules of a core: 512 KiB less 512 B in granules of 512 B (R170). -/
def granules : Nat := 1023
/-- Barrier words of a core (R170). -/
def barrierWords : Nat := 64
/-- Tenant contexts (R387). -/
def contexts : Nat := 64

/-- FREE VALUE, log entry 1: a byte of memory that nothing has written (R449 gives it no content); the argument is its address. -/
opaque unwritten : Nat → BitVec 8
/-- FREE VALUE, log entry 2: does FSIN (true) or FCOS (false) of this FP32 source deliver the neighbour of larger magnitude (R44)? -/
opaque trigUp : Bool → BitVec 32 → Bool
/-- FREE VALUE, log entry 3: the value bits of a poisoned element (R47); the arguments are the counter State.fresh and the element. -/
opaque poisonBits : Nat → Nat → BitVec 32
/-- FREE VALUE, log entry 4: bits 5:0 of FLAGS after a poisoned operand (R124). -/
opaque flagsOpen : Nat → BitVec 6
/-- FREE VALUE, log entry 6: the bytes of the access unit an encoder writes (R381), and how many there are; counter, index. -/
opaque encodedByte : Nat → Nat → BitVec 8
opaque encodedSize : Nat → Nat
/-- A stage of the firmware (R467): its image, its security version, the public key and the signature that verify it, the digest of the key of
the next stage, and the measurement register that it is extended into. -/
structure FwStage where
  image : List (BitVec 8)
  version : Nat
  key : Nat × Nat
  r : Nat
  s : Nat
  nextKey : List (BitVec 8)
  mr : Nat
  deriving DecidableEq, Repr, Inhabited
/-- FREE VALUE, log entry 7: the stages that a reset finds, by the counter State.fresh; the digest and the counter fused in the package (R467). -/
opaque firmware : Nat → List FwStage
opaque fusedKey : List (BitVec 8)
opaque fusedVersion : Nat
/-- FREE VALUE, log entry 7: the versions in the report and its signature (R468). -/
opaque attestation : Nat → Nat → BitVec 8
/-- FREE VALUE, log entry 8: the high half of an inline constant in a 64-bit operand that is no integer (R87 gives only 32 bits). -/
opaque constHigh : Nat → BitVec 32

/-- FREE VALUE, log entry 9: the hash of a line's content and the set of a line in its slice (R308, R312: not architectural). -/
opaque lineHash : List (BitVec 8) → BitVec 64
opaque l2Set : Nat → Nat
/-- FREE VALUE, log entry 10: which translation is used where a cached one differs from the entry as it stands (R408); counter, address. -/
opaque useCached : Nat → Nat → Nat
/-- FREE VALUE, log entry 64: does a fetch deliver the word that a cache still holds where memory holds another (R95)? Counter, address. -/
opaque oldCode : Nat → Nat → Bool
/-- FREE VALUE, log entry 11: a byte of another package's memory or of its answer (R470). -/
opaque remoteByte : Nat → Nat → BitVec 8
/-- FREE VALUE, log entry 13: which of several things an engine does next where no order is given (R377, R399, R403); the counter. -/
opaque enginePick : Nat → Nat
/-- FREE VALUE, log entry 12: a result that the specification does not state; counter, index. -/
opaque unstated : Nat → Nat → BitVec 32
/-- FREE VALUE, log entry 40: a byte of a save image that the specification does not lay out (R186, R243); counter, index. -/
opaque imageByte : Nat → Nat → BitVec 8
/-- FREE VALUE, log entry 45: is a stopped group (error record of kind 0x0C) a fatal condition or an uncorrectable error (R415, R417)? -/
opaque stopFatal : Bool

end Sys2Proof.Config
end

