-- ==== Sys2Proof/Machine/Bits.lean ====
section
/-! DEFINITION. Bit fields, sign extension, byte order (R8) and the operations of sparse maps. -/

namespace Sys2Proof.Machine

/-- A floating value read from its bits: a NaN (signalling or not), an infinity, or a finite
`(-1)^neg * m * 2^e`, zero included. -/
inductive FVal where
  | nan (signalling : Bool)
  | inf (neg : Bool)
  | fin (neg : Bool) (m : Nat) (e : Int)
  deriving DecidableEq, Repr

/-- Bits hi down to lo of a natural number, as R9 writes `bits(x, hi, lo)`. -/
def bits (x hi lo : Nat) : Nat := (x >>> lo) % 2 ^ (hi + 1 - lo)

/-- Bit i of a natural number. -/
def bit (x i : Nat) : Bool := x.testBit i

/-- `f n`, in a form in which an evaluation finds n once. -/
def force {α : Type} (n : Nat) (f : Nat → α) : α :=
  match n with
  | 0 => f 0
  | m + 1 => f (m + 1)

/-- Put an element into a sorted list, before the first that it may stand before. -/
def insertBy {α : Type} (le : α → α → Bool) (x : α) : List α → List α
  | [] => [x]
  | y :: ys => if le x y then x :: y :: ys else y :: insertBy le x ys

/-- A list in order; elements that may stand either way keep their places. -/
def sortBy {α : Type} (le : α → α → Bool) (xs : List α) : List α := xs.foldr (insertBy le) []

/-- Numbers in ascending order. -/
def ascending (xs : List Nat) : List Nat := sortBy (fun a b => decide (a ≤ b)) xs

/-- `wrap(x, n)` of R9. -/
def wrap (x n : Nat) : Nat := x % 2 ^ n

/-- `wrap` of an integer. -/
def wrapI (x : Int) (n : Nat) : Nat := (x % (2 ^ n : Nat)).toNat

/-- `sext(x, n)`: the n-bit field x read as two's complement. -/
def sext (x n : Nat) : Int :=
  let y := x % 2 ^ n
  if 2 * y < 2 ^ n then (y : Int) else (y : Int) - (2 ^ n : Nat)

/-- The number of set bits of the low n bits. -/
def popcount (x : Nat) : Nat → Nat
  | 0 => 0
  | n + 1 => popcount x n + (if x.testBit n then 1 else 0)

/-- Leading zeros within n bits. -/
def clz (x : Nat) : Nat → Nat
  | 0 => 0
  | n + 1 => if x.testBit n then 0 else 1 + clz x n

/-- Trailing zeros, from bit i on, at most n bits. -/
def ctzFrom (x i : Nat) : Nat → Nat
  | 0 => 0
  | n + 1 => if x.testBit i then 0 else 1 + ctzFrom x (i + 1) n

/-- Trailing zeros within n bits. -/
def ctz (x n : Nat) : Nat := ctzFrom x 0 n

/-- The low n bits in reverse order. -/
def bitrev (x n : Nat) : Nat :=
  (List.range n).foldl (fun a i => if x.testBit i then a + 2 ^ (n - 1 - i) else a) 0

/-- The value of a list of bytes, first byte lowest (R8). -/
def ofBytes : List Byte → Nat
  | [] => 0
  | b :: bs => b.toNat + 256 * ofBytes bs

/-- The n bytes of a value, lowest first (R8). -/
def toBytes (x : Nat) : Nat → List Byte
  | 0 => []
  | n + 1 => BitVec.ofNat 8 x :: toBytes (x / 256) n

/-- The integer square root, by the binary digits from bit n down. -/
def isqrtFrom (x r : Nat) : Nat → Nat
  | 0 => r
  | n + 1 =>
    let c := r + 2 ^ n
    if c * c ≤ x then isqrtFrom x c n else isqrtFrom x r n

/-- floor of the square root. -/
def isqrt (x : Nat) : Nat := isqrtFrom x 0 (Nat.log2 x / 2 + 1)

/-- The value at a key of a sparse map. -/
def mapGet? {α : Type} (k : Nat) : Map α → Option α
  | [] => none
  | (j, v) :: m => if j = k then some v else mapGet? k m

/-- Set the value at a key, keeping the keys rising. -/
def mapSet {α : Type} (k : Nat) (v : α) : Map α → Map α
  | [] => [(k, v)]
  | (j, w) :: m =>
    if k < j then (k, v) :: (j, w) :: m
    else if j = k then (k, v) :: m
    else (j, w) :: mapSet k v m

/-- Remove a key. -/
def mapDel {α : Type} (k : Nat) : Map α → Map α
  | [] => []
  | (j, w) :: m => if j = k then m else (j, w) :: mapDel k m

/-- The value at a key, or the default given. -/
def mapGetD {α : Type} (k : Nat) (d : α) (m : Map α) : α := (mapGet? k m).getD d

/-- Apply a function at a key that is present. -/
def mapUpd {α : Type} (k : Nat) (f : α → α) : Map α → Map α
  | [] => []
  | (j, w) :: m => if j = k then (j, f w) :: m else (j, w) :: mapUpd k f m

/-- The least key at or above lo, below lo + n, that the map does not hold. -/
def mapFree {α : Type} (m : Map α) (lo : Nat) : Nat → Option Nat
  | 0 => none
  | n + 1 => if (mapGet? lo m).isNone then some lo else mapFree m (lo + 1) n

/-- The keys of a map rise strictly. -/
def mapSorted {α : Type} : Map α → Bool
  | [] => true
  | [_] => true
  | (j, _) :: (k, w) :: m => decide (j < k) && mapSorted ((k, w) :: m)

/-- Replace element i of a list, if there is one. -/
def listSet {α : Type} (i : Nat) (v : α) : List α → List α
  | [] => []
  | x :: xs => match i with
    | 0 => v :: xs
    | j + 1 => x :: listSet j v xs

/-- Apply a function to element i of a list, if there is one. -/
def listUpd {α : Type} (i : Nat) (f : α → α) : List α → List α
  | [] => []
  | x :: xs => match i with
    | 0 => f x :: xs
    | j + 1 => x :: listUpd j f xs

/-- Remove the first element that meets the test. -/
def removeFirst {α : Type} (p : α → Bool) : List α → List α
  | [] => []
  | x :: xs => if p x then xs else x :: removeFirst p xs

/-- Apply a function to the first element that meets the test. -/
def updFirst {α : Type} (p : α → Bool) (f : α → α) : List α → List α
  | [] => []
  | x :: xs => if p x then f x :: xs else x :: updFirst p f xs

/-- The lanes of a set, ascending. -/
def lanesOf (m : Mask) : List Nat := (List.range 32).filter fun l => m.toNat.testBit l

/-- Is lane l in the set? -/
def inMask (m : Mask) (l : Nat) : Bool := m.toNat.testBit l

/-- The set of the lanes below 32 that meet the test. -/
def maskOf (p : Nat → Bool) : Mask :=
  BitVec.ofNat 32 ((List.range 32).foldl (fun a l => if p l then a + 2 ^ l else a) 0)

end Sys2Proof.Machine
end

