-- ==== Sys2Proof/Syntax.lean ====
section
/-! DEFINITION. The syntax of the machine: operand fields, instructions, and the steps of the machine's units. -/

namespace Sys2Proof

/-- A decoded operand field of an instruction (R85 to R89). -/
inductive Fld where
  /-- The field is unused and holds 0xFF. -/
  | none
  /-- v0 to v239 (R86). -/
  | v (r : BitVec 8)
  /-- bl0 to bl3 (R86). -/
  | bl (i : BitVec 2)
  /-- Inline constant 0xF4 + i of a class V field (R87). -/
  | const (i : BitVec 3)
  /-- The lane's own index, code 0xFA. -/
  | lane
  /-- A uniform register named in the trailing word, code 0xFC (R88). -/
  | uref (r : BitVec 7)
  /-- A literal in the trailing word, code 0xFE (R88). -/
  | lit (w : Word)
  /-- Destination 0xFF of an instruction that pushes a latch. -/
  | latchOnly
  /-- s0 to s127 (R89). -/
  | s (r : BitVec 7)
  /-- sl0 to sl3 (R89). -/
  | sl (i : BitVec 2)
  /-- Constant 0x84 + i of a class U field (R89). -/
  | uconst (i : BitVec 3)
  /-- A predicate index (class P). -/
  | p (i : BitVec 3)
  /-- A shape register index (class H). -/
  | h (i : BitVec 4)
  /-- An unsigned number (class N). -/
  | n (x : BitVec 8)
  deriving DecidableEq, Repr

/-- The predicate guard of an instruction (R80, R81). -/
structure Guard where
  pred : BitVec 3
  sense : Bool
  deriving DecidableEq, Repr

/-- The fields of an instruction's words (R76, R80). -/
structure Args where
  /-- The extension word is present. -/
  long : Bool
  guard : Option Guard
  fs : BitVec 3
  /-- SUB where it is a condition code (R90, R91, the cells marked with a dagger); zero elsewhere. -/
  cond : BitVec 4
  d : Fld
  a : Fld
  b : Fld
  c : Fld
  mod : BitVec 12
  /-- OFF of class OFF24, or the immediate of class IMM16; zero elsewhere. -/
  imm : BitVec 24
  deriving DecidableEq, Repr

/-- Where an uncorrectable error is found (R179, R187, R244, R321, R330, R417). -/
inductive ErrSite where
  /-- An 8-byte word of a team's scratchpad. -/
  | scratchpad (team word : Nat)
  /-- A register element of a group: vector register, lane. -/
  | vreg (team gix reg lane : Nat)
  /-- A uniform register of a group. -/
  | ureg (team gix reg : Nat)
  /-- A named-barrier word of a team. -/
  | barrier (team b : Nat)
  /-- A cluster-barrier word. -/
  | clusterBarrier (cluster b : Nat)
  /-- A line of a core's L1. -/
  | l1 (core line : Nat)
  /-- A cell of a macro. -/
  | macroCell (team m k n : Nat)
  /-- An element of an accumulator bank. -/
  | bankElem (team b row col : Nat)
  /-- An 8-byte word of a team's turning store. -/
  | turning (team word : Nat)
  /-- A row of the row buffer: a queued pass of the matrix engine. -/
  | rowBuffer (core index : Nat)
  /-- An 8-byte word of a data entry of an L2 slice. -/
  | l2Data (slice entry word : Nat)
  /-- A tag of an L2 slice. -/
  | l2Tag (slice line : Nat)
  /-- 32-bit elements of a line of HBM. -/
  | hbm (line : Nat) (elems : Mask)
  /-- An 8-byte word of a Granary bank. -/
  | granary (bank word : Nat)
  /-- The Lantern ring or its recovery lane. -/
  | lantern
  deriving DecidableEq, Repr

/-- A host access: through BAR2 of a function, an AtomicOp to either of its BARs (R453), or a read of a function's identity on a port (R452). -/
inductive HostAccess where
  | read (fn offset bytes : Nat)
  | write (fn offset : Nat) (data : List Byte)
  | atomicOp (fn bar offset bytes : Nat)
  | identity (port fn : Nat)
  deriving DecidableEq, Repr

/-- A link that recalibrates (R465). -/
inductive LinkName where
  | pcie (port : Nat)
  | fabric (link : Nat)
  | hbm (stack : Nat)
  deriving DecidableEq, Repr

/-- The 188 instructions of the two sets (R90, R91), by the row of the opcode table. -/
inductive Op where
  | fadd | fsub | fmul | ffma | fmin | fmax | fcmp | frnd | ffrc | fclass | frcp | frsq | fsqrt
  | fexp2 | flog2 | fsin | fcos | fldexp | padd2 | pmul2 | pfma2 | pmin2 | pmax2 | pdot2 | iadd
  | iaddc | isub | isubb | imul | imulh | imad | imin | imax | iabs | and | or | xor | not | shl
  | shr | sar | rotl | bfe | bfi | popc | clz | ctz | brev | icmp | sel | mov | prmt | cvt | cvtpk
  | sxpack | sxunpk | plop | shfl | vote | matchLanes | scan | segred | vrd | pref | lds | sts
  | ats | tsrd | tswr | mma | mmdual | macrd | mvert | mprim | sample | samplel | sampleg | txq
  | pxout | discard | depthw | splatkey | conic | blend | blendStage | blendb | voxkey | rigx | ldc
  | stc | atc | stm | ld | st | atom | red | gld | gst | gop | emitc | nop | bra | bru | brv | brx
  | call | callx | ret | exit | yield | loop | loopbrk | clause | uadd | usub | umul | umulh | umad
  | uand | uor | uxor | ushl | ushr | usar | umin | umax | ucmp | usel | umov | uli | upopc | uclz
  | emr | emw | emand | uldk | srr | srw | trap | rte | brk | sleep | flags | waitc | shld | shst
  | shset | shget | fsq | barInit | barArv | barWt | barTry | barInv | dbgmSend | dbgmRecv
  | dbgmStat | dbgmFown | dbgmFmask | dbgmFpc | dbgmFinfo | dbgmJmask | tsld | mbld | mbgth | mtile
  | mwb | temit | msetup | mdone | cbarArv | cbarWt | fence | cctlPin | cctlUnpin | cctlDiscard
  | cctlClean | cctlQuery | gupd | copy | sort | qpush | qpop | launch | encsub | coll | bkset
  | bkq
  deriving DecidableEq, Repr

/-- One constructor for each row of the opcode table: the instructions, with the operands of their words,
then the steps of the machine's units, with the unit or the input that each names. -/
inductive Instr where
  /-- FADD (R136). -/
  | fadd (x : Args)
  /-- FSUB (R136). -/
  | fsub (x : Args)
  /-- FMUL (R136). -/
  | fmul (x : Args)
  /-- FFMA (R136). -/
  | ffma (x : Args)
  /-- FMIN (R137). -/
  | fmin (x : Args)
  /-- FMAX (R137). -/
  | fmax (x : Args)
  /-- FCMP (R138). -/
  | fcmp (x : Args)
  /-- FRND (R139). -/
  | frnd (x : Args)
  /-- FFRC (R140). -/
  | ffrc (x : Args)
  /-- FCLASS (R141). -/
  | fclass (x : Args)
  /-- FRCP (R142). -/
  | frcp (x : Args)
  /-- FRSQ (R142). -/
  | frsq (x : Args)
  /-- FSQRT (R142). -/
  | fsqrt (x : Args)
  /-- FEXP2 (R142). -/
  | fexp2 (x : Args)
  /-- FLOG2 (R142). -/
  | flog2 (x : Args)
  /-- FSIN (R142). -/
  | fsin (x : Args)
  /-- FCOS (R142). -/
  | fcos (x : Args)
  /-- FLDEXP (R143). -/
  | fldexp (x : Args)
  /-- PADD2 (R145). -/
  | padd2 (x : Args)
  /-- PMUL2 (R145). -/
  | pmul2 (x : Args)
  /-- PFMA2 (R145). -/
  | pfma2 (x : Args)
  /-- PMIN2 (R145). -/
  | pmin2 (x : Args)
  /-- PMAX2 (R145). -/
  | pmax2 (x : Args)
  /-- PDOT2 (R145). -/
  | pdot2 (x : Args)
  /-- IADD (R146). -/
  | iadd (x : Args)
  /-- IADDC (R147). -/
  | iaddc (x : Args)
  /-- ISUB (R146). -/
  | isub (x : Args)
  /-- ISUBB (R147). -/
  | isubb (x : Args)
  /-- IMUL (R148). -/
  | imul (x : Args)
  /-- IMULH (R148). -/
  | imulh (x : Args)
  /-- IMAD (R148). -/
  | imad (x : Args)
  /-- IMIN (R149). -/
  | imin (x : Args)
  /-- IMAX (R149). -/
  | imax (x : Args)
  /-- IABS (R149). -/
  | iabs (x : Args)
  /-- AND (R150). -/
  | and (x : Args)
  /-- OR (R150). -/
  | or (x : Args)
  /-- XOR (R150). -/
  | xor (x : Args)
  /-- NOT (R150). -/
  | not (x : Args)
  /-- SHL (R150). -/
  | shl (x : Args)
  /-- SHR (R150). -/
  | shr (x : Args)
  /-- SAR (R150). -/
  | sar (x : Args)
  /-- ROTL (R150). -/
  | rotl (x : Args)
  /-- BFE (R151). -/
  | bfe (x : Args)
  /-- BFI (R151). -/
  | bfi (x : Args)
  /-- POPC (R152). -/
  | popc (x : Args)
  /-- CLZ (R152). -/
  | clz (x : Args)
  /-- CTZ (R152). -/
  | ctz (x : Args)
  /-- BREV (R152). -/
  | brev (x : Args)
  /-- ICMP (R153). -/
  | icmp (x : Args)
  /-- SEL (R154). -/
  | sel (x : Args)
  /-- MOV (R154). -/
  | mov (x : Args)
  /-- PRMT (R155). -/
  | prmt (x : Args)
  /-- CVT (R157). -/
  | cvt (x : Args)
  /-- CVTPK (R158). -/
  | cvtpk (x : Args)
  /-- SXPACK (R159). -/
  | sxpack (x : Args)
  /-- SXUNPK (R160). -/
  | sxunpk (x : Args)
  /-- PLOP (R161). -/
  | plop (x : Args)
  /-- SHFL (R163). -/
  | shfl (x : Args)
  /-- VOTE (R164). -/
  | vote (x : Args)
  /-- MATCH (R165). -/
  | matchLanes (x : Args)
  /-- SCAN (R167). -/
  | scan (x : Args)
  /-- SEGRED (R168). -/
  | segred (x : Args)
  /-- VRD (R169). -/
  | vrd (x : Args)
  /-- PREF (R368). -/
  | pref (x : Args)
  /-- LDS (R192). -/
  | lds (x : Args)
  /-- STS (R194). -/
  | sts (x : Args)
  /-- ATS (R194). -/
  | ats (x : Args)
  /-- TSRD (R232). -/
  | tsrd (x : Args)
  /-- TSWR (R232). -/
  | tswr (x : Args)
  /-- MMA (R224). -/
  | mma (x : Args)
  /-- MMDUAL (R224). -/
  | mmdual (x : Args)
  /-- MACRD (R234). -/
  | macrd (x : Args)
  /-- MVERT (R249). -/
  | mvert (x : Args)
  /-- MPRIM (R249). -/
  | mprim (x : Args)
  /-- SAMPLE (R258). -/
  | sample (x : Args)
  /-- SAMPLEL (R258). -/
  | samplel (x : Args)
  /-- SAMPLEG (R258). -/
  | sampleg (x : Args)
  /-- TXQ (R259). -/
  | txq (x : Args)
  /-- PXOUT (R256). -/
  | pxout (x : Args)
  /-- DISCARD (R255). -/
  | discard (x : Args)
  /-- DEPTHW (R255). -/
  | depthw (x : Args)
  /-- SPLATKEY (R263). -/
  | splatkey (x : Args)
  /-- CONIC (R262). -/
  | conic (x : Args)
  /-- BLEND (R266). -/
  | blend (x : Args)
  /-- BLEND_STAGE (R264). -/
  | blendStage (x : Args)
  /-- BLENDB (R267). -/
  | blendb (x : Args)
  /-- VOXKEY (R268). -/
  | voxkey (x : Args)
  /-- RIGX (R269). -/
  | rigx (x : Args)
  /-- LDC (R288). -/
  | ldc (x : Args)
  /-- STC (R289). -/
  | stc (x : Args)
  /-- ATC (R289). -/
  | atc (x : Args)
  /-- STM (R285). -/
  | stm (x : Args)
  /-- LD (R363). -/
  | ld (x : Args)
  /-- ST (R364). -/
  | st (x : Args)
  /-- ATOM (R365). -/
  | atom (x : Args)
  /-- RED (R366). -/
  | red (x : Args)
  /-- GLD (R363). -/
  | gld (x : Args)
  /-- GST (R364). -/
  | gst (x : Args)
  /-- GOP (R365). -/
  | gop (x : Args)
  /-- EMITC (R383). -/
  | emitc (x : Args)
  /-- NOP (R115). -/
  | nop (x : Args)
  /-- BRA (R108). -/
  | bra (x : Args)
  /-- BRU (R109). -/
  | bru (x : Args)
  /-- BRV (R110). -/
  | brv (x : Args)
  /-- BRX (R111). -/
  | brx (x : Args)
  /-- CALL (R112). -/
  | call (x : Args)
  /-- CALLX (R112). -/
  | callx (x : Args)
  /-- RET (R112). -/
  | ret (x : Args)
  /-- EXIT (R114). -/
  | exit (x : Args)
  /-- YIELD (R115). -/
  | yield (x : Args)
  /-- LOOP (R116). -/
  | loop (x : Args)
  /-- LOOPBRK (R117). -/
  | loopbrk (x : Args)
  /-- CLAUSE (R118). -/
  | clause (x : Args)
  /-- UADD (R119). -/
  | uadd (x : Args)
  /-- USUB (R119). -/
  | usub (x : Args)
  /-- UMUL (R119). -/
  | umul (x : Args)
  /-- UMULH (R119). -/
  | umulh (x : Args)
  /-- UMAD (R119). -/
  | umad (x : Args)
  /-- UAND (R119). -/
  | uand (x : Args)
  /-- UOR (R119). -/
  | uor (x : Args)
  /-- UXOR (R119). -/
  | uxor (x : Args)
  /-- USHL (R119). -/
  | ushl (x : Args)
  /-- USHR (R119). -/
  | ushr (x : Args)
  /-- USAR (R119). -/
  | usar (x : Args)
  /-- UMIN (R119). -/
  | umin (x : Args)
  /-- UMAX (R119). -/
  | umax (x : Args)
  /-- UCMP (R120). -/
  | ucmp (x : Args)
  /-- USEL (R119). -/
  | usel (x : Args)
  /-- UMOV (R119). -/
  | umov (x : Args)
  /-- ULI (R119). -/
  | uli (x : Args)
  /-- UPOPC (R119). -/
  | upopc (x : Args)
  /-- UCLZ (R119). -/
  | uclz (x : Args)
  /-- EMR (R121). -/
  | emr (x : Args)
  /-- EMW (R121). -/
  | emw (x : Args)
  /-- EMAND (R121). -/
  | emand (x : Args)
  /-- ULDK (R122). -/
  | uldk (x : Args)
  /-- SRR (R123). -/
  | srr (x : Args)
  /-- SRW (R123). -/
  | srw (x : Args)
  /-- TRAP (R125). -/
  | trap (x : Args)
  /-- RTE (R125). -/
  | rte (x : Args)
  /-- BRK (R125). -/
  | brk (x : Args)
  /-- SLEEP (R126). -/
  | sleep (x : Args)
  /-- FLAGS (R124). -/
  | flags (x : Args)
  /-- WAITC (R127). -/
  | waitc (x : Args)
  /-- SHLD (R128). -/
  | shld (x : Args)
  /-- SHST (R128). -/
  | shst (x : Args)
  /-- SHSET (R129). -/
  | shset (x : Args)
  /-- SHGET (R129). -/
  | shget (x : Args)
  /-- FSQ (R130). -/
  | fsq (x : Args)
  /-- BAR_INIT (R198). -/
  | barInit (x : Args)
  /-- BAR_ARV (R199). -/
  | barArv (x : Args)
  /-- BAR_WT (R201). -/
  | barWt (x : Args)
  /-- BAR_TRY (R201). -/
  | barTry (x : Args)
  /-- BAR_INV (R202). -/
  | barInv (x : Args)
  /-- DBGM_SEND (R212). -/
  | dbgmSend (x : Args)
  /-- DBGM_RECV (R212). -/
  | dbgmRecv (x : Args)
  /-- DBGM_STAT (R212). -/
  | dbgmStat (x : Args)
  /-- DBGM_FOWN (R212). -/
  | dbgmFown (x : Args)
  /-- DBGM_FMASK (R212). -/
  | dbgmFmask (x : Args)
  /-- DBGM_FPC (R212). -/
  | dbgmFpc (x : Args)
  /-- DBGM_FINFO (R212). -/
  | dbgmFinfo (x : Args)
  /-- DBGM_JMASK (R212). -/
  | dbgmJmask (x : Args)
  /-- TSLD (R231). -/
  | tsld (x : Args)
  /-- MBLD (R227). -/
  | mbld (x : Args)
  /-- MBGTH (R229). -/
  | mbgth (x : Args)
  /-- MTILE (R241). -/
  | mtile (x : Args)
  /-- MWB (R236). -/
  | mwb (x : Args)
  /-- TEMIT (R247). -/
  | temit (x : Args)
  /-- MSETUP (R248). -/
  | msetup (x : Args)
  /-- MDONE (R250). -/
  | mdone (x : Args)
  /-- CBAR_ARV (R294). -/
  | cbarArv (x : Args)
  /-- CBAR_WT (R295). -/
  | cbarWt (x : Args)
  /-- FENCE (R346). -/
  | fence (x : Args)
  /-- CCTL_PIN (R370). -/
  | cctlPin (x : Args)
  /-- CCTL_UNPIN (R370). -/
  | cctlUnpin (x : Args)
  /-- CCTL_DISCARD (R370). -/
  | cctlDiscard (x : Args)
  /-- CCTL_CLEAN (R370). -/
  | cctlClean (x : Args)
  /-- CCTL_QUERY (R370). -/
  | cctlQuery (x : Args)
  /-- GUPD (R371). -/
  | gupd (x : Args)
  /-- COPY (R376). -/
  | copy (x : Args)
  /-- SORT (R379). -/
  | sort (x : Args)
  /-- QPUSH (R382). -/
  | qpush (x : Args)
  /-- QPOP (R382). -/
  | qpop (x : Args)
  /-- LAUNCH (R384). -/
  | launch (x : Args)
  /-- ENCSUB (R381). -/
  | encsub (x : Args)
  /-- COLL (R458). -/
  | coll (x : Args)
  /-- BKSET (R461). -/
  | bkset (x : Args)
  /-- BKQ (R463). -/
  | bkq (x : Args)
  /-- FRAGQ_QUANTUM_EXPIRY (R67): When a fragment's quantum of FRAGQ instructions is spent, the port moves to the next ready fragment. -/
  | fragqQuantumExpiry (team gix : Nat)
  /-- STARVATION_TIMEOUT (R175): A candidate unselected for 4,096 clocks is selected ahead of every class. -/
  | starvationTimeout (team gix : Nat)
  /-- SLEEP_EXPIRY (R126): A sleeping fragment becomes ready once its clocks have passed. -/
  | sleepExpiry (team gix entry : Nat)
  /-- ACCESS_RETURN (R60): A counted access returns, writes its destination and lowers its path counter in issue order. -/
  | accessReturn (team gix path : Nat)
  /-- SCRATCHPAD_ACCESS_SERVED (R178): The scratchpad performs one arrived access in passes, lanes ascending. -/
  | scratchpadAccessServed (core : Nat)
  /-- BARRIER_ARRIVAL (R181): An arrival, once its ordering waits end, is applied to the barrier word or refused. -/
  | barrierArrival (team gix entry : Nat)
  /-- CLUSTER_BARRIER_ARRIVAL (R293): A member's arrival is applied to a cluster-barrier word after its accesses are performed. -/
  | clusterBarrierArrival (team gix entry : Nat)
  /-- GROUP_RETIRE (R75): A group whose lanes have exited retires once paths 0 to 6 drain, checking poison. -/
  | groupRetire (team gix : Nat)
  /-- MATRIX_PASS (R221): A queued pass forms exact products and accumulates into one bank row. -/
  | matrixPass (core : Nat)
  /-- MACRO_TILE_LOAD (R227): A queued MBLD or MBGTH replaces a macro's tile. -/
  | macroTileLoad (core : Nat)
  /-- MWB_WRITE (R236): Converted accumulator rows are written to the turning store or scratchpad. -/
  | mwbWrite (core : Nat)
  /-- TSLD_ELEMENT_LAND (R231): A loaded window element lands in the turning store. -/
  | tsldElementLand (core pick : Nat)
  /-- TURNING_STORE_ACCESS (R233): The turning store performs one arrived access, lanes ascending. -/
  | turningStoreAccess (core : Nat)
  /-- MTILE_STEP (R239): The sequencer performs the next load or batch step of a tile sequence. -/
  | mtileStep (team gix : Nat)
  /-- MESH_GROUP_PLACEMENT (R247): A queued mesh group is placed when slots and registers free. -/
  | meshGroupPlacement (core : Nat)
  /-- PRIMITIVE_SETUP (R250): The rasteriser sets up a published slot's primitives in order. -/
  | primitiveSetup (core : Nat)
  /-- PIXEL_GROUP_CREATE (R253): Covered quads form a pixel group once a PIXG slot is free. -/
  | pixelGroupCreate (core : Nat)
  /-- BLEND_WALKER_COPY (R264): A staged splat record read from memory lands in scratchpad. -/
  | blendWalkerCopy (core pick : Nat)
  /-- ENGINE_ACCEPT (R403): An engine accepts a waiting command when it has room, lowering path 7. -/
  | engineAccept (cmd : Nat)
  /-- COPY_EXECUTE (R377): The Porter copies the window with fills and format conversion. -/
  | copyExecute (cmd : Nat)
  /-- SORT_PASS (R379): The sort engine performs one 16-bit pass, choosing the highest-class command between passes. -/
  | sortPass (die : Nat)
  /-- ENCODE_FRAME (R381): An encoder reads the frame and writes one access unit or reports it too large. -/
  | encodeFrame (cmd : Nat)
  /-- COLLECTIVE_EXECUTE (R459): The Courier pairs the n-th command across ranks and folds results in rank order. -/
  | collectiveExecute (cmd : Nat)
  /-- ENGINE_COMPLETION_WRITE (R352): Once all accesses are performed, the completion record and sequence value are written as a release. -/
  | engineCompletionWrite (cmd : Nat)
  /-- GATHER_RECORD_ARRIVAL (R399): A continuation record joins or opens a bin of the gather unit. -/
  | gatherRecordArrival (die : Nat)
  /-- GATHER_DELAY_EXPIRY (R399): A bin whose oldest record has waited GDELAY cycles makes a group. -/
  | gatherDelayExpiry (die : Nat)
  /-- QUEUE_REFILL (R402): In SPILL, a ring entry is read and placed behind the on-chip entries. -/
  | queueRefill (queue : Nat)
  /-- QCFG_WRITE (R401): Writes a queue's configuration; clearing EN discards entries, setting it zeroes counts. -/
  | qcfgWrite (queue : Nat) (value : Dword)
  /-- TSUBP_TAIL_WRITE (R388): Software's doorbell write of TAIL makes new records available to the front end. -/
  | tsubpTailWrite (ctx : Nat) (value : Dword)
  /-- LAUNCH_ACCEPT (R388): The front end reads one submitted record with its arguments and blocks. -/
  | launchAccept (ctx : Nat)
  /-- WORKING_SET_PREFETCH (R396): Fills the launch's working-set ranges into L2. -/
  | workingSetPrefetch (launch : Nat)
  /-- CLUSTER_PLACEMENT (R392): When cores free, the front end picks a launch and places or resumes a cluster. -/
  | clusterPlacement (pick : Nat)
  /-- PREEMPT_CLUSTER (R185): Drains, flushes and saves every member of a cluster and frees its resources. -/
  | preemptCluster (cluster : Nat)
  /-- BUDGET_PERIOD_RESET (R393): USED is cleared at every FECYC multiple of PERIOD. -/
  | budgetPeriodReset (ctx : Nat)
  /-- LAUNCH_COMPLETION (R391): After all groups retire and commits and flushes complete, writes the completion record and word. -/
  | launchCompletion (launch : Nat)
  /-- TASK_INPUT_COPIES_DONE (R397): The last input copy ending makes the task's grid placeable. -/
  | taskInputCopiesDone (launch : Nat)
  /-- MSIX_UNMASK (R455): Unmasking a vector with its pending bit set sends the message. -/
  | msixUnmask (fn vec : Nat)
  /-- HOME_REQUEST (R310): The home slice performs one request on a line as one atomic step. -/
  | homeRequest (slice : Nat)
  /-- L2_FILL (R313): Memory content returns and is admitted into a newly allocated tag. -/
  | l2Fill (slice line : Nat)
  /-- RECALL (R322): A home recall or invalidation reaches a core, which drops V or flushes UO. -/
  | recall (core : Nat)
  /-- RED_PARTIAL_COMBINE (R323): A RED partial arriving at the home is combined into the line. -/
  | redPartialCombine (slice : Nat)
  /-- GRANARY_BANK_OPERATION (R328): A Granary bank performs one arrived operation. -/
  | granaryBankOperation (bank : Nat)
  /-- PACKET_ROUTE (R302): A router forwards a packet on a minimal output or its fallback table. -/
  | packetRoute (packet dir : Nat)
  /-- ROUTER_TIMEOUT (R304): A head packet blocked for TO clocks fires the detector and arms the router. -/
  | routerTimeout (packet : Nat)
  /-- LANTERN_ARRIVAL (R306): The Lantern reaches a stop, which passes it or drains an armed packet. -/
  | lanternArrival (stop : Nat)
  /-- RECOVERY_PACKET_ARRIVAL (R306): A drained packet arrives in the destination's recovery buffer and is handled. -/
  | recoveryPacketArrival
  /-- L2_SCRUB (R321): Each data entry is read at least once per 2^26 clocks to scrub it. -/
  | l2Scrub (slice entry : Nat)
  /-- DEDUP_WINDOW_EXPIRY (R466): At each 2^20-clock window the slice decides adaptive admission. -/
  | dedupWindowExpiry (slice : Nat)
  /-- DVFS_PERIOD (R465): Every 17,000 front-end cycles each die sets its clocks within the power cap. -/
  | dvfsPeriod (die : Nat)
  /-- FAULT_RECORD_POST (R411): The first buffer entry for a page posts a fault record when the log has room. -/
  | faultRecordPost (die : Nat)
  /-- FRESP_RETRY (R412): Releases the buffer entries of a page to walk again. -/
  | frespRetry (die : Nat) (value : Dword)
  /-- FRESP_FATAL (R412): Ends the buffer entries of a page with the fatal translation outcome. -/
  | frespFatal (die : Nat) (value : Dword)
  /-- XINVC_WRITE (R409): Starts a translation invalidation of a range or whole context. -/
  | xinvcWrite (value : Dword)
  /-- INVALIDATION_COMPLETE (R409): BUSY clears once translations, accesses and lines are dealt with. -/
  | invalidationComplete
  /-- UNCORRECTABLE_ERROR (R179): An uncorrectable error in an array poisons data and posts an error record. -/
  | uncorrectableError (site : ErrSite)
  /-- HEALTH_PERIOD_EXPIRY (R418): Each period firmware checks units and retires those failing twice. -/
  | healthPeriodExpiry (failing : List Nat)
  /-- LINK_FAILURE (R331): A link dies, losing its packets, which are reported as poison or failures. -/
  | linkFailure (stop dir : Nat)
  /-- KCMD_LOAD (R451): Flushes a key ID's lines and installs and enables its keys. -/
  | kcmdLoad (value : Dword)
  /-- KCMD_CLEAR (R451): Flushes a key ID's lines and disables and zeroes its keys. -/
  | kcmdClear (value : Dword)
  /-- BAR2_HOST_ACCESS (R453): A host access through BAR2 is performed at its line's home. -/
  | bar2HostAccess (access : HostAccess)
  /-- DBGOWN_WRITE (R213): Writes debug ownership and empties both mailboxes. -/
  | dbgownWrite (core : Nat) (value : Dword)
  /-- DBGCTL_CLR (R213): Empties both debug mailboxes. -/
  | dbgctlClr (core : Nat)
  /-- DBGCTL_HALT (R213): Raises the debug-halt trap in every group of the owning tenant on the core. -/
  | dbgctlHalt (core : Nat)
  /-- DBGOUT_READ (R213): Reading DBGOUT removes and returns the oldest outbound word. -/
  | dbgoutRead (core : Nat)
  /-- DBGIN_WRITE (R213): Appends a word to the inbound mailbox or sets INOVF. -/
  | dbginWrite (core : Nat) (value : Dword)
  /-- TCTL_WRITE (R387): Writes a context's control; clearing EN pre-empts its clusters. -/
  | tctlWrite (ctx : Nat) (value : Dword)
  /-- DDMODE_WRITE (R317): Sets a slice's admission mode, restarting adaptive windows. -/
  | ddmodeWrite (stop : Nat) (value : Dword)
  /-- COMM_CONFIG_WRITE (R456): Writes a communicator; clearing EN ends its outstanding commands. -/
  | commConfigWrite (comm word : Nat) (value : Dword)
  /-- EXPORT_WINDOW_WRITE (R471): Writes an export window; only clearing EN acts while enabled. -/
  | exportWindowWrite (window word : Nat) (value : Dword)
  /-- BUCKET_COUNTED_WRITE (R462): A counted write performed at its home adds its bytes to an armed bucket. -/
  | bucketCountedWrite (bucket bytes : Nat)
  /-- FABRIC_LINK_UP (R469): At link-up each link learns its switch port and the package its number. -/
  | fabricLinkUp (link peer : Nat)
  /-- HOST_LINK_TRAINING (R452): A PCI Express port trains at the best rate and width. -/
  | hostLinkTraining (port width rate : Nat)
  /-- FABRIC_EXIT_SEND (R473): The exit port numbers a flow's packet and sends it on a chosen plane. -/
  | fabricExitSend (packet plane : Nat)
  /-- FABRIC_ENTRY_RELEASE (R473): The entry port releases a flow's packets in flow-number order. -/
  | fabricEntryRelease (flow : Nat)
  /-- FABRIC_ACK (R474): An acknowledgement frees packets held at the exit port. -/
  | fabricAck (flow number : Nat)
  /-- FABRIC_RESEND (R474): A packet lost on a dying link is sent again on another plane. -/
  | fabricResend (flow number plane : Nat)
  /-- RTO_EXPIRY (R478): A flow without acknowledgement for RTO cycles posts error kind 0x0A. -/
  | rtoExpiry (flow : Nat)
  /-- FDEAD_DEAD (R479): Declares a package dead, failing every outstanding and later access to it. -/
  | fdeadDead (package : Nat)
  /-- FDEAD_LIVE (R479): Revokes the dead declaration for a package. -/
  | fdeadLive (package : Nat)
  /-- PACKAGE_RESET (R467): Reset verifies firmware stages, extends measurements and initialises the package. -/
  | packageReset
  /-- ATTESTATION_REPORT (R468): Firmware signs an attestation report over a given nonce. -/
  | attestationReport (nonce : List Byte)
  /-- REGISTER_WRITE (R6): A write to a register without behaviour of its own updates its fields by access code. -/
  | registerWrite (fn offset : Nat) (value : Dword)
  /-- MINRUN_EXPIRY (R394): A resident cluster passes MINRUN cycles of residence and becomes eligible for pre-emption by a picked launch that could not be placed. -/
  | minrunExpiry (cluster : Nat)
  /-- BUDGET_SPENT (R393): A context's USED count reaches BUDGET, so its launches drop to class 0 with no deadline for ranking and pre-emption. -/
  | budgetSpent (ctx : Nat)
  /-- LINK_RECALIBRATION (R465): A PCI Express, fabric or HBM link crosses its error threshold and equalises and recalibrates, pausing an HBM stack for up to 1 us. -/
  | linkRecalibration (link : LinkName)
  deriving DecidableEq, Repr

/-- The instruction of an operation with its operands. -/
def Op.mk (o : Op) (x : Args) : Instr :=
  match o with
  | .fadd => .fadd x
  | .fsub => .fsub x
  | .fmul => .fmul x
  | .ffma => .ffma x
  | .fmin => .fmin x
  | .fmax => .fmax x
  | .fcmp => .fcmp x
  | .frnd => .frnd x
  | .ffrc => .ffrc x
  | .fclass => .fclass x
  | .frcp => .frcp x
  | .frsq => .frsq x
  | .fsqrt => .fsqrt x
  | .fexp2 => .fexp2 x
  | .flog2 => .flog2 x
  | .fsin => .fsin x
  | .fcos => .fcos x
  | .fldexp => .fldexp x
  | .padd2 => .padd2 x
  | .pmul2 => .pmul2 x
  | .pfma2 => .pfma2 x
  | .pmin2 => .pmin2 x
  | .pmax2 => .pmax2 x
  | .pdot2 => .pdot2 x
  | .iadd => .iadd x
  | .iaddc => .iaddc x
  | .isub => .isub x
  | .isubb => .isubb x
  | .imul => .imul x
  | .imulh => .imulh x
  | .imad => .imad x
  | .imin => .imin x
  | .imax => .imax x
  | .iabs => .iabs x
  | .and => .and x
  | .or => .or x
  | .xor => .xor x
  | .not => .not x
  | .shl => .shl x
  | .shr => .shr x
  | .sar => .sar x
  | .rotl => .rotl x
  | .bfe => .bfe x
  | .bfi => .bfi x
  | .popc => .popc x
  | .clz => .clz x
  | .ctz => .ctz x
  | .brev => .brev x
  | .icmp => .icmp x
  | .sel => .sel x
  | .mov => .mov x
  | .prmt => .prmt x
  | .cvt => .cvt x
  | .cvtpk => .cvtpk x
  | .sxpack => .sxpack x
  | .sxunpk => .sxunpk x
  | .plop => .plop x
  | .shfl => .shfl x
  | .vote => .vote x
  | .matchLanes => .matchLanes x
  | .scan => .scan x
  | .segred => .segred x
  | .vrd => .vrd x
  | .pref => .pref x
  | .lds => .lds x
  | .sts => .sts x
  | .ats => .ats x
  | .tsrd => .tsrd x
  | .tswr => .tswr x
  | .mma => .mma x
  | .mmdual => .mmdual x
  | .macrd => .macrd x
  | .mvert => .mvert x
  | .mprim => .mprim x
  | .sample => .sample x
  | .samplel => .samplel x
  | .sampleg => .sampleg x
  | .txq => .txq x
  | .pxout => .pxout x
  | .discard => .discard x
  | .depthw => .depthw x
  | .splatkey => .splatkey x
  | .conic => .conic x
  | .blend => .blend x
  | .blendStage => .blendStage x
  | .blendb => .blendb x
  | .voxkey => .voxkey x
  | .rigx => .rigx x
  | .ldc => .ldc x
  | .stc => .stc x
  | .atc => .atc x
  | .stm => .stm x
  | .ld => .ld x
  | .st => .st x
  | .atom => .atom x
  | .red => .red x
  | .gld => .gld x
  | .gst => .gst x
  | .gop => .gop x
  | .emitc => .emitc x
  | .nop => .nop x
  | .bra => .bra x
  | .bru => .bru x
  | .brv => .brv x
  | .brx => .brx x
  | .call => .call x
  | .callx => .callx x
  | .ret => .ret x
  | .exit => .exit x
  | .yield => .yield x
  | .loop => .loop x
  | .loopbrk => .loopbrk x
  | .clause => .clause x
  | .uadd => .uadd x
  | .usub => .usub x
  | .umul => .umul x
  | .umulh => .umulh x
  | .umad => .umad x
  | .uand => .uand x
  | .uor => .uor x
  | .uxor => .uxor x
  | .ushl => .ushl x
  | .ushr => .ushr x
  | .usar => .usar x
  | .umin => .umin x
  | .umax => .umax x
  | .ucmp => .ucmp x
  | .usel => .usel x
  | .umov => .umov x
  | .uli => .uli x
  | .upopc => .upopc x
  | .uclz => .uclz x
  | .emr => .emr x
  | .emw => .emw x
  | .emand => .emand x
  | .uldk => .uldk x
  | .srr => .srr x
  | .srw => .srw x
  | .trap => .trap x
  | .rte => .rte x
  | .brk => .brk x
  | .sleep => .sleep x
  | .flags => .flags x
  | .waitc => .waitc x
  | .shld => .shld x
  | .shst => .shst x
  | .shset => .shset x
  | .shget => .shget x
  | .fsq => .fsq x
  | .barInit => .barInit x
  | .barArv => .barArv x
  | .barWt => .barWt x
  | .barTry => .barTry x
  | .barInv => .barInv x
  | .dbgmSend => .dbgmSend x
  | .dbgmRecv => .dbgmRecv x
  | .dbgmStat => .dbgmStat x
  | .dbgmFown => .dbgmFown x
  | .dbgmFmask => .dbgmFmask x
  | .dbgmFpc => .dbgmFpc x
  | .dbgmFinfo => .dbgmFinfo x
  | .dbgmJmask => .dbgmJmask x
  | .tsld => .tsld x
  | .mbld => .mbld x
  | .mbgth => .mbgth x
  | .mtile => .mtile x
  | .mwb => .mwb x
  | .temit => .temit x
  | .msetup => .msetup x
  | .mdone => .mdone x
  | .cbarArv => .cbarArv x
  | .cbarWt => .cbarWt x
  | .fence => .fence x
  | .cctlPin => .cctlPin x
  | .cctlUnpin => .cctlUnpin x
  | .cctlDiscard => .cctlDiscard x
  | .cctlClean => .cctlClean x
  | .cctlQuery => .cctlQuery x
  | .gupd => .gupd x
  | .copy => .copy x
  | .sort => .sort x
  | .qpush => .qpush x
  | .qpop => .qpop x
  | .launch => .launch x
  | .encsub => .encsub x
  | .coll => .coll x
  | .bkset => .bkset x
  | .bkq => .bkq x

/-- The operation and the operands of an instruction; none for a step of a unit. -/
def Instr.split (i : Instr) : Option (Op × Args) :=
  match i with
  | .fadd x => some (.fadd, x)
  | .fsub x => some (.fsub, x)
  | .fmul x => some (.fmul, x)
  | .ffma x => some (.ffma, x)
  | .fmin x => some (.fmin, x)
  | .fmax x => some (.fmax, x)
  | .fcmp x => some (.fcmp, x)
  | .frnd x => some (.frnd, x)
  | .ffrc x => some (.ffrc, x)
  | .fclass x => some (.fclass, x)
  | .frcp x => some (.frcp, x)
  | .frsq x => some (.frsq, x)
  | .fsqrt x => some (.fsqrt, x)
  | .fexp2 x => some (.fexp2, x)
  | .flog2 x => some (.flog2, x)
  | .fsin x => some (.fsin, x)
  | .fcos x => some (.fcos, x)
  | .fldexp x => some (.fldexp, x)
  | .padd2 x => some (.padd2, x)
  | .pmul2 x => some (.pmul2, x)
  | .pfma2 x => some (.pfma2, x)
  | .pmin2 x => some (.pmin2, x)
  | .pmax2 x => some (.pmax2, x)
  | .pdot2 x => some (.pdot2, x)
  | .iadd x => some (.iadd, x)
  | .iaddc x => some (.iaddc, x)
  | .isub x => some (.isub, x)
  | .isubb x => some (.isubb, x)
  | .imul x => some (.imul, x)
  | .imulh x => some (.imulh, x)
  | .imad x => some (.imad, x)
  | .imin x => some (.imin, x)
  | .imax x => some (.imax, x)
  | .iabs x => some (.iabs, x)
  | .and x => some (.and, x)
  | .or x => some (.or, x)
  | .xor x => some (.xor, x)
  | .not x => some (.not, x)
  | .shl x => some (.shl, x)
  | .shr x => some (.shr, x)
  | .sar x => some (.sar, x)
  | .rotl x => some (.rotl, x)
  | .bfe x => some (.bfe, x)
  | .bfi x => some (.bfi, x)
  | .popc x => some (.popc, x)
  | .clz x => some (.clz, x)
  | .ctz x => some (.ctz, x)
  | .brev x => some (.brev, x)
  | .icmp x => some (.icmp, x)
  | .sel x => some (.sel, x)
  | .mov x => some (.mov, x)
  | .prmt x => some (.prmt, x)
  | .cvt x => some (.cvt, x)
  | .cvtpk x => some (.cvtpk, x)
  | .sxpack x => some (.sxpack, x)
  | .sxunpk x => some (.sxunpk, x)
  | .plop x => some (.plop, x)
  | .shfl x => some (.shfl, x)
  | .vote x => some (.vote, x)
  | .matchLanes x => some (.matchLanes, x)
  | .scan x => some (.scan, x)
  | .segred x => some (.segred, x)
  | .vrd x => some (.vrd, x)
  | .pref x => some (.pref, x)
  | .lds x => some (.lds, x)
  | .sts x => some (.sts, x)
  | .ats x => some (.ats, x)
  | .tsrd x => some (.tsrd, x)
  | .tswr x => some (.tswr, x)
  | .mma x => some (.mma, x)
  | .mmdual x => some (.mmdual, x)
  | .macrd x => some (.macrd, x)
  | .mvert x => some (.mvert, x)
  | .mprim x => some (.mprim, x)
  | .sample x => some (.sample, x)
  | .samplel x => some (.samplel, x)
  | .sampleg x => some (.sampleg, x)
  | .txq x => some (.txq, x)
  | .pxout x => some (.pxout, x)
  | .discard x => some (.discard, x)
  | .depthw x => some (.depthw, x)
  | .splatkey x => some (.splatkey, x)
  | .conic x => some (.conic, x)
  | .blend x => some (.blend, x)
  | .blendStage x => some (.blendStage, x)
  | .blendb x => some (.blendb, x)
  | .voxkey x => some (.voxkey, x)
  | .rigx x => some (.rigx, x)
  | .ldc x => some (.ldc, x)
  | .stc x => some (.stc, x)
  | .atc x => some (.atc, x)
  | .stm x => some (.stm, x)
  | .ld x => some (.ld, x)
  | .st x => some (.st, x)
  | .atom x => some (.atom, x)
  | .red x => some (.red, x)
  | .gld x => some (.gld, x)
  | .gst x => some (.gst, x)
  | .gop x => some (.gop, x)
  | .emitc x => some (.emitc, x)
  | .nop x => some (.nop, x)
  | .bra x => some (.bra, x)
  | .bru x => some (.bru, x)
  | .brv x => some (.brv, x)
  | .brx x => some (.brx, x)
  | .call x => some (.call, x)
  | .callx x => some (.callx, x)
  | .ret x => some (.ret, x)
  | .exit x => some (.exit, x)
  | .yield x => some (.yield, x)
  | .loop x => some (.loop, x)
  | .loopbrk x => some (.loopbrk, x)
  | .clause x => some (.clause, x)
  | .uadd x => some (.uadd, x)
  | .usub x => some (.usub, x)
  | .umul x => some (.umul, x)
  | .umulh x => some (.umulh, x)
  | .umad x => some (.umad, x)
  | .uand x => some (.uand, x)
  | .uor x => some (.uor, x)
  | .uxor x => some (.uxor, x)
  | .ushl x => some (.ushl, x)
  | .ushr x => some (.ushr, x)
  | .usar x => some (.usar, x)
  | .umin x => some (.umin, x)
  | .umax x => some (.umax, x)
  | .ucmp x => some (.ucmp, x)
  | .usel x => some (.usel, x)
  | .umov x => some (.umov, x)
  | .uli x => some (.uli, x)
  | .upopc x => some (.upopc, x)
  | .uclz x => some (.uclz, x)
  | .emr x => some (.emr, x)
  | .emw x => some (.emw, x)
  | .emand x => some (.emand, x)
  | .uldk x => some (.uldk, x)
  | .srr x => some (.srr, x)
  | .srw x => some (.srw, x)
  | .trap x => some (.trap, x)
  | .rte x => some (.rte, x)
  | .brk x => some (.brk, x)
  | .sleep x => some (.sleep, x)
  | .flags x => some (.flags, x)
  | .waitc x => some (.waitc, x)
  | .shld x => some (.shld, x)
  | .shst x => some (.shst, x)
  | .shset x => some (.shset, x)
  | .shget x => some (.shget, x)
  | .fsq x => some (.fsq, x)
  | .barInit x => some (.barInit, x)
  | .barArv x => some (.barArv, x)
  | .barWt x => some (.barWt, x)
  | .barTry x => some (.barTry, x)
  | .barInv x => some (.barInv, x)
  | .dbgmSend x => some (.dbgmSend, x)
  | .dbgmRecv x => some (.dbgmRecv, x)
  | .dbgmStat x => some (.dbgmStat, x)
  | .dbgmFown x => some (.dbgmFown, x)
  | .dbgmFmask x => some (.dbgmFmask, x)
  | .dbgmFpc x => some (.dbgmFpc, x)
  | .dbgmFinfo x => some (.dbgmFinfo, x)
  | .dbgmJmask x => some (.dbgmJmask, x)
  | .tsld x => some (.tsld, x)
  | .mbld x => some (.mbld, x)
  | .mbgth x => some (.mbgth, x)
  | .mtile x => some (.mtile, x)
  | .mwb x => some (.mwb, x)
  | .temit x => some (.temit, x)
  | .msetup x => some (.msetup, x)
  | .mdone x => some (.mdone, x)
  | .cbarArv x => some (.cbarArv, x)
  | .cbarWt x => some (.cbarWt, x)
  | .fence x => some (.fence, x)
  | .cctlPin x => some (.cctlPin, x)
  | .cctlUnpin x => some (.cctlUnpin, x)
  | .cctlDiscard x => some (.cctlDiscard, x)
  | .cctlClean x => some (.cctlClean, x)
  | .cctlQuery x => some (.cctlQuery, x)
  | .gupd x => some (.gupd, x)
  | .copy x => some (.copy, x)
  | .sort x => some (.sort, x)
  | .qpush x => some (.qpush, x)
  | .qpop x => some (.qpop, x)
  | .launch x => some (.launch, x)
  | .encsub x => some (.encsub, x)
  | .coll x => some (.coll, x)
  | .bkset x => some (.bkset, x)
  | .bkq x => some (.bkq, x)
  | .fragqQuantumExpiry _ _ => none
  | .starvationTimeout _ _ => none
  | .sleepExpiry _ _ _ => none
  | .accessReturn _ _ _ => none
  | .scratchpadAccessServed _ => none
  | .barrierArrival _ _ _ => none
  | .clusterBarrierArrival _ _ _ => none
  | .groupRetire _ _ => none
  | .matrixPass _ => none
  | .macroTileLoad _ => none
  | .mwbWrite _ => none
  | .tsldElementLand _ _ => none
  | .turningStoreAccess _ => none
  | .mtileStep _ _ => none
  | .meshGroupPlacement _ => none
  | .primitiveSetup _ => none
  | .pixelGroupCreate _ => none
  | .blendWalkerCopy _ _ => none
  | .engineAccept _ => none
  | .copyExecute _ => none
  | .sortPass _ => none
  | .encodeFrame _ => none
  | .collectiveExecute _ => none
  | .engineCompletionWrite _ => none
  | .gatherRecordArrival _ => none
  | .gatherDelayExpiry _ => none
  | .queueRefill _ => none
  | .qcfgWrite _ _ => none
  | .tsubpTailWrite _ _ => none
  | .launchAccept _ => none
  | .workingSetPrefetch _ => none
  | .clusterPlacement _ => none
  | .preemptCluster _ => none
  | .budgetPeriodReset _ => none
  | .launchCompletion _ => none
  | .taskInputCopiesDone _ => none
  | .msixUnmask _ _ => none
  | .homeRequest _ => none
  | .l2Fill _ _ => none
  | .recall _ => none
  | .redPartialCombine _ => none
  | .granaryBankOperation _ => none
  | .packetRoute _ _ => none
  | .routerTimeout _ => none
  | .lanternArrival _ => none
  | .recoveryPacketArrival => none
  | .l2Scrub _ _ => none
  | .dedupWindowExpiry _ => none
  | .dvfsPeriod _ => none
  | .faultRecordPost _ => none
  | .frespRetry _ _ => none
  | .frespFatal _ _ => none
  | .xinvcWrite _ => none
  | .invalidationComplete => none
  | .uncorrectableError _ => none
  | .healthPeriodExpiry _ => none
  | .linkFailure _ _ => none
  | .kcmdLoad _ => none
  | .kcmdClear _ => none
  | .bar2HostAccess _ => none
  | .dbgownWrite _ _ => none
  | .dbgctlClr _ => none
  | .dbgctlHalt _ => none
  | .dbgoutRead _ => none
  | .dbginWrite _ _ => none
  | .tctlWrite _ _ => none
  | .ddmodeWrite _ _ => none
  | .commConfigWrite _ _ _ => none
  | .exportWindowWrite _ _ _ => none
  | .bucketCountedWrite _ _ => none
  | .fabricLinkUp _ _ => none
  | .hostLinkTraining _ _ _ => none
  | .fabricExitSend _ _ => none
  | .fabricEntryRelease _ => none
  | .fabricAck _ _ => none
  | .fabricResend _ _ _ => none
  | .rtoExpiry _ => none
  | .fdeadDead _ => none
  | .fdeadLive _ => none
  | .packageReset => none
  | .attestationReport _ => none
  | .registerWrite _ _ _ => none
  | .minrunExpiry _ => none
  | .budgetSpent _ => none
  | .linkRecalibration _ => none

end Sys2Proof
end

