-- ==== Sys2Proof/Decode.lean ====
section
/-! DEFINITION. Decoding of instruction words (R76 to R95) and the encoder that inverts it. -/

namespace Sys2Proof

open Sys2Proof.Machine (bits bit)

/-- How rows that share set, opcode and SUB are told apart, and where SUB is a condition. -/
inductive Sel where
  | plain
  /-- SUB is a condition below the limit (the cells marked with a dagger in R90 and R91). -/
  | onCond (limit : Nat)
  /-- The B field names the mode (R212). -/
  | onB (mode : Nat)
  /-- OPX names the operation (R370). -/
  | onOpx (opx : Nat)
  /-- MOD bit 11 tells the two forms of BLEND apart (R270). -/
  | onMod11 (one : Bool)
  deriving DecidableEq, Repr

/-- The opcode of an operation: set (true: uniform), major opcode and SUB. -/
structure OpCode where
  uniform : Bool
  op : Nat
  sub : Nat
  sel : Sel
  deriving DecidableEq, Repr

/-- The place of each operation in the opcode maps of R90 and R91. -/
def Op.code (o : Op) : OpCode :=
  match o with
  | .fadd => ⟨false, 0x00, 0, .plain⟩
  | .fsub => ⟨false, 0x01, 0, .plain⟩
  | .fmul => ⟨false, 0x02, 0, .plain⟩
  | .ffma => ⟨false, 0x03, 0, .plain⟩
  | .fmin => ⟨false, 0x04, 0, .plain⟩
  | .fmax => ⟨false, 0x04, 1, .plain⟩
  | .fcmp => ⟨false, 0x05, 0, .onCond 8⟩
  | .frnd => ⟨false, 0x06, 0, .plain⟩
  | .ffrc => ⟨false, 0x06, 1, .plain⟩
  | .fclass => ⟨false, 0x06, 2, .plain⟩
  | .frcp => ⟨false, 0x07, 0, .plain⟩
  | .frsq => ⟨false, 0x07, 1, .plain⟩
  | .fsqrt => ⟨false, 0x07, 2, .plain⟩
  | .fexp2 => ⟨false, 0x07, 3, .plain⟩
  | .flog2 => ⟨false, 0x07, 4, .plain⟩
  | .fsin => ⟨false, 0x07, 5, .plain⟩
  | .fcos => ⟨false, 0x07, 6, .plain⟩
  | .fldexp => ⟨false, 0x08, 0, .plain⟩
  | .padd2 => ⟨false, 0x09, 0, .plain⟩
  | .pmul2 => ⟨false, 0x09, 1, .plain⟩
  | .pfma2 => ⟨false, 0x09, 2, .plain⟩
  | .pmin2 => ⟨false, 0x09, 3, .plain⟩
  | .pmax2 => ⟨false, 0x09, 4, .plain⟩
  | .pdot2 => ⟨false, 0x09, 5, .plain⟩
  | .iadd => ⟨false, 0x0A, 0, .plain⟩
  | .iaddc => ⟨false, 0x0A, 1, .plain⟩
  | .isub => ⟨false, 0x0A, 2, .plain⟩
  | .isubb => ⟨false, 0x0A, 3, .plain⟩
  | .imul => ⟨false, 0x0B, 0, .plain⟩
  | .imulh => ⟨false, 0x0B, 1, .plain⟩
  | .imad => ⟨false, 0x0B, 2, .plain⟩
  | .imin => ⟨false, 0x0C, 0, .plain⟩
  | .imax => ⟨false, 0x0C, 1, .plain⟩
  | .iabs => ⟨false, 0x0C, 2, .plain⟩
  | .and => ⟨false, 0x0D, 0, .plain⟩
  | .or => ⟨false, 0x0D, 1, .plain⟩
  | .xor => ⟨false, 0x0D, 2, .plain⟩
  | .not => ⟨false, 0x0D, 3, .plain⟩
  | .shl => ⟨false, 0x0E, 0, .plain⟩
  | .shr => ⟨false, 0x0E, 1, .plain⟩
  | .sar => ⟨false, 0x0E, 2, .plain⟩
  | .rotl => ⟨false, 0x0E, 3, .plain⟩
  | .bfe => ⟨false, 0x0F, 0, .plain⟩
  | .bfi => ⟨false, 0x0F, 1, .plain⟩
  | .popc => ⟨false, 0x10, 0, .plain⟩
  | .clz => ⟨false, 0x10, 1, .plain⟩
  | .ctz => ⟨false, 0x10, 2, .plain⟩
  | .brev => ⟨false, 0x10, 3, .plain⟩
  | .icmp => ⟨false, 0x11, 0, .onCond 10⟩
  | .sel => ⟨false, 0x12, 0, .plain⟩
  | .mov => ⟨false, 0x13, 0, .plain⟩
  | .prmt => ⟨false, 0x14, 0, .plain⟩
  | .cvt => ⟨false, 0x15, 0, .plain⟩
  | .cvtpk => ⟨false, 0x16, 0, .plain⟩
  | .sxpack => ⟨false, 0x17, 0, .plain⟩
  | .sxunpk => ⟨false, 0x17, 1, .plain⟩
  | .plop => ⟨false, 0x18, 0, .plain⟩
  | .shfl => ⟨false, 0x19, 0, .plain⟩
  | .vote => ⟨false, 0x1A, 0, .plain⟩
  | .matchLanes => ⟨false, 0x1B, 0, .plain⟩
  | .scan => ⟨false, 0x1C, 0, .plain⟩
  | .segred => ⟨false, 0x1D, 0, .plain⟩
  | .vrd => ⟨false, 0x1E, 0, .plain⟩
  | .pref => ⟨false, 0x1F, 0, .plain⟩
  | .lds => ⟨false, 0x20, 0, .plain⟩
  | .sts => ⟨false, 0x21, 0, .plain⟩
  | .ats => ⟨false, 0x22, 0, .plain⟩
  | .tsrd => ⟨false, 0x23, 0, .plain⟩
  | .tswr => ⟨false, 0x24, 0, .plain⟩
  | .mma => ⟨false, 0x25, 0, .plain⟩
  | .mmdual => ⟨false, 0x26, 0, .plain⟩
  | .macrd => ⟨false, 0x27, 0, .plain⟩
  | .mvert => ⟨false, 0x28, 0, .plain⟩
  | .mprim => ⟨false, 0x29, 0, .plain⟩
  | .sample => ⟨false, 0x2A, 0, .plain⟩
  | .samplel => ⟨false, 0x2A, 1, .plain⟩
  | .sampleg => ⟨false, 0x2A, 2, .plain⟩
  | .txq => ⟨false, 0x2A, 3, .plain⟩
  | .pxout => ⟨false, 0x2B, 0, .plain⟩
  | .discard => ⟨false, 0x2C, 0, .plain⟩
  | .depthw => ⟨false, 0x2C, 1, .plain⟩
  | .splatkey => ⟨false, 0x2E, 0, .plain⟩
  | .conic => ⟨false, 0x2F, 0, .plain⟩
  | .blend => ⟨false, 0x30, 0, .onMod11 false⟩
  | .blendStage => ⟨false, 0x30, 0, .onMod11 true⟩
  | .blendb => ⟨false, 0x31, 0, .plain⟩
  | .voxkey => ⟨false, 0x32, 0, .plain⟩
  | .rigx => ⟨false, 0x33, 0, .plain⟩
  | .ldc => ⟨false, 0x34, 0, .plain⟩
  | .stc => ⟨false, 0x35, 0, .plain⟩
  | .atc => ⟨false, 0x36, 0, .plain⟩
  | .stm => ⟨false, 0x37, 0, .plain⟩
  | .ld => ⟨false, 0x38, 0, .plain⟩
  | .st => ⟨false, 0x39, 0, .plain⟩
  | .atom => ⟨false, 0x3A, 0, .plain⟩
  | .red => ⟨false, 0x3B, 0, .plain⟩
  | .gld => ⟨false, 0x3C, 0, .plain⟩
  | .gst => ⟨false, 0x3D, 0, .plain⟩
  | .gop => ⟨false, 0x3E, 0, .plain⟩
  | .emitc => ⟨false, 0x3F, 0, .plain⟩
  | .nop => ⟨true, 0x00, 0, .plain⟩
  | .bra => ⟨true, 0x01, 0, .plain⟩
  | .bru => ⟨true, 0x02, 0, .plain⟩
  | .brv => ⟨true, 0x03, 0, .plain⟩
  | .brx => ⟨true, 0x04, 0, .plain⟩
  | .call => ⟨true, 0x05, 0, .plain⟩
  | .callx => ⟨true, 0x06, 0, .plain⟩
  | .ret => ⟨true, 0x07, 0, .plain⟩
  | .exit => ⟨true, 0x08, 0, .plain⟩
  | .yield => ⟨true, 0x09, 0, .plain⟩
  | .loop => ⟨true, 0x0A, 0, .plain⟩
  | .loopbrk => ⟨true, 0x0B, 0, .plain⟩
  | .clause => ⟨true, 0x0C, 0, .plain⟩
  | .uadd => ⟨true, 0x0D, 0, .plain⟩
  | .usub => ⟨true, 0x0D, 1, .plain⟩
  | .umul => ⟨true, 0x0E, 0, .plain⟩
  | .umulh => ⟨true, 0x0E, 1, .plain⟩
  | .umad => ⟨true, 0x0E, 2, .plain⟩
  | .uand => ⟨true, 0x0F, 0, .plain⟩
  | .uor => ⟨true, 0x0F, 1, .plain⟩
  | .uxor => ⟨true, 0x0F, 2, .plain⟩
  | .ushl => ⟨true, 0x10, 0, .plain⟩
  | .ushr => ⟨true, 0x10, 1, .plain⟩
  | .usar => ⟨true, 0x10, 2, .plain⟩
  | .umin => ⟨true, 0x11, 0, .plain⟩
  | .umax => ⟨true, 0x11, 1, .plain⟩
  | .ucmp => ⟨true, 0x12, 0, .onCond 10⟩
  | .usel => ⟨true, 0x13, 0, .plain⟩
  | .umov => ⟨true, 0x14, 0, .plain⟩
  | .uli => ⟨true, 0x15, 0, .plain⟩
  | .upopc => ⟨true, 0x16, 0, .plain⟩
  | .uclz => ⟨true, 0x16, 1, .plain⟩
  | .emr => ⟨true, 0x17, 0, .plain⟩
  | .emw => ⟨true, 0x17, 1, .plain⟩
  | .emand => ⟨true, 0x17, 2, .plain⟩
  | .uldk => ⟨true, 0x18, 0, .plain⟩
  | .srr => ⟨true, 0x19, 0, .plain⟩
  | .srw => ⟨true, 0x1A, 0, .plain⟩
  | .trap => ⟨true, 0x1B, 0, .plain⟩
  | .rte => ⟨true, 0x1C, 0, .plain⟩
  | .brk => ⟨true, 0x1D, 0, .plain⟩
  | .sleep => ⟨true, 0x1E, 0, .plain⟩
  | .flags => ⟨true, 0x1F, 0, .plain⟩
  | .waitc => ⟨true, 0x20, 0, .plain⟩
  | .shld => ⟨true, 0x21, 0, .plain⟩
  | .shst => ⟨true, 0x21, 1, .plain⟩
  | .shset => ⟨true, 0x21, 2, .plain⟩
  | .shget => ⟨true, 0x21, 3, .plain⟩
  | .fsq => ⟨true, 0x22, 0, .plain⟩
  | .barInit => ⟨true, 0x23, 0, .plain⟩
  | .barArv => ⟨true, 0x23, 1, .plain⟩
  | .barWt => ⟨true, 0x23, 2, .plain⟩
  | .barTry => ⟨true, 0x23, 3, .plain⟩
  | .barInv => ⟨true, 0x23, 4, .plain⟩
  | .dbgmSend => ⟨true, 0x24, 0, .onB 0⟩
  | .dbgmRecv => ⟨true, 0x24, 0, .onB 1⟩
  | .dbgmStat => ⟨true, 0x24, 0, .onB 2⟩
  | .dbgmFown => ⟨true, 0x24, 0, .onB 3⟩
  | .dbgmFmask => ⟨true, 0x24, 0, .onB 4⟩
  | .dbgmFpc => ⟨true, 0x24, 0, .onB 5⟩
  | .dbgmFinfo => ⟨true, 0x24, 0, .onB 6⟩
  | .dbgmJmask => ⟨true, 0x24, 0, .onB 7⟩
  | .tsld => ⟨true, 0x25, 0, .plain⟩
  | .mbld => ⟨true, 0x26, 0, .plain⟩
  | .mbgth => ⟨true, 0x27, 0, .plain⟩
  | .mtile => ⟨true, 0x28, 0, .plain⟩
  | .mwb => ⟨true, 0x29, 0, .plain⟩
  | .temit => ⟨true, 0x2A, 0, .plain⟩
  | .msetup => ⟨true, 0x2B, 0, .plain⟩
  | .mdone => ⟨true, 0x2C, 0, .plain⟩
  | .cbarArv => ⟨true, 0x2D, 0, .plain⟩
  | .cbarWt => ⟨true, 0x2D, 1, .plain⟩
  | .fence => ⟨true, 0x2E, 0, .plain⟩
  | .cctlPin => ⟨true, 0x2F, 0, .onOpx 0⟩
  | .cctlUnpin => ⟨true, 0x2F, 0, .onOpx 1⟩
  | .cctlDiscard => ⟨true, 0x2F, 0, .onOpx 2⟩
  | .cctlClean => ⟨true, 0x2F, 0, .onOpx 3⟩
  | .cctlQuery => ⟨true, 0x2F, 0, .onOpx 4⟩
  | .gupd => ⟨true, 0x30, 0, .plain⟩
  | .copy => ⟨true, 0x31, 0, .plain⟩
  | .sort => ⟨true, 0x32, 0, .plain⟩
  | .qpush => ⟨true, 0x33, 0, .plain⟩
  | .qpop => ⟨true, 0x33, 1, .plain⟩
  | .launch => ⟨true, 0x34, 0, .plain⟩
  | .encsub => ⟨true, 0x35, 0, .plain⟩
  | .coll => ⟨true, 0x36, 0, .plain⟩
  | .bkset => ⟨true, 0x37, 0, .plain⟩
  | .bkq => ⟨true, 0x38, 0, .plain⟩

/-- Lane arithmetic operations, in the order of the opcode table. -/
def Op.part0 : List Op :=
  [.fadd, .fsub, .fmul, .ffma, .fmin, .fmax, .fcmp, .frnd, .ffrc, .fclass, .frcp, .frsq, .fsqrt, .fexp2, .flog2, .fsin, .fcos, .fldexp, .padd2, .pmul2, .pfma2, .pmin2, .pmax2, .pdot2, .iadd, .iaddc, .isub, .isubb, .imul, .imulh, .imad, .imin]

/-- Integer, comparison and cross-lane operations, in the order of the opcode table. -/
def Op.part1 : List Op :=
  [.imax, .iabs, .and, .or, .xor, .not, .shl, .shr, .sar, .rotl, .bfe, .bfi, .popc, .clz, .ctz, .brev, .icmp, .sel, .mov, .prmt, .cvt, .cvtpk, .sxpack, .sxunpk, .plop, .shfl, .vote, .matchLanes, .scan, .segred, .vrd, .pref]

/-- Lane access, matrix and render operations, in the order of the opcode table. -/
def Op.part2 : List Op :=
  [.lds, .sts, .ats, .tsrd, .tswr, .mma, .mmdual, .macrd, .mvert, .mprim, .sample, .samplel, .sampleg, .txq, .pxout, .discard, .depthw, .splatkey, .conic, .blend, .blendStage, .blendb, .voxkey, .rigx, .ldc, .stc, .atc, .stm, .ld, .st, .atom, .red]

/-- Die access and control operations, in the order of the opcode table. -/
def Op.part3 : List Op :=
  [.gld, .gst, .gop, .emitc, .nop, .bra, .bru, .brv, .brx, .call, .callx, .ret, .exit, .yield, .loop, .loopbrk, .clause, .uadd, .usub, .umul, .umulh, .umad, .uand, .uor, .uxor, .ushl, .ushr, .usar, .umin, .umax, .ucmp, .usel]

/-- Uniform and group operations, in the order of the opcode table. -/
def Op.part4 : List Op :=
  [.umov, .uli, .upopc, .uclz, .emr, .emw, .emand, .uldk, .srr, .srw, .trap, .rte, .brk, .sleep, .flags, .waitc, .shld, .shst, .shset, .shget, .fsq, .barInit, .barArv, .barWt, .barTry, .barInv, .dbgmSend, .dbgmRecv, .dbgmStat, .dbgmFown, .dbgmFmask, .dbgmFpc]

/-- Matrix, barrier, fence and engine operations, in the order of the opcode table. -/
def Op.part5 : List Op :=
  [.dbgmFinfo, .dbgmJmask, .tsld, .mbld, .mbgth, .mtile, .mwb, .temit, .msetup, .mdone, .cbarArv, .cbarWt, .fence, .cctlPin, .cctlUnpin, .cctlDiscard, .cctlClean, .cctlQuery, .gupd, .copy, .sort, .qpush, .qpop, .launch, .encsub, .coll, .bkset, .bkq]

/-- Every operation, in the order of the opcode table. -/
def Op.all : List Op := Op.part0 ++ Op.part1 ++ Op.part2 ++ Op.part3 ++ Op.part4 ++ Op.part5

/-- The fields of the words before they are checked. -/
structure Raw where
  d : Nat
  a : Nat
  b : Nat
  c : Nat
  mod : Nat
  deriving DecidableEq, Repr

/-- The four layout classes of R79. -/
inductive Layout where
  | dab | off24 | imm16 | none
  deriving DecidableEq, Repr

/-- The formats of R59. -/
inductive Fmt where
  | fp32 | fp16 | bf16 | e4m3 | e5m2 | int8 | uint8 | int16 | uint16 | int32 | uint32 | int64 | uint64
  | sx7 | sx4 | sx2 | sx4x | sx2x
  deriving DecidableEq, Repr

/-- The format of a code of R59; none for a reserved code. -/
def Fmt.ofCode (n : Nat) : Option Fmt :=
  match n with
  | 0 => some .fp32 | 1 => some .fp16 | 2 => some .bf16 | 3 => some .e4m3 | 4 => some .e5m2
  | 5 => some .int8 | 6 => some .uint8 | 7 => some .int16 | 8 => some .uint16 | 9 => some .int32
  | 10 => some .uint32 | 11 => some .int64 | 12 => some .uint64 | 13 => some .sx7 | 14 => some .sx4
  | 15 => some .sx2 | 16 => some .sx4x | 17 => some .sx2x
  | _ => none

/-- The code of a format (R59). -/
def Fmt.code (f : Fmt) : Nat :=
  match f with
  | .fp32 => 0 | .fp16 => 1 | .bf16 => 2 | .e4m3 => 3 | .e5m2 => 4 | .int8 => 5 | .uint8 => 6 | .int16 => 7
  | .uint16 => 8 | .int32 => 9 | .uint32 => 10 | .int64 => 11 | .uint64 => 12 | .sx7 => 13 | .sx4 => 14
  | .sx2 => 15 | .sx4x => 16 | .sx2x => 17

/-- Is the format one of the binary floating or interchange formats (R21)? -/
def Fmt.isFloat (f : Fmt) : Bool :=
  match f with
  | .fp32 | .fp16 | .bf16 | .e4m3 | .e5m2 => true
  | _ => false

/-- Is the format a shared-exponent format? -/
def Fmt.isSx (f : Fmt) : Bool :=
  match f with
  | .sx7 | .sx4 | .sx2 | .sx4x | .sx2x => true
  | _ => false

/-- Is the format an integer format of 64 bits? -/
def Fmt.is64 (f : Fmt) : Bool :=
  match f with
  | .int64 | .uint64 => true
  | _ => false

/-- The formats CVT accepts (R156). -/
def Fmt.cvtOk (f : Fmt) : Bool := !f.isSx

/-- The destination formats of CVTPK (R158). -/
def Fmt.cvtpkOk (f : Fmt) : Bool :=
  match f with
  | .fp16 | .bf16 | .e4m3 | .e5m2 | .int16 | .uint16 | .int8 | .uint8 => true
  | _ => false

/-- A class N field that names a format: a code of R59 that the instruction accepts, or a slot, whose binding
the issue checks (R134). -/
def fmtField (ok : Fmt → Bool) (n : Nat) : Bool :=
  match Fmt.ofCode n with
  | some f => ok f
  | none => decide (0x20 ≤ n ∧ n ≤ 0x27)

/-- The operand classes of R85, with the width in registers and what R489 and R88 narrow. -/
inductive Cls where
  /-- Must be 0xFF. -/
  | unused
  /-- Destination of w vector registers; `push` when 0xFF sends the result to the latches only. -/
  | vd (w : Nat) (push : Bool)
  /-- Source of one vector register, or of a pair; `lit` when a literal may stand in it. -/
  | vs (w : Nat) (lit : Bool)
  /-- Vector registers only (R489), the first a multiple of `al`. -/
  | vr (al : Nat)
  /-- Destination of w uniform registers. -/
  | ud (w : Nat) (push : Bool)
  /-- Uniform source of one register or of a pair. -/
  | us (w : Nat) (lit : Bool)
  /-- Uniform registers only (R489), the first a multiple of `al`. -/
  | ur (al : Nat)
  | p
  | h
  /-- A number; `ok` says whether it is within its limits. -/
  | n (ok : Bool)
  deriving DecidableEq, Repr

/-- What an instruction makes of its fields. -/
structure Sig where
  layout : Layout := .dab
  d : Cls := .unused
  a : Cls := .unused
  b : Cls := .unused
  c : Cls := .unused
  /-- The MOD value is accepted (R82 to R84). -/
  mod : Bool
  /-- The instruction reads a format slot (R82). -/
  fs : Bool := false
  deriving DecidableEq, Repr

/-- The arithmetic layout (R83): which sources take modifiers, whether SAT and RND may be nonzero; a rounding code
above SR is illegal (R35). -/
def arithOk (fa fb fc sat rnd : Bool) (m : Nat) : Bool :=
  decide (bits m 5 4 = 0) && (fa || decide (bits m 7 6 = 0)) && (fb || decide (bits m 9 8 = 0))
    && (fc || decide (bits m 11 10 = 0)) && (sat || !bit m 3)
    && (if rnd then decide (bits m 2 0 ≤ 4) else decide (bits m 2 0 = 0))

/-- The integer control word (R133): which of SAT and U may be set. -/
def intOk (sat u : Bool) (m : Nat) : Bool :=
  decide (bits m 11 4 = 0 ∧ bits m 2 1 = 0) && (sat || !bit m 3) && (u || !bit m 0)

/-- SCOPE, ORDER, REM and OPX of the memory layout (R84). -/
def mScope (m : Nat) : Nat := bits m 11 9
def mOrder (m : Nat) : Nat := bits m 8 7
def mRem (m : Nat) : Bool := bit m 6
def mOpx (m : Nat) : Nat := bits m 5 0

/-- Order and scope within bounds, REM clear: `acq` and `rel` say which orders besides relaxed are accepted. -/
def memOk (lo hi : Nat) (acq rel both : Bool) (m : Nat) : Bool :=
  decide (lo ≤ mScope m ∧ mScope m ≤ hi) && !mRem m &&
    (match mOrder m with | 0 => true | 1 => acq | 2 => rel | _ => both)

/-- As `memOk` with REM allowed with an acquire at scopes from `remLo` up. -/
def memRemOk (remLo : Nat) (rel both : Bool) (m : Nat) : Bool :=
  decide (mScope m ≤ 5) &&
    (match mOrder m with | 0 => true | 1 => true | 2 => rel | _ => both) &&
    (!mRem m || (bit (mOrder m) 0 && decide (remLo ≤ mScope m)))

/-- Relaxed at group scope, or the order `ord` at scopes from `lo` to system (R200, R201, R287). -/
def barOk (ord lo : Nat) (m : Nat) : Bool :=
  !mRem m && ((decide (mOrder m = 0) && decide (mScope m = 0)) ||
    (decide (mOrder m = ord) && decide (lo ≤ mScope m ∧ mScope m ≤ 5)))

/-- A load width of R189. -/
def loadW (x : Nat) : Bool := decide (x ≠ 7)
/-- A store width of R189. -/
def storeW (x : Nat) : Bool := decide (x < 4 ∨ x = 5)
/-- Registers of an access width: pair for .B64, quad for .B128. -/
def regsOfWidth (x : Nat) : Nat := match x with | 1 => 2 | 2 => 4 | _ => 1
/-- An atomic operation of R190 with its W64 bit. -/
def atomOk (x : Nat) : Bool := decide (bits x 3 0 ≤ 12) && !(decide (bits x 3 0 = 1) && bit x 4)
/-- A RED operation (R362). -/
def redOk (x : Nat) : Bool := decide (x < 32) && decide (bits x 3 0 ≤ 8) && !(decide (bits x 3 0 = 1) && bit x 4)
/-- Registers of an atomic operand. -/
def regsOfAtom (m : Nat) : Nat := if bit m 4 then 2 else 1
/-- Does the atomic operation read C: CAS (R190)? -/
def isCas (m : Nat) : Bool := decide (bits m 3 0 = 10)

/-- Width in bits of the special register of a number (R72); none for a number not in the table. -/
def srWidth (n : Nat) : Option Nat :=
  if n ≤ 7 then some 32 else if n ≤ 9 then some 64 else if n = 10 then some 32
  else if n ≤ 12 then some 64 else if n = 13 then some 32
  else if 0x10 ≤ n ∧ n ≤ 0x13 then some 64 else if 0x18 ≤ n ∧ n ≤ 0x1F then some 64 else none

/-- May the special register be written (R72)? -/
def srWritable (n : Nat) : Bool := (srWidth n).isSome && decide (5 ≤ n)

/-- Registers of a special register. -/
def srRegs (n : Nat) : Nat := if srWidth n = some 64 then 2 else 1

/-- A lane arithmetic form with V sources of one register. -/
def sigV (c : Cls) (mod : Bool) : Sig := ⟨.dab, .vd 1 true, .vs 1 true, .vs 1 true, c, mod, false⟩
/-- A lane form with one V source. -/
def sigV1 (mod : Bool) : Sig := ⟨.dab, .vd 1 true, .vs 1 true, .unused, .unused, mod, false⟩
/-- A uniform form with two U sources. -/
def sigU (mod : Bool) : Sig := ⟨.dab, .ud 1 true, .us 1 true, .us 1 true, .unused, mod, false⟩
/-- Layout NONE. -/
def sigNone (m : Nat) : Sig := ⟨.none, .unused, .unused, .unused, .unused, decide (m = 0), false⟩

/-- The operand classes and the MOD layout of each instruction: the tables R107, R135, R188, R242, R270, R286,
R360, R458, R461 and R463. -/
def sig (o : Op) (r : Raw) : Sig :=
  let m := r.mod
  let z := decide (m = 0)
  match o with
  | .fadd | .fsub | .fmul => sigV .unused (arithOk true true false true true m)
  | .ffma => sigV (.vs 1 true) (arithOk true true true true true m)
  | .fmin | .fmax => sigV .unused (arithOk true true false false false m)
  | .fcmp => { sigV .unused (arithOk true true false false false m) with d := .p }
  | .frnd => sigV1 (arithOk true false false true true m)
  | .ffrc => sigV1 (arithOk true false false true false m)
  | .fclass => sigV1 (arithOk true false false false false m)
  | .frcp | .frsq | .fsqrt | .fexp2 | .flog2 | .fsin | .fcos => sigV1 (arithOk true false false true true m)
  | .fldexp => sigV .unused (arithOk true false false true true m)
  | .padd2 | .pmul2 => { sigV .unused (arithOk true true false true true m) with fs := true }
  | .pfma2 | .pdot2 => { sigV (.vs 1 true) (arithOk true true true true true m) with fs := true }
  | .pmin2 | .pmax2 => { sigV .unused (arithOk true true false false false m) with fs := true }
  | .iadd | .isub => sigV .unused (intOk true true m)
  | .iaddc | .isubb => sigV .p (intOk false false m)
  | .imul => sigV .unused (intOk false false m)
  | .imulh => sigV .unused (intOk false true m)
  | .imad => ⟨.dab, .vd 2 true, .vs 1 true, .vs 1 true, .vs 2 true, intOk false true m, false⟩
  | .imin | .imax => sigV .unused (intOk false true m)
  | .iabs => sigV1 (intOk true false m)
  | .and | .or | .xor => sigV .unused z
  | .not => sigV1 z
  | .shl | .shr | .sar | .rotl => sigV .unused z
  | .bfe => sigV .unused (intOk false true m)
  | .bfi => sigV (.vs 1 true) (intOk false false m)
  | .popc | .clz | .ctz | .brev => sigV1 z
  | .icmp => { sigV .unused z with d := .p }
  | .sel => sigV .p z
  | .mov => sigV1 z
  | .prmt => sigV (.vs 1 true) z
  | .cvt =>
    let w (n : Nat) : Nat := if n = 11 ∨ n = 12 then 2 else 1
    let fl := match Fmt.ofCode r.b with | some f => f.isFloat | none => true
    ⟨.dab, .vd (w r.c) true, .vs (w r.b) true, .n (fmtField Fmt.cvtOk r.b), .n (fmtField Fmt.cvtOk r.c),
      arithOk fl false false true true m, false⟩
  | .cvtpk =>
    let fl := match Fmt.ofCode r.c with | some f => f.isFloat | none => true
    ⟨.dab, .vd 1 true, .vs 1 true, .vs 1 true, .n (fmtField Fmt.cvtpkOk r.c), arithOk fl fl false true true m, false⟩
  | .sxpack => ⟨.dab, .vd 1 true, .vs 1 true, .n (fmtField Fmt.isSx r.b), .unused,
      arithOk true false false true true m, false⟩
  | .sxunpk => ⟨.dab, .vd 1 true, .vs 1 true, .n (fmtField Fmt.isSx r.b), .unused, z, false⟩
  | .plop => ⟨.dab, .p, .p, .p, .p, decide (m < 256), false⟩
  | .shfl => sigV .unused (decide (m < 32 ∧ bits m 4 2 ≤ 4))
  | .vote => ⟨.dab, .ud 1 true, .p, .unused, .unused, decide (m < 4), false⟩
  | .matchLanes => ⟨.dab, .ud 1 true, .vs (if bit m 1 then 2 else 1) true, .unused, .unused, decide (m < 4), false⟩
  | .scan => sigV1 (decide (m < 32 ∧ bits m 3 0 ≤ 10))
  | .segred => ⟨.dab, .vd 1 true, .vs 1 true, .p, .unused, decide (m ≤ 10), false⟩
  | .vrd => ⟨.dab, .ud 1 true, .vs 1 true, .unused, .unused, decide (m ≤ 11), false⟩
  | .pref => ⟨.dab, .unused, .vs 2 true, .vs 1 true, .unused, memOk 0 0 false false false m && decide (mOpx m ≤ 1), false⟩
  | .lds => ⟨.dab, .vd (regsOfWidth (mOpx m)) false, .vs 1 true, .vs 1 true, .unused,
      memOk 0 1 true false false m && decide (mOpx m < 8) && loadW (mOpx m), false⟩
  | .sts => ⟨.dab, .unused, .vs 1 true, .vs 1 true,
      (if regsOfWidth (mOpx m) = 4 then .vr 4 else .vs (regsOfWidth (mOpx m)) true),
      memOk 0 1 false true false m && decide (mOpx m < 8) && storeW (mOpx m), false⟩
  | .ats => ⟨.dab, .vd (regsOfAtom m) false, .vs 1 true, .vs (regsOfAtom m) true,
      (if isCas m then .vs (regsOfAtom m) true else .unused),
      memOk 0 1 true true true m && decide (mOpx m < 32) && atomOk (mOpx m), false⟩
  | .tsrd => ⟨.dab, .vd (regsOfWidth (bits m 2 0)) false, .vs 1 true, .vs 1 true, .unused,
      decide (m < 16) && loadW (bits m 2 0), false⟩
  | .tswr => ⟨.dab, .unused, .vs 1 true, .vs 1 true,
      (if regsOfWidth (bits m 2 0) = 4 then .vr 4 else .vs (regsOfWidth (bits m 2 0)) true),
      decide (m < 16) && storeW (bits m 2 0), false⟩
  | .mma => ⟨.dab, .n (!bit r.d 7 && !bit r.d 3), .vs 1 true, .unused, .unused,
      decide (m < 256) && !bit m 5 && !bit m 3 && decide (bits m 2 0 ≤ 4), true⟩
  | .mmdual => ⟨.dab, .n (!bit r.d 7 && !bit r.d 3), .vs 1 true, .vs 1 true,
      .n (decide (r.c < 8 ∧ r.c ≠ bits r.d 2 0)), decide (m < 256) && decide (bits m 2 0 ≤ 4), true⟩
  | .macrd => ⟨.dab, .vd 1 true, .vs 1 true, .n (decide (r.b < 8)), .unused, z, false⟩
  | .mvert => ⟨.dab, .unused, .vr 4, .vs 1 true, .unused, decide (m ≤ 8), false⟩
  | .mprim => ⟨.dab, .unused, .vs 1 true, .vs 1 true, .unused, z, false⟩
  | .sample => ⟨.dab, .vd 4 false, .vs 2 false, .unused, .us 2 true, z, false⟩
  | .samplel => ⟨.dab, .vd 4 false, .vs 2 false, .vs 1 true, .us 2 true, z, false⟩
  | .sampleg => ⟨.dab, .vd 4 false, .vs 2 false, .vr 4, .us 2 true, z, false⟩
  | .txq => ⟨.dab, .vd 2 false, .vs 1 true, .unused, .us 2 true, z, false⟩
  | .pxout => ⟨.dab, .unused, .vr 4, .n (decide (r.b < 8)), .unused, z, false⟩
  | .discard => ⟨.dab, .unused, .unused, .unused, .unused, z, false⟩
  | .depthw => ⟨.dab, .unused, .vs 1 true, .unused, .unused, z, false⟩
  | .splatkey => ⟨.dab, .vd (if bit m 0 then 1 else 2) true, .vr 4, (if bit m 0 then .unused else .vs 1 true), .us 1 true,
      decide (m < 2), false⟩
  | .conic => ⟨.dab, .vd 4 false, .vr 4, .unused, .unused, z, false⟩
  | .blend => ⟨.dab, .vd 4 false, .vs 2 false, .vs 1 true, .vr 1, decide (m < 1024), false⟩
  | .blendStage => ⟨.dab, .unused, .vs 1 true, .vs 1 true, .us 2 true, decide (m = 2048), false⟩
  | .blendb => ⟨.dab, .vd 8 false, .vr 8, .vs 1 true, .vs 2 false, z, false⟩
  | .voxkey => ⟨.dab, .vd 4 false, .vr 4, .vs 1 true, .ur 4, decide (1 ≤ m ∧ m < 32), false⟩
  | .rigx => ⟨.dab, .vd 4 false, .vr 4, .vs 1 true, .unused, decide (m < 256), false⟩
  | .ldc => ⟨.dab, .vd (regsOfWidth (mOpx m)) false, .vs 1 true, .vs 1 true, .unused,
      memOk 0 2 true false false m && decide (mOpx m < 8) && loadW (mOpx m), false⟩
  | .stc | .stm => ⟨.dab, .unused, .vs 1 true, .vs 1 true,
      (if regsOfWidth (mOpx m) = 4 then .vr 4 else .vs (regsOfWidth (mOpx m)) true),
      memOk 0 2 false true false m && decide (mOpx m < 8) && storeW (mOpx m), false⟩
  | .atc => ⟨.dab, .vd (regsOfAtom m) false, .vs 1 true, .vs (regsOfAtom m) true,
      (if isCas m then .vs (regsOfAtom m) true else .unused),
      memOk 0 2 true true true m && decide (mOpx m < 32) && atomOk (mOpx m), false⟩
  | .ld => ⟨.dab, .vd (regsOfWidth (bits m 2 0)) false, .vs 2 true, .vs 1 true, .unused,
      memRemOk 3 false false m && !bit m 5 && decide (bits m 4 3 ≠ 3) && loadW (bits m 2 0), false⟩
  | .st => ⟨.dab, .unused, .vs 2 true, .vs 1 true,
      (if regsOfWidth (bits m 2 0) = 4 then .vr 4 else .vs (regsOfWidth (bits m 2 0)) true),
      memOk 0 5 false true false m && !bit m 5 && decide (bits m 4 3 ≠ 3) && storeW (bits m 2 0), false⟩
  | .atom => ⟨.dab, .vd (regsOfAtom m) false, .vs 2 true, .vs (regsOfAtom m) true,
      (if isCas m then .vs (regsOfAtom m) true else .unused),
      memRemOk 3 true true m && !bit m 5 && atomOk (mOpx m), false⟩
  | .red => ⟨.dab, .unused, .vs 2 true, .vs 1 true, .vs (regsOfAtom m) true,
      memOk 0 5 false true false m && redOk (mOpx m), false⟩
  | .gld => ⟨.dab, .vd (regsOfWidth (mOpx m)) false, .vs 1 true, .vs 1 true, .unused,
      memRemOk 3 false false m && decide (mOpx m < 8) && loadW (mOpx m), false⟩
  | .gst => ⟨.dab, .unused, .vs 1 true, .vs 1 true,
      (if regsOfWidth (mOpx m) = 4 then .vr 4 else .vs (regsOfWidth (mOpx m)) true),
      memOk 0 5 false true false m && decide (mOpx m < 8) && storeW (mOpx m), false⟩
  | .gop => ⟨.dab, (if bit m 5 then .unused else .vd (regsOfAtom m) false), .vs 1 true, .vs (regsOfAtom m) true,
      (if isCas m then .vs (regsOfAtom m) true else .unused), memRemOk 3 true true m && atomOk (mOpx m), false⟩
  | .emitc => ⟨.dab, .unused, .vr 1, .us 2 true, .us 1 true, memOk 3 5 false true false m && decide (mOpx m = 0), false⟩
  | .nop | .exit | .yield | .ret | .rte | .loopbrk | .brk => sigNone m
  | .bra | .call => ⟨.off24, .unused, .unused, .unused, .unused, z, false⟩
  | .bru => ⟨.off24, .unused, .unused, .unused, .p, z, false⟩
  | .brv => ⟨.off24, .unused, .unused, .unused, .p, decide (2 ≤ m), false⟩
  | .brx | .callx => ⟨.dab, .unused, .us 2 true, .unused, .unused, z, false⟩
  | .loop => ⟨.off24, .unused, .unused, .unused, .us 1 true, z, false⟩
  | .clause => ⟨.dab, .unused, .unused, .n (decide (1 ≤ r.b ∧ r.b ≤ 8)), .unused, z, false⟩
  | .uadd | .usub => sigU (arithOk false false false true false m)
  | .umul | .umulh | .uand | .uor | .uxor | .ushl | .ushr | .usar | .umin | .umax =>
    sigU (arithOk false false false false false m)
  | .umad => ⟨.dab, .ud 2 true, .us 1 true, .us 1 true, .us 2 true, arithOk false false false false false m, false⟩
  | .ucmp => ⟨.dab, .p, .us 1 true, .us 1 true, .unused, z, false⟩
  | .usel => ⟨.dab, .ud 1 true, .us 1 true, .us 1 true, .p, z, false⟩
  | .umov | .upopc | .uclz => ⟨.dab, .ud 1 true, .us 1 true, .unused, .unused, z, false⟩
  | .uli => ⟨.imm16, .ud 1 true, .unused, .unused, .unused, z, false⟩
  | .emr => ⟨.dab, .ud 1 true, .unused, .unused, .unused, z, false⟩
  | .emw | .emand => ⟨.dab, .unused, .us 1 true, .unused, .unused, z, false⟩
  | .uldk => ⟨.dab, .ur (if r.b = 0 then 1 else r.b), .n (decide (r.a ≤ 1)),
      .n (decide (r.b = 1 ∨ r.b = 2 ∨ r.b = 4 ∨ r.b = 8)), .unused, decide (bits m 1 0 = 0), false⟩
  | .srr => ⟨.dab, .ud (srRegs r.a) true, .n (srWidth r.a).isSome, .unused, .unused, z, false⟩
  | .srw => ⟨.dab, .n (srWritable r.d), .us (srRegs r.d) true, .unused, .unused, z, false⟩
  | .trap => ⟨.dab, .unused, .unused, .n true, .unused, z, false⟩
  | .sleep => ⟨.dab, .unused, .us 1 true, .unused, .unused, z, false⟩
  | .flags => ⟨.dab, .ud 1 true, .us 1 true, .us 1 true, .unused, z, false⟩
  | .waitc => ⟨.dab, .unused, .n (decide (r.a < 8)), .us 1 true, .unused, z, false⟩
  | .shld => ⟨.dab, .h, .us 2 true, .us 1 true, .unused, memRemOk 0 false false m && decide (mOpx m = 0), false⟩
  | .shst => ⟨.dab, .h, .us 2 true, .us 1 true, .unused, memOk 0 5 false true false m && decide (mOpx m = 0), false⟩
  | .shset => ⟨.dab, .h, .n (decide (r.a < 16)), .us 1 true, .unused, z, false⟩
  | .shget => ⟨.dab, .ud 1 true, .h, .n (decide (r.b < 16)), .unused, z, false⟩
  | .fsq => ⟨.dab, .ud 1 true, .unused, .unused, .unused, z, true⟩
  | .barInit => ⟨.dab, .unused, .us 1 true, .us 1 true, .unused, z, false⟩
  | .barArv => ⟨.dab, .ud 1 false, .us 1 true, .unused, .unused, barOk 2 1 m && decide (mOpx m = 0), false⟩
  | .barWt => ⟨.dab, .unused, .us 1 true, .us 1 true, .unused, barOk 1 1 m && decide (mOpx m = 0), false⟩
  | .barTry => ⟨.dab, .p, .us 1 true, .us 1 true, .unused, barOk 1 1 m && decide (mOpx m = 0), false⟩
  | .barInv => ⟨.dab, .unused, .us 1 true, .unused, .unused, z, false⟩
  | .dbgmSend => ⟨.dab, .unused, .us 1 true, .n (decide (r.b = 0)), .unused, z, false⟩
  | .dbgmRecv => ⟨.dab, .ud 1 false, .unused, .n (decide (r.b = 1)), .unused, z, false⟩
  | .dbgmStat => ⟨.dab, .ud 1 false, .unused, .n (decide (r.b = 2)), .unused, z, false⟩
  | .dbgmFown => ⟨.dab, .ud 1 false, .us 1 true, .n (decide (r.b = 3)), .unused, z, false⟩
  | .dbgmFmask => ⟨.dab, .ud 1 false, .us 1 true, .n (decide (r.b = 4)), .unused, z, false⟩
  | .dbgmFpc => ⟨.dab, .ud 2 false, .us 1 true, .n (decide (r.b = 5)), .unused, z, false⟩
  | .dbgmFinfo => ⟨.dab, .ud 1 false, .us 1 true, .n (decide (r.b = 6)), .unused, z, false⟩
  | .dbgmJmask => ⟨.dab, .ud 1 false, .us 1 true, .n (decide (r.b = 7)), .unused, z, false⟩
  | .tsld => ⟨.dab, .h, .unused, .unused, .unused, memRemOk 0 false false m && decide (mOpx m = 0), false⟩
  | .mbld => ⟨.dab, .n (decide (r.d < 8)), .us 1 true, .us 1 true, .unused,
      decide (m < 32) && decide (bits m 2 0 ≤ 4), true⟩
  | .mbgth => ⟨.dab, .n (decide (r.d < 8)), .h, .unused, .unused, decide (m ≤ 4), false⟩
  | .mtile => ⟨.dab, .unused, .h, .unused, .unused, z, false⟩
  | .mwb => ⟨.dab, .n (decide (r.d < 8)), .us 1 true, .us 2 false, .us 1 true,
      decide (m < 64) && decide (bits m 2 0 ≤ 4), true⟩
  | .temit => ⟨.dab, .unused, .us 1 true, .n (decide (r.b ≤ 0x70 ∧ r.b % 16 = 0)), .unused, z, false⟩
  | .msetup => ⟨.dab, .unused, .us 1 true, .us 1 true, .unused, decide (m ≤ 8), false⟩
  | .mdone => ⟨.dab, .unused, .unused, .unused, .unused, z, false⟩
  | .cbarArv => ⟨.dab, .ud 1 false, .us 1 true, .unused, .unused, barOk 2 2 m && decide (mOpx m = 0), false⟩
  | .cbarWt => ⟨.dab, .unused, .us 1 true, .us 1 true, .unused, barOk 1 2 m && decide (mOpx m = 0), false⟩
  | .fence => ⟨.dab, .ud 1 false, .unused, .unused, .unused, memOk 0 5 true true true m && decide (mOpx m = 0), false⟩
  | .cctlPin | .cctlUnpin | .cctlDiscard | .cctlClean =>
    ⟨.dab, .ud 1 false, .us 2 true, .us 1 true, .unused, memOk 0 0 false false false m && decide (mOpx m ≤ 3), false⟩
  | .cctlQuery => ⟨.dab, .ud 2 false, .us 2 true, .us 1 true, .unused,
      memOk 0 0 false false false m && decide (mOpx m = 4), false⟩
  | .gupd => ⟨.dab, (if decide (4 ≤ bits m 3 0) then .ud 1 false else .unused), .us 1 true, .us 1 true, .ur 16,
      decide (m < 64) && decide (bits m 3 0 ≤ 6), true⟩
  | .copy | .sort => ⟨.dab, .h, .us 2 true, .us 2 true, .unused,
      memOk 3 5 false true false m && decide (mOpx m = 0), false⟩
  | .qpush => ⟨.dab, .ur 16, .us 1 true, .unused, .p, memOk 3 5 false true false m && decide (mOpx m = 0), false⟩
  | .qpop => ⟨.dab, .ur 16, .us 1 true, .unused, .p, memOk 3 5 true false false m && decide (mOpx m = 0), false⟩
  | .launch => ⟨.dab, .unused, .us 2 true, .unused, .unused,
      memOk 3 5 false true false m && decide (mOrder m = 2) && decide (mOpx m = 0), false⟩
  | .encsub => ⟨.dab, .unused, .us 2 true, .us 2 true, .us 2 true,
      memOk 3 5 false true false m && decide (mOpx m = 0), false⟩
  | .coll => ⟨.dab, .h, .us 2 true, .us 2 true, .unused, memOk 4 5 false true false m && decide (mOpx m = 0), false⟩
  | .bkset => ⟨.dab, .h, .us 1 true, .us 2 true, .us 2 true, memOk 4 5 false true false m && decide (mOpx m = 0), false⟩
  | .bkq => ⟨.dab, .ud 2 true, .us 1 true, .unused, .unused, z, false⟩

/-- The instructions that must not stand in a clause (R69, R241, R247, R248). -/
def Op.barred (o : Op) : Bool :=
  match o with
  | .clause | .bra | .bru | .brv | .brx | .call | .callx | .ret | .exit | .yield | .loop | .loopbrk | .sleep | .waitc
  | .trap | .rte | .brk | .barWt | .cbarWt | .temit | .msetup | .mtile => true
  | _ => false

/-- Is it a uniform-set instruction (R76)? -/
def Op.uniform (o : Op) : Bool := o.code.uniform

/-- The operations of a set, opcode and SUB (R92): several where B, OPX or MOD tells them apart. -/
def candidates (uniform : Bool) (op sub : Nat) : List Op :=
  Op.all.filter fun o =>
    let k := o.code
    decide (k.op = op) && k.uniform == uniform &&
      (match k.sel with
       | .onCond lim => decide (sub < lim)
       | _ => decide (k.sub = sub))

/-- Does the row's selector fit the fields? -/
def selOk (s : Sel) (r : Raw) : Bool :=
  match s with
  | .plain | .onCond _ => true
  | .onB n => decide (r.b = n)
  | .onOpx n => decide (mOpx r.mod = n)
  | .onMod11 one => bit r.mod 11 == one

/-- Does a field of the class ask for a trailing word (R88)? -/
def callsTrailing (c : Cls) (code : Nat) : Bool :=
  match c with
  | .vd _ _ | .vs _ _ | .vr _ => decide (code = 0xFC ∨ code = 0xFE)
  | .ud _ _ | .us _ _ | .ur _ => decide (code = 0xFE)
  | _ => false

/-- The number of fields that ask for a trailing word. -/
def trailingCalls (g : Sig) (r : Raw) : Nat :=
  let c := if callsTrailing g.c r.c then 1 else 0
  match g.layout with
  | .dab => (if callsTrailing g.d r.d then 1 else 0) + (if callsTrailing g.a r.a then 1 else 0)
      + (if callsTrailing g.b r.b then 1 else 0) + c
  | .imm16 => (if callsTrailing g.d r.d then 1 else 0) + c
  | _ => c

/-- One operand field checked against its class (R85 to R89, R489): none where it is an illegal operand. -/
def readFld (c : Cls) (code : Nat) (t : Word) : Option Fld :=
  match c with
  | .unused => if code = 0xFF then some .none else none
  | .vd w push =>
    if code < 0xF0 then (if code % w = 0 then some (.v (BitVec.ofNat 8 code)) else none)
    else if code = 0xFF ∧ push = true then some .latchOnly else none
  | .vs w lit =>
    if code < 0xF0 then (if code % w = 0 then some (.v (BitVec.ofNat 8 code)) else none)
    else if code < 0xF4 then some (.bl (BitVec.ofNat 2 (code - 0xF0)))
    else if code < 0xFA then some (.const (BitVec.ofNat 3 (code - 0xF4)))
    else if code = 0xFA then some .lane
    else if code = 0xFC then
      (if t.toNat < 128 ∧ t.toNat % w = 0 then some (.uref (BitVec.ofNat 7 t.toNat)) else none)
    else if code = 0xFE ∧ lit = true then some (.lit t) else none
  | .vr al => if code < 0xF0 ∧ code % al = 0 then some (.v (BitVec.ofNat 8 code)) else none
  | .ud w push =>
    if code < 0x80 then (if code % w = 0 then some (.s (BitVec.ofNat 7 code)) else none)
    else if code = 0xFF ∧ push = true then some .latchOnly else none
  | .us w lit =>
    if code < 0x80 then (if code % w = 0 then some (.s (BitVec.ofNat 7 code)) else none)
    else if code < 0x84 then some (.sl (BitVec.ofNat 2 (code - 0x80)))
    else if code < 0x8C then some (.uconst (BitVec.ofNat 3 (code - 0x84)))
    else if code = 0xFE ∧ lit = true then some (.lit t) else none
  | .ur al => if code < 0x80 ∧ code % al = 0 then some (.s (BitVec.ofNat 7 code)) else none
  | .p => if code < 8 then some (.p (BitVec.ofNat 3 code)) else none
  | .h => if code < 16 then some (.h (BitVec.ofNat 4 code)) else none
  | .n ok => if ok = true ∧ code < 256 then some (.n (BitVec.ofNat 8 code)) else none

/-- What decoding answers. -/
inductive Decoded where
  /-- An instruction and the number of its words. -/
  | ok (i : Instr) (words : Nat)
  /-- Not an instruction (R92). -/
  | illegalInstr
  /-- An illegal operand (R93); `barred`: in a clause the instruction itself is illegal (R69). -/
  | illegalOperand (barred : Bool)
  /-- Bytes are missing: the instruction needs this many words. -/
  | short (words : Nat)
  deriving DecidableEq, Repr

/-- The extension word that stands for a short form (R78). -/
def shortExt : Word := 0xFF000000#32

/-- The raw fields of main and extension word. -/
def rawOf (w x : Word) : Raw :=
  ⟨bits w.toNat 23 16, bits w.toNat 15 8, bits w.toNat 7 0, bits x.toNat 31 24, bits x.toNat 11 0⟩

/-- The guard of an extension word (R81): none where it is illegal. -/
def guardOf (x : Word) : Option (Option Guard) :=
  if bit x.toNat 12 then some (some ⟨BitVec.ofNat 3 (bits x.toNat 16 14), bit x.toNat 13⟩)
  else if bits x.toNat 16 13 = 0 then some none else none

/-- The operation of the main and extension words: left where it is no instruction or its mode is illegal. -/
def opOf (w x : Word) : Sum Decoded Op :=
  match candidates (bit w.toNat 31) (bits w.toNat 29 24) (bits x.toNat 23 20) with
  | [] => .inl .illegalInstr
  | o :: os =>
    match (o :: os).find? (fun o => selOk o.code.sel (rawOf w x)) with
    | none => .inl (.illegalOperand o.barred)
    | some o => .inr o

/-- The operation whose fields say whether a trailing word is fetched (R93): that of the words, or, where they name no mode of it, the first row of
its opcode. -/
def firstOp (w x : Word) : Option Op :=
  match opOf w x with
  | .inr o => some o
  | .inl _ => (candidates (bit w.toNat 31) (bits w.toNat 29 24) (bits x.toNat 23 20)).head?

/-- Words of the instruction that the main and extension words begin, the trailing word included (R77, R88). -/
def wordCount (w x : Word) : Nat :=
  let n := if bit w.toNat 30 then 2 else 1
  match firstOp w x with
  | none => n
  | some o => if trailingCalls (sig o (rawOf w x)) (rawOf w x) = 1 then n + 1 else n

/-- The operand fields of an instruction by its layout (R79). -/
def fieldsOf (g : Sig) (r : Raw) (w t : Word) : Option (Fld × Fld × Fld × Fld × BitVec 24) :=
  match g.layout with
  | .dab => do
    let d ← readFld g.d r.d t
    let a ← readFld g.a r.a t
    let b ← readFld g.b r.b t
    let c ← readFld g.c r.c t
    pure (d, a, b, c, 0#24)
  | .off24 => do
    let c ← readFld g.c r.c t
    pure (.none, .none, .none, c, BitVec.ofNat 24 (bits w.toNat 23 0))
  | .imm16 => do
    let d ← readFld g.d r.d t
    let c ← readFld g.c r.c t
    pure (d, .none, .none, c, BitVec.ofNat 24 (bits w.toNat 15 0))
  | .none => do
    let c ← readFld g.c r.c t
    if bits w.toNat 23 0 = 0xFFFFFF then pure (.none, .none, .none, c, 0#24) else none

/-- The operands of an operation from its words; none where an operand is illegal (R93). -/
def argsOf (o : Op) (w x t : Word) : Option Args :=
  let r := rawOf w x
  let g := sig o r
  if trailingCalls g r ≤ 1 ∧ g.mod = true ∧ (g.fs = true ∨ bits x.toNat 19 17 = 0) then do
    let gd ← guardOf x
    if o = .clause ∧ gd.isSome = true then none
    else do
      let (d, a, b, c, imm) ← fieldsOf g r w t
      pure ⟨bit w.toNat 30, gd, BitVec.ofNat 3 (bits x.toNat 19 17),
        (match o.code.sel with | .onCond _ => BitVec.ofNat 4 (bits x.toNat 23 20) | _ => 0#4),
        d, a, b, c, BitVec.ofNat 12 (bits x.toNat 11 0), imm⟩
  else none

/-- Decode the words of one instruction: the main word, the extension word (`shortExt` for a short form) and the
trailing word (zero where there is none). -/
def decodeWords (w x t : Word) : Decoded :=
  match opOf w x with
  | .inl d => d
  | .inr o =>
    match argsOf o w x t with
    | none => .illegalOperand o.barred
    | some args => .ok (o.mk args) (wordCount w x)

/-- The word of the four bytes at an offset of a list, if they are all there (R8). -/
def wordAt? (bs : List Byte) (i : Nat) : Option Word :=
  let w := (bs.drop (4 * i)).take 4
  if w.length = 4 then some (BitVec.ofNat 32 (Machine.ofBytes w)) else none

/-- Decode the instruction at the head of any bytes. -/
def decode (bs : List Byte) : Decoded :=
  match wordAt? bs 0 with
  | none => .short 1
  | some w =>
    let long := bit w.toNat 30
    match (if long then wordAt? bs 1 else some shortExt) with
    | none => .short 2
    | some x =>
      let n := wordCount w x
      if n = (if long then 2 else 1) then decodeWords w x 0#32
      else match wordAt? bs (n - 1) with
        | none => .short n
        | some t => decodeWords w x t

/-- The code of an operand field. -/
def Fld.code (f : Fld) : Nat :=
  match f with
  | .none => 0xFF
  | .v r => r.toNat
  | .bl i => 0xF0 + i.toNat
  | .const i => 0xF4 + i.toNat
  | .lane => 0xFA
  | .uref _ => 0xFC
  | .lit _ => 0xFE
  | .latchOnly => 0xFF
  | .s r => r.toNat
  | .sl i => 0x80 + i.toNat
  | .uconst i => 0x84 + i.toNat
  | .p i => i.toNat
  | .h i => i.toNat
  | .n x => x.toNat

/-- The trailing word an operand field asks for (R88). -/
def Fld.trailing (f : Fld) : Option Word :=
  match f with
  | .uref r => some (r.setWidth 32)
  | .lit w => some w
  | _ => Option.none

/-- The raw fields of an instruction's operands. -/
def Args.raw (x : Args) : Raw := ⟨x.d.code, x.a.code, x.b.code, x.c.code, x.mod.toNat⟩

/-- The operand classes of an instruction. -/
def Args.sig (o : Op) (x : Args) : Sig := Sys2Proof.sig o x.raw

/-- The main word (R76, R79). -/
def mainWord (o : Op) (x : Args) : Word :=
  let k := o.code
  let low := match (x.sig o).layout with
    | .dab => x.d.code * 65536 + x.a.code * 256 + x.b.code
    | .off24 => x.imm.toNat
    | .imm16 => x.d.code * 65536 + x.imm.toNat % 65536
    | .none => 0xFFFFFF
  BitVec.ofNat 32 ((if k.uniform then 2 ^ 31 else 0) + (if x.long then 2 ^ 30 else 0) + k.op * 2 ^ 24 + low)

/-- The extension word (R80). -/
def extWord (o : Op) (x : Args) : Word :=
  let k := o.code
  let sub := match k.sel with | .onCond _ => x.cond.toNat | _ => k.sub
  let gd := match x.guard with
    | none => 0
    | some g => g.pred.toNat * 2 ^ 14 + (if g.sense then 2 ^ 13 else 0) + 2 ^ 12
  BitVec.ofNat 32 (x.c.code * 2 ^ 24 + sub * 2 ^ 20 + x.fs.toNat * 2 ^ 17 + gd + x.mod.toNat)

/-- The trailing word of the operands, if a field asks for one. -/
def Args.trailing (x : Args) : Option Word :=
  match x.d.trailing with
  | some t => some t
  | none => match x.a.trailing with
    | some t => some t
    | none => match x.b.trailing with
      | some t => some t
      | none => x.c.trailing

/-- MOD as a number; SAT of the arithmetic and integer layouts, and U of the integer control word (R83, R133). -/
def Args.m (x : Args) : Nat := x.mod.toNat
def Args.sat (x : Args) : Bool := bit x.mod.toNat 3
def Args.uns (x : Args) : Bool := bit x.mod.toNat 0

/-- Number of bytes of an instruction (R77). -/
def Args.bytes (x : Args) : Nat := 4 * (1 + (if x.long then 1 else 0) + (if x.trailing.isSome then 1 else 0))

/-- The words of an instruction; none for a step of a unit, which has no encoding. -/
def encode (i : Instr) : Option (List Word) :=
  match i.split with
  | none => none
  | some (o, x) => some (mainWord o x :: ((if x.long then [extWord o x] else []) ++ x.trailing.toList))

/-- The bytes of words, each lowest byte first (R8). -/
def wordBytes (ws : List Word) : List Byte := ws.flatMap fun w => Machine.toBytes w.toNat 4

/-- What the decoder reads from the bits of a row of the opcode table: the words laid out as memory holds them,
the operand words beyond nbits zero. -/
def decodeTableWord (nbits w : Nat) : Option Instr :=
  match decode (Machine.toBytes (w % 2 ^ nbits) 12) with
  | .ok i _ => some i
  | _ => none

end Sys2Proof
end

