-- ==== Sys2Proof/Machine/Float.lean ====
section
/-! DEFINITION. Numbers: formats, exact values, one rounding, and the functions of the chapter Numbers (R21 to R48). -/

namespace Sys2Proof.Machine

open Sys2Proof

/-- Flag bits of R45. -/
def flNX : Nat := 1
def flUF : Nat := 2
def flOF : Nat := 4
def flDZ : Nat := 8
def flNV : Nat := 16
def flSATD : Nat := 32

/-- The rounding modes of R35. -/
inductive Rnd where
  | rne | rz | ru | rd | sr
  deriving DecidableEq, Repr

/-- The mode of a code; codes above SR never pass the decoder (R35). -/
def Rnd.ofCode (n : Nat) : Rnd :=
  match n with
  | 0 => .rne | 1 => .rz | 2 => .ru | 3 => .rd | _ => .sr

/-- A binary format: precision, exponent of the lowest bit of a subnormal, and the largest finite magnitude as
`maxM * 2 ^ maxE` (R22, R26). -/
structure FSpec where
  p : Nat
  emin : Int
  maxM : Nat
  maxE : Int
  width : Nat
  /-- E4M3: no infinity, one NaN (R26). -/
  e4m3 : Bool := false
  deriving DecidableEq, Repr

def fp32 : FSpec := ⟨24, -149, 2 ^ 24 - 1, 104, 32, false⟩
def fp16 : FSpec := ⟨11, -24, 2 ^ 11 - 1, 5, 16, false⟩
def bf16 : FSpec := ⟨8, -133, 2 ^ 8 - 1, 120, 16, false⟩
def e5m2 : FSpec := ⟨3, -16, 7, 13, 8, false⟩
def e4m3 : FSpec := ⟨4, -9, 14, 5, 8, true⟩

/-- The binary format of a floating format code. -/
def fspecOf (f : Fmt) : FSpec :=
  match f with
  | .fp16 => fp16 | .bf16 => bf16 | .e4m3 => e4m3 | .e5m2 => e5m2 | _ => fp32

/-- The exponent field with every bit set. -/
def FSpec.expMax (f : FSpec) : Nat := 2 ^ (f.width - f.p) - 1

/-- The sign bit of a pattern. -/
def FSpec.signOf (f : FSpec) (x : Nat) : Bool := x.testBit (f.width - 1)

/-- Read a pattern of the format (R22, R26). -/
def FSpec.unpack (f : FSpec) (x : Nat) : FVal :=
  let frac := x % 2 ^ (f.p - 1)
  let ex := bits x (f.width - 2) (f.p - 1)
  let neg := f.signOf x
  if ex = f.expMax ∧ f.e4m3 = false then
    (if frac = 0 then .inf neg else .nan (!frac.testBit (f.p - 2)))
  else if f.e4m3 = true ∧ ex = f.expMax ∧ frac = 2 ^ (f.p - 1) - 1 then .nan false
  else if ex = 0 then .fin neg frac f.emin
  else .fin neg (frac + 2 ^ (f.p - 1)) (f.emin + (ex - 1 : Nat))

/-- The sign bit in its place. -/
def FSpec.signBit (f : FSpec) (neg : Bool) : Nat := if neg then 2 ^ (f.width - 1) else 0

/-- The canonical NaN (R23). -/
def FSpec.nan (f : FSpec) : Nat :=
  if f.e4m3 then 0x7F else f.expMax * 2 ^ (f.p - 1) + 2 ^ (f.p - 2)

/-- Infinity of a sign; in E4M3 the NaN that stands for it (R26). -/
def FSpec.inf (f : FSpec) (neg : Bool) : Nat :=
  if f.e4m3 then 0x7F else f.signBit neg + f.expMax * 2 ^ (f.p - 1)

/-- The pattern of `q * 2^t`, for q up to 2^p and t at or above the subnormal exponent. -/
def FSpec.pack (f : FSpec) (neg : Bool) (q : Nat) (t : Int) : Nat :=
  f.signBit neg + (if q = 0 then 0 else ((t - f.emin).toNat * 2 ^ (f.p - 1) + q))

/-- The largest finite value of a sign. -/
def FSpec.largest (f : FSpec) (neg : Bool) : Nat := f.pack neg f.maxM f.maxE

/-- A real magnitude to be rounded: exactly `m * 2^e`, or, when `sticky`, strictly between that and
`(m + 1) * 2^e`. -/
structure Mag where
  neg : Bool
  m : Nat
  e : Int
  sticky : Bool
  deriving DecidableEq, Repr

/-- Compare `m * 2^e` with `n * 2^g`: is the first greater? -/
def dyGt (m : Nat) (e : Int) (n : Nat) (g : Int) : Bool :=
  if e ≥ g then decide (m * 2 ^ (e - g).toNat > n) else decide (m > n * 2 ^ (g - e).toNat)

/-- Round a magnitude to a multiple of 2^t (R35, R39): the quotient, and whether it is inexact. -/
def roundAt (mode : Rnd) (draw : Nat) (x : Mag) (t : Int) : Nat × Bool :=
  let sh := (t - x.e).toNat
  let lo := if t ≥ x.e then x.m >>> sh else x.m * 2 ^ (x.e - t).toNat
  let rem := if t ≥ x.e then x.m % 2 ^ sh else 0
  let inexact := x.sticky || decide (rem ≠ 0)
  let up : Bool := match mode with
    | .rne => decide (2 * rem > 2 ^ sh) || (decide (2 * rem = 2 ^ sh) && (x.sticky || decide (lo % 2 = 1)))
    | .rz => false
    | .ru => inexact && !x.neg
    | .rd => inexact && x.neg
    | .sr => decide (rem * 65536 / 2 ^ sh + draw ≥ 65536)
  (if up then lo + 1 else lo, inexact)

/-- Round an exact real once to a format (R34 to R39): the pattern and the flags. `sat` is the clamp of conversions
(R37). A zero keeps the sign given. -/
def FSpec.round (f : FSpec) (mode : Rnd) (draw : Nat) (sat : Bool) (x : Mag) : Nat × Nat :=
  if x.m = 0 ∧ x.sticky = false then (f.signBit x.neg, 0)
  else
    let mode := if mode = .sr ∧ (dyGt x.m x.e f.maxM f.maxE || (x.sticky && !dyGt f.maxM f.maxE x.m x.e))
      then .rne else mode
    let t0 : Int := x.e + (Nat.log2 x.m : Int) + 1 - (f.p : Int)
    let t := if x.m = 0 then f.emin else max t0 f.emin
    let (q, inexact) := roundAt mode draw x t
    if dyGt q t f.maxM f.maxE then
      (if sat then (f.largest x.neg, flNX ||| flSATD)
       else
         let toInf := match mode with
           | .rne | .sr => true
           | .rz => false
           | .ru => !x.neg
           | .rd => x.neg
         (if toInf then f.inf x.neg else f.largest x.neg, flOF ||| flNX))
    else
      let tiny : Bool :=
        if x.m = 0 then true
        else
          let (q', _) := roundAt mode draw x t0
          !(dyGt (2 * q') t0 (2 ^ f.p - 1) f.emin)
      (f.pack x.neg q t, (if inexact then flNX else 0) ||| (if inexact && tiny then flUF else 0))

/-- An exact signed dyadic value `m * 2^e`; `nz` is the sign a zero takes. -/
structure Dy where
  m : Int
  e : Int
  deriving DecidableEq, Repr

/-- The dyadic of a finite value. -/
def Dy.of (neg : Bool) (m : Nat) (e : Int) : Dy := ⟨if neg then -(m : Int) else m, e⟩

def Dy.mul (x y : Dy) : Dy := ⟨x.m * y.m, x.e + y.e⟩

def Dy.add (x y : Dy) : Dy :=
  if x.e ≤ y.e then ⟨x.m + y.m * (2 ^ (y.e - x.e).toNat : Nat), x.e⟩
  else ⟨x.m * (2 ^ (x.e - y.e).toNat : Nat) + y.m, y.e⟩

def Dy.neg (x : Dy) : Dy := ⟨-x.m, x.e⟩
def Dy.sub (x y : Dy) : Dy := x.add y.neg
def Dy.ofInt (n : Int) : Dy := ⟨n, 0⟩
def Dy.isNeg (x : Dy) : Bool := decide (x.m < 0)
def Dy.isZero (x : Dy) : Bool := decide (x.m = 0)
/-- Is x < y? -/
def Dy.lt (x y : Dy) : Bool := (x.sub y).isNeg
/-- Is x ≤ y? -/
def Dy.le (x y : Dy) : Bool := !(y.lt x)
/-- floor of a dyadic. -/
def Dy.floor (x : Dy) : Int := if x.e ≥ 0 then x.m * (2 ^ x.e.toNat : Nat) else x.m / (2 ^ (-x.e).toNat : Nat)
/-- x / 2^k. -/
def Dy.shr (x : Dy) (k : Nat) : Dy := ⟨x.m, x.e - k⟩

/-- The magnitude of a dyadic, ready to be rounded; `nz` is the sign of an exact zero. -/
def Dy.mag (x : Dy) (nz : Bool) : Mag := ⟨if x.m = 0 then nz else decide (x.m < 0), x.m.natAbs, x.e, false⟩

/-- The sign of an exact zero sum (R136): minus only under RD, or when both terms are the same negative zero. -/
def sumZeroSign (mode : Rnd) (n1 n2 : Bool) : Bool := if n1 = n2 then n1 else decide (mode = .rd)

/-- The quotient of two positive numbers scaled by 2^e, with 80 or more bits. -/
def ratioMag (neg : Bool) (num den : Nat) (e : Int) : Mag :=
  let k := 80 + Nat.log2 den + 1 - min (Nat.log2 num) (80 + Nat.log2 den + 1)
  let n := num * 2 ^ k
  ⟨neg, n / den, e - k, decide (n % den ≠ 0)⟩

/-- The square root of `m * 2^e`, with 80 or more bits. -/
def sqrtMag (m : Nat) (e : Int) : Mag :=
  let k0 : Nat := 162
  let k := if (e - k0) % 2 = 0 then k0 else k0 + 1
  let n := m * 2 ^ k
  let r := isqrt n
  ⟨false, r, (e - k) / 2, decide (r * r ≠ n)⟩

/-- Bits of the fixed-point working precision of the functions. -/
def fxBits : Nat := 400
/-- floor(2^400 ln 2). -/
def ln2Fx : Nat := 0xb17217f7d1cf79abc9e3b39803f2f6af40f343267298b62d8a0d175b8baafa2be7b876206debac98559552fb4afa1b10ed2e
/-- floor(2^400 2π). -/
def twoPiFx : Nat := 0x6487ed5110b4611a62633145c06e0e68948127044533e63a0105df531d89cd9128a5043cc71a026ef7ca8cd9e69d218d98158

/-- Terms of the series of exp(y) for y below 1, in fixed point: term k, k, fuel. -/
def expSeries (y term k : Nat) : Nat → Nat
  | 0 => 0
  | n + 1 => term + expSeries y (term * y / 2 ^ fxBits / (k + 1)) (k + 1) n

/-- 2^f for a fixed-point f below 1. -/
def exp2Fx (f : Nat) : Nat := expSeries (f * ln2Fx / 2 ^ fxBits) (2 ^ fxBits) 0 110

/-- The series of atanh(t), t up to 1/3: power, index, fuel. -/
def atanhSeries (t2 pow k : Nat) : Nat → Nat
  | 0 => 0
  | n + 1 => pow / (2 * k + 1) + atanhSeries t2 (pow * t2 / 2 ^ fxBits) (k + 1) n

/-- log2 of m / 2^b, for a value from 1 up to 2, in fixed point. -/
def log2Fx (m b : Nat) : Nat :=
  let t := (m - 2 ^ b) * 2 ^ fxBits / (m + 2 ^ b)
  2 * atanhSeries (t * t / 2 ^ fxBits) t 0 140 * 2 ^ fxBits / ln2Fx

/-- The alternating series of sin: y squared, term, index, fuel. -/
def sinSeries (y2 term k : Nat) : Nat → Int
  | 0 => 0
  | n + 1 => (term : Int) - sinSeries y2 (term * y2 / 2 ^ fxBits / ((2 * k + 2) * (2 * k + 3))) (k + 1) n

/-- sin(2π u) for a fixed-point u up to 1/4. -/
def sinFx (u : Nat) : Nat :=
  let y := u * twoPiFx / 2 ^ fxBits
  (sinSeries (y * y / 2 ^ fxBits) y 0 60).toNat

/-- A fixed-point result known from below to about 2^-380, as a magnitude that is not exact. -/
def fxMag (neg : Bool) (x : Nat) : Mag := ⟨neg, x / 2 ^ 20, 20 - fxBits, true⟩

/-- 2^x of a finite x (R43). -/
def exp2Mag (x : Dy) : Mag :=
  let n := x.floor
  if n ≥ 200 then ⟨false, 1, 200, false⟩
  else if n < -400 then ⟨false, 1, -400, true⟩
  else
    let f := x.sub (Dy.ofInt n)
    if f.m = 0 then ⟨false, 1, n, false⟩
    else
      let y := exp2Fx ((f.shr 0).m.toNat * 2 ^ (fxBits + f.e).toNat)
      ⟨false, y / 2 ^ 20, n + 20 - fxBits, true⟩

/-- log2 of a positive `m * 2^e` (R43). -/
def log2Mag (m : Nat) (e : Int) : Mag :=
  let b := Nat.log2 m
  let ex : Int := e + b
  if m = 2 ^ b then ⟨decide (ex < 0), ex.natAbs, 0, false⟩
  else
    let l := log2Fx m b
    if ex ≥ 0 then fxMag false (ex.toNat * 2 ^ fxBits + l)
    else fxMag true ((-ex).toNat * 2 ^ fxBits - l - 2 ^ 20)

/-- A function of FP32 that has one NaN rule: a NaN gives the canonical NaN, NV if it signals (R23). -/
def nanOut (f : FSpec) (signalling : Bool) : Nat × Nat := (f.nan, if signalling then flNV else 0)

/-- FRCP (R43). -/
def fRcp (mode : Rnd) (draw : Nat) (x : Nat) : Nat × Nat :=
  match fp32.unpack x with
  | .nan s => nanOut fp32 s
  | .inf n => (fp32.signBit n, 0)
  | .fin n m e => if m = 0 then (fp32.inf n, flDZ) else fp32.round mode draw false (ratioMag n 1 m (-e))

/-- FSQRT (R43). -/
def fSqrt (mode : Rnd) (draw : Nat) (x : Nat) : Nat × Nat :=
  match fp32.unpack x with
  | .nan s => nanOut fp32 s
  | .inf n => if n then (fp32.nan, flNV) else (fp32.inf false, 0)
  | .fin n m e =>
    if m = 0 then (fp32.signBit n, 0)
    else if n then (fp32.nan, flNV) else fp32.round mode draw false (sqrtMag m e)

/-- FRSQ (R43): 1/√(m 2^e) is the square root of the exact quotient 1/(m 2^e), taken to enough bits. -/
def fRsq (mode : Rnd) (draw : Nat) (x : Nat) : Nat × Nat :=
  match fp32.unpack x with
  | .nan s => nanOut fp32 s
  | .inf n => if n then (fp32.nan, flNV) else (0, 0)
  | .fin n m e =>
    if m = 0 then (fp32.inf n, flDZ)
    else if n then (fp32.nan, flNV)
    else
      let k : Nat := if (e + 240) % 2 = 0 then 240 else 241
      -- 2^k / (m 2^(e+k)) ; floor of the square root, exact only when both steps are
      let q := 2 ^ (2 * k) / m
      let r := isqrt q
      let g : Int := -(e + 2 * k)
      fp32.round mode draw false
        (if g % 2 = 0 then ⟨false, r, g / 2, decide (r * r * m ≠ 2 ^ (2 * k))⟩
         else
           let r' := isqrt (2 * 2 ^ (2 * k) / m)
           ⟨false, r', (g - 1) / 2, decide (r' * r' * m ≠ 2 * 2 ^ (2 * k))⟩)

/-- FEXP2 (R43). -/
def fExp2 (mode : Rnd) (draw : Nat) (x : Nat) : Nat × Nat :=
  match fp32.unpack x with
  | .nan s => nanOut fp32 s
  | .inf n => if n then (0, 0) else (fp32.inf false, 0)
  | .fin n m e => if m = 0 then (0x3F800000, 0) else fp32.round mode draw false (exp2Mag (Dy.of n m e))

/-- FLOG2 (R43). -/
def fLog2 (mode : Rnd) (draw : Nat) (x : Nat) : Nat × Nat :=
  match fp32.unpack x with
  | .nan s => nanOut fp32 s
  | .inf n => if n then (fp32.nan, flNV) else (fp32.inf false, 0)
  | .fin n m e =>
    if m = 0 then (fp32.inf true, flDZ)
    else if n then (fp32.nan, flNV)
    else
      let g := log2Mag m e
      if g.m = 0 ∧ g.sticky = false then (0, 0) else fp32.round mode draw false g

/-- sin(2πr) and cos(2πr) by quadrant: for r = num / 2^k, num below 2^k, with k at least 2. -/
def trigMag (sine : Bool) (num k : Nat) : Mag :=
  let quarter := 2 ^ (k - 2)
  let quad := num / quarter
  let u := num % quarter
  let fx (v : Nat) : Nat := sinFx (v * 2 ^ fxBits / 2 ^ k)
  let q := if sine then quad % 4 else (quad + 1) % 4
  let neg := decide (2 ≤ q)
  if u = 0 then ⟨neg, (if q % 2 = 1 then 1 else 0), 0, false⟩
  else fxMag neg (fx (if q % 2 = 0 then u else quarter - u))

/-- FSIN and FCOS (R44): of the two neighbours of an exact value that is not representable the free value
Config.trigUp takes one; the values R44 names are exact. Log entry 2. -/
def fTrig (sine : Bool) (x : Nat) : Nat × Nat :=
  match fp32.unpack x with
  | .nan s => nanOut fp32 s
  | .inf _ => (fp32.nan, flNV)
  | .fin n m e =>
    if m = 0 then (if sine then fp32.signBit n else 0x3F800000, 0)
    else
      let up := Config.trigUp sine (BitVec.ofNat 32 x)
      let k : Nat := max 2 (-e).toNat
      let z := (Dy.of n m e).m * (2 ^ (e + k).toNat : Nat)
      let g := trigMag sine (z % (2 ^ k : Nat)).toNat k
      if g.sticky = false then
        (if g.m = 0 then (0, 0)
         else if g.neg = false then (0x3F800000, 0)
         else if up then (0xBF800000, 0) else (0xBF7FFFFF, flNX))
      else
        let (r, fl) := fp32.round .rz 0 false g
        (if up then r + 1 else r, fl)

/-- Clamp of arithmetic saturation to [+0, 1] (R37). -/
def FSpec.sat01 (f : FSpec) (x : Nat) : Nat :=
  match f.unpack x with
  | .nan _ => 0
  | .inf n => if n then 0 else f.pack false (2 ^ (f.p - 1)) (1 - (f.p : Int))
  | .fin n m e => if n then 0 else if dyGt m e 1 0 then f.pack false (2 ^ (f.p - 1)) (1 - (f.p : Int)) else x

/-- Source modifiers: absolute value first, then negation (R83), on the sign bit at `hi`. -/
def srcMod (abs neg : Bool) (hi : Nat) (x : Nat) : Nat :=
  let s := 2 ^ hi
  let y := if abs then (if x.testBit hi then x - s else x) else x
  if neg then (if y.testBit hi then y - s else y + s) else y

/-- Signalling-NaN check of several sources. -/
def anySnan (f : FSpec) (xs : List Nat) : Bool :=
  xs.any fun x => match f.unpack x with | .nan s => s | _ => false

/-- x + y in a format (R136, R25). -/
def FSpec.add (f : FSpec) (mode : Rnd) (draw : Nat) (x y : Nat) : Nat × Nat :=
  match f.unpack x, f.unpack y with
  | .nan s, .nan t => (f.nan, if s || t then flNV else 0)
  | .nan s, _ => nanOut f s
  | _, .nan t => nanOut f t
  | .inf a, .inf b => if a = b then (f.inf a, 0) else (f.nan, flNV)
  | .inf a, _ => (f.inf a, 0)
  | _, .inf b => (f.inf b, 0)
  | .fin a m e, .fin b n g =>
    f.round mode draw false (((Dy.of a m e).add (Dy.of b n g)).mag (sumZeroSign mode a b))

/-- The pattern with the sign changed. -/
def FSpec.flip (f : FSpec) (x : Nat) : Nat := srcMod false true (f.width - 1) x

/-- x * y in a format. -/
def FSpec.mul (f : FSpec) (mode : Rnd) (draw : Nat) (x y : Nat) : Nat × Nat :=
  match f.unpack x, f.unpack y with
  | .nan s, .nan t => (f.nan, if s || t then flNV else 0)
  | .nan s, _ => nanOut f s
  | _, .nan t => nanOut f t
  | .inf a, .inf b => (f.inf (a != b), 0)
  | .inf a, .fin b n _ => if n = 0 then (f.nan, flNV) else (f.inf (a != b), 0)
  | .fin a m _, .inf b => if m = 0 then (f.nan, flNV) else (f.inf (a != b), 0)
  | .fin a m e, .fin b n g => f.round mode draw false ⟨a != b, m * n, e + g, false⟩

/-- A term of a sum of products: NaN, infinity or an exact value with the sign of its zero. -/
inductive Term where
  | nan
  | inf (neg : Bool)
  | val (x : Dy) (neg : Bool)
  deriving DecidableEq, Repr

/-- The exact product of two values: NaN with its flag for 0 times infinity (R25). -/
def mulTerm (x y : FVal) : Term × Nat :=
  match x, y with
  | .nan s, .nan t => (.nan, if s || t then flNV else 0)
  | .nan s, _ => (.nan, if s then flNV else 0)
  | _, .nan t => (.nan, if t then flNV else 0)
  | .inf a, .inf b => (.inf (a != b), 0)
  | .inf a, .fin b n _ => if n = 0 then (.nan, flNV) else (.inf (a != b), 0)
  | .fin a m _, .inf b => if m = 0 then (.nan, flNV) else (.inf (a != b), 0)
  | .fin a m e, .fin b n g => (.val ((Dy.of a m e).mul (Dy.of b n g)) (a != b), 0)

/-- The term of one value. -/
def FVal.term (x : FVal) : Term × Nat :=
  match x with
  | .nan s => (.nan, if s then flNV else 0)
  | .inf a => (.inf a, 0)
  | .fin a m e => (.val (Dy.of a m e) a, 0)

/-- The sum of two terms, exact; opposite infinities are invalid (R25). -/
def Term.add (mode : Rnd) (x y : Term × Nat) : Term × Nat :=
  let fl := x.2 ||| y.2
  match x.1, y.1 with
  | .nan, _ => (.nan, fl)
  | _, .nan => (.nan, fl)
  | .inf a, .inf b => if a = b then (.inf a, fl) else (.nan, fl ||| flNV)
  | .inf a, _ => (.inf a, fl)
  | _, .inf b => (.inf b, fl)
  | .val u a, .val v b =>
    let s := u.add v
    (.val s (if s.m = 0 then sumZeroSign mode a b else decide (s.m < 0)), fl)

/-- Round a term to a format. -/
def FSpec.ofTerm (f : FSpec) (mode : Rnd) (draw : Nat) (t : Term × Nat) : Nat × Nat :=
  match t.1 with
  | .nan => (f.nan, t.2)
  | .inf a => (f.inf a, t.2)
  | .val x a =>
    let (r, fl) := f.round mode draw false (x.mag a)
    (r, fl ||| t.2)

/-- x * y + z with one rounding (R25, R136). -/
def FSpec.fma (f : FSpec) (mode : Rnd) (draw : Nat) (x y z : Nat) : Nat × Nat :=
  f.ofTerm mode draw (Term.add mode (mulTerm (f.unpack x) (f.unpack y)) (f.unpack z).term)

/-- Is x below y among numbers, minus zero below plus zero (R137)? -/
def fLess (x y : FVal) : Bool :=
  match x, y with
  | .fin a m e, .fin b n g =>
    if m = 0 ∧ n = 0 then (a && !b) else (Dy.of a m e).lt (Dy.of b n g)
  | .inf a, .inf b => a && !b
  | .inf a, .fin _ _ _ => a
  | .fin _ _ _, .inf b => !b
  | _, _ => false

/-- FMIN and FMAX (R137). -/
def FSpec.minmax (f : FSpec) (mx : Bool) (x y : Nat) : Nat × Nat :=
  let fl := if anySnan f [x, y] then flNV else 0
  match f.unpack x, f.unpack y with
  | .nan _, .nan _ => (f.nan, fl)
  | .nan _, _ => (y, fl)
  | _, .nan _ => (x, fl)
  | u, v => (if mx then (if fLess u v then y else x) else (if fLess v u then y else x), fl)

/-- Numeric comparison with -0 = +0: less, equal; false both when a NaN is present. -/
def fCompare (x y : FVal) : Bool × Bool :=
  match x, y with
  | .nan _, _ => (false, false)
  | _, .nan _ => (false, false)
  | .fin a m e, .fin b n g =>
    ((Dy.of a m e).lt (Dy.of b n g), ((Dy.of a m e).sub (Dy.of b n g)).isZero)
  | .inf a, .inf b => (a && !b, a == b)
  | .inf a, .fin _ _ _ => (a, false)
  | .fin _ _ _, .inf b => (!b, false)

/-- FCMP's condition and its flags (R138). -/
def fcmp (cond : Nat) (x y : Nat) : Bool × Nat :=
  let u := fp32.unpack x
  let v := fp32.unpack y
  let un := (match u with | .nan _ => true | _ => false) || (match v with | .nan _ => true | _ => false)
  let nv : Nat := if 2 ≤ cond ∧ cond ≤ 5 then (if un then flNV else 0) else if anySnan fp32 [x, y] then flNV else 0
  let (lt, eq) := fCompare u v
  let r := match cond with
    | 0 => eq
    | 1 => !eq
    | 2 => lt
    | 3 => lt || eq
    | 4 => !un && !lt && !eq
    | 5 => !un && !lt
    | 6 => !un
    | _ => un
  (r, nv)

/-- FRND (R139). -/
def fRnd (mode : Rnd) (draw : Nat) (x : Nat) : Nat × Nat :=
  match fp32.unpack x with
  | .nan s => nanOut fp32 s
  | .inf _ => (x, 0)
  | .fin n m e =>
    if m = 0 ∨ e ≥ 0 then (x, 0)
    else
      let (q, _) := roundAt mode draw ⟨n, m, e, false⟩ 0
      ((fp32.round .rne 0 false ⟨n, q, 0, false⟩).1, 0)

/-- FFRC (R140). -/
def fFrc (x : Nat) : Nat × Nat :=
  match fp32.unpack x with
  | .nan s => nanOut fp32 s
  | .inf _ => (fp32.nan, flNV)
  | .fin n m e =>
    let v := Dy.of n m e
    let (r, fl) := fp32.round .rz 0 false ((v.sub (Dy.ofInt v.floor)).mag false)
    (r, fl &&& flNX)

/-- FCLASS (R141). -/
def fClass (x : Nat) : Nat :=
  match fp32.unpack x with
  | .nan s => if s then 2 ^ 8 else 2 ^ 9
  | .inf n => if n then 1 else 2 ^ 7
  | .fin n m _ =>
    if m = 0 then (if n then 2 ^ 3 else 2 ^ 4)
    else if m < 2 ^ 23 then (if n then 2 ^ 2 else 2 ^ 5) else (if n then 2 else 2 ^ 6)

/-- FLDEXP (R143). -/
def fLdexp (mode : Rnd) (draw : Nat) (x k : Nat) : Nat × Nat :=
  match fp32.unpack x with
  | .nan s => nanOut fp32 s
  | .inf _ => (x, 0)
  | .fin n m e =>
    if m = 0 then (x, 0)
    else
      -- beyond these limits every k gives the same rounding
      let k := max (-1000) (min 1000 (sext k 32))
      fp32.round mode draw false ⟨n, m, e + k, false⟩

/-- One binary format to another (R157, R26, R37). -/
def fvConvert (dst : FSpec) (mode : Rnd) (draw : Nat) (sat : Bool) (x : FVal) : Nat × Nat :=
  match x with
  | .nan s => nanOut dst s
  | .inf n => if sat then (dst.largest n, flSATD) else if dst.e4m3 then (0x7F, flNV) else (dst.inf n, 0)
  | .fin n m e => dst.round mode draw sat ⟨n, m, e, false⟩
def fConvert (src dst : FSpec) (mode : Rnd) (draw : Nat) (sat : Bool) (x : Nat) : Nat × Nat :=
  fvConvert dst mode draw sat (src.unpack x)

/-- Limits of an integer format: width and signedness. -/
def intWidth (f : Fmt) : Nat :=
  match f with
  | .int8 | .uint8 => 8
  | .int16 | .uint16 => 16
  | .int64 | .uint64 => 64
  | _ => 32

def intSigned (f : Fmt) : Bool :=
  match f with
  | .int8 | .int16 | .int32 | .int64 => true
  | _ => false

def intLo (f : Fmt) : Int := if intSigned f then -((2 ^ (intWidth f - 1) : Nat) : Int) else 0
def intHi (f : Fmt) : Int := ((2 ^ (if intSigned f then intWidth f - 1 else intWidth f) : Nat) : Int) - 1

/-- The value of an integer pattern of a format. -/
def intVal (f : Fmt) (x : Nat) : Int :=
  if intSigned f then sext x (intWidth f) else ((x % 2 ^ intWidth f : Nat) : Int)

/-- The register image of an integer result: 8 and 16 bits extended to 32 by signedness (R156). -/
def intImage (f : Fmt) (v : Int) : Nat :=
  if intWidth f = 64 then wrapI v 64 else wrapI (intVal f (wrapI v (intWidth f))) 32

/-- Float to integer (R38, R157). -/
def fvToInt (dst : Fmt) (mode : Rnd) (draw : Nat) (sat : Bool) (x : FVal) : Nat × Nat :=
  let clamp (n : Bool) : Nat × Nat :=
    (intImage dst (if n then intLo dst else intHi dst), flNV ||| (if sat then flSATD else 0))
  match x with
  | .nan _ => (0, flNV)
  | .inf n => clamp n
  | .fin n m e =>
    let (q, inexact) := roundAt mode draw ⟨n, m, e, false⟩ 0
    let v : Int := if n then -(q : Int) else q
    if v < intLo dst ∨ v > intHi dst then clamp n else (intImage dst v, if inexact then flNX else 0)

def fToInt (src : FSpec) (dst : Fmt) (mode : Rnd) (draw : Nat) (sat : Bool) (x : Nat) : Nat × Nat :=
  fvToInt dst mode draw sat (src.unpack x)

/-- Integer to float (R157). -/
def intToF (src : Fmt) (dst : FSpec) (mode : Rnd) (draw : Nat) (sat : Bool) (x : Nat) : Nat × Nat :=
  dst.round mode draw sat ((Dy.ofInt (intVal src x)).mag false)

/-- Integer to integer (R157). -/
def intToInt (src dst : Fmt) (sat : Bool) (x : Nat) : Nat × Nat :=
  let v := intVal src x
  if sat then
    (if v < intLo dst then (intImage dst (intLo dst), flSATD)
     else if v > intHi dst then (intImage dst (intHi dst), flSATD) else (intImage dst v, 0))
  else (intImage dst v, 0)

/-- CVT of one value between two formats of R156: the register image of the result and the flags. -/
def cvt (src dst : Fmt) (mode : Rnd) (draw : Nat) (sat : Bool) (x : Nat) : Nat × Nat :=
  match src.isFloat, dst.isFloat with
  | true, true => fConvert (fspecOf src) (fspecOf dst) mode draw sat (x % 2 ^ (fspecOf src).width)
  | true, false => fToInt (fspecOf src) dst mode draw sat (x % 2 ^ (fspecOf src).width)
  | false, true => intToF src (fspecOf dst) mode draw sat x
  | false, false => intToInt src dst sat x

/-- The n of a shared-exponent format (R29). -/
def sxN (f : Fmt) : Nat :=
  match f with
  | .sx7 => 7
  | .sx4 | .sx4x => 4
  | _ => 2

/-- A shared-exponent block: exponent, the eight micro-exponents, and sign and magnitude of each element (R29). -/
structure SxBlock where
  e : Nat
  m : List Bool
  el : List (Bool × Nat)
  deriving DecidableEq, Repr

/-- The NaN block (R29). -/
def sxNan : SxBlock := ⟨0xFF, List.replicate 8 false, List.replicate 16 (false, 0)⟩

/-- The exponent of the unit of an element: E - 127 - m - (n - 1). -/
def sxUnit (e n : Nat) (m : Bool) : Int := (e : Int) - 127 - (if m then 1 else 0) - ((n : Int) - 1)

/-- Round x / 2^unit to an integer magnitude. -/
def sxQ (mode : Rnd) (draw : Nat) (x : FVal) (unit : Int) : Nat :=
  match x with
  | .fin n m e => (roundAt mode draw ⟨n, m, e, false⟩ unit).1
  | _ => 0

/-- sx_encode of R33: the block, and each element's flags. `draw i` is the draw of element i. DESIGN CHOICE (log entry 69): any NaN sets NV, as R33's
text has it, where R23 lets a quiet NaN set none. -/
def sxEncode (xs : List FVal) (n : Nat) (mode : Rnd) (draw : Nat → Nat) (sat : Bool) : SxBlock × List Nat :=
  let pre : List (FVal × Nat) := xs.map fun x =>
    match x with
    | .inf s => if sat then (.fin s (2 ^ 24 - 1) 104, flSATD) else (x, 0)
    | _ => (x, 0)
  let ys := pre.map (·.1)
  let bad := ys.any fun x => match x with | .fin _ _ _ => false | _ => true
  if bad then
    (sxNan, pre.map fun p => p.2 ||| (match p.1 with | .fin _ _ _ => 0 | _ => flNV))
  else
    let tops : List Int := ys.filterMap fun x => match x with
      | .fin _ m e => if m = 0 then none else some (e + Nat.log2 m)
      | _ => none
    let e0 : Nat := match tops with
      | [] => 0
      | t :: ts => ((min (ts.foldl max t + 127) 254)).toNat
    let idx := List.range 16
    let at' (i : Nat) : FVal := ys.getD i (.fin false 0 0)
    let q0 (e i : Nat) : Nat := sxQ mode (draw i) (at' i) (sxUnit e n false)
    let excess := idx.any fun i => decide (q0 e0 i = 2 ^ n)
    let e := if tops.isEmpty then 0 else if excess && decide (e0 < 254) then e0 + 1 else e0
    let fine (i : Nat) : Nat := sxQ mode (draw i) (at' i) (sxUnit e n true)
    let ms := (List.range 8).map fun j =>
      let f0 := fine (2 * j)
      let f1 := fine (2 * j + 1)
      decide (f0 ≤ 2 ^ n - 1 ∧ f1 ≤ 2 ^ n - 1 ∧ (f0 ≠ 0 ∨ f1 ≠ 0))
    let one (i : Nat) : (Bool × Nat) × Nat :=
      let mi := ms.getD (i / 2) false
      let q := if mi then fine i else q0 e i
      let big := decide (q > 2 ^ n - 1)
      let mag := if big then 2 ^ n - 1 else q
      match at' i with
      | .fin s m g =>
        let exact := if m = 0 then true
          else ((Dy.of false m g).sub (Dy.of false mag (sxUnit e n mi))).isZero
        ((s, mag), (if big then (if sat then flSATD else flOF) else 0)
          ||| (if mag = 0 ∧ m ≠ 0 then flUF else 0) ||| (if exact then 0 else flNX))
      | _ => ((false, 0), 0)
    let rs := idx.map one
    (⟨e, ms, rs.map (·.1)⟩, (rs.zip (pre.map (·.2))).map fun p => p.1.2 ||| p.2)

/-- The FP32 value of an element of a block (R29, R32). -/
def sxDecode (e n : Nat) (m : Bool) (s : Bool) (mag : Nat) : Nat :=
  if e = 0xFF then fp32.nan else (fp32.round .rne 0 false ⟨s, mag, sxUnit e n m, false⟩).1

/-- One step of the generator (R40). -/
def lfsrStep (s : Nat) : Nat :=
  let b := (bits s 63 63 + bits s 62 62 + bits s 60 60 + bits s 59 59) % 2
  (2 * s) % 2 ^ 64 + b

/-- The generator after n steps. -/
def lfsr (s : Nat) : Nat → Nat
  | 0 => s
  | n + 1 => lfsr (lfsrStep s) n

/-- rotl of a 64-bit value. -/
def rotl64 (x k : Nat) : Nat := (x * 2 ^ (k % 64)) % 2 ^ 64 + x / 2 ^ (64 - k % 64)

/-- The draw of result j of lane l (R40). -/
def drawOf (s l j : Nat) : Nat := rotl64 s ((2 * l + 16 * j) % 64) % 65536

/-- A state of zero is replaced by one (R42). -/
def rngFix (s : Nat) : Nat := if s % 2 ^ 64 = 0 then 1 else s % 2 ^ 64

end Sys2Proof.Machine
end

