-- ==== Sys2Proof/Machine/Aes.lean ====
section
/-! DEFINITION. AES-256-XTS, by which lines are encrypted between the slices and HBM (R450). The spec names the cipher; FIPS 197 and IEEE 1619
define it. The order of a key's bytes within its words is DEDUCED (log entry 5). -/

namespace Sys2Proof.Machine

open Sys2Proof

/-- The S-box and its inverse: entry b stands in bits 8b + 7 to 8b. -/
def aesSboxTable : Nat :=
  0x16bb54b00f2d99416842e6bf0d89a18cdf2855cee9871e9b948ed9691198f8e19e1dc186b95735610ef6034866b53e708a8bbd4b1f74dde8c6b4a61c2e2578ba08ae7a65eaf4566ca94ed58d6d37c8e779e4959162acd3c25c2406490a3a32e0db0b5ede14b8ee4688902a22dc4f816073195d643d7ea7c41744975fec130ccdd2f3ff1021dab6bcf5389d928f40a351a89f3c507f02f94585334d43fbaaefd0cf584c4a39becb6a5bb1fc20ed00d153842fe329b3d63b52a05a6e1b1a2c830975b227ebe28012079a059618c323c7041531d871f1e5a534ccf73f362693fdb7c072a49cafa2d4adf04759fa7dc982ca76abd7fe2b670130c56f6bf27b777c63
def aesInvTable : Nat :=
  0x7d0c2155631469e126d677ba7e042b17619953833cbbebc8b0f52aae4d3be0a0ef9cc9939f7ae52d0d4ab519a97f51605fec8027591012b131c7078833a8dd1ff45acd78fec0db9a2079d2c64b3e56fc1bbe18aa0e62b76f89c5291d711af1476edf751ce837f9e28535ade72274ac9673e6b4f0cecff297eadc674f4111913a6b8a130103bdafc1020f3fca8f1e2cd00645b3b80558e4f70ad3bc8c00abd890849d8da75746155edab9edfd5048706c92b6655dcc5ca4d41698688664f6f87225d18b6d49a25b76b224d92866a12e084ec3fa420b954cee3d23c2a632947b54cbe9dec444438e3487ff2f9b8239e37cfbd7f3819ea340bf38a53630d56a0952
def aesSub (b : Nat) : Nat := bits aesSboxTable (8 * b + 7) (8 * b)
def aesInvSub (b : Nat) : Nat := bits aesInvTable (8 * b + 7) (8 * b)

/-- Multiplication in the field of AES: by x, and by a constant of at most four bits. -/
def aesX (b : Nat) : Nat := if b ≥ 128 then (2 * b % 256) ^^^ 0x1B else 2 * b
def aesMul (c b : Nat) : Nat :=
  (if bit c 0 then b else 0) ^^^ (if bit c 1 then aesX b else 0) ^^^ (if bit c 2 then aesX (aesX b) else 0)
    ^^^ (if bit c 3 then aesX (aesX (aesX b)) else 0)

/-- Bytes added without carry. -/
def xorBytes (a b : List Nat) : List Nat := List.zipWith (fun x y => x ^^^ y) a b

/-- The next word of the key schedule: the number of the word, the words so far, latest first. -/
def aesNextWord (i : Nat) (ws : List (List Nat)) : List Nat :=
  let t := ws.headD []
  let rcon := [1, 2, 4, 8, 16, 32, 64].getD (i / 8 - 1) 0
  let u := if i % 8 = 0 then xorBytes ((t.drop 1 ++ t.take 1).map aesSub) [rcon, 0, 0, 0]
    else if i % 8 = 4 then t.map aesSub
    else t
  xorBytes (ws.getD 7 []) u

/-- The words of the key schedule of a 32-byte key, in order. -/
def aesSchedule (key : List Nat) : List (List Nat) :=
  let start := ((List.range 8).map fun i => (key.drop (4 * i)).take 4).reverse
  ((List.range 52).foldl (fun ws i => aesNextWord (i + 8) ws :: ws) start).reverse

/-- The key of a round. -/
def aesRoundKey (ws : List (List Nat)) (r : Nat) : List Nat := ((ws.drop (4 * r)).take 4).flatten

/-- Rows rotated by their numbers, to the left or back; columns multiplied by a matrix whose rows are the rotations of one row. -/
def aesShift (back : Bool) (s : List Nat) : List Nat :=
  (List.range 16).map fun i => s.getD (4 * ((i / 4 + (if back then 4 - i % 4 else i % 4)) % 4) + i % 4) 0
def aesMix (row : List Nat) (s : List Nat) : List Nat :=
  (List.range 16).map fun i => (List.range 4).foldl (fun a j => a ^^^ aesMul (row.getD ((j + 4 - i % 4) % 4) 0) (s.getD (4 * (i / 4) + j) 0)) 0

/-- One block enciphered, and deciphered. -/
def aesEnc (ws : List (List Nat)) (b : List Nat) : List Nat :=
  let s := (List.range 13).foldl (fun s r => xorBytes (aesMix [2, 3, 1, 1] (aesShift false (s.map aesSub))) (aesRoundKey ws (r + 1)))
    (xorBytes b (aesRoundKey ws 0))
  xorBytes (aesShift false (s.map aesSub)) (aesRoundKey ws 14)
def aesDec (ws : List (List Nat)) (b : List Nat) : List Nat :=
  let s := (List.range 13).foldl (fun s r => aesMix [14, 11, 13, 9] (xorBytes ((aesShift true s).map aesInvSub) (aesRoundKey ws (13 - r))))
    (xorBytes b (aesRoundKey ws 14))
  xorBytes ((aesShift true s).map aesInvSub) (aesRoundKey ws 0)

/-- The 16 bytes of a number, lowest first, and the number. -/
def tweakBytes (x : Nat) : List Nat := (List.range 16).map fun i => bits x (8 * i + 7) (8 * i)
def tweakNat (bs : List Nat) : Nat := bs.foldr (fun b x => b + 256 * x) 0

/-- The tweak of the next block: multiplied by x in the field of 128 bits. -/
def xtsNext (t : Nat) : Nat := if t ≥ 2 ^ 127 then (2 * t % 2 ^ 128) ^^^ 0x87 else 2 * t

/-- The tweaks of the eight blocks of line n. -/
def xtsTweaks (tk : List (List Nat)) (n : Nat) : List Nat :=
  (List.range 7).foldl (fun ts _ => ts ++ [xtsNext (ts.getLastD 0)]) [tweakNat (aesEnc tk (tweakBytes n))]

/-- Four words of a key as its 32 bytes, low word first. -/
def keyBytes (ws : List Dword) : List Nat := ws.flatMap fun w => (List.range 8).map fun i => bits w.toNat (8 * i + 7) (8 * i)

/-- A line under key material of eight words, the data key before the tweak key (R451): enciphered, or deciphered. Without material (key ID 0) it
is what it is. -/
def xtsLine (enc : Bool) (mat : List Dword) (n : Nat) (bs : List Byte) : List Byte :=
  if mat = [] then bs
  else
    let dk := aesSchedule (keyBytes (mat.take 4))
    let ts := xtsTweaks (aesSchedule (keyBytes (mat.drop 4))) n
    (ts.zipIdx.flatMap fun t =>
      let b := xorBytes (((bs.drop (16 * t.2)).take 16).map BitVec.toNat) (tweakBytes t.1)
      xorBytes (if enc then aesEnc dk b else aesDec dk b) (tweakBytes t.1)).map (BitVec.ofNat 8)

end Sys2Proof.Machine
end

