-- ==== Sys2Proof/Machine/Firmware.lean ====
section
/-! DEFINITION. The boot of a reset (R467): the verification of the firmware's stages and their measurement. The spec names SHA-512 and ECDSA on
P-521; FIPS 180 and FIPS 186 define them. -/

namespace Sys2Proof.Machine

open Sys2Proof

/-- The largest r of at most n bits with r ^ k not above x. -/
def rootBits (k x : Nat) : Nat → Nat → Nat
  | 0, r => r
  | n + 1, r => rootBits k x n (if (r + 2 ^ n) ^ k ≤ x then r + 2 ^ n else r)

/-- The first 80 primes; the first 64 bits of the fractions of their roots are the constants of SHA-512. -/
def shaPrimes : List Nat := (List.range 410).filter fun n => decide (2 ≤ n) && (List.range 21).all fun d => decide (d < 2 ∨ d ≥ n) || decide (n % d ≠ 0)
def shaK : List Nat := shaPrimes.map fun p => rootBits 3 (p * 2 ^ 192) 67 0 % 2 ^ 64
def shaStart : List Nat := (shaPrimes.take 8).map fun p => rootBits 2 (p * 2 ^ 128) 70 0 % 2 ^ 64

def add64 (a b : Nat) : Nat := (a + b) % 2 ^ 64
def ror64 (x n : Nat) : Nat := x / 2 ^ n ||| x * 2 ^ (64 - n) % 2 ^ 64

/-- A number of n bytes, the highest first, and the number that bytes are. -/
def bytesBig (x n : Nat) : List Byte := (toBytes x n).reverse
def ofBytesBig (bs : List Byte) : Nat := ofBytes bs.reverse

/-- The message with its padding, in words of 64 bits. -/
def shaWords (bs : List Byte) : List Nat :=
  let all := bs ++ [0x80#8] ++ List.replicate ((239 - bs.length % 128) % 128) 0#8 ++ bytesBig (8 * bs.length) 16
  (List.range (all.length / 8)).map fun i => ofBytesBig ((all.drop (8 * i)).take 8)

/-- The schedule of a block: n words more, the latest first. -/
def shaSchedule : Nat → List Nat → List Nat
  | 0, ws => ws
  | n + 1, ws =>
    let w (i : Nat) : Nat := ws.getD (i - 1) 0
    let s0 := ror64 (w 15) 1 ^^^ ror64 (w 15) 8 ^^^ w 15 / 2 ^ 7
    let s1 := ror64 (w 2) 19 ^^^ ror64 (w 2) 61 ^^^ w 2 / 2 ^ 6
    shaSchedule n (add64 (add64 (w 16) s0) (add64 (w 7) s1) :: ws)

/-- A round, by its constant and its word. -/
def shaRound (v : List Nat) (kw : Nat × Nat) : List Nat :=
  let x (i : Nat) : Nat := v.getD i 0
  let s1 := ror64 (x 4) 14 ^^^ ror64 (x 4) 18 ^^^ ror64 (x 4) 41
  let ch := (x 4 &&& x 5) ^^^ ((2 ^ 64 - 1 - x 4) &&& x 6)
  let t1 := add64 (add64 (x 7) s1) (add64 ch (add64 kw.1 kw.2))
  let s0 := ror64 (x 0) 28 ^^^ ror64 (x 0) 34 ^^^ ror64 (x 0) 39
  let maj := (x 0 &&& x 1) ^^^ (x 0 &&& x 2) ^^^ (x 1 &&& x 2)
  [add64 t1 (add64 s0 maj), x 0, x 1, x 2, add64 (x 3) t1, x 4, x 5, x 6]

/-- n blocks of a message. -/
def shaBlocks : Nat → List Nat → List Nat → List Nat
  | 0, _, v => v
  | n + 1, ws, v =>
    let sched := (shaSchedule 64 (ws.take 16).reverse).reverse
    shaBlocks n (ws.drop 16) (List.zipWith add64 v ((shaK.zip sched).foldl shaRound v))

/-- SHA-512. -/
def sha512 (bs : List Byte) : List Byte :=
  let ws := shaWords bs
  (shaBlocks (ws.length / 16) ws shaStart).flatMap fun x => bytesBig x 8

/-- P-521: its field, its coefficient b (a is −3), its base point and the order of that. -/
def p521 : Nat := 2 ^ 521 - 1
def p521B : Nat := 0x51953eb9618e1c9a1f929a21a0b68540eea2da725b99b315f3b8b489918ef109e156193951ec7e937b1652c0bd3bb1bf073573df883d2c34f1ef451fd46b503f00
def p521G : Nat × Nat :=
  (0xc6858e06b70404e9cd9e3ecb662395b4429c648139053fb521f828af606b4d3dbaa14b5e77efe75928fe1dc127a2ffa8de3348b3c1856a429bf97e7e31c2e5bd66,
   0x11839296a789a3bc0045c8a5fb42c7d1bd998f54449579b446817afbd17273e662c97ee72995ef42640c550b9013fad0761353c7086a272c24088be94769fd16650)
def p521N : Nat := 2 ^ 521 - 2 ^ 260 + 0xa51868783bf2f966b7fcc0148f709a5d03bb5c9b8899c47aebb6fb71e91386409

/-- x to the power of the low n bits of e modulo m, and the inverse modulo a prime of at most 521 bits. -/
def powMod (m x e : Nat) : Nat → Nat
  | 0 => 1
  | n + 1 => (powMod m (x * x % m) (e / 2) n * if e % 2 = 1 then x else 1) % m
def invMod (m x : Nat) : Nat := powMod m (x % m) (m - 2) 521

/-- The sum of points of the curve; none is the point at infinity. -/
def p521Add (a b : Option (Nat × Nat)) : Option (Nat × Nat) :=
  match a, b with
  | none, q => q
  | q, none => q
  | some (x, y), some (u, v) =>
    if x = u ∧ (y + v) % p521 = 0 then none
    else
      let l := if x = u then (3 * x * x + p521 - 3) * invMod p521 (2 * y) % p521 else (v + p521 - y) * invMod p521 (u + p521 - x) % p521
      let z := (l * l + 2 * p521 - x - u) % p521
      some (z, (l * (x + p521 - z) + p521 - y) % p521)

/-- A point taken k times, by the low n bits of k. -/
def p521Mul (k : Nat) (q : Option (Nat × Nat)) : Nat → Option (Nat × Nat)
  | 0 => none
  | n + 1 => p521Add (p521Mul (k / 2) (p521Add q q) n) (if k % 2 = 1 then q else none)

/-- Is a point on the curve? -/
def p521On (q : Nat × Nat) : Bool :=
  decide (q.1 < p521 ∧ q.2 < p521) && decide ((q.2 * q.2 + 3 * q.1) % p521 = (q.1 * q.1 * q.1 + p521B) % p521)

/-- Is (r, s) a signature of a message under a public key: ECDSA on P-521 over SHA-512? -/
def ecdsaOk (key : Nat × Nat) (r s : Nat) (msg : List Byte) : Bool :=
  let w := invMod p521N s
  let u (x : Nat) : Nat := x * w % p521N
  decide (1 ≤ r ∧ r < p521N ∧ 1 ≤ s ∧ s < p521N) && p521On key &&
    (match p521Add (p521Mul (u (ofBytesBig (sha512 msg))) (some p521G) 521) (p521Mul (u r) (some key) 521) with
     | some q => decide (q.1 % p521N = r)
     | none => false)

/-- The digest of a public key in uncompressed form (R468). -/
def keyDigest (key : Nat × Nat) : List Byte := sha512 ([0x04#8] ++ bytesBig key.1 66 ++ bytesBig key.2 66)

/-- Does a stage pass (R467): its key has the digest that stands before it, the signature is the key's, and its version is not below the counter? -/
def stageOk (counter : Nat) (digest : List Byte) (f : Config.FwStage) : Bool :=
  decide (keyDigest f.key = digest) && ecdsaOk f.key f.r f.s f.image && decide (f.version ≥ counter)

/-- MR := SHA-512(MR ‖ digest of the stage) (R467). -/
def extendMr (mrs : List (BitVec 512)) (f : Config.FwStage) : List (BitVec 512) :=
  listUpd (f.mr % 4) (fun m => BitVec.ofNat 512 (ofBytesBig (sha512 (bytesBig m.toNat 64 ++ sha512 f.image)))) mrs

/-- The stages are verified one after the other, each by the digest that the one before it holds, and extended; was none refused (R467)? -/
def bootFrom (counter : Nat) (digest : List Byte) (mrs : List (BitVec 512)) : List Config.FwStage → List (BitVec 512) × Bool
  | [] => (mrs, true)
  | f :: fs => if stageOk counter digest f then bootFrom counter f.nextKey (extendMr mrs f) fs else (mrs, false)

/-- The boot of a reset: MR0 to MR3 start at zero (log entry 7). -/
def boot (firmware : List Config.FwStage) : List (BitVec 512) × Bool :=
  bootFrom Config.fusedVersion Config.fusedKey (List.replicate 4 0#512) firmware

end Sys2Proof.Machine
end

