-- ==== Sys2Proof/Machine/State.lean ====
section
/-! DEFINITION. The state of the machine: groups, teams, cores, the die and package units, and State.reset. -/

namespace Sys2Proof.Machine

open Sys2Proof

/-- A 32-bit element with its poison bit (R71). -/
structure Elem where
  val : Word
  pois : Bool
  deriving DecidableEq, Repr

/-- An unpoisoned zero. -/
def Elem.zero : Elem := ⟨0#32, false⟩

/-- One element for each of the 32 lanes (R49). -/
abbrev Lanes := List Elem

/-- Zero in every lane. -/
def Lanes.zero : Lanes := List.replicate 32 Elem.zero

/-- A bypass latch: the low and the high half in each lane (R56); a uniform latch holds one element. -/
structure Latch where
  lo : List Elem
  hi : List Elem
  deriving DecidableEq, Repr

/-- A hardware loop level (R62). -/
structure Loop where
  active : Bool
  lc : Word
  ls : Dword
  le : Dword
  deriving DecidableEq, Repr

/-- An inactive loop level. -/
def Loop.off : Loop := ⟨false, 0#32, 0#64, 0#64⟩

/-- The family of a macro's tile (R216). -/
inductive Family where
  | none | sx | int8 | bf16 | fp16
  deriving DecidableEq, Repr

/-- The batch step that a tile sequence is performing (R239, R241), as its start has read it: the family, the macro and the bank of its passes, ZA,
whether it draws, the passes to come (row of the bank, line, and the flags of its reading), and whether it is the last step of the sequence. -/
structure TileStep where
  fam : Family
  mac : Nat
  bank : Nat
  za : Bool
  drew : Bool
  rows : List (Nat × List (FVal × Bool) × Nat)
  last : Bool
  deriving DecidableEq, Repr

/-- What a waiting fragment waits for (R63); each holds the length in bytes of the
instruction that waits, and `gp` that its guard was poisoned (R106). -/
inductive Wait where
  | none
  /-- BAR.WT for barrier b to leave the phase (R201). -/
  | barrier (b phase len : Nat)
  /-- CBAR.WT (R295). -/
  | cluster (b phase len : Nat)
  /-- WAITC until the path's counter is at or below the threshold (R127). -/
  | path (path threshold len : Nat)
  /-- SLEEP until the clock (R126). -/
  | sleep (till len : Nat)
  /-- BAR.ARV until the arrival is applied; status register, order and scope (R200). -/
  | arrive (b d order scope len : Nat) (gp : Bool)
  /-- CBAR.ARV (R294). -/
  | carrive (b d order scope len : Nat) (gp : Bool)
  /-- FENCE until its status is written (R369). -/
  | fence (d order scope len : Nat) (gp : Bool)
  /-- QPUSH or QPOP until the queue answers (R382). -/
  | queue (len : Nat) (gp : Bool)
  /-- MSETUP until a payload slot is free (R248). -/
  | slot (len : Nat)
  /-- MTILE while the steps of its sequence are performed (R241): whether the first of them has been, and the step in hand. -/
  | tile (started : Bool) (now : Option TileStep) (len : Nat)
  /-- What it waited for has come about while it was halted, or a pre-emption has ended its SLEEP: the instruction completes at its next issue
  (R126, R203); with length 0 it is issued again. -/
  | over (len : Nat)
  deriving DecidableEq, Repr

/-- The fragment part of a split-table entry (R63). -/
structure Frag where
  own : Mask
  emask : Mask
  pc : Dword
  jtop : Option Nat
  loop0 : Loop
  loop1 : Loop
  /-- Parked at the join JTOP (R65). -/
  parked : Bool
  /-- Halted by a trap of another fragment, by single step or by debug halt (R74, R208). -/
  halted : Bool
  wait : Wait
  /-- A trap waits for the fragment's next issue: the fused loop states differed (R65), or a barrier was invalidated
  or found broken while it waited (R181, R202); the cause code. -/
  pendTrap : Option Nat
  /-- Resumed by RTE: its next instruction, or clause, checks no BPT and no WPT (R207). -/
  exempt : Bool
  deriving DecidableEq, Repr

/-- The join part of a split-table entry (R63). -/
structure Join where
  rcv : Dword
  jmask : Mask
  arrived : Mask
  up : Option Nat
  deriving DecidableEq, Repr

/-- A clause in progress (R69) with its checkpoint (R70); `num` orders the clauses of a port by their beginning. -/
structure Clause where
  num : Nat
  entry : Nat
  addr : Dword
  left : Nat
  flags : Word
  rng : Dword
  deriving DecidableEq, Repr

/-- The special registers of a group (R72), LANE excepted, which is computed. -/
structure Special where
  groupid : Word
  teamid : Word
  cluid : Word
  gridpos : Word
  fragq : Word
  flags : Word
  trapcause : Word
  trappc : Dword
  trapaddr : Dword
  trapmask : Word
  seqstate : Dword
  rngstate : Dword
  step : Word
  wpt : List Dword
  bpt : List Dword
  deriving DecidableEq, Repr

/-- Predicate bits of the 32 lanes with their poison (R53, R71). -/
structure Pred where
  val : Mask
  pois : Mask
  deriving DecidableEq, Repr

/-- Where the data of an access is written when it returns. -/
inductive Dst where
  | none
  /-- n vector registers from r. -/
  | v (r n : Nat)
  /-- n vector registers from r, then m from q (BLEND, BLENDB: R266, R267). -/
  | v2 (r n q m : Nat)
  /-- n uniform registers from r. -/
  | s (r n : Nat)
  /-- A shape register. -/
  | sh (i : Nat)
  deriving DecidableEq, Repr

/-- A line or a byte of global memory as translation leaves it (R332, R407, R449), and the page it came by (R409). -/
structure Place where
  pa : Nat
  key : Nat
  dloc : Bool
  ctx : Nat
  va : Nat
  deriving DecidableEq, Repr

/-- The content of a line: 128 bytes, and the poison of its 32-bit elements (R71, R321). -/
structure Line where
  bytes : List Byte
  pois : Mask
  deriving DecidableEq, Repr

/-- What an access does where it is performed. -/
inductive Act where
  /-- Read w bytes, sign-extended or not (R189); 64 for SHLD. -/
  | load (w : Nat) (sgn : Bool)
  | store (w : Nat)
  /-- An operation of R190. -/
  | atom (op : Nat) (w64 : Bool)
  /-- RED: combined in the L1 (R366). -/
  | red (op : Nat) (w64 : Bool)
  /-- CCTL on a line (R370). -/
  | cctl (op : Nat)
  /-- CCTL.QUERY of the slice for a key ID. -/
  | query (key : Nat)
  /-- PREF: fill the line (R368). -/
  | prefetch
  /-- BLEND (0), BLENDB (1) or RIGX (2) on n records, with the threshold t (R265). -/
  | record (op n t : Nat)
  /-- SAMPLE, SAMPLEL and SAMPLEG (0) or TXQ (1) with the words of its descriptor (R257). -/
  | texture (op : Nat) (desc : List Word)
  /-- GUPD on the elements that one bank holds (R371): operation, rounding, format, parameters, count of the range. -/
  | gupd (op rnd fmt count : Nat) (par : List Word) (base : Nat)
  deriving DecidableEq, Repr

/-- One lane's share of an access: the address it reaches, its data and the new value of a CAS. -/
structure LaneReq where
  lane : Nat
  addr : Nat
  data : List Word
  new : List Word
  deriving DecidableEq, Repr

/-- Where the answer of an access goes. -/
inductive Ret where
  | none
  /-- A part of a group's access: team, group, access, part. -/
  | part (team gix fl pt : Nat)
  /-- The flush of an update-only line: core, number of the flush. -/
  | flush (core id : Nat)
  /-- An engine's command, and the bytes it counts when they are written (R374). -/
  | cmd (id n : Nat)
  /-- A requester of a remote package: its number, and its name for the access. -/
  | remote (pkg tok : Nat)
  deriving DecidableEq, Repr

/-- Where a part of an access is performed. -/
inductive Target where
  /-- The team's own scratchpad (R178), or a member's through a window (R289). -/
  | scratch (team : Nat)
  | window (team : Nat)
  /-- The turning store of the team's core (R233). -/
  | turning
  /-- The home slice of a line (R309). -/
  | home
  | bank (b : Nat)
  /-- The host through a PCI Express port (R354). -/
  | host (port : Nat)
  /-- Another package (R472). -/
  | remote (pkg : Nat)
  /-- Nowhere: refused at the source (R449, R366), or lost to a package that is declared dead (R479). -/
  | refused
  | lost
  /-- A unit that answers by itself: engine, texture unit, matrix engine, blend walker. -/
  | unit
  deriving DecidableEq, Repr

/-- An access to one line, one bank or one scratchpad. -/
structure Req where
  act : Act
  lanes : List LaneReq
  place : Place
  tgt : Target
  ret : Ret
  /-- The issuing core; none for a requester outside the cores. -/
  core : Option Nat
  ctx : Nat
  acq : Bool
  rel : Bool
  rem : Bool
  scope : Nat
  /-- The number of the access, ascending in issue order. -/
  num : Nat
  /-- Fill the L1 from the answer (R182). -/
  fill : Bool
  deriving DecidableEq, Repr

/-- How far a part of an access has come. -/
inductive PartSt where
  /-- Not sent: an order holds it (R335), or it waits to walk again (R413). -/
  | todo
  /-- In the fault buffer (R410). -/
  | faulted
  | sent
  | done
  deriving DecidableEq, Repr

/-- A part of an access. -/
structure Part where
  req : Req
  st : PartSt
  deriving DecidableEq, Repr

/-- A counted access in flight (R60), or a fence (R369, path 8): its path, the fragment that issued it, its
instruction, where its data goes, its parts, the words that have come back for each lane, its order, and what it found. -/
structure Flight where
  id : Nat
  path : Nat
  entry : Nat
  /-- Address of its instruction, or of the CLAUSE it stood in, and whether it stood in a clause. -/
  pc : Dword
  inClause : Bool
  dst : Dst
  mask : Mask
  /-- It reads, it writes (R346). -/
  reads : Bool
  writes : Bool
  acq : Bool
  rel : Bool
  scope : Nat
  parts : List Part
  got : Map (List Elem)
  /-- The results are poisoned by the guard (R106). -/
  gp : Bool
  /-- Flags raised on its return (R194, R365). -/
  flags : Nat
  /-- It flushes the core's update-only lines: 0 no, 1 a fence that is no release, 2 a release or an arrival with release, which waits for
  the writes of the core's other groups as well (R335, R346). -/
  drain : Nat
  /-- The flushes and the writes of other groups that it waits for, once the flushes have been sent. -/
  flush : Option (List Nat)
  /-- CCTL: lines acted on, and whether one was refused (R370). -/
  lines : Nat
  partialR : Bool
  deriving DecidableEq, Repr

/-- The failure record of a group (R347). -/
structure FailRec where
  lost : Bool
  refused : Bool
  count : Nat
  deriving DecidableEq, Repr

/-- The kinds of group (R245). -/
inductive GroupKind where
  | compute | task | mesh | pixel
  deriving DecidableEq, Repr

/-- A group (R49): registers, predicates, latches, shape registers, counters, split table, special registers, and the
conditions its fragments stand in. -/
structure Group where
  kind : GroupKind
  /-- The issue port its slot belongs to, and the slot (R171, R172, R174). -/
  port : Nat
  slot : Nat
  /-- The vector registers that a write has reached; the others hold zero in every lane. -/
  v : Map Lanes
  /-- The uniform registers that a write has reached; the others hold zero. -/
  s : Map Elem
  p : List Pred
  q : BitVec 8
  qPois : BitVec 8
  bl : List (Option Latch)
  sl : List (Option Latch)
  /-- The shape registers that a write has reached, 16 words each; the others are zero. -/
  sh : Map (List Elem)
  cnt : List Nat
  flights : List Flight
  frags : Map Frag
  joins : Map Join
  sp : Special
  /-- The current fragment (R67, R174), the instructions of its quantum issued, the quantum's length, its AGE, and the consecutive clocks in
  which it has been a candidate for the vector pipe, and for the uniform pipe, and was not selected (R175). -/
  cur : Nat
  issued : Nat
  quantum : Nat
  age : Nat
  unselected : Nat
  unselectedU : Nat
  /-- It has starved, and is selected ahead of every class (R175). -/
  starved : Bool
  clause : Option Clause
  /-- The fragment whose trap handler runs (R74, R125). -/
  handler : Option Nat
  /-- The entry that single step issues from (R208). -/
  stepping : Option Nat
  /-- A debug halt waits for the group's next issue (R213). -/
  haltPending : Bool
  /-- Stopped by a double trap, or by a trap without a vector: retires without the poison check (R74, R415). -/
  stopped : Bool
  fail : FailRec
  deriving DecidableEq, Repr

/-- A named-barrier or cluster-barrier word (R180, R292). -/
structure BarWord where
  phase : Nat
  valid : Bool
  broken : Bool
  expect : Nat
  arrived : Mask
  deriving DecidableEq, Repr

/-- The word as it is laid out in 64 bits (R180, R292), and the fields of such a word. -/
def BarWord.word (w : BarWord) : Nat :=
  w.phase % 65536 * 2 ^ 48 + (if w.valid then 2 ^ 47 else 0) + (if w.broken then 2 ^ 46 else 0) + w.expect % 64 * 2 ^ 40 + w.arrived.toNat
def BarWord.ofWord (x : Nat) : BarWord :=
  ⟨x / 2 ^ 48 % 65536, decide (x / 2 ^ 47 % 2 = 1), decide (x / 2 ^ 46 % 2 = 1), x / 2 ^ 40 % 64, BitVec.ofNat 32 x⟩

/-- The word right after placement (R173, R180). -/
def BarWord.zero : BarWord := ⟨0, false, false, 0, 0#32⟩

/-- What a team takes from its launch record at placement (R389). -/
structure TeamCfg where
  launch : Nat
  ctx : Nat
  k : Nat
  groups : Nat
  scratch : Nat
  nbar : Nat
  macros : Nat
  tsq : Nat
  fs : List Nat
  entry : Dword
  trapv : Dword
  deriving DecidableEq, Repr

/-- A matrix macro (R216): FORMAT, and the cells of its tile by column, each with its poison; a cell may be absent. -/
structure Macro where
  fam : Family
  tile : List (List (Option (FVal × Bool)))
  deriving DecidableEq, Repr

/-- The matrix state of a team (R215, R216): macros, accumulator banks by row (rows that a write has reached, 128
elements each; the others are zero), the bytes of the turning store that are not zero, and its poisoned 8-byte words. -/
structure TeamMx where
  macros : List Macro
  banks : List (Map (List Elem))
  ts : List Host.Cell
  tsPois : List Nat
  deriving DecidableEq, Repr

/-- The matrix state right after placement (R215). -/
def TeamMx.fresh (macros : Nat) : TeamMx := ⟨List.replicate macros ⟨.none, []⟩, List.replicate macros [], [], []⟩

/-- A team: its place, its groups, its scratchpad and its barrier words. -/
structure Team where
  cfg : TeamCfg
  cluster : Nat
  tix : Nat
  /-- The core it is placed on; none while it is saved (R185). -/
  core : Option Nat
  /-- Of a mesh group, the cluster and the member whose TEMIT made it, with which it is pre-empted (R251). -/
  owner : Option (Nat × Nat)
  /-- Where its save image lies in the save area of its context (R395), and the 128-byte pieces of the image whose write was refused. -/
  image : Nat
  imageLost : List Nat
  groups : Map Group
  /-- Scratchpad bytes that are not zero, by offset (R177). -/
  scratch : List Host.Cell
  /-- The 8-byte scratchpad words that hold an uncorrectable error (R179). -/
  scratchPois : List Nat
  bars : List BarWord
  mx : TeamMx
  deriving DecidableEq, Repr

/-- A command of the matrix engine (R184, R226). -/
inductive MxOp where
  /-- A pass (R221) of a line through macro m into a row of bank b; its row of the row buffer holds an uncorrectable error (R244). -/
  | pass (fam : Family) (fwd : Bool) (line : List (FVal × Bool)) (m b row : Nat) (za bad : Bool)
  /-- A tile for macro m (R227, R229). -/
  | load (m : Nat) (tile : List (List (Option (FVal × Bool))))
  /-- MWB (R236): bank, destination format, MOD, control word, scale, clip, destination, generator, next row. -/
  | wb (b fmt mod ctl : Nat) (scale clip : Word) (dst : Nat) (rng : Dword) (next : Nat)
  deriving DecidableEq, Repr

/-- A queued command with the access that counts it: team, group, access, part. -/
structure MxCmd where
  team : Nat
  gix : Nat
  fl : Nat
  pt : Nat
  op : MxOp
  deriving DecidableEq, Repr

/-- The matrix engine of a core: its queue; the lines of its passes are the row buffer (R216). -/
structure Matrix where
  q : List MxCmd
  deriving DecidableEq, Repr
def Matrix.reset : Matrix := ⟨[]⟩

/-- A mesh payload slot (R248): its group and the lowest lane that opened it, the address of its MSETUP, the limits, the attribute quads of the vertices by
16 × vertex + selector, the primitives that have been written, its place in publication order, and the next primitive to set up. -/
structure Slot where
  team : Nat
  gix : Nat
  lane : Nat
  launch : Nat
  pc : Dword
  nv : Nat
  np : Nat
  na : Nat
  verts : Map (List Elem)
  prims : Map Elem
  pub : Option Nat
  next : Nat
  deriving DecidableEq, Repr

/-- Mesh groups that a TEMIT has queued (R247). -/
structure MeshReq where
  launch : Nat
  owner : Nat × Nat
  payload : List Elem
  next : Nat
  count : Nat
  deriving DecidableEq, Repr

/-- A pixel position of a quad: helper, and the registers its lane starts with (R253). -/
structure QuadLane where
  helper : Bool
  regs : List Word
  deriving DecidableEq, Repr

/-- The quads of a primitive that are not yet in a pixel group. -/
structure PixWork where
  launch : Nat
  quads : List (List QuadLane)
  deriving DecidableEq, Repr

/-- A pixel of a pixel group until it is committed (R255, R256). -/
structure Pixel where
  lane : Nat
  x : Nat
  y : Nat
  helper : Bool
  discarded : Bool
  depth : Word
  out : Map (List Word)
  deriving DecidableEq, Repr

/-- The outputs of a pixel group, held at the core (R256): its team, and whether it has retired. -/
structure PixGroup where
  launch : Nat
  team : Nat
  pixels : List Pixel
  retired : Bool
  deriving DecidableEq, Repr

/-- The rendering units of a core: the payload ring, the mesh groups to place, the rasteriser's work and its pixel
groups in rasterisation order, the publications made, and the pixel slots reserved for each draw (R245). -/
structure Render where
  slots : Map Slot
  meshQ : List MeshReq
  work : List PixWork
  pix : List PixGroup
  published : Nat
  reserved : Map Nat
  /-- Pages of contexts whose faults have been answered FATAL: the rasteriser's accesses to them count as refused. -/
  fatal : List (Nat × Nat)
  deriving DecidableEq, Repr
def Render.reset : Render := ⟨[], [], [], [], 0, [], []⟩

/-- The fragment that issues an instruction. -/
structure Issuer where
  team : Nat
  gix : Nat
  entry : Nat
  deriving DecidableEq, Repr

/-- The partial results of RED in an update-only line (R182, R183): the operation, its 8-byte form, the 32-bit elements
touched, their data and poison, and the groups whose REDs it holds. -/
structure Partial where
  op : Nat
  w64 : Bool
  touched : Mask
  data : List Word
  pois : Mask
  who : List (Nat × Nat)
  /-- The last of those REDs that was a release at cluster scope or narrower (R344). -/
  rel : Option Nat
  deriving DecidableEq, Repr

/-- The states V and UO of an L1 line (R182); a line that is not held is in I. -/
inductive L1St where
  | v (l : Line)
  | uo (p : Partial)
  deriving DecidableEq, Repr

/-- A line of an L1 (R182): its place and its state. -/
structure L1Line where
  place : Place
  st : L1St
  deriving DecidableEq, Repr

/-- What a unit of the scratchpad's queue does (R178): an access of a group, or a copy of the blend walker. -/
structure ScrOp where
  team : Nat
  req : Req
  deriving DecidableEq, Repr

/-- A home's question to a core whether everything before a release is done (R344): slice, line, key ID, number of the
release, and the flushes that the core waits for once they are sent. -/
structure Drain where
  slice : Nat
  line : Nat
  key : Nat
  num : Nat
  flush : Option (List Nat)
  deriving DecidableEq, Repr

/-- A line of a core's instruction cache (R95): its key ID, its bytes, and the model's counter of identifiers when it was fetched, by which
it is older or younger than a launch. -/
structure CodeLine where
  key : Nat
  bytes : List Byte
  at_ : Nat
  deriving DecidableEq, Repr

/-- A core (R170). -/
structure Core where
  /-- The L1 lines that are not in I, by line number. -/
  l1 : Map L1Line
  /-- The scratchpad's queue in arrival order. -/
  scrQ : List ScrOp
  /-- The turning store's queue. -/
  tsQ : List ScrOp
  /-- Flushes of update-only lines that their homes have not acknowledged, by number, with the groups whose REDs each holds. -/
  flushes : Map (List (Nat × Nat))
  drains : List Drain
  /-- The mailboxes, oldest first (R211), and INOVF. -/
  dbgOut : List Word
  dbgIn : List Word
  inovf : Bool
  /-- DBGIN.DATA: the value last written (R6, R213). -/
  dbgData : Word
  /-- The instruction cache (R95): lines by line number. -/
  icode : Map CodeLine
  /-- CERR (R417): UNCORR and CORR. -/
  uncorr : Nat
  corr : Nat
  /-- The port that issues next in the default policy. -/
  port : Nat
  mx : Matrix
  rend : Render
  deriving DecidableEq, Repr

/-- A core as reset leaves it. -/
def Core.reset : Core :=
  { l1 := [], scrQ := [], tsQ := [], flushes := [], drains := [], dbgOut := [], dbgIn := [], inovf := false, dbgData := 0#32, icode := [],
    uncorr := 0, corr := 0, port := 0, mx := Matrix.reset, rend := Render.reset }

/-- The classes of packet (R301). -/
inductive PClass where
  | request | response | recall | bulk
  deriving DecidableEq, Repr

/-- What a packet carries. -/
inductive Body where
  | access (r : Req)
  /-- A RED partial on its way home (R183): the line, the core, the number of the flush. -/
  | flushed (place : Place) (p : Partial) (core id : Nat)
  /-- The answer of an access: words for each lane, failure (1 lost, 2 refused), flags, the line for the L1, lines of CCTL. -/
  | reply (ret : Ret) (words : Map (List Elem)) (fail flags : Nat) (fill : Option Line) (lines : Nat)
  /-- A home recalls UO, or invalidates V (R322). -/
  | recall (line : Nat) (uo : Bool)
  | recallAck (line core : Nat)
  /-- A home asks a core to drain (R344), and its answer. -/
  | drain (line num : Nat)
  | drainAck (line : Nat)
  /-- A numbered packet of a flow on its way over the torus from the exit port to its sending port, and one of another package from the port it
  arrived at to the entry port (R473). -/
  | leg (flow number : Nat)
  | came (pkg : Nat) (cls : PClass) (number : Nat) (body : Body)
  deriving DecidableEq, Repr

/-- Where a packet is. -/
inductive Loc where
  /-- In the network at its stop. -/
  | net
  /-- In the endpoint of its destination, by order of arrival. -/
  | arrived (n : Nat)
  /-- On the recovery lane (R305). -/
  | lane
  /-- At the exit port, before it has its number (R473). -/
  | exit
  deriving DecidableEq, Repr

/-- A packet (R301): class, source, destination, the stop it is at, sequence number, key ID, the link it came by and
when, and the package it is bound for, with the package it came from. -/
structure Packet where
  cls : PClass
  src : Nat
  dst : Nat
  here : Nat
  seq : Nat
  key : Nat
  body : Body
  loc : Loc
  since : Nat
  via : Option (Nat × Nat)
  pkg : Option Nat
  /-- The virtual channel whose buffer it lies in (R302), the hops that took it away from its destination, and whether the time-out detector
  has fired for it where it is (R304). -/
  vc : Nat
  detours : Nat
  fired : Bool
  deriving DecidableEq, Repr

/-- A valid tag (R311): key ID, data entry (none in state Z), flags D, N, W (the command that owns it), X; an uncorrectable error in the tag
itself (R331). -/
structure Tag where
  key : Nat
  entry : Option Nat
  d : Bool
  n : Bool
  w : Option Nat
  x : Bool
  bad : Bool
  deriving DecidableEq, Repr

/-- A LIVE data entry (R308, R311). -/
structure DataEntry where
  line : Line
  rc : Nat
  key : Nat
  indexed : Bool
  deriving DecidableEq, Repr

/-- What a home knows of a line (R322, R344): the cores that hold it in V and in UO, the cores whose acknowledgement it
awaits, the last release below device scope that it saw (core and number), and whether a drain is out or has answered. -/
structure Dir where
  v : List Nat
  uo : List Nat
  waiting : List Nat
  lastRel : Option (Nat × Nat)
  drainOut : Bool
  drained : Bool
  deriving DecidableEq, Repr

/-- A line that nothing is known of. -/
def Dir.empty : Dir := ⟨[], [], [], none, false, false⟩

/-- The adaptive admission of a slice (R466): admission is on, the window in which it turned off, and the
admissions and joins of the window. -/
structure Adapt where
  on : Bool
  offSince : Option Nat
  window : Nat
  admissions : Nat
  joins : Nat
  deriving DecidableEq, Repr

/-- A slice of the L2 (R308). -/
structure Slice where
  tags : Map Tag
  entries : Map DataEntry
  dirs : Map Dir
  /-- Lines asked of memory under a key ID (R313). -/
  fills : List (Nat × Nat)
  hashmiss : Nat
  refuse : Nat
  unshare : Nat
  corr : Nat
  adapt : Adapt
  deriving DecidableEq, Repr

/-- A slice as reset leaves it. -/
def Slice.reset : Slice :=
  { tags := [], entries := [], dirs := [], fills := [], hashmiss := 0, refuse := 0, unshare := 0, corr := 0,
    adapt := ⟨true, none, 0, 0, 0⟩ }

/-- A router (R306): ARMED with a packet, or IDLE; NETSTAT (R326); the widths of its links (LNKW). -/
structure Router where
  armed : Option Nat
  fire : Nat
  capt : Nat
  lnkw : List Nat
  deriving DecidableEq, Repr

/-- A router as reset leaves it. -/
def Router.reset : Router := ⟨none, 0, 0, [0, 0, 0, 0]⟩

/-- The Lantern and its recovery lane (R305, R306): the stop, the packet on the lane, the packet in the recovery buffer of its stop, and
whether the ring works (R331). -/
structure Lantern where
  at_ : Nat
  carry : Option Nat
  buf : Option Nat
  works : Bool
  deriving DecidableEq, Repr

/-- A cached translation (R408): context, first address, size, physical base, and the leaf's fields. -/
structure TlbEntry where
  ctx : Nat
  va : Nat
  size : Nat
  pa : Nat
  key : Nat
  dloc : Bool
  perm : Nat
  deriving DecidableEq, Repr

/-- Who waits for a translation fault to be answered (R410). -/
inductive Faulter where
  /-- A part of a group's access: team, group, access, part. -/
  | part (team gix fl pt : Nat)
  /-- The fetch of a fragment, or an instruction that translates before it is issued (CCTL, BKSET). -/
  | fetch (team gix entry : Nat)
  /-- A faulted access or fetch of an interrupted clause, which is issued again with the whole clause (R70): the CLAUSE, the lanes and the lowest
  address. -/
  | member (team gix entry : Nat) (clause : Dword) (mask : Mask) (addr : Nat)
  /-- An engine's command. -/
  | engine (cmd : Nat)
  /-- The front end, for acceptance in a context; for the completion of a launch; a gather unit, for a template. -/
  | frontEnd (ctx : Nat)
  | completion (launch : Nat)
  | template (die ctx tmpl : Nat)
  /-- The rasteriser of a core, for a draw. -/
  | raster (core launch : Nat)
  deriving DecidableEq, Repr

/-- An entry of a fault buffer (R411): the failed walk, who waits, whether it has a record of its own and whether
that record has been posted, and whether it has been answered FATAL. -/
structure FaultEntry where
  ctx : Nat
  va : Nat
  cause : Nat
  access : Nat
  level : Nat
  pte : Nat
  stop : Nat
  who : Faulter
  /-- Accesses it stands for. -/
  count : Nat
  record : Bool
  deriving DecidableEq, Repr

/-- What a command asks of its unit (R374, R382, R383, R384, R458, R461). -/
inductive CmdKind where
  | copy | sort | encode | coll | emitc | launch
  /-- BKSET on a bucket counter. -/
  | arm (bucket : Nat)
  /-- QPUSH and QPOP on a queue. -/
  | push (queue : Nat)
  | pop (queue : Nat)
  deriving DecidableEq, Repr

/-- A key of a sort with its payload, and whether they are poisoned (R378). -/
structure SortItem where
  key : Nat
  val : Nat
  keyPois : Bool
  valPois : Bool
  deriving DecidableEq, Repr

/-- A write for which an engine owns its line (R324), or to a word of a scratchpad or of the Granary: bytes by offset in the line, or by
address, each with its poison. -/
inductive EngWrite where
  | mem (p : Place) (bs : Map (Byte × Bool))
  | scratch (team : Nat) (bs : Map (Byte × Bool))
  | gran (bs : Map (Byte × Bool))
  /-- Bytes that their target refuses (R327). -/
  | refused
  deriving DecidableEq, Repr

/-- A command (R350, R374, R382, R384, R403). -/
structure Cmd where
  kind : CmdKind
  /-- The die of its engine, its context, and the class of the launch that issued it (R403). -/
  die : Nat
  ctx : Nat
  cls : Nat
  /-- The access that counts it: team, group, access; and the entry of its fragment. -/
  issuer : Option (Nat × Nat × Nat)
  entry : Nat
  /-- The team whose scratchpad it uses (R375). -/
  team : Option Nat
  /-- The descriptor or submission block; 16 words for each record of EMITC. -/
  desc : List Word
  /-- The block of QPUSH. -/
  blk : List Elem
  /-- Completion word and sequence value; address of the record of LAUNCH and of the block of ENCSUB. -/
  w : Nat
  seq : Nat
  at_ : Nat
  /-- The registers that the answer of a queue goes to: the block, and the q bit (R382). -/
  dst : Nat
  pred : Nat
  /-- The range of BKSET (R461). -/
  range : Option (Place × Nat)
  /-- Its place in acceptance order; its channel or encoder; its number among the commands of its communicator (R459). -/
  accepted : Option Nat
  chan : Nat
  nth : Nat
  /-- The packages of the ranks, read at acceptance (R476). -/
  ranks : List Nat
  /-- Its stage; the lines or words it has still to read or to write in this stage, the lines read, and the writes for which it
  owns a line. -/
  stage : Nat
  left : List Nat
  got : Map (List (Byte × Bool))
  out : List EngWrite
  /-- What it writes in its last stage: bytes by address. -/
  result : Map (Byte × Bool)
  /-- Keys of a sort between passes; the passes made; a pass is under way. -/
  work : List SortItem
  passes : Nat
  busy : Bool
  /-- Every access has been performed or has failed (R352); the record has been written. -/
  ended : Bool
  recorded : Bool
  /-- Writes to other packages that have not been acknowledged. -/
  wait : Nat
  status : Nat
  flags : Nat
  count : Nat
  /-- The bucket that fired it (R462), or the launch whose input it copies (R397). -/
  bucket : Option Nat
  input : Option Nat
  /-- Of a group that has retired: the core and the flushes that the command's release still waits for (R75, R350). -/
  after : Option (Nat × List Nat)
  deriving DecidableEq, Repr

/-- A contribution of another rank that has arrived (R477): communicator, number of the command, rank, its
descriptor words, and the bytes of its source with their poison. -/
structure Peer where
  comm : Nat
  nth : Nat
  rank : Nat
  desc : List Word
  ord : List Byte
  src : List (Byte × Bool)
  deriving DecidableEq, Repr

/-- The states of a bucket counter (R462). -/
inductive BucketSt where
  | free | armed | fired
  deriving DecidableEq, Repr

/-- A bucket counter (R461, R462): its owner, the range, what it fires. -/
structure Bucket where
  st : BucketSt
  ctx : Nat
  count : Nat
  excess : Bool
  total : Nat
  place : Place
  desc : List Word
  w : Nat
  seq : Nat
  deriving DecidableEq, Repr

/-- A hardware queue (R401, R402): the entries on chip, and the counts of its ring. -/
structure HwQueue where
  chip : List (List Elem)
  rcnt : Nat
  rtail : Nat
  rhead : Nat
  pushes : Nat
  pops : Nat
  spills : Nat
  naks : Nat
  err : Bool
  deriving DecidableEq, Repr

/-- A queue as reset leaves it. -/
def HwQueue.reset : HwQueue := ⟨[], 0, 0, 0, 0, 0, 0, 0, false⟩

/-- A bin of a gather unit (R399). -/
structure Bin where
  ctx : Nat
  tmpl : Nat
  entry : Nat
  oldest : Nat
  recs : List (List Word)
  deriving DecidableEq, Repr

/-- A gather unit (R399): records that have been sent and not taken (context, flags, words, access), its bins, and for each
template the groups made (R400). -/
structure Gather where
  bins : List Bin
  made : Map Nat
  deriving DecidableEq, Repr

/-- A launch that has been accepted (R388): its record, the first bytes of its argument block, the block named by EXT. -/
structure Launch where
  ctx : Nat
  rcd : List Byte
  args : List Byte
  ext : List Byte
  /-- The render state of a draw (R246). -/
  rstate : List Byte
  deadline : Nat
  /-- REASON of a launch that was refused at admission (R390); 0 for one that was admitted. -/
  reason : Nat
  /-- The next cluster to place (of a gathered group, its CLUID: R400), the clusters that have ended, the groups that have retired. -/
  nextClu : Nat
  ended : Nat
  retired : Nat
  status : Nat
  /-- Lines prefetched (R396). -/
  fetched : Nat
  /-- A task: 0 while it has dependences, 1 while its inputs are copied; 2 when the grid may be placed (R397). -/
  phase : Nat
  copies : List Nat
  /-- A group gathered from continuation records (R399), and the records of its lanes. -/
  gathered : Bool
  recs : List (List Word)
  /-- Flushes at the end of the launch on a core that it waits for (R183, R353). -/
  flushes : List (Nat × Nat)
  /-- Lines of the dead ranges discarded (R396). -/
  dropped : Nat
  /-- Hierarchical depth of a draw (R254): bounds on the stored depths by 65,536 × row + column of 8 × 8 blocks, none where no depth stored is a
  number; a block that is not listed has not been touched. -/
  hiz : Map (Option (Nat × Nat))
  deriving DecidableEq, Repr

/-- A record that is being accepted (R388): from the ring (none) or by a LAUNCH, and what has been read. -/
structure Accept where
  cmd : Option Nat
  rcd : Option (List Byte)
  args : Option (List Byte)
  ext : Option (List Byte)
  rstate : Option (List Byte)
  kdesc : Option (List Byte)
  /-- A read of the arguments or of a block was refused, poisoned or fatally faulted (R390). -/
  bad : Bool
  deriving DecidableEq, Repr

/-- A cluster that has been placed (R282): its launch, its number, its teams by TIX, its barrier words; since when
it is resident; whether it is saved (R185) or being pre-empted. -/
structure Cluster where
  launch : Nat
  cluid : Nat
  width : Nat
  teams : List Nat
  bars : List BarWord
  since : Nat
  saved : Bool
  preempting : Bool
  /-- MINRUN has passed (R394). -/
  ripe : Bool
  deriving DecidableEq, Repr

/-- An entry of the task table (R397). -/
structure Task where
  ctx : Nat
  tid : Nat
  dep : Int
  sub : Bool
  deriving DecidableEq, Repr

/-- The sending half of a fabric flow (R473, R474): the next number, the packets not acknowledged with their numbers and
planes, the requests that have not been answered, when it last advanced, and whether RTO has been reported. -/
structure ExitFlow where
  next : Nat
  kept : List (Nat × Nat × Packet)
  open_ : List Ret
  last : Nat
  reported : Bool
  deriving DecidableEq, Repr

/-- The receiving half: the next number to release, the later ones that have been released, and the packets held. -/
structure EntryFlow where
  next : Nat
  ahead : List Nat
  held : Map Packet
  deriving DecidableEq, Repr

/-- The MSI-X vectors of a function (R455): masks, pending bits, and the messages sent, with what each message carries. -/
structure Msix where
  table : Map Dword
  pend : Dword
  deriving DecidableEq, Repr

/-- An MSI-X message, in the order sent: function, vector and the port it goes out on (R455). -/
structure Msg where
  fn : Nat
  vec : Nat
  port : Nat
  deriving DecidableEq, Repr

/-- An error record (R417). -/
structure ErrRec where
  kind : Nat
  sev : Nat
  unit : Nat
  ctx : Nat
  addr : Nat
  detail : Nat
  deriving DecidableEq, Repr

/-- An invalidation in progress (R409). -/
structure Inval where
  ctx : Nat
  va : Nat
  npg : Nat
  all : Bool
  deriving DecidableEq, Repr

/-- One element of the environment's schedule, the MODEL's own: what happens next where the specification leaves
the order, or the world outside, open. -/
inductive Move where
  /-- A step of a unit of the machine. -/
  | event (i : Instr)
  /-- The next instruction of a group. -/
  | issue (team gix : Nat)
  /-- Clocks pass. -/
  | tick (n : Nat)
  /-- The host writes its own memory at a physical address (R354). -/
  | hostStore (pa : Nat) (bs : List Byte)
  /-- The host refuses accesses to a page of its memory (R348). -/
  | hostRefuse (page : Nat)
  /-- A packet of another package arrives on a plane: package, class, number, what it carries, plane. -/
  | fabricIn (pkg : Nat) (cls : PClass) (number : Nat) (body : Body) (plane : Nat)
  /-- A peer's contribution arrives (R477). -/
  | peer (p : Peer)
  /-- An error that a code corrects (R179, R321, R330, R417): counted at its unit (a core, a slice with its bank, a link). -/
  | corrected (unit : Nat)
  /-- A read of a register by software: function and offset in its block. -/
  | readReg (fn offset : Nat)
  deriving DecidableEq, Repr

/-- The state of the machine. -/
structure State where
  /-- The MODEL's own: the fragment that the instruction given to `exec` issues from. -/
  cur : Option Issuer
  /-- Clocks passed since reset (R5); FECYC reads it (R386). -/
  clock : Nat
  /-- The MODEL's own counter, to which free values are applied. -/
  fresh : Nat
  /-- The MODEL's own: the next identifier of an access, packet, command, team, cluster or launch. -/
  nextId : Nat
  /-- The MODEL's own: what the environment lets happen, next first. -/
  schedule : List Move
  /-- The MODEL's own: what the last read of a register or through BAR2 returned. -/
  answer : List Byte
  teams : Map Team
  clusters : Map Cluster
  launches : Map Launch
  cores : Map Core
  slices : Map Slice
  routers : Map Router
  lantern : Lantern
  packets : Map Packet
  /-- The next sequence number of each flow (R303), by 1,024 × source + 4 × destination + class. -/
  seqs : Map Nat
  /-- HBM bytes that something has written (R449), before their encryption; the key material each line was last written under (R450; empty for
  plaintext), its poison marker (R321), and its uncorrectable errors (R449). -/
  hbm : List Host.Cell
  hbmKey : Map (List Dword)
  hbmPois : Map Mask
  hbmErr : Map Mask
  /-- Writes of the machine's own records that wait for a line that an engine owns (R324). -/
  late : List (Place × List (Byte × Bool))
  /-- Host memory bytes that something has written, by physical address, and the pages the host refuses. -/
  hostMem : List Host.Cell
  hostBad : List Nat
  /-- Granary bytes that something has written, the 8-byte words that are poisoned (R330), and the sticky flags of
  each bank and tenant (GBFLAGS, by 64 × bank + tenant). -/
  granary : List Host.Cell
  granPois : List Nat
  granFlags : Map Nat
  /-- Keys other than 0 that are enabled, with their material (R450). -/
  keys : Map (List Dword)
  tlb : List TlbEntry
  faults : Map (List FaultEntry)
  inval : Option Inval
  cmds : Map Cmd
  /-- Commands accepted, of all engines and of each communicator (R459). -/
  acceptedCmds : Nat
  commNth : Map Nat
  peers : List Peer
  buckets : Map Bucket
  queues : Map HwQueue
  gathers : Map Gather
  /-- Records under acceptance, by context, and pages whose front-end reads have been answered FATAL (R412). -/
  accepting : Map Accept
  frontFatal : List (Nat × Nat)
  tasks : List Task
  /-- Decrements that wait for an entry of the task table (R397). -/
  tasksDue : List (Nat × Nat)
  /-- The context served last, and the placements it has had, in each class's round robin (R392). -/
  robin : Map (Nat × Nat)
  /-- The contexts whose budget is spent (R393). -/
  spent : List Nat
  exits : Map ExitFlow
  entries : Map EntryFlow
  dead : List Nat
  msix : Map Msix
  sent : List Msg
  /-- Units that failed the last health check (R418), the uncorrectable and the corrected errors of each unit since then, and when it was. -/
  failing : List Nat
  /-- Cores that are being retired, until their teams have left (R187). -/
  retiring : List Nat
  errs : Map Nat
  fixed : Map Nat
  healthAt : Nat
  /-- The switch port that each fabric link has reported (R469), the steps by which it has narrowed (R418), and width and rate of each host link (R452). -/
  linkPort : Map Nat
  narrowed : Map Nat
  hostLinks : Map (Nat × Nat)
  homeTbl : Map Nat
  dlTbl : Map Nat
  /-- Counted writes performed and not yet added to their bucket: bucket, bytes (R462). -/
  counted : List (Nat × Nat)
  /-- Measurement registers MR0 to MR3, and whether a reset stays in reset because a stage of its firmware was refused (R467). -/
  mrs : List (BitVec 512)
  inReset : Bool
  /-- Registers whose fields software wrote, by offset; the others hold their reset values. -/
  regs : Map Dword
  deriving DecidableEq, Repr

/-- The machine right after a reset whose firmware was verified (R467): nothing is placed, memory holds nothing that was written, and every
register stands at its reset value. -/
def State.reset : State :=
  { cur := none, clock := 0, fresh := 0, nextId := 0, schedule := [], answer := [], teams := [], clusters := []
    launches := [], cores := [], slices := [], routers := [], lantern := ⟨0, none, none, true⟩, packets := []
    seqs := [], hbm := [], hbmKey := [], hbmPois := [], hbmErr := [], late := [], hostMem := [], hostBad := [], granary := [], granPois := []
    granFlags := [], keys := [], tlb := [], faults := [], inval := none, cmds := [], acceptedCmds := 0, commNth := [], peers := [], buckets := []
    queues := [], gathers := [], accepting := [], frontFatal := [], tasks := [], tasksDue := [], robin := [], spent := [], exits := [], entries := [], dead := []
    msix := [], sent := [], failing := [], retiring := [], errs := [], fixed := [], healthAt := 0, linkPort := [], narrowed := [], hostLinks := [], homeTbl := [], dlTbl := [], counted := []
    mrs := (boot (Config.firmware 0)).1, inReset := false, regs := [] }

/-- Why the machine stops. -/
inductive Fault where
  /-- Raised by every instruction meaning when no fragment issues it: `State.cur` names none. The hardware has no such
  state; safe. -/
  | noIssuer
  deriving DecidableEq, Repr

/-- Why the machine gives an instruction no meaning. -/
inductive Refusal where
  /-- Raised by an arm of `exec` whose instruction has no meaning yet; safe. -/
  | notModelled (mnemonic : String)
  deriving DecidableEq, Repr

end Sys2Proof.Machine
end

