-- ==== Sys2Proof/Machine/Store.lean ====
section
/-! DEFINITION. Memory cells, the registers of the physical function's block, and error records (R309, R326, R386, R417). -/

namespace Sys2Proof.Machine

open Sys2Proof

/-- The byte listed at an address. -/
def cellGet (a : Nat) : List Host.Cell → Option Byte
  | [] => none
  | (k, b) :: m => if k = a then some b else if a < k then none else cellGet a m

/-- List a byte at an address, addresses rising. -/
def cellPut (a : Nat) (b : Byte) : List Host.Cell → List Host.Cell
  | [] => [(a, b)]
  | (k, c) :: m => if a < k then (a, b) :: (k, c) :: m else if k = a then (a, b) :: m else (k, c) :: cellPut a b m

/-- List no byte at an address. -/
def cellDel (a : Nat) : List Host.Cell → List Host.Cell
  | [] => []
  | (k, c) :: m => if k = a then m else if a < k then (k, c) :: m else (k, c) :: cellDel a m

/-- Write where unlisted addresses read as zero: a zero is not listed. -/
def cellPutZ (a : Nat) (b : Byte) (m : List Host.Cell) : List Host.Cell := if b = 0#8 then cellDel a m else cellPut a b m

/-- Write consecutive bytes. -/
def cellPuts (a : Nat) : List Byte → List Host.Cell → List Host.Cell
  | [], m => m
  | b :: bs, m => cellPuts (a + 1) bs (cellPut a b m)

/-- The canonical form of a memory: addresses rise strictly. Unlisted addresses of HBM, host memory and the Granary hold no
value of their own (their reads give a free value), so no listed byte can equal what they read as. -/
def cellsWf : List Host.Cell → Bool
  | [] => true
  | [_] => true
  | (j, _) :: (k, c) :: m => decide (j < k) && cellsWf ((k, c) :: m)

/-- The canonical form of a memory whose unlisted addresses read as zero. -/
def zeroWf (m : List Host.Cell) : Bool := cellsWf m && m.all fun c => decide (c.2 ≠ 0#8)

/-- Offsets of registers (R213, R309, R326, R386, R387, R409, R411, R417, R451 to R455, R465, R469, R471). -/
def stopReg (s off : Nat) : Nat := 0x00800000 + 0x100 * s + off
def coreReg (c off : Nat) : Nat := 0x00400000 + 0x40 * c + off
def queueReg (q off : Nat) : Nat := 0x00A00000 + 0x40 * q + off
def ctxReg (t off : Nat) : Nat := 0x00B10000 + 0x100 * t + off
def dieReg (d off : Nat) : Nat := 0x00B30000 + 0x40 * d + off
def commReg (n off : Nat) : Nat := 0x00C00000 + 0x10 * n + off
def winReg (w off : Nat) : Nat := 0x00C51000 + 0x10 * w + off

/-- Reset values of the registers whose fields software writes; every other register resets to 0. -/
def regReset (off : Nat) : Nat :=
  if off = 0 then Config.ident
  else if off = 0x00B00008 then 0x00014C08
  else if off = 0x00B00010 then 0x00004268
  else if off = 0x00B40018 then 0x6553F10004000200
  else if off = 0x00C40000 then 1600
  else if off = 0x00C50008 then 0x0019F0A0
  else if 0x00C50100 ≤ off ∧ off < 0x00C50180 then 0xC
  else if 0x00B10000 ≤ off ∧ off < 0x00B14000 then
    (if off % 0x100 = 0 then 0x10000 else if off % 0x100 = 0x50 then 0x0400 else 0)
  else if 0x00800000 ≤ off ∧ off < 0x00810000 ∧ off % 0x100 = 0x08 then 0x0400
  else 0

/-- The stored fields of a register. -/
def State.reg (s : State) (off : Nat) : Nat :=
  match mapGet? off s.regs with
  | some v => v.toNat
  | none => regReset off

/-- Store a register. -/
def State.setReg (s : State) (off v : Nat) : State := { s with regs := mapSet off (BitVec.ofNat 64 v) s.regs }

/-- Replace bits hi down to lo. -/
def setBits (x hi lo v : Nat) : Nat :=
  x - bits x hi lo * 2 ^ lo + (v % 2 ^ (hi + 1 - lo)) * 2 ^ lo

/-- A core, a slice, a router: as reset leaves it where nothing has happened to it. -/
def State.core (s : State) (c : Nat) : Core := mapGetD c Core.reset s.cores
def State.setCore (s : State) (c : Nat) (x : Core) : State := { s with cores := mapSet c x s.cores }
def State.updCore (s : State) (c : Nat) (f : Core → Core) : State := s.setCore c (f (s.core c))
def State.slice (s : State) (i : Nat) : Slice := mapGetD i Slice.reset s.slices
def State.setSlice (s : State) (i : Nat) (x : Slice) : State := { s with slices := mapSet i x s.slices }
def State.updSlice (s : State) (i : Nat) (f : Slice → Slice) : State := s.setSlice i (f (s.slice i))
def State.router (s : State) (i : Nat) : Router := mapGetD i Router.reset s.routers
def State.setRouter (s : State) (i : Nat) (x : Router) : State := { s with routers := mapSet i x s.routers }

/-- The network stop of a core is its number (R299). -/
def coreStop (core : Nat) : Nat := core
/-- The die of a stop (R299). -/
def dieOf (stop : Nat) : Nat := stop / 64

/-- Is a key ID enabled (R450)? Key ID 0 always is. -/
def State.keyOn (s : State) (k : Nat) : Bool := decide (k = 0) || (mapGet? k s.keys).isSome
/-- The key material of a key ID: none for plaintext. -/
def State.keyMat (s : State) (k : Nat) : List Dword := if k = 0 then [] else mapGetD k [] s.keys

/-- The function that serves a context is the function of the same number (R387); it has 64 vectors (R455). -/
def State.msixOf (s : State) (fn : Nat) : Msix := mapGetD fn ⟨[], 0#64⟩ s.msix

/-- The port a function is presented on (R452): the physical function on port 0, a virtual function on the one PORTMAP names. -/
def State.fnPort (s : State) (fn : Nat) : Nat := if fn ≠ 0 ∧ bit (s.reg 0x00C30000) fn then 1 else 0

/-- An MSI-X event (R455): the message goes out, or the vector is masked and its bit pends. Bit 32 of the second
word of a table entry is its mask. -/
def raiseMsix (s : State) (fn vec : Nat) : State :=
  let m := s.msixOf fn
  if bit (mapGetD (2 * vec + 1) 0#64 m.table).toNat 32 then
    { s with msix := mapSet fn { m with pend := m.pend ||| BitVec.ofNat 64 (2 ^ vec) } s.msix }
  else { s with sent := s.sent ++ [⟨fn, vec, s.fnPort fn⟩] }

/-- IRQCFG of R455. -/
def irqcfg : Nat := 0x00C60000

/-- An event of the error log raises its interrupt (R455). -/
def raiseErrIrq (s : State) : State :=
  let r := s.reg irqcfg
  if bit r 62 then raiseMsix s 0 (bits r 13 8) else s

/-- The bytes of an error record (R417). -/
def errBytes (r : ErrRec) (time : Nat) : List Byte :=
  toBytes r.kind 1 ++ toBytes r.sev 1 ++ toBytes r.unit 2 ++ toBytes r.ctx 1 ++ toBytes 0 3 ++ toBytes r.addr 8 ++
    toBytes r.detail 8 ++ toBytes time 8

/-- Write bytes to HBM under a key ID past the caches of the slices, in one line; refused when the key is not enabled. The
line's other bytes keep what they hold. -/
def State.pokeHbm (s : State) (pa key : Nat) (bs : List Byte) : State :=
  if s.keyOn key then
    { s with hbm := cellPuts pa bs s.hbm, hbmKey := mapSet (pa / 128) (s.keyMat key) s.hbmKey }
  else s

/-- The sum of two 32-bit counts that wrap. -/
def addW (x n : Nat) : Nat := (x + n) % 2 ^ 32

end Sys2Proof.Machine
end

