-- ==== Sys2Proof/Machine/Memory.lean ====
section
/-! DEFINITION. The shared cache, HBM and the coherent accesses of requesters outside the cores (R182, R183, R308 to
R324, R449, R450), atomic operations (R190), and the posting of error records (R417). -/

namespace Sys2Proof.Machine

open Sys2Proof

/-- The line number of a physical address. -/
def lineNo (pa : Nat) : Nat := bits pa 51 7

/-- A line of zeros, and a line that is wholly poison. -/
def Line.zero : Line := ⟨List.replicate 128 0#8, 0#32⟩
def Line.poison : Line := ⟨List.replicate 128 0#8, BitVec.allOnes 32⟩

/-- Is the content all zeros (R316)? -/
def Line.isZero (l : Line) : Bool := decide (l.pois = 0#32) && l.bytes.all fun b => decide (b = 0#8)

/-- Replace bytes of a line from an offset. -/
def putLine (off : Nat) : List Byte → List Byte → List Byte
  | [], l => l
  | b :: bs, l => putLine (off + 1) bs (listSet off b l)

/-- The spaces of physical addresses (R449, R470). -/
inductive Space where
  | hbm | beyond | remote (pkg : Nat) | host (port : Nat)
  deriving DecidableEq, Repr

/-- R449. -/
def spaceOf (pa : Nat) : Space :=
  if bits pa 51 50 = 0 then (if pa < 0x6000000000 then .hbm else .beyond)
  else if bits pa 51 50 = 1 then (if bits pa 49 41 < 288 then .remote (bits pa 49 41) else .beyond)
  else .host (bits pa 50 50)

/-- The index of R309 for device-wide homing. -/
def homeIndex (n : Nat) : Nat :=
  bits n 7 0 ^^^ bits n 15 8 ^^^ bits n 23 16 ^^^ bits n 31 24 ^^^ bits n 39 32 ^^^ bits n 44 40

/-- The index of R309 for die-local homing. -/
def localIndex (n : Nat) : Nat :=
  bits n 5 0 ^^^ bits n 11 6 ^^^ bits n 17 12 ^^^ bits n 23 18 ^^^ bits n 29 24 ^^^ bits n 35 30 ^^^ bits n 41 36 ^^^ bits n 44 42

/-- The home slice of a line (R309); the tables are the identity until a slice is retired. -/
def State.homeOf (s : State) (p : Place) : Nat :=
  let n := lineNo p.pa
  if p.dloc then
    let d := p.pa / 0x1800000000
    let j := localIndex n
    mapGetD (64 * d + j) (64 * d + j) s.dlTbl
  else mapGetD (homeIndex n) (homeIndex n) s.homeTbl

/-- The content of a line of HBM read under a key ID (R449, R450): what its last write left, where that was made with the same key; otherwise what
the stack holds, deciphered with this one, and unpoisoned (R318). What nothing has written is a free value (log entry 1). -/
def State.hbmLine (s : State) (ln key : Nat) : Line :=
  let was := mapGetD ln [] s.hbmKey
  let plain := (List.range 128).map fun i => (cellGet (128 * ln + i) s.hbm).getD (Config.unwritten (128 * ln + i))
  let err := mapGetD ln 0#32 s.hbmErr
  if was = s.keyMat key then ⟨plain, mapGetD ln 0#32 s.hbmPois ||| err⟩
  else ⟨xtsLine false (s.keyMat key) ln (xtsLine true was ln plain), err⟩

/-- A line is written back (R313, R321): its bytes, the key, the poison marker. -/
def State.writeBack (s : State) (ln key : Nat) (c : Line) : State :=
  if s.keyOn key then
    { s with
      hbm := cellPuts (128 * ln) c.bytes s.hbm
      hbmKey := mapSet ln (s.keyMat key) s.hbmKey
      hbmPois := if c.pois = 0#32 then mapDel ln s.hbmPois else mapSet ln c.pois s.hbmPois
      hbmErr := mapDel ln s.hbmErr }
  else s

/-- The content a tag gives its line (R311); that of a tag with an error is poisoned (R331). -/
def Slice.content (sl : Slice) (t : Tag) : Line :=
  let c := match t.entry with
    | none => Line.zero
    | some e => match mapGet? e sl.entries with
      | some x => x.line
      | none => Line.zero
  if t.bad then { c with pois := BitVec.allOnes 32 } else c

/-- What a home knows of a line. -/
def Slice.dir (sl : Slice) (ln : Nat) : Dir := mapGetD ln Dir.empty sl.dirs
def Slice.setDir (sl : Slice) (ln : Nat) (d : Dir) : Slice :=
  if d = Dir.empty then { sl with dirs := mapDel ln sl.dirs } else { sl with dirs := mapSet ln d sl.dirs }
def State.updDir (s : State) (i ln : Nat) (f : Dir → Dir) : State :=
  s.updSlice i fun sl => sl.setDir ln (f (sl.dir ln))

/-- Is admission on in the slice (R317, R466)? -/
def State.admits (s : State) (i : Nat) : Bool :=
  let m := bits (s.reg (stopReg i 0x18)) 1 0
  if m = 1 then true else if m = 2 then false else (s.slice i).adapt.on

/-- One reference less to a data entry; an entry without references is freed (R313). -/
def Slice.release (sl : Slice) (e : Option Nat) : Slice :=
  match e with
  | none => sl
  | some e => match mapGet? e sl.entries with
    | none => sl
    | some x =>
      if x.rc ≤ 1 then { sl with entries := mapDel e sl.entries }
      else { sl with entries := mapSet e { x with rc := x.rc - 1 } sl.entries }

/-- The line takes an entry of its own: the one it holds, or a fresh one. -/
def Slice.ownEntry (sl : Slice) (own : Option Nat) (c : Line) (key : Nat) (indexed : Bool) : Slice × Option Nat :=
  match own with
  | some e => ({ sl with entries := mapSet e ⟨c, 1, key, indexed⟩ sl.entries }, some e)
  | none => match mapFree sl.entries 0 24576 with
    | some e => ({ sl with entries := mapSet e ⟨c, 1, key, indexed⟩ sl.entries }, some e)
    | none => (sl, none)

/-- Admission (R312): where the content c of a line is placed. `own` is an entry that only this line holds. -/
def Slice.admitLine (sl : Slice) (on : Bool) (own : Option Nat) (c : Line) (key : Nat) : Slice × Option Nat :=
  let sl := { sl with adapt := { sl.adapt with admissions := sl.adapt.admissions + 1 } }
  if c.isZero then (sl.release own, none)
  else if !on || decide (c.pois ≠ 0#32) then sl.ownEntry own c key false
  else
    let others := sl.entries.filter fun x => decide (own ≠ some x.1)
    match others.find? fun x => decide (x.2.key = key) && decide (x.2.line = c) && x.2.indexed with
    | some (e, x) =>
      if x.rc ≥ 63 then ({ sl with refuse := addW sl.refuse 1 }).ownEntry own c key false
      else
        let s1 := (sl.release own)
        ({ s1 with
            entries := mapSet e { x with rc := x.rc + 1 } s1.entries
            adapt := { s1.adapt with joins := s1.adapt.joins + 1 } }, some e)
    | none =>
      let clash := others.any fun x =>
        decide (x.2.key = key) && x.2.indexed && decide (Config.lineHash x.2.line.bytes = Config.lineHash c.bytes)
      ({ sl with hashmiss := addW sl.hashmiss (if clash then 1 else 0) }).ownEntry own c key (!clash)

/-- A tag is evicted (R313): dirty content goes to memory, the entry loses a reference. -/
def State.evict (s : State) (i ln : Nat) : State :=
  let sl := s.slice i
  match mapGet? ln sl.tags with
  | none => s
  | some t =>
    let s1 := if t.d then s.writeBack ln t.key (sl.content t) else s
    s1.setSlice i ({ sl with tags := mapDel ln sl.tags }.release t.entry)

/-- A line that replacement may evict: neither pinned nor owned; which one is not specified (R319). -/
def Slice.victim (sl : Slice) (p : Nat → Bool) : Option Nat :=
  (sl.tags.find? fun t => !t.2.n && t.2.w.isNone && p t.1).map (·.1)

/-- Make room for one more tag in its set of 12 ways (R308, R319). -/
def State.makeRoom (s : State) (i ln : Nat) : State :=
  let sl := s.slice i
  let inSet := fun l => decide (Config.l2Set l % 4096 = Config.l2Set ln % 4096)
  if sl.tags.length ≥ 12 ∧ (sl.tags.filter fun t => inSet t.1).length ≥ 12 then
    match sl.victim inSet with
    | some v => s.evict i v
    | none => s
  else s

/-- Does a line's content stand in the slice: as zeros, or in the entry that admission gave it? -/
def placed (c : Line) (e : Option Nat) : Bool := c.isZero || e.isSome

/-- The content of a line is admitted (R312). Content that needs an entry always obtains one: lines that are neither pinned nor owned are evicted
until one is free, never the line itself (R319). -/
def State.admitAt (s : State) (i ln : Nat) (shared : Bool) (was : Option Nat) (c : Line) (key : Nat) : Nat → State × Option Nat
  | 0 => (s, none)
  | n + 1 =>
    let sl := s.slice i
    let (sl1, e) := (if shared then { sl.release was with unshare := addW sl.unshare 1 } else sl).admitLine (s.admits i) (if shared then none else was) c key
    if placed c e then (s.setSlice i sl1, e)
    else match sl.victim fun l => decide (l ≠ ln) with
    | some v => (s.evict i v).admitAt i ln shared was c key n
    | none => (s.setSlice i sl1, e)

/-- A fill (R313): a tag is allocated, and the memory's content admitted. A tag of another key ID is evicted first (R318). -/
def State.fill (s : State) (i ln key : Nat) : State :=
  let s1 := match mapGet? ln (s.slice i).tags with
    | some t => if t.key = key then s else s.evict i ln
    | none => s
  match mapGet? ln (s1.slice i).tags with
  | some _ => s1
  | none =>
    let s2 := s1.makeRoom i ln
    let c := s2.hbmLine ln key
    let (s3, e) := s2.admitAt i ln false none c key 49152
    s3.updSlice i fun sl => { sl with tags := mapSet ln ⟨key, e, false, false, none, decide (c.pois ≠ 0#32), false⟩ sl.tags }

/-- A write to a line that is present (R313): copy on write of a shared entry, D set, admission. -/
def State.writeLine (s : State) (i ln : Nat) (f : Line → Line) : State :=
  let sl := s.slice i
  match mapGet? ln sl.tags with
  | none => s
  | some t =>
    let c := f (sl.content t)
    let shared := match t.entry with
      | some e => match mapGet? e sl.entries with
        | some x => decide (x.rc ≥ 2)
        | none => false
      | none => false
    let (s1, e) := s.admitAt i ln shared t.entry c t.key 49152
    s1.updSlice i fun sl => { sl with tags := mapSet ln { t with entry := e, d := true, x := decide (c.pois ≠ 0#32) } sl.tags }

/-- The result of an operation of R190: the new value and its flags; `b` the operand, `c` the new value of a CAS. -/
def atomNew (op : Nat) (w64 : Bool) (old b c : Nat) : Nat × Nat :=
  let n := if w64 then 64 else 32
  let sl : Nat → Int := fun x => sext x n
  match op with
  | 0 => ((old + b) % 2 ^ n, 0)
  | 1 => fp32.add .rne 0 old b
  | 2 => (if sl b < sl old then b else old, 0)
  | 3 => (if sl b > sl old then b else old, 0)
  | 4 => (min old b, 0)
  | 5 => (max old b, 0)
  | 6 => (old &&& b, 0)
  | 7 => (old ||| b, 0)
  | 8 => (old ^^^ b, 0)
  | 9 => (b, 0)
  | 10 => (if old = b then c else old, 0)
  | 11 => (if old ≥ b then 0 else old + 1, 0)
  | _ => (if old = 0 ∨ old > b then b else old - 1, 0)

/-- A number from its 32-bit words, lowest first, and its n words. -/
def ofWords : List Word → Nat
  | [] => 0
  | w :: ws => w.toNat + 2 ^ 32 * ofWords ws
def toWords (x : Nat) : Nat → List Word
  | 0 => []
  | n + 1 => BitVec.ofNat 32 x :: toWords (x / 2 ^ 32) n

/-- What an access does to the bytes it reaches: those written, the words delivered to each lane, flags. -/
structure Perf where
  ov : List Host.Cell
  out : Map (List Elem)
  fl : Nat
  deriving DecidableEq, Repr

/-- Sign-extended or not, a value of w bytes as the words it delivers (R189). -/
def loadWords (w : Nat) (sgn : Bool) (x : Nat) : List Word :=
  if w ≥ 4 then toWords x (w / 4)
  else [BitVec.ofNat 32 (if sgn then wrapI (sext x (8 * w)) 32 else x)]

/-- One lane of an access (R193, R194, R364, R365): `rd` reads a byte, `pz` says whether it is poisoned. -/
def perfLane (rd : Nat → Byte) (pz : Nat → Bool) (a : Act) (p : Perf) (r : LaneReq) : Perf :=
  let rd' := fun x => (cellGet x p.ov).getD (rd x)
  let val := fun n => ofBytes ((List.range n).map fun i => rd' (r.addr + i))
  let bad := fun from_ n => (List.range n).any fun i => pz (r.addr + from_ + i)
  match a with
  | .load w sgn =>
    let ws := loadWords w sgn (val w)
    let es := ws.zipIdx.map fun (x, i) => (⟨x, bad (4 * i) (min w 4)⟩ : Elem)
    { p with out := mapSet r.lane es p.out }
  | .record _ n _ =>
    let es := (toWords (val (64 * n)) (16 * n)).zipIdx.map fun (x, i) => (⟨x, bad (4 * i) 4⟩ : Elem)
    { p with out := mapSet r.lane es p.out }
  | .store w => { p with ov := cellPuts r.addr (toBytes (ofWords r.data) w) p.ov }
  | .atom op w64 | .red op w64 =>
    let w := if w64 then 8 else 4
    let old := val w
    let b := ofWords (r.data.take (w / 4))
    let c := ofWords (r.new.take (w / 4))
    let (x, fl) := atomNew op w64 old b c
    let es := (toWords old (w / 4)).zipIdx.map fun (y, i) => (⟨y, bad (4 * i) 4⟩ : Elem)
    let anyBad := bad 0 w
    { ov := cellPuts r.addr (toBytes x w) p.ov, out := mapSet r.lane es p.out, fl := if anyBad then p.fl else p.fl ||| fl }
  | _ => p

/-- An access over its lanes, ascending; each sees the lanes before it. -/
def perform (rd : Nat → Byte) (pz : Nat → Bool) (a : Act) (lanes : List LaneReq) : Perf :=
  lanes.foldl (perfLane rd pz a) ⟨[], [], 0⟩

/-- The 32-bit element of a line that holds byte i is poisoned. -/
def Line.badAt (l : Line) (i : Nat) : Bool := inMask l.pois (i % 128 / 4)

/-- An access performed on a line's content. A store of the whole line clears its poison (R321); a read-modify-write leaves it (R356). -/
def Line.perform (l : Line) (a : Act) (lanes : List LaneReq) : Line × Perf :=
  let p := Machine.perform (fun x => l.bytes.getD (x % 128) 0#8) (fun x => l.badAt x) a lanes
  let bytes := p.ov.foldl (fun bs c => listSet (c.1 % 128) c.2 bs) l.bytes
  let whole := match a with
    | .store _ => decide (p.ov.length = 128)
    | _ => false
  (⟨bytes, if whole then 0#32 else l.pois⟩, p)

/-- One element of a partial combined into a value (R183, R323). -/
def combineElem (p : Partial) (old x : Nat) : Nat := (atomNew p.op p.w64 old x 0).1

/-- A RED partial combined into a line (R323): only the elements it touched. -/
def Line.combine (l : Line) (p : Partial) : Line :=
  let n := if p.w64 then 2 else 1
  (List.range (32 / n)).foldl (fun (c : Line) i =>
    if inMask p.touched (n * i) then
      let old := ofBytes ((List.range (4 * n)).map fun j => c.bytes.getD (4 * n * i + j) 0#8)
      let x := ofWords ((List.range n).map fun j => p.data.getD (n * i + j) 0#32)
      let bad := (List.range n).any fun j => inMask p.pois (n * i + j)
      ⟨putLine (4 * n * i) (toBytes (combineElem p old x) (4 * n)) c.bytes,
        if bad then c.pois ||| BitVec.ofNat 32 ((2 ^ n - 1) * 2 ^ (n * i)) else c.pois⟩
    else c) l

/-- The line or the element a request at a home is ordered by. -/
def Body.line : Body → Option Nat
  | .access r => match r.tgt, r.act with
    | _, .query _ => none
    | .home, _ => some (lineNo r.place.pa)
    | .host _, _ => some (lineNo r.place.pa)
    | _, _ => none
  | .flushed p _ _ _ => some (lineNo p.pa)
  | _ => none

/-- Is an earlier request of the same source to the same line still on its way or waiting (R303)? -/
def State.behind (s : State) (id : Nat) (p : Packet) : Bool :=
  match p.body.line with
  | none => false
  | some l => s.packets.any fun q => decide (q.1 < id ∧ q.2.src = p.src) && decide (q.2.body.line = some l)

/-- Is an access of a core to a line, sent before packet n, still on its way or waiting: a RED of the core comes behind it (R303, R341)? -/
def State.accessAhead (s : State) (core ln n : Nat) : Bool :=
  s.packets.any fun q => decide (q.1 < n ∧ q.2.src = core) && decide (q.2.body.line = some ln) &&
    (match q.2.body with | .access _ => true | _ => false)

/-- A RED partial that has not reached its home (R183): its core, the flush that carries it, its place and itself. -/
structure Loose where
  core : Nat
  flush : Option Nat
  place : Place
  red : Partial
  deriving DecidableEq, Repr

/-- The RED partials of a line that a recall brings in (R323): on their way, and in the L1s; but not one that comes behind an earlier access of its
core to the line (R303). -/
def State.partialsOf (s : State) (ln key : Nat) : List Loose :=
  (s.packets.filterMap fun (p : Nat × Packet) => match p.2.body with
    | .flushed pl q c id => if lineNo pl.pa = ln ∧ pl.key = key ∧ s.accessAhead c ln p.1 = false then some ⟨c, some id, pl, q⟩ else none
    | _ => none) ++
  (s.cores.filterMap fun (c : Nat × Core) => match mapGet? ln c.2.l1 with
    | some (L1Line.mk p (.uo q)) => if p.key = key ∧ s.accessAhead c.1 ln s.nextId = false then some ⟨c.1, none, p, q⟩ else none
    | _ => none)

/-- Drop those partials: they have been combined, and the flushes that carried them are acknowledged. -/
def State.dropPartials (s : State) (ln : Nat) (ls : List Loose) : State :=
  let carried (c id : Nat) : Bool := ls.any fun l => decide (l.core = c ∧ l.flush = some id)
  let held (c : Nat) : Bool := ls.any fun l => decide (l.core = c ∧ l.flush = none)
  { s with
    cores := s.cores.map fun c => (c.1, { c.2 with
      l1 := if held c.1 then mapDel ln c.2.l1 else c.2.l1
      flushes := c.2.flushes.filter fun f => !carried c.1 f.1 })
    packets := s.packets.filter fun p => match p.2.body with
      | .flushed _ _ c id => !carried c id
      | _ => true }

/-- The content of a line as a coherent reader sees it now, with nothing changed: for fetches and page-table walks. -/
def State.peekLine (s : State) (p : Place) : Line :=
  if s.keyOn p.key then
    let ln := lineNo p.pa
    let sl := s.slice (s.homeOf p)
    let c := match mapGet? ln sl.tags with
      | some t => if t.key = p.key then sl.content t else s.hbmLine ln p.key
      | none => s.hbmLine ln p.key
    (s.partialsOf ln p.key).foldl (fun c l => c.combine l.red) c
  else Line.poison

/-- Loads of a line that are under way no longer fill the L1: the home has changed it, or will. -/
def Part.noFill (ln : Nat) (p : Part) : Part :=
  if lineNo p.req.place.pa = ln then { p with req := { p.req with fill := false } } else p
def Flight.noFill (ln : Nat) (f : Flight) : Flight := { f with parts := f.parts.map (Part.noFill ln) }
def Group.noFill (ln : Nat) (g : Group) : Group :=
  if g.flights.isEmpty then g else { g with flights := g.flights.map (Flight.noFill ln) }
def Team.noFill (ln : Nat) (t : Team) : Team := { t with groups := t.groups.map fun g => (g.1, g.2.noFill ln) }

/-- Loads of a line that the groups of a core have under way no longer fill its L1. -/
def State.noFill (s : State) (core ln : Nat) : State :=
  { s with teams := s.teams.map fun (t : Nat × Team) => if t.2.core = some core then (t.1, t.2.noFill ln) else t }

/-- A core drops its V copy of a line. -/
def Core.dropV (ln : Nat) (c : Core) : Core :=
  { c with l1 := c.l1.filter fun x => match x.2.st with
      | .v _ => decide (x.1 ≠ ln)
      | .uo _ => true }

/-- Every V copy of a line but one core's is dropped (R322), and loads of the line under way no longer fill the L1. -/
def State.dropV (s : State) (ln : Nat) (except : Option Nat) : State :=
  { s with
    cores := s.cores.map fun c => if some c.1 ≠ except then (c.1, c.2.dropV ln) else c
    teams := s.teams.map fun t => if t.2.core.isSome ∧ t.2.core ≠ except then (t.1, t.2.noFill ln) else t }

/-- What a home knows of a line once the partial of a core has been combined (R322, R344). -/
def Dir.combined (d : Dir) (core : Nat) (gone : Bool) (q : Partial) : Dir :=
  { d with
    uo := if gone then d.uo.filter fun c => decide (c ≠ core) else d.uo
    lastRel := match q.rel with | some n => some (core, n) | none => d.lastRel }

/-- The partials of a line are recalled and combined at once (R323), each at its own home, for a requester that is performed as one step. -/
def State.settleLine (s : State) (p : Place) : State :=
  let ln := lineNo p.pa
  let ls := s.partialsOf ln p.key
  if ls.isEmpty then s
  else
    let one (s : State) (l : Loose) : State :=
      let i := s.homeOf l.place
      ((s.fill i ln p.key).writeLine i ln fun c => c.combine l.red).updDir i ln fun d => { d.combined l.core l.flush.isNone l.red with v := [] }
    ls.foldl one ((s.dropPartials ln ls).dropV ln none)

/-- A coherent read of a line by a requester outside the cores. -/
def State.readCo (s : State) (p : Place) : State × Line :=
  if s.keyOn p.key then
    let i := s.homeOf p
    let s1 := (s.settleLine p).fill i (lineNo p.pa) p.key
    (s1, match mapGet? (lineNo p.pa) (s1.slice i).tags with
      | some t => (s1.slice i).content t
      | none => Line.zero)
  else (s, Line.poison)

/-- A coherent write of a line by a requester outside the cores: every copy is recalled first (R322, R324). -/
def State.writeCo (s : State) (p : Place) (f : Line → Line) : State :=
  let i := s.homeOf p
  let ln := lineNo p.pa
  let s1 := ((s.settleLine p).fill i ln p.key).dropV ln none
  (s1.updDir i ln fun d => { d with v := [] }).writeLine i ln f

/-- Bytes written to a line; the whole line clears its poison. -/
def putBytes (off : Nat) (bs : List Byte) (l : Line) : Line :=
  ⟨putLine off bs l.bytes, if bs.length = 128 then 0#32 else l.pois⟩

/-- Bytes of host memory (R354): those that nothing has written are free values (log entry 1). -/
def State.hostByte (s : State) (pa : Nat) : Byte := (cellGet pa s.hostMem).getD (Config.unwritten pa)

/-- Does the host refuse the page (R348)? -/
def State.hostOk (s : State) (pa : Nat) : Bool := !(s.hostBad.contains (pa / 4096))

/-- Do the export windows of this package admit an access (R471), and where does it go? `need`: 1 read, 2 write,
7 atomic. -/
def State.window (s : State) (pa n need src : Nat) : Option Place :=
  let w := bits pa 40 35
  let off := bits pa 34 0
  let r0 := s.reg (winReg w 0)
  let r8 := s.reg (winReg w 8)
  let size := min (bits r8 35 12 * 4096) 0x800000000
  let base := bits r0 47 12 * 4096
  let perm := (if bit r0 62 then 1 else 0) + (if bit r0 61 then 2 else 0) + (if bit r0 60 then 4 else 0)
  if bit r0 63 && (bit r8 63 || decide (bits r8 62 54 = src)) && decide (off + n ≤ size)
      && decide (base + off + n ≤ 0x6000000000) && decide (need &&& perm = need) then
    some ⟨base + off, bits r0 59 48, false, 0, pa⟩
  else none

/-- The package's own number (R469). -/
def State.pkg (s : State) : Option Nat :=
  let r := s.reg 0x00C50000
  if bit r 63 then some (bits r 8 0) else none

/-- The place in HBM that an access reaches, its own package's windows included (R470); none where it is refused. -/
def State.resolve (s : State) (p : Place) (n need : Nat) : Option Place :=
  match spaceOf p.pa with
  | .hbm => some p
  | .remote k => if s.pkg = some k then s.window p.pa n need k else none
  | _ => none

/-- A read of n bytes, within one line, by a requester outside the cores: bytes, and poison of each; none is refused. Memory
of another package answers with free values (log entry 11). -/
def State.readPhys (s : State) (p : Place) (n : Nat) : State × Option (List (Byte × Bool)) :=
  match s.resolve p n 1 with
  | some q =>
    let (s1, l) := s.readCo q
    (s1, some ((List.range n).map fun i => (l.bytes.getD (q.pa % 128 + i) 0#8, l.badAt (q.pa % 128 + i))))
  | none =>
    match spaceOf p.pa with
    | .host _ => (s, if s.hostOk p.pa then some ((List.range n).map fun i => (s.hostByte (p.pa + i), false)) else none)
    | .remote k =>
      (s, if s.pkg = some k ∨ s.dead.contains k then none
        else some ((List.range n).map fun i => (Config.remoteByte s.fresh (p.pa + i), false)))
    | _ => (s, none)

/-- Bytes of a range of physical addresses that a bucket counts (R462). -/
def overlap (a n b m : Nat) : Nat := min (a + n) (b + m) - max a b

/-- A counted write has been performed at its home: every bucket whose range it reaches has bytes to add (R462). -/
def State.countWrite (s : State) (pa n : Nat) : State :=
  let hits := s.buckets.filterMap fun b =>
    if b.2.st ≠ .free ∧ overlap pa n b.2.place.pa b.2.total > 0 then some (b.1, overlap pa n b.2.place.pa b.2.total) else none
  if hits.isEmpty then s else { s with counted := s.counted ++ hits }

/-- Does an engine own the line (R324)? -/
def State.ownedLine (s : State) (p : Place) : Bool :=
  match mapGet? (lineNo p.pa) (s.slice (s.homeOf p)).tags with
  | some t => t.w.isSome
  | none => false

/-- A write of bytes, within one line, by a requester outside the cores; does it succeed? On a line that an engine owns it waits (R324). -/
def State.writePhys (s : State) (p : Place) (bs : List Byte) : State × Bool :=
  match s.resolve p bs.length 2 with
  | some q =>
    if !s.keyOn q.key then (s, false)
    else if s.ownedLine q then ({ s with late := s.late ++ [(q, bs.map fun b => (b, false))] }, true)
    else (s.writeCo q (putBytes (q.pa % 128) bs), true)
  | none =>
    match spaceOf p.pa with
    | .host _ => if s.hostOk p.pa then ({ s with hostMem := cellPuts p.pa bs s.hostMem }, true) else (s, false)
    | _ => (s, false)

/-- Bytes with poison written to a line: the elements that a poisoned byte reaches become poison. -/
def putPois (off : Nat) (bs : List (Byte × Bool)) (l : Line) : Line :=
  let m := putBytes off (bs.map (·.1)) l
  { m with pois := bs.zipIdx.foldl (fun (a : Mask) (p : (Byte × Bool) × Nat) =>
      if p.1.2 then a ||| BitVec.ofNat 32 (2 ^ ((off + p.2) / 4)) else a) m.pois }

/-- A write of bytes that carry poison (R71, R374). Host memory holds no poison markers: what is written there of a
poisoned byte is a free value (log entry 3). -/
def State.writePhysP (s : State) (p : Place) (bs : List (Byte × Bool)) : State × Bool :=
  match s.resolve p bs.length 2 with
  | some q =>
    if !s.keyOn q.key then (s, false)
    else if s.ownedLine q then ({ s with late := s.late ++ [(q, bs)] }, true)
    else (s.writeCo q (putPois (q.pa % 128) bs), true)
  | none => s.writePhys p (bs.zipIdx.map fun (p : (Byte × Bool) × Nat) => if p.1.2 then (Config.poisonBits s.fresh p.2).setWidth 8 else p.1.1)

/-- The writes that waited for a line are performed, in order, now that no engine owns it (R324). -/
def State.landLate (s : State) (ln : Nat) : State :=
  let here (w : Place × List (Byte × Bool)) : Bool := decide (lineNo w.1.pa = ln) && !s.ownedLine w.1
  (s.late.filter here).foldl (fun s w => s.writeCo w.1 (putPois (w.1.pa % 128) w.2)) { s with late := s.late.filter fun w => !here w }

/-- ELOGB, ELOGP and ESTAT of R417. -/
def elogb : Nat := 0x00B40000
def elogp : Nat := 0x00B40008
def estat : Nat := 0x00B40010

/-- An error record is posted (R417): into the ring, or dropped with LOST set when the ring is full. -/
def postError (s : State) (r : ErrRec) : State :=
  let b := s.reg elogb
  let p := s.reg elogp
  let tail := bits p 63 32
  let size := 128 * 2 ^ bits b 3 0
  let s1 := if r.sev = 3 then s.setReg estat (s.reg estat ||| 2) else s
  if (tail + 2 ^ 32 - bits p 31 0) % 2 ^ 32 ≥ size then
    let s2 := s1.setReg estat (s1.reg estat ||| 4)
    if r.sev = 3 then raiseErrIrq s2 else s2
  else
    let pl : Place := ⟨bits b 51 12 * 4096 + 32 * (tail % size), bits b 63 52, false, 0, 0⟩
    let s2 := (s1.writePhys pl (errBytes r s.clock)).1
    raiseErrIrq (s2.setReg elogp (setBits p 63 32 (addW tail 1)))

end Sys2Proof.Machine
end

