-- ==== Sys2Proof/WellFormed.lean ====
section
/-! DEFINITION. Which instructions have words: the limits of R79 to R92 and R489 as a check on syntax. -/

namespace Sys2Proof

/-- Does an operand field belong to its class (R85 to R89, R489)? -/
def Fld.okFor (c : Cls) (f : Fld) : Bool :=
  match c, f with
  | .unused, .none => true
  | .vd w _, .v r => decide (r.toNat < 0xF0 ∧ r.toNat % w = 0)
  | .vd _ push, .latchOnly => push
  | .vs w _, .v r => decide (r.toNat < 0xF0 ∧ r.toNat % w = 0)
  | .vs _ _, .bl _ => true
  | .vs _ _, .const i => decide (i.toNat < 6)
  | .vs _ _, .lane => true
  | .vs w _, .uref r => decide (r.toNat % w = 0)
  | .vs _ l, .lit _ => l
  | .vr al, .v r => decide (r.toNat < 0xF0 ∧ r.toNat % al = 0)
  | .ud w _, .s r => decide (r.toNat % w = 0)
  | .ud _ push, .latchOnly => push
  | .us w _, .s r => decide (r.toNat % w = 0)
  | .us _ _, .sl _ => true
  | .us _ _, .uconst _ => true
  | .us _ l, .lit _ => l
  | .ur al, .s r => decide (r.toNat % al = 0)
  | .p, .p _ => true
  | .h, .h _ => true
  | .n ok, .n _ => ok
  | _, _ => false

/-- The operand fields that ask for a trailing word (R88). -/
def Args.trailingFields (x : Args) : Nat :=
  (if x.d.trailing.isSome then 1 else 0) + (if x.a.trailing.isSome then 1 else 0)
    + (if x.b.trailing.isSome then 1 else 0) + (if x.c.trailing.isSome then 1 else 0)

/-- Do the fields fit the layout class (R79)? -/
def Args.layoutOk (o : Op) (x : Args) : Bool :=
  let g := x.sig o
  x.c.okFor g.c &&
  match g.layout with
  | .dab => x.d.okFor g.d && x.a.okFor g.a && x.b.okFor g.b && decide (x.imm = 0#24)
  | .off24 => decide (x.d = .none ∧ x.a = .none ∧ x.b = .none)
  | .imm16 => x.d.okFor g.d && decide (x.a = .none ∧ x.b = .none ∧ x.imm.toNat < 65536)
  | .none => decide (x.d = .none ∧ x.a = .none ∧ x.b = .none ∧ x.imm = 0#24)

/-- May the instruction have words without an extension word (R78, R92)? -/
def Args.shortOk (o : Op) (x : Args) : Bool :=
  decide (x.guard = none ∧ x.fs = 0#3 ∧ x.c = .none ∧ x.mod = 0#12 ∧ x.cond = 0#4) &&
    (match o.code.sel with | .onCond _ => true | _ => decide (o.code.sub = 0))

/-- Does the instruction meet every limit of its encoding? -/
def Args.wf (o : Op) (x : Args) : Bool :=
  let g := x.sig o
  x.layoutOk o && g.mod && (g.fs || decide (x.fs = 0#3)) && decide (x.trailingFields ≤ 1)
    && selOk o.code.sel x.raw
    && (match o.code.sel with | .onCond lim => decide (x.cond.toNat < lim) | _ => decide (x.cond = 0#4))
    && (decide (o ≠ .clause) || decide (x.guard = none))
    && (x.long || x.shortOk o)

/-- Is the instruction well formed? A step of a unit has no words and nothing to check. -/
def Instr.wellFormed (i : Instr) : Bool :=
  match i.split with
  | none => true
  | some (o, x) => x.wf o

end Sys2Proof
end

