-- ==== Sys2Proof/Machine/Operands.lean ====
section
/-! DEFINITION. Operand forms: reading and writing registers, latches, constants and predicates (R50 to R57, R83 to R89). -/

namespace Sys2Proof.Machine

open Sys2Proof

/-- The lanes 0 to 31 of a function. -/
def lanesTab (f : Nat → Elem) : Lanes := (List.range 32).map f

/-- The element of a lane. -/
def laneAt (x : Lanes) (l : Nat) : Elem := x.getD l Elem.zero

/-- The same element in every lane. -/
def splat (e : Elem) : Lanes := List.replicate 32 e

/-- New elements in the lanes of the set, the old ones elsewhere (R55). -/
def mergeLanes (m : Mask) (new old : Lanes) : Lanes := lanesTab fun l => if inMask m l then laneAt new l else laneAt old l

/-- A 32-bit value as an unpoisoned element. -/
def elemOf (x : Nat) : Elem := ⟨BitVec.ofNat 32 x, false⟩

/-- An element's bits as a number. -/
def Elem.nat (e : Elem) : Nat := e.val.toNat

/-- Low and high element as a number. -/
def pairNat (lo hi : Elem) : Nat := lo.nat + 2 ^ 32 * hi.nat

/-- A vector register (R49); one that nothing has written holds zero. -/
def Group.vreg (g : Group) (r : Nat) : Lanes := mapGetD r Lanes.zero g.v

/-- A uniform register. -/
def Group.sreg (g : Group) (r : Nat) : Elem := mapGetD r Elem.zero g.s

/-- A shape register: 16 words. -/
def Group.shape (g : Group) (i : Nat) : List Elem := mapGetD i (List.replicate 16 Elem.zero) g.sh

/-- A lane predicate register. -/
def Group.pred (g : Group) (i : Nat) : Pred := g.p.getD i ⟨0#32, 0#32⟩

/-- Write a vector register in the lanes of a set. -/
def Group.setV (g : Group) (r : Nat) (m : Mask) (x : Lanes) : Group :=
  { g with v := mapSet r (mergeLanes m x (g.vreg r)) g.v }

/-- Write a uniform register. -/
def Group.setS (g : Group) (r : Nat) (e : Elem) : Group := { g with s := mapSet r e g.s }

/-- Write a shape register. -/
def Group.setShape (g : Group) (i : Nat) (ws : List Elem) : Group := { g with sh := mapSet i ws g.sh }

/-- Write a lane predicate in the lanes of a set: values and poison (R53, R71). -/
def Group.setP (g : Group) (i : Nat) (m : Mask) (val pois : Mask) : Group :=
  let old := g.pred i
  { g with p := listSet i ⟨(val &&& m) ||| (old.val &&& ~~~m), (pois &&& m) ||| (old.pois &&& ~~~m)⟩ g.p }

/-- A group predicate and its poison. -/
def Group.qbit (g : Group) (i : Nat) : Bool := g.q.toNat.testBit i
def Group.qpois (g : Group) (i : Nat) : Bool := g.qPois.toNat.testBit i

/-- Replace one bit of a byte. -/
def setBit8 (x : BitVec 8) (i : Nat) (b : Bool) : BitVec 8 :=
  if b then x ||| BitVec.ofNat 8 (2 ^ i) else x &&& ~~~(BitVec.ofNat 8 (2 ^ i))

/-- Write a group predicate. -/
def Group.setQ (g : Group) (i : Nat) (b pois : Bool) : Group :=
  { g with q := setBit8 g.q i b, qPois := setBit8 g.qPois i pois }

/-- Push a result into the lane latches: zero in the lanes outside the set (R56). -/
def Group.pushBl (g : Group) (m : Mask) (lo hi : Lanes) : Group :=
  { g with bl := some ⟨mergeLanes m lo Lanes.zero, mergeLanes m hi Lanes.zero⟩ :: g.bl.take 3 }

/-- Push a result into the uniform latches (R56). -/
def Group.pushSl (g : Group) (lo hi : Elem) : Group := { g with sl := some ⟨[lo], [hi]⟩ :: g.sl.take 3 }

/-- The type whose column of R87 an inline constant takes. -/
inductive CTy where
  | int | fp32 | packed16 | packedB
  deriving DecidableEq, Repr

/-- The inline constants of class V (R87). -/
def inlineV (ty : CTy) (i : Nat) : Nat :=
  match ty with
  | .int => [0, 1, 0xFFFFFFFF, 2, 0xFFFF, 0x80000000].getD i 0
  | .fp32 => [0, 0x3F800000, 0xBF800000, 0x40000000, 0x3F000000, 0x80000000].getD i 0
  | .packed16 => [0, 0x3C003C00, 0xBC00BC00, 0x40004000, 0x38003800, 0x80008000].getD i 0
  | .packedB => [0, 0x3F803F80, 0xBF80BF80, 0x40004000, 0x3F003F00, 0x80008000].getD i 0

/-- The constants of class U (R89). -/
def inlineU (i : Nat) : Nat := [0, 1, 2, 4, 8, 16, 0xFFFFFFFF, 0x80000000].getD i 0

/-- The high word of a value sign-extended from 32 bits. -/
def signWord (x : Nat) : Nat := if x.testBit 31 then 0xFFFFFFFF else 0

/-- A latch half in each lane; a latch that holds nothing is never read (R57). -/
def latchAt (ls : List (Option Latch)) (i : Nat) : Latch := (ls.getD i none).getD ⟨[], []⟩

/-- The 32-bit value of a class V source in each lane (R86, R87, R88); of a pair, the low half. -/
def Group.srcV (g : Group) (ty : CTy) (f : Fld) : Lanes :=
  match f with
  | .v r => g.vreg r.toNat
  | .bl i => (latchAt g.bl i.toNat).lo
  | .const i => splat (elemOf (inlineV ty i.toNat))
  | .lane => lanesTab elemOf
  | .uref r => splat (g.sreg r.toNat)
  | .lit w => splat ⟨w, false⟩
  | _ => Lanes.zero

/-- The high half of a 64-bit class V source. The high half of an inline constant in an operand that is no integer is a
free value (log entry 8). -/
def Group.srcVHi (g : Group) (ty : CTy) (f : Fld) : Lanes :=
  match f with
  | .v r => g.vreg (r.toNat + 1)
  | .bl i => (latchAt g.bl i.toNat).hi
  | .const i =>
    if ty = .int then splat (elemOf (signWord (inlineV ty i.toNat))) else splat ⟨Config.constHigh i.toNat, false⟩
  | .uref r => splat (g.sreg (r.toNat + 1))
  | .lit w => splat (elemOf (signWord w.toNat))
  | _ => Lanes.zero

/-- The registers v(r) to v(r + n - 1) of a register field. -/
def Group.vregs (g : Group) (f : Fld) (n : Nat) : List Lanes :=
  match f with
  | .v r => (List.range n).map fun i => g.vreg (r.toNat + i)
  | _ => List.replicate n Lanes.zero

/-- The 32-bit value of a class U source (R89); of a pair, the low half. -/
def Group.srcU (g : Group) (f : Fld) : Elem :=
  match f with
  | .s r => g.sreg r.toNat
  | .sl i => (latchAt g.sl i.toNat).lo.getD 0 Elem.zero
  | .uconst i => elemOf (inlineU i.toNat)
  | .lit w => ⟨w, false⟩
  | _ => Elem.zero

/-- The high half of a 64-bit class U source: constants and literals sign-extended (R88, R89). -/
def Group.srcUHi (g : Group) (f : Fld) : Elem :=
  match f with
  | .s r => g.sreg (r.toNat + 1)
  | .sl i => (latchAt g.sl i.toNat).hi.getD 0 Elem.zero
  | .uconst i => elemOf (signWord (inlineU i.toNat))
  | .lit w => elemOf (signWord w.toNat)
  | _ => Elem.zero

/-- A 64-bit class U source and its poison. -/
def Group.srcU64 (g : Group) (f : Fld) : Nat × Bool :=
  let lo := g.srcU f
  let hi := g.srcUHi f
  (pairNat lo hi, lo.pois || hi.pois)

/-- The uniform registers from a register field. -/
def Group.sregs (g : Group) (f : Fld) (n : Nat) : List Elem :=
  match f with
  | .s r => (List.range n).map fun i => g.sreg (r.toNat + i)
  | _ => List.replicate n Elem.zero

/-- Index of a predicate, shape-register or number field. -/
def fldIdx (f : Fld) : Nat :=
  match f with
  | .p i => i.toNat
  | .h i => i.toNat
  | .n x => x.toNat
  | .v r => r.toNat
  | .s r => r.toNat
  | _ => 0

/-- Write a 32-bit lane result to D in the active lanes and push it (R56, R131). -/
def Group.outV (g : Group) (d : Fld) (m : Mask) (x : Lanes) : Group :=
  let g' := match d with
    | .v r => g.setV r.toNat m x
    | _ => g
  g'.pushBl m x Lanes.zero

/-- Write a 64-bit lane result to the pair D and push it: one latch (R56). -/
def Group.outV2 (g : Group) (d : Fld) (m : Mask) (lo hi : Lanes) : Group :=
  let g' := match d with
    | .v r => (g.setV r.toNat m lo).setV (r.toNat + 1) m hi
    | _ => g
  g'.pushBl m lo hi

/-- Write n registers from D in the active lanes, no push (R56: quads, octets and returning data). -/
def Group.setVs (g : Group) (r : Nat) (m : Mask) : List Lanes → Group
  | [] => g
  | x :: xs => (g.setV r m x).setVs (r + 1) m xs

/-- Write a 32-bit uniform result to D and push it. -/
def Group.outU (g : Group) (d : Fld) (e : Elem) : Group :=
  let g' := match d with
    | .s r => g.setS r.toNat e
    | _ => g
  g'.pushSl e Elem.zero

/-- Write a 64-bit uniform result to the pair D and push it. -/
def Group.outU2 (g : Group) (d : Fld) (lo hi : Elem) : Group :=
  let g' := match d with
    | .s r => (g.setS r.toNat lo).setS (r.toNat + 1) hi
    | _ => g
  g'.pushSl lo hi

/-- Write consecutive uniform registers, no push. -/
def Group.setSs (g : Group) (r : Nat) : List Elem → Group
  | [] => g
  | e :: es => (g.setS r e).setSs (r + 1) es

/-- The low and high words of a number. -/
def loElem (x : Nat) : Elem := elemOf x
def hiElem (x : Nat) : Elem := elemOf (x / 2 ^ 32)

/-- Registers that a class reaches from its first (R50): the width of a V or U operand. `thirteen` for EMITC's A (R360). -/
def clsWidth (o : Op) (c : Cls) : Nat :=
  match c with
  | .vd w _ | .vs w _ | .ud w _ | .us w _ => w
  | .vr al => if o = .emitc then 13 else al
  | .ur al => al
  | _ => 1

/-- A register that an instruction names, for the interlock of R105 and the limit of R50. -/
inductive RegRef where
  | v (r : Nat)
  | s (r : Nat)
  | sh (i : Nat)
  deriving DecidableEq, Repr

/-- The format bound in a slot (R59). -/
def slotFmt (fs : List Nat) (i : Nat) : Option Fmt := Fmt.ofCode (fs.getD i 0)

/-- The format a class N field names: a code, or a slot (R134). -/
def fieldFmt (fs : List Nat) (n : Nat) : Option Fmt :=
  match Fmt.ofCode n with
  | some f => some f
  | none => if 0x20 ≤ n ∧ n ≤ 0x27 then slotFmt fs (n - 0x20) else none

/-- The registers a field names, at a width. -/
def fieldRegs (n : Nat) (f : Fld) : List RegRef :=
  match f with
  | .v r => (List.range n).map fun i => .v (r.toNat + i)
  | .s r => (List.range n).map fun i => .s (r.toNat + i)
  | .uref r => (List.range n).map fun i => .s (r.toNat + i)
  | .h i => [.sh i.toNat]
  | _ => []

/-- The shape registers that an instruction reads by their numbers in its descriptor: the layouts of MTILE (R238). -/
def shapesOf (g : Group) (o : Op) (x : Args) : List RegRef :=
  match o, x.a with
  | .mtile, .h i =>
    let w := (((g.shape i.toNat).getD 0 Elem.zero).val).toNat
    [.sh (bits w 11 8), .sh (bits w 15 12)]
  | _, _ => []

/-- Registers of a CVT operand whose format a field or a slot names (R134). -/
def cvtWidth (fs : List Nat) (n : Nat) : Nat :=
  match fieldFmt fs n with
  | some f => if f.is64 then 2 else 1
  | none => 1

/-- The registers an instruction reads or writes: its fields, the link pair of calls and returns (R112), and shapes its descriptor names. -/
def regsOf (g : Group) (o : Op) (x : Args) (fs : List Nat) : List RegRef :=
  let sg := x.sig o
  let wide (c : Cls) (n : Nat) : Nat := match o with | .cvt => max (clsWidth o c) (cvtWidth fs n) | _ => clsWidth o c
  fieldRegs (wide sg.d (fldIdx x.c)) x.d ++ fieldRegs (wide sg.a (fldIdx x.b)) x.a ++ fieldRegs (clsWidth o sg.b) x.b
    ++ fieldRegs (clsWidth o sg.c) x.c ++ (match o with | .call | .callx | .ret => [.s 126, .s 127] | _ => []) ++ shapesOf g o x

/-- The registers that an access in flight will write. -/
def Dst.regs (d : Dst) : List RegRef :=
  match d with
  | .none => []
  | .v r n => (List.range n).map fun i => .v (r + i)
  | .v2 r n q m => ((List.range n).map fun i => .v (r + i)) ++ ((List.range m).map fun i => .v (q + i))
  | .s r n => (List.range n).map fun i => .s (r + i)
  | .sh i => [.sh i]

/-- Does what an access does raise flags in FLAGS when it is performed or returns (R194, R221, R235, R265, R365)? -/
def Act.raises : Act → Bool
  | .atom op _ => decide (op = 1)
  | .record _ _ _ => true
  | _ => false
def Flight.raises (f : Flight) : Bool := (decide (f.path = 6) && !f.reads && !f.writes) || f.parts.any fun p => p.req.act.raises

/-- Does an instruction read or write FLAGS, or record it (R70, R72, R124)? -/
def touchesFlags (o : Op) (x : Args) : Bool :=
  match o with
  | .flags | .clause => true
  | .srr => decide (fldIdx x.a = 6)
  | .srw => decide (fldIdx x.d = 6)
  | _ => false

/-- Does an instruction name a register that still awaits a return, or FLAGS while an earlier access of its fragment may still raise flags
(R105, R124, R128)? -/
def Group.pending (g : Group) (o : Op) (x : Args) (fs : List Nat) (entry : Nat) : Bool :=
  let rs := regsOf g o x fs
  (g.flights.any fun fl => fl.dst.regs.any fun r => rs.contains r)
    || (touchesFlags o x && g.flights.any fun fl => decide (fl.entry = entry) && fl.raises)

/-- The fields of an instruction with their classes. -/
def fieldList (o : Op) (x : Args) : List (Cls × Fld) :=
  let g := x.sig o
  [(g.d, x.d), (g.a, x.a), (g.b, x.b), (g.c, x.c)]

/-- Is a field legal for the group: registers below k (R50), latches only inside the clause and only when pushed there
(R57)? -/
def fieldLegal (o : Op) (g : Group) (k : Nat) (inClause : Bool) (c : Cls) (f : Fld) : Bool :=
  match f with
  | .v r => decide (r.toNat + clsWidth o c ≤ k)
  | .bl i => inClause && (g.bl.getD i.toNat none).isSome
  | .sl i => inClause && (g.sl.getD i.toNat none).isSome
  | _ => true


end Sys2Proof.Machine
end

