-- ==== Sys2Proof/Machine/Ops.lean ====
section
/-! DEFINITION. The operations that every instruction meaning shares: the issuing fragment, splitting and fusing,
loops, clauses, taking a trap and returning from it, and the frame in which a meaning runs. -/

namespace Sys2Proof.Machine

open Sys2Proof

/-- A trap (R73, R74, R414): the cause code, and the values its rule gives otherwise than R74 does. -/
structure Trap where
  code : Nat
  pois : Bool := false
  /-- The lanes it names; none for active(F). -/
  mask : Option Mask := none
  addr : Dword := 0#64
  /-- TRAPPC is the next address (R125). -/
  pcNext : Bool := false
  /-- It ends an access of a clause that was interrupted before (R70, R412). -/
  incl : Bool := false
  deriving DecidableEq, Repr

/-- Cause codes of R414. -/
def tcIllegalInstr : Nat := 0x01
def tcIllegalOperand : Nat := 0x02
def tcProgram : Nat := 0x03
def tcSoftware : Nat := 0x04
def tcBreak : Nat := 0x05
def tcHwBreak : Nat := 0x06
def tcWatch : Nat := 0x07
def tcStep : Nat := 0x08
def tcHalt : Nat := 0x09
def tcMisScratch : Nat := 0x10
def tcRangeScratch : Nat := 0x11
def tcMisTurning : Nat := 0x12
def tcRangeTurning : Nat := 0x13
def tcMisGlobal : Nat := 0x14
def tcMisGranary : Nat := 0x15
def tcRange : Nat := 0x16
def tcPoison : Nat := 0x18
def tcBarrier : Nat := 0x19
def tcTranslation : Nat := 0x20

/-- Why a meaning does not take effect. -/
inductive Stop where
  | trap (t : Trap)
  /-- The instruction does not issue now (R105, R174, R184). -/
  | stall
  deriving DecidableEq, Repr

/-- How an instruction leaves its fragment. -/
inductive Ctl where
  /-- To the next sequential address, with the loop step of R62. -/
  | seq
  /-- To a branch target; no loop step. -/
  | jump (pc : Dword)
  /-- The fragment waits; the instruction completes later. -/
  | hold
  /-- The split table already holds the outcome. -/
  | done
  deriving DecidableEq, Repr

/-- A program-error trap, an illegal-operand trap, and a poison trap that names its lanes. -/
def progErr {α : Type} : Except Stop α := .error (.trap { code := tcProgram })
def illOp {α : Type} : Except Stop α := .error (.trap { code := tcIllegalOperand })
def poisonTrap {α : Type} (m : Option Mask) (addr : Nat) : Except Stop α :=
  .error (.trap { code := tcPoison, pois := true, mask := m, addr := BitVec.ofNat 64 addr })

/-- What a meaning knows of the instruction it executes: the issuing fragment, the addresses, the active lanes, and the
group as it stood before the instruction (R9). -/
structure Env where
  iss : Issuer
  op : Op
  x : Args
  cfg : TeamCfg
  g : Group
  pc : Dword
  next : Dword
  /-- active(F) of R55. -/
  act : Mask
  /-- The guard is a poisoned q bit (R106). -/
  gp : Bool
  fresh : Nat
  clock : Nat
  deriving DecidableEq, Repr

/-- The team and the group of an issuer. -/
def State.group? (s : State) (tid gix : Nat) : Option (Team × Group) :=
  match mapGet? tid s.teams with
  | none => none
  | some t => match mapGet? gix t.groups with
    | none => none
    | some g => some (t, g)

/-- Put a group back. -/
def State.setGroup (s : State) (tid gix : Nat) (g : Group) : State :=
  { s with teams := mapUpd tid (fun t => { t with groups := mapSet gix g t.groups }) s.teams }

/-- Change a group, if it is there. -/
def State.updGroup (s : State) (tid gix : Nat) (f : Group → Group) : State :=
  { s with teams := mapUpd tid (fun t => { t with groups := mapUpd gix f t.groups }) s.teams }

/-- Change a team, if it is there. -/
def State.updTeam (s : State) (tid : Nat) (f : Team → Team) : State := { s with teams := mapUpd tid f s.teams }

/-- Change a fragment, if it is there. -/
def Group.updFrag (g : Group) (e : Nat) (f : Frag → Frag) : Group := { g with frags := mapUpd e f g.frags }

/-- Is the instruction of entry e a member of the clause in progress? -/
def Group.inClause (g : Group) (e : Nat) : Bool :=
  match g.clause with
  | some c => decide (c.entry = e)
  | none => false

/-- Is the wait over, or none? -/
def Wait.isOver : Wait → Bool
  | .none | .over _ => true
  | _ => false

/-- Can the fragment issue: it is neither parked, halted nor waiting, and its mask is not empty (R63, R64)? -/
def Frag.ready (f : Frag) : Bool := !f.parked && !f.halted && f.wait.isOver && decide (f.emask ≠ 0#32)

/-- Is the clause in progress that of the current fragment? The group does not leave it (R67, R69). -/
def Group.heldByClause (g : Group) : Bool := g.inClause g.cur

/-- The next ready fragment in round robin after entry e (R67). -/
def Group.nextReady (g : Group) (e : Nat) : Option Nat :=
  let rot := (List.range 32).map fun i => (e + 1 + i) % 32
  rot.find? fun i => match mapGet? i g.frags with | some f => f.ready | none => false

/-- The port moves to the next ready fragment of the group after entry e (R67): a new quantum of FRAGQ and a new AGE (R174). DESIGN CHOICE
(log entry 57): so it is too where the only ready fragment of its group goes on after YIELD or at the end of its quantum (R115). -/
def Group.rotateFrom (g : Group) (e clock : Nat) : Group :=
  match g.nextReady e with
  | some e' => { g with cur := e', issued := 0, quantum := g.sp.fragq.toNat, age := clock }
  | none => g

/-- The port moves on from the current fragment. -/
def Group.rotate (g : Group) (clock : Nat) : Group := g.rotateFrom g.cur clock

/-- Move on when the current fragment can no longer issue; a clause is never broken by a change of fragment (R67). -/
def Group.settle (g : Group) (clock : Nat) : Group :=
  if g.heldByClause then g
  else match mapGet? g.cur g.frags with
  | some f => if f.ready then g else g.rotate clock
  | none => g.rotate clock

/-- Union of the masks of fragments. -/
def unionOwn (fs : List (Nat × Frag)) : Mask := fs.foldl (fun a f => a ||| f.2.own) 0#32
def unionEmask (fs : List (Nat × Frag)) : Mask := fs.foldl (fun a f => a ||| f.2.emask) 0#32

/-- An entry number renamed: a fused fragment lives on in entry e. -/
def renameTo (old : List Nat) (e : Nat) (o : Option Nat) : Option Nat :=
  match o with
  | some x => if old.contains x then some e else some x
  | none => none

/-- Fragments parked at join j fuse into the one in the lowest entry (R65). -/
def Group.fuse (g : Group) (j : Nat) : Group × Option Nat :=
  match mapGet? j g.joins with
  | none => (g, none)
  | some jn =>
    let ms := g.frags.filter fun f => f.2.parked && decide (f.2.jtop = some j)
    match ms with
    | [] => (g, none)
    | (e, f) :: rest =>
      let olds := ms.map (·.1)
      let same := rest.all fun h => decide (h.2.loop0 = f.loop0 ∧ h.2.loop1 = f.loop1)
      let f' : Frag := { f with
        own := unionOwn ms, emask := unionEmask ms, pc := jn.rcv, jtop := jn.up, parked := false
        halted := ms.all fun h => h.2.halted
        pendTrap := if same then ms.findSome? fun h => h.2.pendTrap else some tcProgram
        exempt := ms.any fun h => h.2.exempt }
      let frags := (g.frags.filter fun h => !(olds.contains h.1)) 
      ({ g with
          frags := mapSet e f' frags, joins := mapDel j g.joins
          cur := if olds.contains g.cur then e else g.cur
          handler := renameTo olds e g.handler, stepping := renameTo olds e g.stepping }, some e)

/-- A fragment whose PC is the reconvergence address of its JTOP parks there, and the fragments that meet fuse; the
fused fragment is tested again (R65). A fragment whose mask is empty parks at its join at once (R54, R64). -/
def Group.parkTest (g : Group) (e : Nat) : Nat → Group
  | 0 => g
  | n + 1 =>
    match mapGet? e g.frags with
    | none => g
    | some f =>
      match f.jtop with
      | none => g
      | some j =>
        match mapGet? j g.joins with
        | none => g
        | some jn =>
          if f.parked = false ∧ (f.pc = jn.rcv ∨ f.emask = 0#32) then
            let arrived := jn.arrived ||| f.own
            let g1 : Group := { g.updFrag e fun f => { f with parked := true, pc := jn.rcv } with
              joins := mapSet j { jn with arrived := arrived } g.joins }
            if jn.jmask &&& ~~~arrived = 0#32 then
              match g1.fuse j with
              | (g2, some e') => g2.parkTest e' n
              | (g2, none) => g2
            else g1
          else g

/-- Depth of a join below the outermost. -/
def joinDepth (js : Map Join) (j : Nat) : Nat → Nat
  | 0 => 0
  | n + 1 => match mapGet? j js with
    | some jn => match jn.up with
      | some u => 1 + joinDepth js u n
      | none => 0
    | none => 0

/-- Test one join after an exit (R66). -/
def Group.testJoin (g : Group) (j : Nat) : Group :=
  match mapGet? j g.joins with
  | none => g
  | some jn =>
    if jn.jmask = 0#32 then { g with joins := mapDel j g.joins }
    else if g.frags.any fun f => decide (jn.jmask &&& ~~~f.2.own = 0#32) then
      let moved := g.frags.filter fun f => decide (f.2.jtop = some j)
      let g1 : Group := { g with
        joins := mapDel j g.joins
        frags := g.frags.map fun f =>
          if f.2.jtop = some j then (f.1, { f.2 with jtop := jn.up, parked := false }) else f }
      moved.foldl (fun h f => h.parkTest f.1 33) g1
    else if jn.jmask &&& ~~~jn.arrived = 0#32 then
      match g.fuse j with
      | (g2, some e') => g2.parkTest e' 33
      | (g2, none) => g2
    else g

/-- Lanes exit (R66): they leave OWN and EMASK and every join, and the joins are tested from innermost to outermost. -/
def Group.exitLanes (g : Group) (lanes : Mask) : Group :=
  let frags := (g.frags.map fun f => (f.1, { f.2 with own := f.2.own &&& ~~~lanes, emask := f.2.emask &&& ~~~lanes }))
    |>.filter fun f => decide (f.2.own ≠ 0#32)
  let joins := g.joins.map fun j => (j.1, { j.2 with jmask := j.2.jmask &&& ~~~lanes, arrived := j.2.arrived &&& ~~~lanes })
  let g1 := { g with frags := frags, joins := joins }
  let byDepth := (List.range 33).reverse.flatMap fun d =>
    (joins.filter fun j => decide (joinDepth joins j.1 33 = d)).map (·.1)
  byDepth.foldl Group.testJoin g1

/-- The live lanes of a group. -/
def Group.live (g : Group) : Mask := unionOwn g.frags

/-- The loop step of R62 for the instruction at address a whose next address is n. When level 0 ends, an active level 1 becomes level 0. -/
def loopStep (f : Frag) (a n : Dword) : Frag × Dword :=
  let outer (f : Frag) : Frag × Dword :=
    if f.loop0.active = true ∧ a = f.loop0.le then
      let lc := f.loop0.lc - 1#32
      if lc ≠ 0#32 then ({ f with loop0 := { f.loop0 with lc := lc } }, f.loop0.ls)
      else ({ f with loop0 := f.loop1, loop1 := Loop.off }, n)
    else (f, n)
  if f.loop1.active = true ∧ a = f.loop1.le then
    let lc := f.loop1.lc - 1#32
    if lc ≠ 0#32 then ({ f with loop1 := { f.loop1 with lc := lc } }, f.loop1.ls)
    else outer { f with loop1 := Loop.off }
  else outer f

/-- Are bits 63:57 of an address nonzero (R94)? -/
def badAddr (a : Dword) : Bool := decide (a.toNat ≥ 2 ^ 57)

/-- TRAPCAUSE (R73). -/
def trapCauseWord (entry : Nat) (incl pois : Bool) (code : Nat) : Word :=
  BitVec.ofNat 32 (entry * 2 ^ 16 + (if incl then 2 ^ 9 else 0) + (if pois then 2 ^ 8 else 0) + code)

/-- Every lane of a stopped group counts as exited; it retires without the poison check (R74, R415). -/
def Group.stop (g : Group) : Group :=
  { g with frags := [], joins := [], clause := none, handler := none, stepping := none,
           haltPending := false, stopped := true }

/-- The FLAGS and RNGSTATE of the checkpoint (R70). -/
def Special.restore (sp : Special) (c : Clause) : Special := { sp with flags := c.flags, rngstate := c.rng }

/-- Has a part not been sent: nothing of it has been performed. -/
def Part.held (p : Part) : Bool := decide (p.st = .todo) || decide (p.st = .faulted)

/-- Is the part that which stands for the copies of TSLD or BLEND.STAGE (R231, R264)? -/
def Part.isCopy (p : Part) : Bool := decide (p.req.tgt = .unit) && p.req.lanes.isEmpty

/-- The lanes of a part. -/
def Part.lanes (p : Part) : Mask := maskOf fun l => p.req.lanes.any fun q => decide (q.lane = l)

/-- The parts of an access that have not been sent are abandoned: their lanes get nothing (R61, R70). -/
def Flight.abandon (f : Flight) : Flight :=
  { f with
    mask := f.mask &&& ~~~(f.parts.filter Part.held).foldl (fun (m : Mask) p => m ||| p.lanes) 0#32
    parts := f.parts.map fun p => if p.held then { p with st := PartSt.done } else p }

/-- Accesses of an interrupted clause that have not been performed are abandoned as far as they have not been sent; one of which nothing has
been sent is counted no more (R61, R70). -/
def Group.abandon (g : Group) (entry : Nat) : Group :=
  let mine (f : Flight) : Bool := f.inClause && decide (f.entry = entry)
  let gone (f : Flight) : Bool := mine f && ((!f.parts.isEmpty && f.parts.all Part.held) || decide (f.path = 8 ∧ f.lines = 0))
  { g with
    flights := (g.flights.filter fun f => !gone f).map fun f => if mine f then f.abandon else f
    cnt := (List.range 8).map fun i => g.cnt.getD i 0 - (g.flights.filter fun f => gone f && decide (f.path = i)).length }

/-- The length of the instruction a fragment waits in. -/
def Wait.len : Wait → Nat
  | .none => 0
  | .barrier _ _ n | .cluster _ _ n | .path _ _ n | .sleep _ n | .arrive _ _ _ _ n _ | .carrive _ _ _ _ n _
  | .fence _ _ _ n _ | .queue n _ | .slot n | .tile _ _ n | .over n => n

/-- A WAITC whose counter has come down without a return of an access is over (R127). -/
def Group.overPaths (g : Group) : Group :=
  { g with frags := g.frags.map fun f => match f.2.wait with
      | .path p th n => if g.cnt.getD p 0 ≤ th then (f.1, { f.2 with wait := .over n }) else f
      | _ => f }

/-- The clause in progress is interrupted (R70): its accesses are abandoned, FLAGS and RNGSTATE restored, its fragment stands at the CLAUSE. -/
def Group.interrupt (g : Group) : Group :=
  match g.clause with
  | none => g
  | some c =>
    { ((g.abandon c.entry).overPaths.updFrag c.entry fun f => { f with pc := c.addr, wait := .none }) with sp := g.sp.restore c, clause := none }

/-- A fragment that is halted leaves its MTILE, which resumes from SEQSTATE when it issues again (R241). -/
def Wait.halt (w : Wait) : Wait :=
  match w with
  | .tile _ _ _ => .none
  | w => w

/-- The fragment that the trap of another halts; one in a clause halts when the clause has completed (R74). -/
def Group.haltOther (g : Group) (f : Nat × Frag) : Nat × Frag :=
  if g.inClause f.1 then f else (f.1, { f.2 with halted := true, wait := f.2.wait.halt })

/-- Taking a trap, for one group (R74): the trapping fragment goes to the vector, the others halt, the trap registers
are written; in a clause the checkpoint is restored and TRAPPC names the CLAUSE (R70). Answers the TRAPPC of a group that
is stopped instead: by a double trap, or for want of a vector (R415). -/
def Group.trap (g : Group) (cfg : TeamCfg) (entry : Nat) (pc next : Dword) (act : Mask) (t : Trap) :
    Group × Option Dword :=
  let cl := if g.inClause entry then g.clause else none
  let tpc := match cl with
    | some c => c.addr
    | none => if t.pcNext then next else pc
  if g.handler.isSome ∨ cfg.trapv = BitVec.allOnes 64 then (g.stop, some tpc)
  else
    let g := if cl.isSome then g.interrupt else g
    let sp := { g.sp with
      trapcause := trapCauseWord entry (cl.isSome || t.incl) t.pois t.code
      trappc := tpc
      trapaddr := t.addr
      trapmask := t.mask.getD act }
    let stays := g.clause.isSome || decide (g.cur = entry)
    ({ g with
        sp := sp, handler := some entry, stepping := none
        cur := if stays then g.cur else entry, issued := if stays then g.issued else 0
        quantum := if stays then g.quantum else sp.fragq.toNat
        frags := g.frags.map fun f =>
          if f.1 = entry then
            (f.1, { f.2 with pc := cfg.trapv, wait := .none, parked := false, halted := false, pendTrap := none, exempt := false })
          else g.haltOther f }, none)

/-- The AGE of a group whose current fragment has changed, or has become ready (R174). -/
def Group.stamp (g : Group) (old : Group) (entry clock : Nat) : Group :=
  let was := match mapGet? entry old.frags with | some f => f.ready && decide (f.wait = .none) | none => false
  if g.cur ≠ old.cur ∨ (g.cur = entry ∧ was = false) then { g with age := clock } else g

/-- The open slot of a group. -/
def Core.openSlot (c : Core) (team gix : Nat) : Option (Nat × Slot) :=
  c.rend.slots.find? fun q => decide (q.2.team = team ∧ q.2.gix = gix) && q.2.pub.isNone

/-- Fragments of a core that wait for a slot issue their MSETUP again when one is free (R248). -/
def Frag.wakeSlot (f : Frag) : Frag :=
  match f.wait with
  | .slot _ => { f with wait := if f.halted then .over 0 else .none }
  | _ => f
def Group.wakeSlot (g : Group) : Group := { g with frags := g.frags.map fun f => (f.1, f.2.wakeSlot) }
def State.wakeSlots (s : State) (c : Nat) : State :=
  { s with teams := s.teams.map fun t =>
      if t.2.core = some c then (t.1, { t.2 with groups := t.2.groups.map fun g => (g.1, g.2.wakeSlot) }) else t }

/-- A slot is freed. -/
def State.freeSlot (s : State) (c i : Nat) : State :=
  (s.updCore c fun k => { k with rend := { k.rend with slots := mapDel i k.rend.slots } }).wakeSlots c

/-- A group whose last lane has exited frees its open slot unpublished (R251). -/
def State.dropOpenSlot (s : State) (c team gix : Nat) : State :=
  match (s.core c).openSlot team gix with
  | some (i, _) => s.freeSlot c i
  | none => s

/-- Taking a trap: the ONE operation through which every trap goes. A group that is stopped posts kind 0x0C (R415), and its open
slot is freed (R251). -/
def takeTrap (s : State) (iss : Issuer) (pc next : Dword) (act : Mask) (t : Trap) : State :=
  match s.group? iss.team iss.gix with
  | none => s
  | some (tm, g) =>
    match g.trap tm.cfg iss.entry pc next act t with
    | (g', none) => s.setGroup iss.team iss.gix (g'.stamp g iss.entry s.clock)
    | (g', some tpc) =>
      postError (State.dropOpenSlot (s.setGroup iss.team iss.gix g') (tm.core.getD 0) iss.team iss.gix)
        { kind := 0x0C, sev := if Config.stopFatal then 3 else 2, unit := coreStop (tm.core.getD 0), ctx := tm.cfg.ctx, addr := 0, detail := tpc.toNat }

/-- Release the fragments that a trap halted (R125). -/
def Group.release (g : Group) : Group :=
  { g with handler := none, frags := g.frags.map fun f => (f.1, { f.2 with halted := false }) }

/-- When the trapping fragment has exited inside the handler the halted fragments are released (R125). -/
def Group.handlerGone (g : Group) : Group :=
  match g.handler with
  | some e => if (mapGet? e g.frags).isNone then g.release else g
  | none => g

/-- The clause has completed: its fragment halts if a handler of another runs (R74), and its accesses are abandoned no more. -/
def Group.endClause (g : Group) (entry : Nat) : Group :=
  let halts := match g.handler with | some h => decide (h ≠ entry) | none => false
  { (if halts then g.updFrag entry fun f => { f with halted := true } else g) with
    clause := none, flights := g.flights.map fun f => { f with inClause := false } }

/-- One member of the clause has completed (R69); the exemption of R207 ends with the instruction, or with the clause. -/
def Group.countMember (g : Group) (entry : Nat) (opened : Bool) : Group :=
  if opened then g
  else
    let g1 := match g.clause with
      | some c => if c.entry = entry then (if c.left ≤ 1 then g.endClause entry else { g with clause := some { c with left := c.left - 1 } }) else g
      | none => g
    if g1.inClause entry then g1 else g1.updFrag entry fun f => { f with exempt := false }

/-- The fragment that takes the single-step trap after the step (R209). -/
def Group.stepTaker (g : Group) (e : Nat) : Option Nat :=
  match mapGet? e g.frags with
  | some _ => some e
  | none => match g.frags with
    | [] => none
    | f :: _ => some f.1

/-- After an instruction of the stepped fragment, clause included, the single-step trap is raised (R208, R209). A fragment that takes it in
place of one whose lanes have exited takes it though it waits; one whose instruction has begun to act completes it first. -/
def afterStep (s : State) (tid gix : Nat) : State :=
  match s.group? tid gix with
  | none => s
  | some (_, g) =>
    match g.stepping with
    | none => s
    | some e =>
      if g.clause.isSome then s
      else match g.stepTaker e with
        | none => s
        | some e' => match mapGet? e' g.frags with
          | none => s
          | some f =>
            let now := match f.wait with
              | .none => true
              | .barrier _ _ _ | .cluster _ _ _ | .path _ _ _ | .sleep _ _ | .slot _ | .tile _ _ _ => decide (e' ≠ e)
              | _ => false
            if now then takeTrap s ⟨tid, gix, e'⟩ f.pc f.pc f.emask { code := tcStep, mask := some f.emask }
            else s.updGroup tid gix fun g =>
              { (g.updFrag e' fun f => { f with halted := false }) with stepping := some e', cur := e' }

/-- Where the fragment goes after an instruction: the loop step, or the target. -/
def Frag.after (f : Frag) (pc next : Dword) (ctl : Ctl) : Frag × Dword :=
  match ctl with
  | .seq => loopStep f pc next
  | .jump p => (f, p)
  | _ => (f, f.pc)

/-- The fragment parks where its address is the reconvergence address of its join (R65). -/
def Group.parksAt (g : Group) (f : Frag) (pc : Dword) : Bool :=
  match f.jtop with
  | some j => match mapGet? j g.joins with
    | some jn => decide (jn.rcv = pc)
    | none => false
  | none => false

/-- A fragment that parks gives up the port, were it to fuse at once (R65, R67); in a clause it does not. -/
def Group.parkMove (g : Group) (e clock : Nat) (parks : Bool) : Group :=
  if parks && g.clause.isNone then g.rotateFrom e clock else g

/-- The end of an instruction for its group: clause, program counter, parking, quantum (R62, R65, R67, R69). In a clause a fragment does not
park (R118). -/
def Group.finish (g : Group) (entry : Nat) (pc next : Dword) (ctl : Ctl) (opened : Bool) (clock : Nat) : Group :=
  let g0 := g.countMember entry opened
  let g1 : Group × Bool := match ctl with
    | .done => (g0, false)
    | _ => match mapGet? entry g0.frags with
      | none => (g0, false)
      | some f =>
        let (f', p) := f.after pc next ctl
        let g1 : Group := { g0 with frags := mapSet entry { f' with pc := p, wait := .none } g0.frags }
        if g1.inClause entry then (g1, false) else (g1.parkTest entry 33, g1.parksAt f' p)
  ((g1.1.handlerGone).parkMove entry clock g1.2).settle clock

/-- The group that a translation fault parks (R410). -/
def Faulter.group : Faulter → Option (Nat × Nat)
  | .part t g _ _ | .fetch t g _ | .member t g _ _ _ _ => some (t, g)
  | _ => none

/-- Is a group parked by a translation fault (R410)? -/
def State.parked (s : State) (tid gix : Nat) : Bool :=
  s.faults.any fun d => d.2.any fun e => decide (e.who.group = some (tid, gix))

/-- What a fault entry of an interrupted clause stands for: the lanes and the lowest address, for a FATAL answer (R70, R412). -/
def Faulter.interrupt (w : Faulter) (va : Nat) (g : Group) (c : Clause) : Faulter :=
  match w with
  | .part t x fl pt => match g.flights.find? fun f => decide (f.id = fl) with
    | some f =>
      if f.inClause ∧ f.entry = c.entry then
        match f.parts[pt]? with
        | some p => .member t x c.entry c.addr p.lanes va
        | none => w
      else w
    | none => w
  | .fetch t x e => if e = c.entry then
      .member t x e c.addr (match mapGet? e g.frags with | some f => f.emask | none => 0#32) va else w
  | w => w

/-- A translation fault interrupts the clause in progress (R70): what faulted stays in the buffer and is issued again with the clause. -/
def State.interrupt (s : State) (tid gix : Nat) : State :=
  match s.group? tid gix with
  | none => s
  | some (_, g) => match g.clause with
    | none => s
    | some c =>
      { s.updGroup tid gix Group.interrupt with
        faults := s.faults.map fun d => (d.1, d.2.map fun e =>
          if e.who.group = some (tid, gix) then { e with who := e.who.interrupt e.va g c } else e) }

/-- The end of an instruction of a fragment; `opened` for CLAUSE and RTE, which begin what follows them. -/
def finish (s : State) (iss : Issuer) (pc next : Dword) (ctl : Ctl) (opened : Bool) : State :=
  let s1 := s.updGroup iss.team iss.gix fun g => g.finish iss.entry pc next ctl opened s.clock
  if opened then s1 else afterStep s1 iss.team iss.gix

/-- The address a completing instruction leads to: none unless it leads to one. -/
def leadsTo (f : Frag) (pc next : Dword) (ctl : Ctl) : Option Dword :=
  match ctl with
  | .seq => some (loopStep f pc next).2
  | .jump p => some p
  | _ => none

/-- The q bit that guards a uniform instruction: suppressed, and poisoned (R106). -/
def guardU (g : Group) (x : Args) : Bool × Bool :=
  match x.guard with
  | none => (false, false)
  | some gd => (g.qbit gd.pred.toNat != gd.sense, g.qpois gd.pred.toNat)

/-- The lanes that a guard of the lane set lets act (R55). -/
def guardLanes (g : Group) (gd : Option Guard) (m : Mask) : Mask :=
  match gd with
  | none => m
  | some gd =>
    let p := (g.pred gd.pred.toNat).val
    m &&& (if gd.sense then p else ~~~p)

/-- The lanes that the guard of a lane instruction lets act (R55). -/
def guardV (g : Group) (x : Args) (m : Mask) : Mask := guardLanes g x.guard m

/-- Branches, whose poisoned guard traps (R106). -/
def isBranch (o : Op) : Bool :=
  match o with
  | .bra | .bru | .brv | .call | .callx | .ret => true
  | _ => false

/-- Does the format a field or a slot binds suit the instruction (R134, R144, R218, R235, R371)? Checked at issue. -/
def slotLegal (o : Op) (x : Args) (fs : List Nat) : Bool :=
  let slot := slotFmt fs x.fs.toNat
  let fb := fieldFmt fs (fldIdx x.b)
  let fc := fieldFmt fs (fldIdx x.c)
  let is (p : Fmt → Bool) (f : Option Fmt) : Bool := match f with | some f => p f | none => false
  let m := x.mod.toNat
  match o with
  | .padd2 | .pmul2 | .pfma2 | .pmin2 | .pmax2 | .pdot2 => slot == some .fp16 || slot == some .bf16
  | .cvt =>
    is Fmt.cvtOk fb && is Fmt.cvtOk fc && (is Fmt.isFloat fb || decide (bits m 7 6 = 0))
      && (!is Fmt.is64 fc || decide (x.d = .latchOnly) || decide (fldIdx x.d % 2 = 0))
      && (!is Fmt.is64 fb || (match x.a with | .v r => decide (r.toNat % 2 = 0) | .uref r => decide (r.toNat % 2 = 0) | _ => true))
  | .cvtpk => is Fmt.cvtpkOk fc && (is Fmt.isFloat fc || decide (bits m 9 6 = 0))
  | .sxpack | .sxunpk => is Fmt.isSx fb
  | .mma | .mmdual | .mbld =>
    (match slot with
     | some .sx7 | some .sx4x | some .sx2x | some .int8 | some .bf16 | some .fp16 => decide (bits m 2 0 = 0)
     | some .e4m3 | some .e5m2 => true
     | _ => false)
  | .mwb =>
    (match slot with
     | some .fp32 | some .int32 | some .fp16 | some .bf16 | some .e4m3 | some .e5m2 | some .int8 | some .sx7 | some .sx4x
     | some .sx2x => true
     | _ => false)
  | .gupd =>
    (match slot with
     | some f =>
       if bits m 3 0 = 0 then decide (f.code ≤ 12)
       else if bits m 3 0 ≤ 3 then decide (f.code ≤ 2)
       else decide (f.code ≤ 2 ∨ (5 ≤ f.code ∧ f.code ≤ 12)) && (!f.is64 || decide (fldIdx x.d % 2 = 0))
     | none => false)
  | _ => true

/-- Registers below k when a slot makes a CVT operand a pair (R50, R134). -/
def cvtPairsOk (o : Op) (x : Args) (fs : List Nat) (k : Nat) : Bool :=
  match o with
  | .cvt =>
    let w (n : Nat) : Nat := match fieldFmt fs n with | some f => if f.is64 then 2 else 1 | none => 1
    (match x.d with | .v r => decide (r.toNat + w (fldIdx x.c) ≤ k) | _ => true)
      && (match x.a with | .v r => decide (r.toNat + w (fldIdx x.b) ≤ k) | _ => true)
  | _ => true

/-- Macro and bank numbers below MACROS (R215). -/
def macrosOk (o : Op) (x : Args) (macros : Nat) : Bool :=
  let d := fldIdx x.d
  match o with
  | .mma => decide (bits d 2 0 < macros ∧ bits d 6 4 < macros)
  | .mmdual => decide (bits d 2 0 < macros ∧ bits d 6 4 < macros ∧ fldIdx x.c < macros)
  | .macrd => decide (fldIdx x.b < macros)
  | .mbld | .mbgth | .mwb => decide (d < macros)
  | _ => true

/-- The checks of an operand that wait for issue (R93): k, latches, slots, macros. -/
def operandsLegal (o : Op) (x : Args) (g : Group) (cfg : TeamCfg) (inClause : Bool) : Bool :=
  (fieldList o x).all (fun p => fieldLegal o g cfg.k inClause p.1 p.2)
    && slotLegal o x cfg.fs && cvtPairsOk o x cfg.fs cfg.k && macrosOk o x cfg.macros

/-- Is the instruction the last of its clause, or outside one, or off the end of every active loop (R69)? -/
def clauseEndOk (g : Group) (f : Frag) (entry : Nat) (pc : Dword) : Bool :=
  match g.clause with
  | none => true
  | some c =>
    decide (c.entry ≠ entry) || decide (c.left ≤ 1) ||
      !((f.loop0.active && f.loop0.le == pc) || (f.loop1.active && f.loop1.le == pc))

/-- What an issue comes to. -/
inductive Issue where
  /-- No fragment issues. -/
  | none
  /-- The instruction cannot issue now; nothing changes. -/
  | stalled
  /-- A trap of decoding or of the clause (R93). -/
  | trap (e : Env) (f : Frag) (t : Trap)
  /-- The guard suppresses a uniform instruction (R55, R106). -/
  | skip (e : Env) (f : Frag)
  | go (e : Env) (f : Frag)

/-- The front of every instruction: the issuing fragment, the interlock (R105), the checks of decoding that need the
group (R93), and the guard (R55, R106). -/
def begin' (o : Op) (x : Args) (s : State) : Issue :=
  match s.cur with
  | none => .none
  | some iss =>
    match s.group? iss.team iss.gix with
    | none => .none
    | some (tm, g) =>
      match mapGet? iss.entry g.frags with
      | none => .none
      | some f =>
        let inC := g.inClause iss.entry
        let actU := f.emask
        let act := if o.uniform then actU else guardV g x actU
        let e : Env := ⟨iss, o, x, tm.cfg, g, f.pc, f.pc + BitVec.ofNat 64 x.bytes, act, false, s.fresh, s.clock⟩
        if !f.ready || decide (f.wait ≠ .none) || tm.core.isNone then .stalled
        else if inC && o.barred then .trap e f { code := tcIllegalInstr }
        else if !operandsLegal o x g tm.cfg inC then .trap e f { code := tcIllegalOperand }
        else if !clauseEndOk g f iss.entry f.pc then .trap e f { code := tcProgram }
        else if g.pending o x tm.cfg.fs iss.entry then .stalled
        else if o.uniform then
          let (skip, gp) := guardU g x
          if gp && isBranch o then .trap e f { code := tcPoison, pois := true }
          else if skip then .skip e f
          else .go { e with gp := gp } f
        else .go e f

/-- The instruction has been issued: it counts towards the quantum (R67), and the model's counter of free values moves on. -/
def countIssue (s : State) (iss : Issuer) : State :=
  { s.updGroup iss.team iss.gix fun g => { g with issued := g.issued + 1, unselected := 0, unselectedU := 0, starved := false } with fresh := s.fresh + 1 }

/-- Completion of an instruction, with the check of the address it leads to (R94): `s0` is the state before it. -/
def complete (s0 : State) (e : Env) (f : Frag) (s1 : State) (ctl : Ctl) (opened : Bool) : State :=
  match leadsTo f e.pc e.next ctl with
  | some p =>
    if badAddr p then takeTrap s0 e.iss e.pc e.next e.act { code := tcRange, addr := p }
    else finish s1 e.iss e.pc e.next ctl opened
  | none =>
    match ctl with
    | .hold =>
      let p := (loopStep f e.pc e.next).2
      if badAddr p then takeTrap s0 e.iss e.pc e.next e.act { code := tcRange, addr := p }
      else s1.updGroup e.iss.team e.iss.gix fun g => g.settle s1.clock
    | _ => finish s1 e.iss e.pc e.next ctl opened

/-- The frame of every instruction's meaning: the front, the body, and completion or trap. -/
def run (o : Op) (x : Args) (s : State) (body : Env → State → Except Stop (State × Ctl)) :
    Host.Outcome State Fault Refusal :=
  match begin' o x s with
  | .none => .fault .noIssuer
  | .stalled => .next s
  | .trap e _ t => .next (takeTrap (countIssue s e.iss) e.iss e.pc e.next e.act t)
  | .skip e f =>
    let s1 := countIssue s e.iss
    .next (complete s1 e f s1 .seq false)
  | .go e f =>
    let s1 := countIssue s e.iss
    match body e s1 with
    | .ok (s2, ctl) =>
      if e.g.inClause e.iss.entry && s2.parked e.iss.team e.iss.gix then .next (s2.interrupt e.iss.team e.iss.gix)
      else .next (complete s1 e f s2 ctl (decide (o = .clause ∨ o = .rte)))
    | .error (.trap t) => .next (takeTrap s1 e.iss e.pc e.next e.act t)
    | .error .stall => .next s

/-- A meaning that changes only its group. -/
def runG (o : Op) (x : Args) (s : State) (body : Env → Except Stop (Group × Ctl)) : Host.Outcome State Fault Refusal :=
  run o x s fun e s1 =>
    match body { e with g := match s1.group? e.iss.team e.iss.gix with | some (_, g) => g | none => e.g } with
    | .ok (g, ctl) => .ok (s1.setGroup e.iss.team e.iss.gix g, ctl)
    | .error t => .error t

/-- A lane result element: poisoned, with free value bits, when a source is (R47); log entry 3. -/
def laneOut (e : Env) (l : Nat) (pois : Bool) (x : Nat) : Elem :=
  if pois then ⟨Config.poisonBits e.fresh l, true⟩ else elemOf x

/-- A uniform result: poisoned by its sources or by its guard (R47, R106). -/
def uOut (e : Env) (i : Nat) (pois : Bool) (x : Nat) : Elem := laneOut e i (pois || e.gp) x

end Sys2Proof.Machine
end

