-- ==== Sys2Proof/Machine/Flags.lean ====
section
/-! DEFINITION. Flags (R45, R46), rounding controls (R35, R37, R40) and the two frames of computing instructions: one
result in each active lane (R131), and one result of a uniform instruction (R119). -/

namespace Sys2Proof.Machine

open Sys2Proof

/-- FLAGS with more bits set (R46). -/
def Group.raise (g : Group) (fl : Nat) : Group :=
  { g with sp := { g.sp with flags := g.sp.flags ||| BitVec.ofNat 32 (fl % 64) } }

/-- RNGSTATE after a stochastic instruction: 64 steps (R40). -/
def Group.stepRng (g : Group) : Group :=
  { g with sp := { g.sp with rngstate := BitVec.ofNat 64 (lfsr g.sp.rngstate.toNat 64) } }

/-- The rounding mode of the arithmetic layout (R35, R83). -/
def rndOf (x : Args) : Rnd := Rnd.ofCode (bits x.m 2 0)

/-- The draw of result j of lane l (R40), from the state before the instruction. -/
def Env.draw (e : Env) (l j : Nat) : Nat := drawOf e.g.sp.rngstate.toNat l j

/-- The result of one lane: bits, poison, flags. -/
structure LaneRes where
  val : Nat
  pois : Bool
  fl : Nat
  deriving DecidableEq, Repr

/-- The flags of the active lanes whose result is not poisoned (R46, R47). -/
def gatherFlags (m : Mask) (f : Nat → LaneRes) : Nat :=
  (lanesOf m).foldl (fun a l => let r := f l; if r.pois then a else a ||| r.fl) 0

/-- One 32-bit result in each active lane (R131). `sr`: the instruction rounds under its mode (R40). -/
def laneStep (e : Env) (sr : Bool) (f : Nat → LaneRes) : Group :=
  let out := lanesTab fun l => if inMask e.act l then (let r := f l; laneOut e l r.pois r.val) else Elem.zero
  let g1 := (e.g.outV e.x.d e.act out).raise (gatherFlags e.act f)
  if sr && decide ((rndOf e.x) = .sr) && decide (e.act ≠ 0#32) then g1.stepRng else g1

/-- The frame of a lane instruction with one 32-bit result. -/
def runLane (o : Op) (x : Args) (s : State) (sr : Bool) (f : Env → Nat → LaneRes) :
    Host.Outcome State Fault Refusal :=
  runG o x s fun e => .ok (laneStep e sr (f e), .seq)

/-- A 64-bit result in each active lane: the pair D and one latch (R56). -/
def laneStep2 (e : Env) (f : Nat → LaneRes) : Group :=
  let lo := lanesTab fun l => if inMask e.act l then (let r := f l; laneOut e l r.pois (r.val % 2 ^ 32)) else Elem.zero
  let hi := lanesTab fun l => if inMask e.act l then (let r := f l; laneOut e (l + 32) r.pois (r.val / 2 ^ 32)) else Elem.zero
  (e.g.outV2 e.x.d e.act lo hi).raise (gatherFlags e.act f)

/-- A predicate result in each active lane: p[i] (R138, R153). -/
def predStep (e : Env) (i : Nat) (f : Nat → LaneRes) : Group :=
  let val := maskOf fun l => inMask e.act l && decide ((f l).val ≠ 0)
  let pois := maskOf fun l => inMask e.act l && (f l).pois
  (e.g.setP i e.act val pois).raise (gatherFlags e.act f)

/-- Sources with their modifiers (R83, R131): of FP32 operands ... -/
def Env.fa (e : Env) : Lanes :=
  (e.g.srcV .fp32 e.x.a).map fun y => { y with val := BitVec.ofNat 32 (srcMod (bit e.x.m 6) (bit e.x.m 7) 31 y.nat) }
def Env.fb (e : Env) : Lanes :=
  (e.g.srcV .fp32 e.x.b).map fun y => { y with val := BitVec.ofNat 32 (srcMod (bit e.x.m 8) (bit e.x.m 9) 31 y.nat) }
def Env.fc (e : Env) : Lanes :=
  (e.g.srcV .fp32 e.x.c).map fun y => { y with val := BitVec.ofNat 32 (srcMod (bit e.x.m 10) (bit e.x.m 11) 31 y.nat) }

/-- Both halves of a packed element under the modifiers (R83, R144). -/
def packedMod (abs neg : Bool) (x : Nat) : Nat :=
  srcMod abs neg 15 (x % 65536) + 65536 * srcMod abs neg 15 (x / 65536)

/-- ... of packed operands in the slot's format ... -/
def Env.pa (e : Env) (ty : CTy) : Lanes :=
  (e.g.srcV ty e.x.a).map fun y => { y with val := BitVec.ofNat 32 (packedMod (bit e.x.m 6) (bit e.x.m 7) y.nat) }
def Env.pb (e : Env) (ty : CTy) : Lanes :=
  (e.g.srcV ty e.x.b).map fun y => { y with val := BitVec.ofNat 32 (packedMod (bit e.x.m 8) (bit e.x.m 9) y.nat) }
def Env.pc' (e : Env) (ty : CTy) : Lanes :=
  (e.g.srcV ty e.x.c).map fun y => { y with val := BitVec.ofNat 32 (packedMod (bit e.x.m 10) (bit e.x.m 11) y.nat) }

/-- ... and of integer operands. -/
def Env.ia (e : Env) : Lanes := e.g.srcV .int e.x.a
def Env.ib (e : Env) : Lanes := e.g.srcV .int e.x.b
def Env.ic (e : Env) : Lanes := e.g.srcV .int e.x.c

/-- One FP32 source. -/
def fp1 (e : Env) (f : Nat → Nat → Nat × Nat) : Nat → LaneRes :=
  let a := e.fa
  fun l =>
    let x := laneAt a l
    let r := f l x.nat
    ⟨if e.x.sat then fp32.sat01 r.1 else r.1, x.pois, r.2⟩

/-- Two FP32 sources. -/
def fp2 (e : Env) (f : Nat → Nat → Nat → Nat × Nat) : Nat → LaneRes :=
  let a := e.fa
  let b := e.fb
  fun l =>
    let x := laneAt a l
    let y := laneAt b l
    let r := f l x.nat y.nat
    ⟨if e.x.sat then fp32.sat01 r.1 else r.1, x.pois || y.pois, r.2⟩

/-- Three FP32 sources. -/
def fp3 (e : Env) (f : Nat → Nat → Nat → Nat → Nat × Nat) : Nat → LaneRes :=
  let a := e.fa
  let b := e.fb
  let c := e.fc
  fun l =>
    let x := laneAt a l
    let y := laneAt b l
    let z := laneAt c l
    let r := f l x.nat y.nat z.nat
    ⟨if e.x.sat then fp32.sat01 r.1 else r.1, x.pois || y.pois || z.pois, r.2⟩

/-- One, two and three integer sources. -/
def int1 (e : Env) (f : Nat → Nat × Nat) : Nat → LaneRes :=
  let a := e.ia
  fun l =>
    let x := laneAt a l
    let r := f x.nat
    ⟨r.1, x.pois, r.2⟩

def int2 (e : Env) (f : Nat → Nat → Nat × Nat) : Nat → LaneRes :=
  let a := e.ia
  let b := e.ib
  fun l =>
    let x := laneAt a l
    let y := laneAt b l
    let r := f x.nat y.nat
    ⟨r.1, x.pois || y.pois, r.2⟩

def int3 (e : Env) (f : Nat → Nat → Nat → Nat) : Nat → LaneRes :=
  let a := e.ia
  let b := e.ib
  let c := e.ic
  fun l =>
    let x := laneAt a l
    let y := laneAt b l
    let z := laneAt c l
    ⟨f x.nat y.nat z.nat, x.pois || y.pois || z.pois, 0⟩

/-- The frame of a uniform instruction with a 32-bit result of two sources (R119). -/
def runU2 (o : Op) (x : Args) (s : State) (f : Nat → Nat → Nat × Nat) : Host.Outcome State Fault Refusal :=
  runG o x s fun e =>
    let a := e.g.srcU x.a
    let b := e.g.srcU x.b
    let p := a.pois || b.pois
    let r := f a.nat b.nat
    .ok ((e.g.outU x.d (uOut e 0 p r.1)).raise (if p || e.gp then 0 else r.2), .seq)

/-- The same of one source. -/
def runU1 (o : Op) (x : Args) (s : State) (f : Nat → Nat) : Host.Outcome State Fault Refusal :=
  runG o x s fun e =>
    let a := e.g.srcU x.a
    .ok (e.g.outU x.d (uOut e 0 a.pois (f a.nat)), .seq)

/-- An exact integer clamped to a range, with SATD where the clamp acts (R27). -/
def clampI (lo hi v : Int) : Nat × Nat :=
  if v < lo then (wrapI lo 32, flSATD) else if v > hi then (wrapI hi 32, flSATD) else (wrapI v 32, 0)

/-- Signed and unsigned limits of 32 bits. -/
def s32Lo : Int := -2147483648
def s32Hi : Int := 2147483647
def u32Hi : Int := 4294967295

/-- The integer conditions of R120, for codes 0 to 9. -/
def icond (c a b : Nat) : Bool :=
  match c with
  | 0 => decide (a = b)
  | 1 => decide (a ≠ b)
  | 2 => decide (sext a 32 < sext b 32)
  | 3 => decide (sext a 32 ≤ sext b 32)
  | 4 => decide (sext a 32 > sext b 32)
  | 5 => decide (sext a 32 ≥ sext b 32)
  | 6 => decide (a < b)
  | 7 => decide (a ≤ b)
  | 8 => decide (a > b)
  | _ => decide (a ≥ b)

end Sys2Proof.Machine
end

