-- ==== Sys2Proof/Machine/LaneArith.lean ====
section
/-! DEFINITION. Meanings of the lane arithmetic instructions: FP32, packed, integer, bits, conversions, predicates
(R136 to R161). -/

namespace Sys2Proof.Machine

open Sys2Proof

abbrev Out := Host.Outcome State Fault Refusal

/-- FADD (R136). -/
def execFadd (x : Args) (s : State) : Out :=
  runLane .fadd x s true fun e => fp2 e fun l a b => fp32.add (rndOf x) (e.draw l 0) a b

/-- FSUB (R136). -/
def execFsub (x : Args) (s : State) : Out :=
  runLane .fsub x s true fun e => fp2 e fun l a b =>
    match fp32.unpack b with
    | .nan _ => fp32.add (rndOf x) (e.draw l 0) a b
    | _ => fp32.add (rndOf x) (e.draw l 0) a (fp32.flip b)

/-- FMUL (R136). -/
def execFmul (x : Args) (s : State) : Out :=
  runLane .fmul x s true fun e => fp2 e fun l a b => fp32.mul (rndOf x) (e.draw l 0) a b

/-- FFMA (R136). -/
def execFfma (x : Args) (s : State) : Out :=
  runLane .ffma x s true fun e => fp3 e fun l a b c => fp32.fma (rndOf x) (e.draw l 0) a b c

/-- FMIN (R137). -/
def execFmin (x : Args) (s : State) : Out :=
  runLane .fmin x s false fun e => fp2 e fun _ a b => fp32.minmax false a b

/-- FMAX (R137). -/
def execFmax (x : Args) (s : State) : Out :=
  runLane .fmax x s false fun e => fp2 e fun _ a b => fp32.minmax true a b

/-- FCMP (R138). -/
def execFcmp (x : Args) (s : State) : Out :=
  runG .fcmp x s fun e =>
    .ok (predStep e (fldIdx x.d) (fp2 e fun _ a b =>
      let r := fcmp x.cond.toNat a b
      (if r.1 then 1 else 0, r.2)), .seq)

/-- FRND (R139). -/
def execFrnd (x : Args) (s : State) : Out :=
  runLane .frnd x s true fun e => fp1 e fun l a => fRnd (rndOf x) (e.draw l 0) a

/-- FFRC (R140). -/
def execFfrc (x : Args) (s : State) : Out := runLane .ffrc x s false fun e => fp1 e fun _ a => fFrc a

/-- FCLASS (R141). -/
def execFclass (x : Args) (s : State) : Out := runLane .fclass x s false fun e => fp1 e fun _ a => (fClass a, 0)

/-- FRCP (R142, R43). -/
def execFrcp (x : Args) (s : State) : Out :=
  runLane .frcp x s true fun e => fp1 e fun l a => fRcp (rndOf x) (e.draw l 0) a

/-- FRSQ (R142, R43). -/
def execFrsq (x : Args) (s : State) : Out :=
  runLane .frsq x s true fun e => fp1 e fun l a => fRsq (rndOf x) (e.draw l 0) a

/-- FSQRT (R142, R43). -/
def execFsqrt (x : Args) (s : State) : Out :=
  runLane .fsqrt x s true fun e => fp1 e fun l a => fSqrt (rndOf x) (e.draw l 0) a

/-- FEXP2 (R142, R43). -/
def execFexp2 (x : Args) (s : State) : Out :=
  runLane .fexp2 x s true fun e => fp1 e fun l a => fExp2 (rndOf x) (e.draw l 0) a

/-- FLOG2 (R142, R43). -/
def execFlog2 (x : Args) (s : State) : Out :=
  runLane .flog2 x s true fun e => fp1 e fun l a => fLog2 (rndOf x) (e.draw l 0) a

/-- FSIN (R142, R44); the last bit is a free value, log entry 2, where the flags of an inexact result are chosen too. -/
def execFsin (x : Args) (s : State) : Out := runLane .fsin x s false fun e => fp1 e fun _ a => fTrig true a

/-- FCOS (R142, R44); the last bit is a free value, log entry 2, where the flags of an inexact result are chosen too. -/
def execFcos (x : Args) (s : State) : Out := runLane .fcos x s false fun e => fp1 e fun _ a => fTrig false a

/-- FLDEXP (R143): A is FP32, B a signed integer. -/
def execFldexp (x : Args) (s : State) : Out :=
  runLane .fldexp x s true fun e =>
    let a := e.fa
    let b := e.ib
    fun l =>
      let y := laneAt a l
      let k := laneAt b l
      let r := fLdexp (rndOf x) (e.draw l 0) y.nat k.nat
      ⟨if x.sat then fp32.sat01 r.1 else r.1, y.pois || k.pois, r.2⟩

/-- The format of a packed instruction: the slot's, FP16 or BF16 (R144). -/
def packedSpec (e : Env) : FSpec × CTy :=
  if slotFmt e.cfg.fs e.x.fs.toNat = some .bf16 then (bf16, .packedB) else (fp16, .packed16)

/-- Element i of a packed register (R28). -/
def half (x i : Nat) : Nat := bits x (16 * i + 15) (16 * i)

/-- Two packed sources, elements apart (R145); element i uses draw i (R144). -/
def packed2 (e : Env) (f : FSpec → Nat → Nat → Nat → Nat × Nat) : Nat → LaneRes :=
  let (sp, ty) := packedSpec e
  let a := e.pa ty
  let b := e.pb ty
  fun l =>
    let y := laneAt a l
    let z := laneAt b l
    let r0 := f sp (e.draw l 0) (half y.nat 0) (half z.nat 0)
    let r1 := f sp (e.draw l 1) (half y.nat 1) (half z.nat 1)
    let sat (v : Nat) : Nat := if e.x.sat then sp.sat01 v else v
    ⟨sat r0.1 + 65536 * sat r1.1, y.pois || z.pois, r0.2 ||| r1.2⟩

/-- PADD2 (R145). -/
def execPadd2 (x : Args) (s : State) : Out :=
  runLane .padd2 x s true fun e => packed2 e fun sp d a b => sp.add (rndOf x) d a b

/-- PMUL2 (R145). -/
def execPmul2 (x : Args) (s : State) : Out :=
  runLane .pmul2 x s true fun e => packed2 e fun sp d a b => sp.mul (rndOf x) d a b

/-- PMIN2 (R145, R137). -/
def execPmin2 (x : Args) (s : State) : Out :=
  runLane .pmin2 x s false fun e => packed2 e fun sp _ a b => sp.minmax false a b

/-- PMAX2 (R145, R137). -/
def execPmax2 (x : Args) (s : State) : Out :=
  runLane .pmax2 x s false fun e => packed2 e fun sp _ a b => sp.minmax true a b

/-- PFMA2 (R145). -/
def execPfma2 (x : Args) (s : State) : Out :=
  runLane .pfma2 x s true fun e =>
    let (sp, ty) := packedSpec e
    let a := e.pa ty
    let b := e.pb ty
    let c := e.pc' ty
    fun l =>
      let y := laneAt a l
      let z := laneAt b l
      let w := laneAt c l
      let r0 := sp.fma (rndOf x) (e.draw l 0) (half y.nat 0) (half z.nat 0) (half w.nat 0)
      let r1 := sp.fma (rndOf x) (e.draw l 1) (half y.nat 1) (half z.nat 1) (half w.nat 1)
      let sat (v : Nat) : Nat := if x.sat then sp.sat01 v else v
      ⟨sat r0.1 + 65536 * sat r1.1, y.pois || z.pois || w.pois, r0.2 ||| r1.2⟩

/-- PDOT2 (R145): the exact sum of two products and one FP32 value, rounded once (R48). -/
def execPdot2 (x : Args) (s : State) : Out :=
  runLane .pdot2 x s true fun e =>
    let (sp, ty) := packedSpec e
    let a := e.pa ty
    let b := e.pb ty
    let c := e.fc
    fun l =>
      let y := laneAt a l
      let z := laneAt b l
      let w := laneAt c l
      let p (i : Nat) := mulTerm (sp.unpack (half y.nat i)) (sp.unpack (half z.nat i))
      let r := fp32.ofTerm (rndOf x) (e.draw l 0)
        (Term.add (rndOf x) (Term.add (rndOf x) (p 0) (p 1)) (fp32.unpack w.nat).term)
      ⟨if x.sat then fp32.sat01 r.1 else r.1, y.pois || z.pois || w.pois, r.2⟩

/-- The sum or difference of IADD and ISUB with the saturation of R146. -/
def iaddSat (sat uns : Bool) (sub : Bool) (a b : Nat) : Nat × Nat :=
  if sat then
    (if uns then clampI 0 u32Hi (if sub then (a : Int) - b else (a : Int) + b)
     else clampI s32Lo s32Hi (if sub then sext a 32 - sext b 32 else sext a 32 + sext b 32))
  else (wrapI (if sub then (a : Int) - b else (a : Int) + b) 32, 0)

/-- IADD (R146). -/
def execIadd (x : Args) (s : State) : Out := runLane .iadd x s false fun e => int2 e (iaddSat x.sat x.uns false)

/-- ISUB (R146). -/
def execIsub (x : Args) (s : State) : Out := runLane .isub x s false fun e => int2 e (iaddSat x.sat x.uns true)

/-- The chained sum and difference of R147: the result and the carry. -/
def chain (sub : Bool) (a b c : Nat) : Nat × Bool :=
  if sub then (wrapI ((a : Int) - b - c) 32, decide (a < b + c)) else ((a + b + c) % 2 ^ 32, decide (a + b + c ≥ 2 ^ 32))

/-- IADDC and ISUBB (R147): D and the predicate C, in each active lane. -/
def chainStep (e : Env) (sub : Bool) : Group :=
  let a := e.ia
  let b := e.ib
  let i := fldIdx e.x.c
  let p := e.g.pred i
  let one (l : Nat) : LaneRes × Bool :=
    let y := laneAt a l
    let z := laneAt b l
    let r := chain sub y.nat z.nat (if inMask p.val l then 1 else 0)
    (⟨r.1, y.pois || z.pois || inMask p.pois l, 0⟩, r.2)
  let g1 := laneStep e false fun l => (one l).1
  g1.setP i e.act (maskOf fun l => (one l).2) (maskOf fun l => (one l).1.pois)

/-- IADDC (R147). -/
def execIaddc (x : Args) (s : State) : Out := runG .iaddc x s fun e => .ok (chainStep e false, .seq)

/-- ISUBB (R147). -/
def execIsubb (x : Args) (s : State) : Out := runG .isubb x s fun e => .ok (chainStep e true, .seq)

/-- IMUL (R148). -/
def execImul (x : Args) (s : State) : Out := runLane .imul x s false fun e => int2 e fun a b => (a * b % 2 ^ 32, 0)

/-- ext of R148: sign-extended unless U is set. -/
def extU (u : Bool) (a : Nat) : Int := if u then (a : Int) else sext a 32

/-- IMULH (R148). -/
def execImulh (x : Args) (s : State) : Out :=
  runLane .imulh x s false fun e => int2 e fun a b => (wrapI (extU x.uns a * extU x.uns b) 64 / 2 ^ 32, 0)

/-- IMAD (R148): the 64-bit pair. -/
def execImad (x : Args) (s : State) : Out :=
  runG .imad x s fun e =>
    let a := e.ia
    let b := e.ib
    let cl := e.ic
    let ch := e.g.srcVHi .int x.c
    .ok (laneStep2 e fun l =>
      let y := laneAt a l
      let z := laneAt b l
      let c0 := laneAt cl l
      let c1 := laneAt ch l
      ⟨wrapI (extU x.uns y.nat * extU x.uns z.nat + pairNat c0 c1) 64, y.pois || z.pois || c0.pois || c1.pois, 0⟩, .seq)

/-- IMIN (R149). -/
def execImin (x : Args) (s : State) : Out :=
  runLane .imin x s false fun e => int2 e fun a b => (if extU x.uns a ≤ extU x.uns b then a else b, 0)

/-- IMAX (R149). -/
def execImax (x : Args) (s : State) : Out :=
  runLane .imax x s false fun e => int2 e fun a b => (if extU x.uns a ≥ extU x.uns b then a else b, 0)

/-- IABS (R149). -/
def execIabs (x : Args) (s : State) : Out :=
  runLane .iabs x s false fun e => int1 e fun a =>
    if a = 2 ^ 31 then (if x.sat then (0x7FFFFFFF, flSATD) else (a, 0)) else ((sext a 32).natAbs, 0)

/-- AND (R150). -/
def execAnd (x : Args) (s : State) : Out := runLane .and x s false fun e => int2 e fun a b => (a &&& b, 0)
/-- OR (R150). -/
def execOr (x : Args) (s : State) : Out := runLane .or x s false fun e => int2 e fun a b => (a ||| b, 0)
/-- XOR (R150). -/
def execXor (x : Args) (s : State) : Out := runLane .xor x s false fun e => int2 e fun a b => (a ^^^ b, 0)
/-- NOT (R150). -/
def execNot (x : Args) (s : State) : Out := runLane .not x s false fun e => int1 e fun a => (2 ^ 32 - 1 - a, 0)

/-- The shifts of R119 and R150. -/
def shl32 (a b : Nat) : Nat := if b < 32 then a * 2 ^ b % 2 ^ 32 else 0
def shr32 (a b : Nat) : Nat := if b < 32 then a / 2 ^ b else 0
def sar32 (a b : Nat) : Nat := wrapI (sext a 32 / (2 ^ min b 31 : Nat)) 32
def rotl32 (a b : Nat) : Nat := a * 2 ^ (b % 32) % 2 ^ 32 + a / 2 ^ (32 - b % 32)

/-- SHL (R150). -/
def execShl (x : Args) (s : State) : Out := runLane .shl x s false fun e => int2 e fun a b => (shl32 a b, 0)
/-- SHR (R150). -/
def execShr (x : Args) (s : State) : Out := runLane .shr x s false fun e => int2 e fun a b => (shr32 a b, 0)
/-- SAR (R150). -/
def execSar (x : Args) (s : State) : Out := runLane .sar x s false fun e => int2 e fun a b => (sar32 a b, 0)
/-- ROTL (R150). -/
def execRotl (x : Args) (s : State) : Out := runLane .rotl x s false fun e => int2 e fun a b => (rotl32 a b, 0)

/-- The field of BFE and BFI (R151): position and width, none where there is no field. -/
def bfField (b : Nat) : Option (Nat × Nat) :=
  let pos := bits b 7 0
  let w := bits b 15 8
  if pos ≥ 32 ∨ w = 0 then none else some (pos, min w (32 - pos))

/-- BFE (R151). -/
def execBfe (x : Args) (s : State) : Out :=
  runLane .bfe x s false fun e => int2 e fun a b =>
    match bfField b with
    | none => (0, 0)
    | some (pos, w) =>
      let y := bits a (pos + w - 1) pos
      (if x.uns then y else wrapI (sext y w) 32, 0)

/-- BFI (R151). -/
def execBfi (x : Args) (s : State) : Out :=
  runLane .bfi x s false fun e => int3 e fun a b c =>
    match bfField b with
    | none => c
    | some (pos, w) => c - bits c (pos + w - 1) pos * 2 ^ pos + a % 2 ^ w * 2 ^ pos

/-- POPC (R152). -/
def execPopc (x : Args) (s : State) : Out := runLane .popc x s false fun e => int1 e fun a => (popcount a 32, 0)
/-- CLZ (R152). -/
def execClz (x : Args) (s : State) : Out := runLane .clz x s false fun e => int1 e fun a => (clz a 32, 0)
/-- CTZ (R152). -/
def execCtz (x : Args) (s : State) : Out := runLane .ctz x s false fun e => int1 e fun a => (ctz a 32, 0)
/-- BREV (R152). -/
def execBrev (x : Args) (s : State) : Out := runLane .brev x s false fun e => int1 e fun a => (bitrev a 32, 0)

/-- ICMP (R153). -/
def execIcmp (x : Args) (s : State) : Out :=
  runG .icmp x s fun e =>
    .ok (predStep e (fldIdx x.d) (int2 e fun a b => (if icond x.cond.toNat a b then 1 else 0, 0)), .seq)

/-- Lane elements that are copied with their poison, and poisoned whole by `p` (R71, R154). -/
def copyStep (e : Env) (src : Nat → Elem) (p : Nat → Bool) : Group :=
  e.g.outV e.x.d e.act (lanesTab fun l =>
    if inMask e.act l then (if p l then laneOut e l true 0 else src l) else Elem.zero)

/-- SEL (R154). -/
def execSel (x : Args) (s : State) : Out :=
  runG .sel x s fun e =>
    let a := e.ia
    let b := e.ib
    let p := e.g.pred (fldIdx x.c)
    .ok (copyStep e (fun l => if inMask p.val l then laneAt a l else laneAt b l) (fun l => inMask p.pois l), .seq)

/-- MOV (R154). -/
def execMov (x : Args) (s : State) : Out :=
  runG .mov x s fun e =>
    let a := e.ia
    .ok (copyStep e (fun l => laneAt a l) (fun _ => false), .seq)

/-- One byte of PRMT (R155). -/
def prmtByte (a b sel : Nat) : Nat :=
  let i := bits sel 2 0
  let v := if i < 4 then bits a (8 * i + 7) (8 * i) else bits b (8 * (i - 4) + 7) (8 * (i - 4))
  match bits sel 4 3 with
  | 0 => v
  | 1 => 0
  | 2 => if bit v 7 then 0xFF else 0
  | _ => bitrev v 8

/-- PRMT (R155): poisoned by c, and by a source that a selector reads. -/
def execPrmt (x : Args) (s : State) : Out :=
  runLane .prmt x s false fun e =>
    let a := e.ia
    let b := e.ib
    let c := e.ic
    fun l =>
      let y := laneAt a l
      let z := laneAt b l
      let w := laneAt c l
      let sel (k : Nat) : Nat := bits w.nat (8 * k + 7) (8 * k)
      let v := (List.range 4).foldl (fun r k => r + prmtByte y.nat z.nat (sel k) * 2 ^ (8 * k)) 0
      let hit := (List.range 4).any fun k =>
        decide (bits (sel k) 4 3 ≠ 1) && (if bits (sel k) 2 0 < 4 then y.pois else z.pois)
      ⟨v, w.pois || hit, 0⟩

/-- The column of R87 that a CVT source takes (R156). -/
def cvtTy (f : Fmt) : CTy :=
  match f with
  | .fp32 => .fp32 | .fp16 => .packed16 | .bf16 => .packedB | _ => .int

/-- A CVT source under its modifiers: the sign bit of its own format (R83). -/
def cvtSrc (f : Fmt) (m x : Nat) : Nat :=
  if f.isFloat then
    let w := (fspecOf f).width
    srcMod (bit m 6) (bit m 7) (w - 1) (x % 2 ^ w)
  else x

/-- CVT (R156, R157). Between integers it does not round, so RNGSTATE stays (R40). -/
def execCvt (x : Args) (s : State) : Out :=
  runG .cvt x s fun e =>
    let src := (fieldFmt e.cfg.fs (fldIdx x.b)).getD .fp32
    let dst := (fieldFmt e.cfg.fs (fldIdx x.c)).getD .fp32
    let lo := e.g.srcV (cvtTy src) x.a
    let hi := e.g.srcVHi (cvtTy src) x.a
    let f (l : Nat) : LaneRes :=
      let y := laneAt lo l
      let z := laneAt hi l
      let v := if src.is64 then pairNat y z else y.nat
      let r := cvt src dst (rndOf x) (e.draw l 0) x.sat (cvtSrc src x.m v)
      ⟨r.1, y.pois || (src.is64 && z.pois), r.2⟩
    let sr := src.isFloat || dst.isFloat
    if dst.is64 then
      let g := laneStep2 e f
      .ok (if sr && decide ((rndOf x) = .sr) && decide (e.act ≠ 0#32) then g.stepRng else g, .seq)
    else .ok (laneStep e sr f, .seq)

/-- CVTPK (R158). -/
def execCvtpk (x : Args) (s : State) : Out :=
  runG .cvtpk x s fun e =>
    let dst := (fieldFmt e.cfg.fs (fldIdx x.c)).getD .fp16
    let src : Fmt := if dst.isFloat then .fp32 else .int32
    let w := if dst.isFloat then (fspecOf dst).width else intWidth dst
    let a := if dst.isFloat then e.fa else e.ia
    let b := if dst.isFloat then e.fb else e.ib
    .ok (laneStep e dst.isFloat fun l =>
      let y := laneAt a l
      let z := laneAt b l
      let r0 := cvt src dst (rndOf x) (e.draw l 0) x.sat y.nat
      let r1 := cvt src dst (rndOf x) (e.draw l 1) x.sat z.nat
      ⟨r0.1 % 2 ^ w + r1.1 % 2 ^ w * 2 ^ w, y.pois || z.pois, r0.2 ||| r1.2⟩, .seq)

/-- The word of an element of a block (R159). -/
def sxWord (b : SxBlock) (n i : Nat) : Nat :=
  let el := b.el.getD i (false, 0)
  let m := b.m.getD (i / 2) false
  b.e * 2 ^ 16 + (if m then 2 ^ 8 else 0) +
    (if n = 7 then (if el.1 then 128 else 0) + el.2
     else (if el.1 then 128 else 0) + (if m ∧ b.e ≠ 0xFF then 64 else 0) + el.2)

/-- SXPACK (R159): one block for each half of the group. -/
def execSxpack (x : Args) (s : State) : Out :=
  runG .sxpack x s fun e =>
    let fmt := (fieldFmt e.cfg.fs (fldIdx x.b)).getD .sx7
    let n := sxN fmt
    let a := e.fa
    let block (h : Nat) : SxBlock × List Nat :=
      sxEncode ((List.range 16).map fun i =>
          let l := 16 * h + i
          if inMask e.act l then fp32.unpack (laneAt a l).nat else .fin false 0 0)
        n (rndOf x) (fun i => e.draw (16 * h + i) i) x.sat
    let b0 := block 0
    let b1 := block 1
    let halfPois (h : Nat) : Bool := (List.range 16).any fun i => inMask e.act (16 * h + i) && (laneAt a (16 * h + i)).pois
    let p0 := halfPois 0
    let p1 := halfPois 1
    .ok (laneStep e true fun l =>
      let b := if l < 16 then b0 else b1
      ⟨sxWord b.1 n (l % 16), if l < 16 then p0 else p1, b.2.getD (l % 16) 0⟩, .seq)

/-- The FP32 value and the flags of an element word (R160). -/
def sxUnpack (n w : Nat) : Nat × Nat :=
  let ex := bits w 23 16
  if ex = 0xFF then (fp32.nan, 0)
  else if n = 7 then (sxDecode ex 7 (bit w 8) (bit w 7) (bits w 6 0), 0)
  else if bits w 5 n ≠ 0 then (fp32.nan, flNV)
  else (sxDecode ex n (bit w 8) (bit w 7) (bits w 5 0), 0)

/-- SXUNPK (R160). -/
def execSxunpk (x : Args) (s : State) : Out :=
  runLane .sxunpk x s false fun e =>
    let n := sxN ((fieldFmt e.cfg.fs (fldIdx x.b)).getD .sx7)
    int1 e fun a => sxUnpack n a

/-- PLOP (R161). -/
def execPlop (x : Args) (s : State) : Out :=
  runG .plop x s fun e =>
    let a := e.g.pred (fldIdx x.a)
    let b := e.g.pred (fldIdx x.b)
    let c := e.g.pred (fldIdx x.c)
    .ok (predStep e (fldIdx x.d) fun l =>
      let i := (if inMask a.val l then 4 else 0) + (if inMask b.val l then 2 else 0) + (if inMask c.val l then 1 else 0)
      ⟨if bit x.m i then 1 else 0, inMask a.pois l || inMask b.pois l || inMask c.pois l, 0⟩, .seq)

end Sys2Proof.Machine
end

