-- ==== Sys2Proof/Machine/Uniform.lean ====
section
/-! DEFINITION. Meanings of the uniform integer, mask, special-register, shape and format-slot instructions
(R119 to R130), and of the instructions that only take a slot (R115). -/

namespace Sys2Proof.Machine

open Sys2Proof

/-- UADD (R119). -/
def execUadd (x : Args) (s : State) : Out := runU2 .uadd x s (iaddSat x.sat false false)
/-- USUB (R119). -/
def execUsub (x : Args) (s : State) : Out := runU2 .usub x s (iaddSat x.sat false true)
/-- UMUL (R119). -/
def execUmul (x : Args) (s : State) : Out := runU2 .umul x s fun a b => (a * b % 2 ^ 32, 0)
/-- UMULH (R119). -/
def execUmulh (x : Args) (s : State) : Out := runU2 .umulh x s fun a b => (a * b / 2 ^ 32, 0)
/-- UAND (R119). -/
def execUand (x : Args) (s : State) : Out := runU2 .uand x s fun a b => (a &&& b, 0)
/-- UOR (R119). -/
def execUor (x : Args) (s : State) : Out := runU2 .uor x s fun a b => (a ||| b, 0)
/-- UXOR (R119). -/
def execUxor (x : Args) (s : State) : Out := runU2 .uxor x s fun a b => (a ^^^ b, 0)
/-- USHL (R119). -/
def execUshl (x : Args) (s : State) : Out := runU2 .ushl x s fun a b => (shl32 a b, 0)
/-- USHR (R119). -/
def execUshr (x : Args) (s : State) : Out := runU2 .ushr x s fun a b => (shr32 a b, 0)
/-- USAR (R119). -/
def execUsar (x : Args) (s : State) : Out := runU2 .usar x s fun a b => (sar32 a b, 0)
/-- UMIN (R119). -/
def execUmin (x : Args) (s : State) : Out := runU2 .umin x s fun a b => (if sext a 32 ≤ sext b 32 then a else b, 0)
/-- UMAX (R119). -/
def execUmax (x : Args) (s : State) : Out := runU2 .umax x s fun a b => (if sext a 32 ≥ sext b 32 then a else b, 0)
/-- UPOPC (R119). -/
def execUpopc (x : Args) (s : State) : Out := runU1 .upopc x s fun a => popcount a 32
/-- UCLZ (R119). -/
def execUclz (x : Args) (s : State) : Out := runU1 .uclz x s fun a => clz a 32

/-- UMAD (R119): D pair := sext(a) * sext(b) + C pair. -/
def execUmad (x : Args) (s : State) : Out :=
  runG .umad x s fun e =>
    let a := e.g.srcU x.a
    let b := e.g.srcU x.b
    let (c, cp) := e.g.srcU64 x.c
    let p := a.pois || b.pois || cp
    let r := wrapI (sext a.nat 32 * sext b.nat 32 + c) 64
    .ok (e.g.outU2 x.d (uOut e 0 p (r % 2 ^ 32)) (uOut e 1 p (r / 2 ^ 32)), .seq)

/-- UCMP (R120). DESIGN CHOICE (log entry 68): the value bit of a poisoned q is that of the comparison of the operands' value bits. -/
def execUcmp (x : Args) (s : State) : Out :=
  runG .ucmp x s fun e =>
    let a := e.g.srcU x.a
    let b := e.g.srcU x.b
    .ok (e.g.setQ (fldIdx x.d) (icond x.cond.toNat a.nat b.nat) (a.pois || b.pois || e.gp), .seq)

/-- USEL (R119). -/
def execUsel (x : Args) (s : State) : Out :=
  runG .usel x s fun e =>
    let i := fldIdx x.c
    let y := if e.g.qbit i then e.g.srcU x.a else e.g.srcU x.b
    .ok (e.g.outU x.d (if e.g.qpois i || e.gp then laneOut e 0 true 0 else y), .seq)

/-- UMOV (R119). -/
def execUmov (x : Args) (s : State) : Out :=
  runG .umov x s fun e =>
    let y := e.g.srcU x.a
    .ok (e.g.outU x.d (if e.gp then laneOut e 0 true 0 else y), .seq)

/-- ULI (R119). -/
def execUli (x : Args) (s : State) : Out :=
  runG .uli x s fun e => .ok (e.g.outU x.d (uOut e 0 false (wrapI (sext x.imm.toNat 16) 32)), .seq)

/-- NOP (R115). -/
def execNop (x : Args) (s : State) : Out := runG .nop x s fun e => .ok (e.g, .seq)

/-- The mask and the OWN set of the issuing fragment. -/
def Env.emask (e : Env) : Mask := match mapGet? e.iss.entry e.g.frags with | some f => f.emask | none => 0#32
def Env.own (e : Env) : Mask := match mapGet? e.iss.entry e.g.frags with | some f => f.own | none => 0#32

/-- EMR (R121). -/
def execEmr (x : Args) (s : State) : Out :=
  runG .emr x s fun e => .ok (e.g.outU x.d (uOut e 0 false e.emask.toNat), .seq)

/-- A new mask for the issuing fragment (R54, R118): an empty one parks the fragment at its join, or traps. -/
def setEmask (e : Env) (m : Mask) : Except Stop (Group × Ctl) :=
  let m := m &&& e.own
  let g := e.g.updFrag e.iss.entry fun f => { f with emask := m }
  if m = 0#32 then
    if (e.g.inClause e.iss.entry) = true then progErr
    else match mapGet? e.iss.entry e.g.frags with
      | some f => match f.jtop with
        | some _ => .ok (g, .seq)
        | none => progErr
      | none => progErr
  else .ok (g, .seq)

/-- EMW (R121). -/
def execEmw (x : Args) (s : State) : Out := runG .emw x s fun e => setEmask e (e.g.srcU x.a).val

/-- EMAND (R121). -/
def execEmand (x : Args) (s : State) : Out := runG .emand x s fun e => setEmask e (e.emask &&& (e.g.srcU x.a).val)

/-- The value of a special register (R72, R123); LANE is the lowest active lane of the fragment. -/
def readSpecial (e : Env) (n : Nat) : Nat :=
  let sp := e.g.sp
  if n = 0 then (lanesOf e.act).headD 32
  else if n = 1 then sp.groupid.toNat
  else if n = 2 then sp.teamid.toNat
  else if n = 3 then sp.cluid.toNat
  else if n = 4 then sp.gridpos.toNat
  else if n = 5 then sp.fragq.toNat
  else if n = 6 then sp.flags.toNat
  else if n = 7 then sp.trapcause.toNat
  else if n = 8 then sp.trappc.toNat
  else if n = 9 then sp.trapaddr.toNat
  else if n = 10 then sp.trapmask.toNat
  else if n = 11 then sp.seqstate.toNat
  else if n = 12 then sp.rngstate.toNat
  else if n = 13 then sp.step.toNat
  else if n < 0x18 then (sp.wpt.getD (n - 0x10) 0#64).toNat
  else (sp.bpt.getD (n - 0x18) 0#64).toNat

/-- Write a special register: reserved bits are ignored (R7), FRAGQ and WPT are checked (R67, R205), a zero RNGSTATE is
replaced (R42). None: an illegal operand. -/
def writeSpecial (sp : Special) (n v : Nat) : Option Special :=
  let w32 (m : Nat) : Word := BitVec.ofNat 32 (v &&& m)
  let w64 (m : Nat) : Dword := BitVec.ofNat 64 (v &&& m)
  if n = 5 then (if 1 ≤ v ∧ v ≤ 255 then some { sp with fragq := BitVec.ofNat 32 v } else none)
  else if n = 6 then some { sp with flags := w32 0x3F }
  else if n = 7 then some { sp with trapcause := w32 0xFF03FF }
  else if n = 8 then some { sp with trappc := w64 0xFFFFFFFFFFFFFFFF }
  else if n = 9 then some { sp with trapaddr := w64 0xFFFFFFFFFFFFFFFF }
  else if n = 10 then some { sp with trapmask := w32 0xFFFFFFFF }
  else if n = 11 then some { sp with seqstate := w64 0x9FF0003FFFFFFFFF }
  else if n = 12 then some { sp with rngstate := BitVec.ofNat 64 (rngFix v) }
  else if n = 13 then some { sp with step := w32 0x1F01 }
  else if 0x10 ≤ n ∧ n ≤ 0x13 then
    (if bit v 63 = true ∧ bits v 60 59 = 3 then none
     else some { sp with wpt := listSet (n - 0x10) (BitVec.ofNat 64 v) sp.wpt })
  else if 0x18 ≤ n ∧ n ≤ 0x1F then
    some { sp with bpt := listSet (n - 0x18) (w64 0x01FFFFFFFFFFFFFD) sp.bpt }
  else none

/-- SRR (R123): the value is unpoisoned. -/
def execSrr (x : Args) (s : State) : Out :=
  runG .srr x s fun e =>
    let n := fldIdx x.a
    let v := readSpecial e n
    if srRegs n = 2 then .ok (e.g.outU2 x.d (uOut e 0 false (v % 2 ^ 32)) (uOut e 1 false (v / 2 ^ 32)), .seq)
    else .ok (e.g.outU x.d (uOut e 0 false v), .seq)

/-- Is a step of the group's tile sequence being performed (R240)? -/
def Group.tileStepping (g : Group) : Bool :=
  g.frags.any fun f => match f.2.wait with | .tile _ (some _) _ => true | _ => false

/-- A waiting MTILE is issued again, under the checks of R241: SEQSTATE has been written. -/
def Group.reissueTile (g : Group) : Group := { g with frags := g.frags.map fun f => (f.1, { f.2 with wait := f.2.wait.halt }) }

/-- SRW (R123); one of SEQSTATE waits while a step of the group's sequence is being performed (R240). -/
def execSrw (x : Args) (s : State) : Out :=
  runG .srw x s fun e =>
    let n := fldIdx x.d
    let v := if srRegs n = 2 then (e.g.srcU64 x.a).1 else (e.g.srcU x.a).nat
    match writeSpecial e.g.sp n v with
    | some sp =>
      if n = 0x0B then (if e.g.tileStepping then .error .stall else .ok ({ e.g.reissueTile with sp := sp }, .seq))
      else .ok ({ e.g with sp := sp }, .seq)
    | none => illOp

/-- FLAGS (R124); with a poisoned operand bits 5:0 are a free value (log entry 4). -/
def execFlags (x : Args) (s : State) : Out :=
  runG .flags x s fun e =>
    let a := e.g.srcU x.a
    let b := e.g.srcU x.b
    let old := e.g.sp.flags
    let new : Word := if a.pois || b.pois then (Config.flagsOpen e.fresh).setWidth 32
      else (old &&& ~~~(a.val &&& 0x3F#32)) ||| (b.val &&& 0x3F#32)
    let g := e.g.outU x.d (uOut e 0 false old.toNat)
    .ok ({ g with sp := { g.sp with flags := new } }, .seq)

/-- SHSET (R129). -/
def execShset (x : Args) (s : State) : Out :=
  runG .shset x s fun e =>
    let i := fldIdx x.d
    let b := e.g.srcU x.b
    .ok (e.g.setShape i (listSet (fldIdx x.a) ⟨b.val, b.pois || e.gp⟩ (e.g.shape i)), .seq)

/-- SHGET (R129). -/
def execShget (x : Args) (s : State) : Out :=
  runG .shget x s fun e =>
    let y := (e.g.shape (fldIdx x.a)).getD (fldIdx x.b) Elem.zero
    .ok (e.g.outU x.d (if e.gp then laneOut e 0 true 0 else y), .seq)

/-- FSQ (R130). -/
def execFsq (x : Args) (s : State) : Out :=
  runG .fsq x s fun e => .ok (e.g.outU x.d (uOut e 0 false (e.cfg.fs.getD x.fs.toNat 0)), .seq)

end Sys2Proof.Machine
end

