-- ==== Sys2Proof/Machine/Control.lean ====
section
/-! DEFINITION. Meanings of branches, hardware loops, clauses, traps and waits (R108 to R118, R125 to R127). -/

namespace Sys2Proof.Machine

open Sys2Proof

/-- The OFF24 target (R79). -/
def offTarget (e : Env) : Dword := e.pc + BitVec.ofInt 64 (4 * sext e.x.imm.toNat 24)

/-- BRA (R108): the guard chooses between the target and the next address. -/
def execBra (x : Args) (s : State) : Out := runG .bra x s fun e => .ok (e.g, .jump (offTarget e))

/-- The poisoned lanes of a predicate that a branch reads trap (R71, R109, R110). -/
def branchPred (e : Env) (i : Nat) : Except Stop Mask :=
  let p := e.g.pred i
  if p.pois &&& e.act ≠ 0#32 then poisonTrap (some (p.pois &&& e.act)) 0 else .ok (p.val &&& e.act)

/-- BRU (R109). -/
def execBru (x : Args) (s : State) : Out :=
  runG .bru x s fun e => do
    let t ← branchPred e (fldIdx x.c)
    if t = e.act then .ok (e.g, .jump (offTarget e))
    else if t = 0#32 then .ok (e.g, .seq)
    else progErr

/-- The split of R64: the taken lanes stay in entry e, the others go to a new fragment, and a join is allocated. DESIGN CHOICE (log entry 67): where
every active lane is taken and OWN has lanes outside EMASK, which R110's prose gives no join, this is a split all the same, as R64 counts
those lanes. -/
def Group.split (g : Group) (e : Nat) (f : Frag) (t : Mask) (target next x : Dword) (clock : Nat) : Group :=
  match mapFree g.joins 0 32, mapFree g.frags 0 32 with
  | some j, some e' =>
    let n := f.own &&& ~~~t
    let f1 : Frag := { f with own := t, emask := f.emask &&& t, pc := target, jtop := some j, exempt := false }
    let f2 : Frag := { f1 with own := n, emask := f.emask &&& n, pc := next, halted := g.stepping.isSome || f.halted }
    let g1 : Group := { g with
      joins := mapSet j ⟨x, f.own, 0#32, f.jtop⟩ g.joins
      frags := mapSet e' f2 (mapSet e f1 g.frags) }
    ((g1.parkTest e 33).parkTest e' 33).parkMove e clock (decide (target = x))
  | _, _ => g

/-- BRV (R110, R64). -/
def execBrv (x : Args) (s : State) : Out :=
  runG .brv x s fun e => do
    let t ← branchPred e (fldIdx x.c)
    match mapGet? e.iss.entry e.g.frags with
    | none => .error .stall
    | some f =>
      let target := offTarget e
      if t = 0#32 then .ok (e.g, .seq)
      else if f.own &&& ~~~t = 0#32 then .ok (e.g, .jump target)
      else if badAddr target then .error (.trap { code := tcRange, addr := target })
      else if badAddr e.next then .error (.trap { code := tcRange, addr := e.next })
      else .ok (e.g.split e.iss.entry f t target e.next (e.pc + BitVec.ofNat 64 (4 * x.m)) e.clock, .done)

/-- The checks of a computed target (R94, R111): address range first, then alignment. -/
def checkTarget (a : Nat) : Except Stop Dword :=
  if a ≥ 2 ^ 57 then .error (.trap { code := tcRange, addr := BitVec.ofNat 64 a })
  else if a % 4 ≠ 0 then progErr
  else .ok (BitVec.ofNat 64 a)

/-- BRX (R111). -/
def execBrx (x : Args) (s : State) : Out :=
  runG .brx x s fun e => do
    let (a, p) := e.g.srcU64 x.a
    if p then poisonTrap none 0
    else do
      let t ← checkTarget a
      .ok (e.g, .jump t)

/-- The link of a call: s126:s127 and sl0 (R112). -/
def link (e : Env) : Group :=
  let n := e.next.toNat
  ((e.g.setS 126 (uOut e 0 false (n % 2 ^ 32))).setS 127 (uOut e 1 false (n / 2 ^ 32))).pushSl
    (uOut e 0 false (n % 2 ^ 32)) (uOut e 1 false (n / 2 ^ 32))

/-- CALL (R112). -/
def execCall (x : Args) (s : State) : Out := runG .call x s fun e => .ok (link e, .jump (offTarget e))

/-- CALLX (R112): the target is read before the link is written. -/
def execCallx (x : Args) (s : State) : Out :=
  runG .callx x s fun e => do
    let (a, p) := e.g.srcU64 x.a
    if p then poisonTrap none 0
    else do
      let t ← checkTarget a
      .ok (link e, .jump t)

/-- RET (R112). -/
def execRet (x : Args) (s : State) : Out :=
  runG .ret x s fun e => do
    let lo := e.g.sreg 126
    let hi := e.g.sreg 127
    if lo.pois || hi.pois then poisonTrap none 0
    else do
      let t ← checkTarget (pairNat lo hi)
      .ok (e.g, .jump t)

/-- YIELD (R115): the quantum ends. -/
def execYield (x : Args) (s : State) : Out := runG .yield x s fun e => .ok (e.g.rotate e.clock, .seq)

/-- The innermost active loop level closes (R62, R117); none where no level is active. -/
def Frag.closeLoop (f : Frag) : Option Frag :=
  if f.loop1.active then some { f with loop1 := Loop.off }
  else if f.loop0.active then some { f with loop0 := Loop.off }
  else none

/-- LOOPBRK (R117); the loop step of its own address is made with the levels that it leaves (log entry 53). -/
def execLoopbrk (x : Args) (s : State) : Out :=
  runG .loopbrk x s fun e =>
    match mapGet? e.iss.entry e.g.frags with
    | none => .error .stall
    | some f => match f.closeLoop with
      | none => progErr
      | some f1 =>
        let (f2, p) := loopStep f1 e.pc e.next
        .ok (e.g.updFrag e.iss.entry fun _ => f2, .jump p)

/-- CLAUSE (R118, R69, R70): the checkpoint, and every latch empty (R57). -/
def execClause (x : Args) (s : State) : Out :=
  runG .clause x s fun e =>
    .ok ({ e.g with
      clause := some ⟨e.fresh, e.iss.entry, e.pc, fldIdx x.b, e.g.sp.flags, e.g.sp.rngstate⟩
      bl := List.replicate 4 none, sl := List.replicate 4 none }, .seq)

/-- TRAP (R125). -/
def execTrap (x : Args) (s : State) : Out :=
  runG .trap x s fun _ =>
    .error (.trap { code := tcSoftware, pcNext := true, addr := BitVec.ofNat 64 (fldIdx x.b) })

/-- BRK (R125). -/
def execBrk (x : Args) (s : State) : Out :=
  runG .brk x s fun _ => .error (.trap { code := tcBreak, pcNext := true })

/-- The trapping fragment resumes at TRAPPC (R125); its next instruction matches no BPT and no WPT (R207). -/
def Group.resumeAt (g : Group) (t : Nat) (pc : Dword) : Group := g.updFrag t fun f => { f with pc := pc, exempt := true }

/-- Return from a trap without single step (R125): the trapping fragment resumes at TRAPPC, the others are released. -/
def Group.rte (g : Group) (t : Nat) (pc : Dword) : Group := (g.resumeAt t pc).release.parkTest t 33

/-- Return from a trap with single step (R208): only the stepped fragment may issue. DESIGN CHOICE (log entry 61): where ENTRY names another
fragment than the trapping one, both are exempt from BPT and WPT on their next instruction (R207). -/
def Group.rteStep (g : Group) (t stepped : Nat) (pc : Dword) (clock : Nat) : Group :=
  let g1 := (g.resumeAt t pc).updFrag stepped fun f => { f with exempt := true }
  ({ g1 with
      handler := none, stepping := some stepped, cur := stepped, issued := 0, age := if stepped = g.cur then g.age else clock
      frags := g1.frags.map fun (p : Nat × Frag) => (p.1, { p.2 with halted := decide (p.1 ≠ stepped) }) }).parkTest t 33

/-- RTE (R125, R208): outside a handler a program error; a bad TRAPPC, or a stepped entry that is not valid, is a double
trap, which `takeTrap` makes of a trap inside a handler. -/
def execRte (x : Args) (s : State) : Out :=
  run .rte x s fun e s1 =>
    match s1.group? e.iss.team e.iss.gix with
    | none => .error .stall
    | some (_, g) =>
      match g.handler with
      | none => progErr
      | some t =>
        match checkTarget g.sp.trappc.toNat with
        | .error st => .error st
        | .ok pc =>
          let put (g' : Group) : State := s1.setGroup e.iss.team e.iss.gix g'
          let ctl : Ctl := if t = e.iss.entry then .done else .seq
          if bit g.sp.step.toNat 0 = false then .ok (put (g.rte t pc), ctl)
          else
            let en := bits g.sp.step.toNat 12 8
            if (mapGet? en g.frags).isNone then progErr
            else
              let g' := g.rteStep t en pc e.clock
              let st := g'.stepping.getD en
              match mapGet? st g'.frags with
              | none => .ok (put g', ctl)
              | some f =>
                if f.parked then
                  .ok (takeTrap (put g') ⟨e.iss.team, e.iss.gix, st⟩ f.pc f.pc f.emask { code := tcStep, mask := some f.emask }, .done)
                else .ok (put g', ctl)

/-- SLEEP (R126). -/
def execSleep (x : Args) (s : State) : Out :=
  runG .sleep x s fun e =>
    let a := (e.g.srcU x.a).nat
    if a = 0 then .ok (e.g.rotate e.clock, .seq)
    else .ok (e.g.updFrag e.iss.entry fun f => { f with wait := .sleep (e.clock + a) x.bytes }, .hold)

/-- WAITC (R127). -/
def execWaitc (x : Args) (s : State) : Out :=
  runG .waitc x s fun e =>
    let p := fldIdx x.a
    let th := (e.g.srcU x.b).nat
    if th ≥ 63 ∨ e.g.cnt.getD p 0 ≤ th then .ok (e.g, .seq)
    else .ok (e.g.updFrag e.iss.entry fun f => { f with wait := .path p th x.bytes }, .hold)

/-- The instruction a fragment waits in completes. The wait of length 0 has it issued again. A fragment that has become ready gives the group a new AGE
where it is the current one (R174). -/
def State.goOn (s : State) (tid gix entry : Nat) (f : Frag) : State :=
  let s1 := if f.wait.len = 0 then s.updGroup tid gix fun g => g.updFrag entry fun f => { f with wait := .none }
    else finish s ⟨tid, gix, entry⟩ f.pc (f.pc + BitVec.ofNat 64 f.wait.len) .seq false
  s1.updGroup tid gix fun g => if g.cur = entry then { g with age := s.clock } else g

/-- What a fragment waits for has come about: its instruction completes; where it is halted, at its next issue (R203). -/
def endWait (s : State) (tid gix entry : Nat) : State :=
  match s.group? tid gix with
  | none => s
  | some (_, g) => match mapGet? entry g.frags with
    | none => s
    | some f =>
      if f.halted then s.updGroup tid gix fun g => g.updFrag entry fun f => { f with wait := .over f.wait.len }
      else s.goOn tid gix entry f

/-- A wait ends with a trap at the fragment's next issue (R181, R202). -/
def Frag.trapNext (code : Nat) (f : Frag) : Frag := { f with wait := if f.halted then .over 0 else .none, pendTrap := some code }

/-- End every WAITC of the group whose counter has come down (R127). -/
def wakePaths (s : State) (tid gix : Nat) : State :=
  match s.group? tid gix with
  | none => s
  | some (_, g) =>
    g.frags.foldl (fun s f =>
      match f.2.wait with
      | .path p th _ => if g.cnt.getD p 0 ≤ th then endWait s tid gix f.1 else s
      | _ => s) s

end Sys2Proof.Machine
end

