-- ==== Sys2Proof/Machine/Translate.lean ====
section
/-! DEFINITION. Address translation, the fault buffers and their records (R405 to R413). -/

namespace Sys2Proof.Machine

open Sys2Proof

/-- Permissions of a leaf as a set: 1 read, 2 write, 4 fetch (R406). -/
def permR : Nat := 1
def permW : Nat := 2
def permX : Nat := 4

/-- A walk that fails (R411): cause, level, the entry read. -/
structure WalkFault where
  cause : Nat
  level : Nat
  pte : Nat
  deriving DecidableEq, Repr

/-- Is a key ID granted to a context (R405)? -/
def State.granted (s : State) (ctx k : Nat) : Bool :=
  let r := s.reg (ctxReg ctx 0x68)
  decide (bits r 11 0 ≤ k) && decide (k < bits r 11 0 + bits r 27 16)

/-- A read that changes nothing: bytes with their poison; none is refused. Memory of another package answers with free values (log entry 11). -/
def State.peekPhys (s : State) (p : Place) (n : Nat) : Option (List (Byte × Bool)) :=
  match s.resolve p n 1 with
  | some q =>
    let l := s.peekLine q
    some ((List.range n).map fun i => (l.bytes.getD (q.pa % 128 + i) 0#8, l.badAt (q.pa % 128 + i)))
  | none =>
    match spaceOf p.pa with
    | .host _ => if s.hostOk p.pa then some ((List.range n).map fun i => (s.hostByte (p.pa + i), false)) else none
    | .remote k => if s.pkg = some k ∨ s.dead.contains k then none
        else some ((List.range n).map fun i => (Config.remoteByte s.fresh (p.pa + i), false))
    | _ => none

/-- The size of a leaf and the level that allows it (R406, R407). -/
def leafSize (sz : Nat) : Option (Nat × Nat) :=
  match sz with
  | 0 => some (12, 0)
  | 1 => some (16, 0)
  | 2 => some (21, 1)
  | 3 => some (26, 1)
  | 4 => some (32, 2)
  | _ => none

/-- The permissions of a leaf. -/
def leafPerm (pte : Nat) : Nat :=
  (if bit pte 4 then 1 else 0) + (if bit pte 5 then 2 else 0) + (if bit pte 6 then 4 else 0)

/-- The walk of R407 from a level down. -/
def State.walkFrom (s : State) (ctx va need tkey tbl lvl : Nat) : Nat → Except WalkFault TlbEntry
  | 0 => .error ⟨4, lvl, 0⟩
  | n + 1 =>
    let i := bits va (20 + 9 * lvl) (12 + 9 * lvl)
    match s.peekPhys ⟨tbl + 8 * i, tkey, false, ctx, va⟩ 8 with
    | none => .error ⟨5, lvl, 0⟩
    | some bs =>
      if bs.any (·.2) then .error ⟨5, lvl, 0⟩
      else
        force (ofBytes (bs.map (·.1))) fun pte =>
        if bit pte 0 = false then .error ⟨1, lvl, pte⟩
        else if bit pte 1 then
          if lvl = 0 ∨ bits pte 63 52 ≠ 0 ∨ bits pte 11 2 ≠ 0 then .error ⟨4, lvl, pte⟩
          else s.walkFrom ctx va need tkey (bits pte 51 12 * 4096) (lvl - 1) n
        else
          match leafSize (bits pte 11 9) with
          | none => .error ⟨4, lvl, pte⟩
          | some (lg, at_) =>
            if at_ ≠ lvl ∨ (bits pte 51 12 * 4096) % 2 ^ lg ≠ 0 ∨ bit pte 7 = true ∨ bits pte 3 2 ≠ 0 then .error ⟨4, lvl, pte⟩
            else if !s.granted ctx (bits pte 63 52) then .error ⟨3, lvl, pte⟩
            else if leafPerm pte &&& need ≠ need then .error ⟨2, lvl, pte⟩
            else .ok ⟨ctx, va / 2 ^ lg * 2 ^ lg, 2 ^ lg, bits pte 51 12 * 4096, bits pte 63 52, bit pte 8, leafPerm pte⟩

/-- The walk of a context (R405, R407). -/
def State.walk (s : State) (ctx va need : Nat) : Except WalkFault TlbEntry :=
  let r := s.reg (ctxReg ctx 0x60)
  if bit r 0 = false then .error ⟨1, 4, 0⟩
  else if !s.granted ctx (bits r 63 52) then .error ⟨3, 4, 0⟩
  else s.walkFrom ctx va need (bits r 63 52) (bits r 51 12 * 4096) 4 5

/-- The place that a translation gives an address. -/
def TlbEntry.place (e : TlbEntry) (va : Nat) : Place := ⟨e.pa + (va - e.va), e.key, e.dloc, e.ctx, va⟩

/-- The leaf that a cached translation came from (R406), and its level. -/
def TlbEntry.leaf (e : TlbEntry) : Nat × Nat :=
  let p (b k : Nat) : Nat := if bit e.perm b then 2 ^ k else 0
  let pte (sz : Nat) : Nat := e.key * 2 ^ 52 + e.pa / 4096 * 4096 + sz * 512 + (if e.dloc then 256 else 0) + p 2 6 + p 1 5 + p 0 4 + 1
  if e.size = 2 ^ 12 then (pte 0, 0)
  else if e.size = 2 ^ 16 then (pte 1, 0)
  else if e.size = 2 ^ 21 then (pte 2, 1)
  else if e.size = 2 ^ 26 then (pte 3, 1)
  else (pte 4, 2)

/-- What a cached translation gives an access: its place, or the fault of a permission it has not. -/
def TlbEntry.use (e : TlbEntry) (va need : Nat) : Except WalkFault Place :=
  if e.perm &&& need = need then .ok (e.place va) else .error ⟨2, e.leaf.2, e.leaf.1⟩

/-- The cached translations of an address that a walk would not give now (R408). -/
def State.oldEntries (s : State) (ctx va : Nat) (new : Except WalkFault TlbEntry) : List TlbEntry :=
  s.tlb.filter fun e => decide (e.ctx = ctx) && decide (e.va ≤ va) && decide (va < e.va + e.size)
    && (match new with | .ok e' => decide (e ≠ e') | .error _ => true)

/-- Translation of an address (R407, R408): by a walk, or by a cached translation; where they differ, which is used is a free value (log entry
10). An address in a run whose entries differ walks by its own entry, or is translated by one that is cached. The entry of a walk is cached. -/
def State.translate (s : State) (ctx va need : Nat) : State × Except WalkFault Place :=
  let new := s.walk ctx va need
  let walked := match new with
    | .ok e => (if s.tlb.contains e then s else { s with tlb := e :: s.tlb }, .ok (e.place va))
    | .error w => (s, .error w)
  match s.oldEntries ctx va new with
  | [] => walked
  | olds => match olds[Config.useCached s.fresh va % (olds.length + 1)]? with
    | some e => (s, e.use va need)
    | none => walked

/-- The fault buffer of a die (R411). -/
def State.faultBuf (s : State) (d : Nat) : List FaultEntry := mapGetD d [] s.faults

/-- Has the buffer no room for n more entries? -/
def State.faultsHeld (s : State) (d : Nat) : Nat := (s.faultBuf d).foldl (fun n e => n + e.count) 0
def State.faultsFull (s : State) (d n : Nat) : Bool := decide (s.faultsHeld d + n > 4096)

/-- A failed walk enters the fault buffer (R410, R411); the first entry of a (context, page) pair has a record to post. -/
def State.addFault (s : State) (d ctx va : Nat) (w : WalkFault) (access stop : Nat) (who : Faulter) (count : Nat) : State :=
  let b := s.faultBuf d
  let first := !(b.any fun e => decide (e.ctx = ctx) && decide (e.va / 4096 = va / 4096))
  { s with faults := mapSet d (b ++ [⟨ctx, va, w.cause, access, w.level, w.pte, stop, who, count, first⟩]) s.faults }

/-- Drop the entries that meet a test from every fault buffer. -/
def State.dropFaults (s : State) (p : FaultEntry → Bool) : State :=
  { s with faults := s.faults.map fun d => (d.1, d.2.filter fun e => !p e) }

/-- A translated range of memory: its places, page by page (R376). -/
def pagesOf (va n : Nat) : List (Nat × Nat) :=
  (List.range ((va + n + 4095) / 4096 - va / 4096)).map fun i =>
    let a := if i = 0 then va else (va / 4096 + i) * 4096
    (a, min (va + n) ((va / 4096 + i + 1) * 4096) - a)

/-- Translate every page of a range; the first failure stops it. -/
def State.translateAll (s : State) (ctx need : Nat) : List (Nat × Nat) → State × Except (Nat × WalkFault) (List (Place × Nat))
  | [] => (s, .ok [])
  | (va, n) :: ps =>
    match s.translate ctx va need with
    | (s1, .error w) => (s1, .error (va, w))
    | (s1, .ok p) => match s1.translateAll ctx need ps with
      | (s2, .error w) => (s2, .error w)
      | (s2, .ok qs) => (s2, .ok ((p, n) :: qs))

/-- Cut a physical range at line boundaries. -/
def linesOf (p : Place) (n : Nat) : List (Place × Nat) :=
  (List.range ((p.pa + n + 127) / 128 - p.pa / 128)).map fun i =>
    let a := if i = 0 then p.pa else (p.pa / 128 + i) * 128
    ({ p with pa := a, va := p.va + (a - p.pa) }, min (p.pa + n) ((p.pa / 128 + i + 1) * 128) - a)

/-- Read the pieces of a range, in order; a piece that is refused counts as poison and is reported. -/
def State.readPieces (s : State) : List (Place × Nat) → State × List (Byte × Bool) × Bool
  | [] => (s, [], false)
  | (p, n) :: ps =>
    let (s1, r) := s.readPhys p n
    let (s2, bs, bad) := s1.readPieces ps
    match r with
    | some xs => (s2, xs ++ bs, bad)
    | none => (s2, List.replicate n (0#8, true) ++ bs, true)

/-- Read a range of virtual addresses by a unit outside the cores: its bytes with their poison, and whether a piece was
refused; or the fault of its translation. -/
def State.readVirt (s : State) (ctx va n : Nat) : State × Except (Nat × WalkFault) (List (Byte × Bool) × Bool) :=
  match s.translateAll ctx permR (pagesOf va n) with
  | (s1, .error w) => (s1, .error w)
  | (s1, .ok ps) =>
    let (s2, bs, bad) := s1.readPieces (ps.flatMap fun p => linesOf p.1 p.2)
    (s2, .ok (bs, bad))

/-- Write the pieces of a range, in order; does every one succeed? -/
def State.writePieces (s : State) : List (Place × Nat) → List Byte → State × Bool
  | [], _ => (s, true)
  | (p, n) :: ps, bs =>
    let (s1, ok) := s.writePhys p (bs.take n)
    let (s2, ok') := s1.writePieces ps (bs.drop n)
    (s2, ok && ok')

end Sys2Proof.Machine
end

