-- ==== Sys2Proof/Machine/Network.lean ====
section
/-! DEFINITION. The torus: stops, links, packets and their order (R299 to R303), the mailboxes of the L1 with its home. -/

namespace Sys2Proof.Machine

open Sys2Proof

/-- Coordinates of a stop (R299). -/
def stopX (s : Nat) : Nat := 8 * (s / 64 % 2) + s % 8
def stopY (s : Nat) : Nat := 8 * (s / 128) + s / 8 % 8
/-- The stop at coordinates. -/
def stopAt (x y : Nat) : Nat := 64 * (x / 8 + 2 * (y / 8)) + 8 * (y % 8) + x % 8

/-- The neighbour of a stop (R300): 0 +X, 1 −X, 2 +Y, 3 −Y, as LNKW numbers them. -/
def neighbour (s dir : Nat) : Nat :=
  let x := stopX s
  let y := stopY s
  match dir with
  | 0 => stopAt ((x + 1) % 16) y
  | 1 => stopAt ((x + 15) % 16) y
  | 2 => stopAt x ((y + 1) % 16)
  | _ => stopAt x ((y + 15) % 16)

/-- Distance on a ring of 16 and between two stops (R300). -/
def ringDist (a b : Nat) : Nat := min ((a + 16 - b) % 16) ((b + 16 - a) % 16)
def stopDist (a b : Nat) : Nat := ringDist (stopX a) (stopX b) + ringDist (stopY a) (stopY b)

/-- Is the link on (R302, R331)? -/
def State.linkOn (s : State) (stop dir : Nat) : Bool := decide ((s.router stop).lnkw.getD dir 0 ≠ 3)

/-- Does an output bring a packet nearer to its destination (R302)? -/
def nearer (here dst d : Nat) : Bool := decide (stopDist (neighbour here d) dst < stopDist here dst)

/-- The outputs a router may give a packet (R302): the minimal ones that are on, or, when all are off, those of its
fallback table. A hop away from the destination adds two to the route, so a packet makes two of them at most. -/
def State.outputs (s : State) (p : Packet) : List Nat :=
  let minimal := [0, 1, 2, 3].filter fun d => nearer p.here p.dst d
  let on := minimal.filter fun d => s.linkOn p.here d
  if on.isEmpty then (if p.detours < 2 then [0, 1, 2, 3].filter fun d => s.linkOn p.here d else []) else on

/-- A virtual channel of the input by which a link enters its router that has a free buffer (R302): DESIGN CHOICE (log entry 59), a buffer holds one
packet, and the lowest free channel is taken. -/
def State.freeChannel (s : State) (stop dir : Nat) : Option Nat :=
  [0, 1, 2, 3].find? fun v => !(s.packets.any fun q => decide (q.2.loc = .net ∧ q.2.via = some (stop, dir) ∧ q.2.vc = v))

/-- Class number. -/
def PClass.code : PClass → Nat
  | .request => 0
  | .response => 1
  | .recall => 2
  | .bulk => 3

/-- A packet is given its sequence number and enters the network (R301, R303); one for its own stop has arrived. -/
def State.send (s : State) (cls : PClass) (src dst key : Nat) (pkg : Option Nat) (body : Body) : State :=
  let flow := 1024 * src + 4 * dst + cls.code
  let n := mapGetD flow 0 s.seqs
  let loc : Loc := if src = dst then (if pkg.isSome then .exit else .arrived s.nextId) else .net
  { s with
    packets := mapSet s.nextId ⟨cls, src, dst, src, n, key, body, loc, s.clock, none, pkg, 0, 0, false⟩ s.packets
    seqs := mapSet flow ((n + 1) % 65536) s.seqs
    nextId := s.nextId + 1 }

/-- A packet is held at its source while 32,768 earlier ones of its flow are unacknowledged (R303). -/
def State.heldBack (s : State) (id : Nat) (p : Packet) : Bool :=
  decide (p.here = p.src) && decide
    ((s.packets.filter fun q => decide (q.1 < id ∧ q.2.src = p.src ∧ q.2.dst = p.dst ∧ q.2.cls = p.cls)).length ≥ 32768)

/-- A partial leaves the L1 for its home (R183), and its line goes to I. -/
def State.flushLine (s : State) (c ln : Nat) : State :=
  match mapGet? ln (s.core c).l1 with
  | some ⟨p, .uo q⟩ =>
    let id := s.nextId
    let s1 := { s with nextId := id + 1 }.updCore c fun k => { k with l1 := mapDel ln k.l1, flushes := mapSet id q.who k.flushes }
    s1.send .request c (s1.homeOf p) p.key none (.flushed p q c id)
  | _ => s

/-- Every update-only line of a core is flushed. -/
def State.flushCore (s : State) (c : Nat) : State :=
  ((s.core c).l1.filterMap fun x => match x.2.st with | .uo _ => some x.1 | _ => none).foldl (fun s ln => s.flushLine c ln) s

/-- Room for one more line in its set of 8 ways (R182); which line goes is not specified. -/
def State.l1Room (s : State) (c ln : Nat) : State :=
  let k := s.core c
  let inSet := k.l1.filter fun x => decide (x.1 % 128 = ln % 128 ∧ x.1 ≠ ln)
  if inSet.length < 8 then s
  else match inSet with
    | [] => s
    | (v, x) :: _ => match x.st with
      | .v _ => s.updCore c fun k => { k with l1 := mapDel v k.l1 }
      | .uo _ => s.flushLine c v

/-- A load fill (R182). A line in UO is not replaced. -/
def State.l1Fill (s : State) (c : Nat) (p : Place) (l : Line) : State :=
  let ln := lineNo p.pa
  match mapGet? ln (s.core c).l1 with
  | some ⟨_, .uo _⟩ => s
  | _ => (s.l1Room c ln).updCore c fun k => { k with l1 := mapSet ln ⟨{ p with pa := ln * 128 }, .v l⟩ k.l1 }

/-- One lane of a RED into a partial (R183, R366): the first contribution to an element is taken as it is. -/
def Partial.add (p : Partial) (r : LaneReq) : Partial :=
  let n := if p.w64 then 2 else 1
  let i := r.addr % 128 / 4
  let x := ofWords (r.data.take n)
  let y := if inMask p.touched i then combineElem p (ofWords ((List.range n).map fun j => p.data.getD (i + j) 0#32)) x else x
  { p with
    touched := p.touched ||| BitVec.ofNat 32 ((2 ^ n - 1) * 2 ^ i)
    data := (toWords y n).zipIdx.foldl (fun d (w : Word × Nat) => listSet (i + w.2) w.1 d) p.data }

/-- RED in the L1 (R182, R183, R366): a line in UO with the same operation combines; otherwise a fresh UO line
opens, and its home knows of it (R322). Loads of the line under way no longer fill the L1. -/
def State.redL1 (s : State) (c : Nat) (op : Nat) (w64 : Bool) (r : Req) (who : Nat × Nat) : State :=
  let p := r.place
  let ln := lineNo p.pa
  let rel := if r.rel && decide (r.scope ≤ 2) then some r.num else none
  let fresh : Partial := ⟨op, w64, 0#32, List.replicate 32 0#32, 0#32, [who], rel⟩
  let put (s : State) (q : Partial) : State :=
    ((s.noFill c ln).updCore c fun k =>
      { k with l1 := mapSet ln ⟨{ p with pa := ln * 128 }, .uo (r.lanes.foldl Partial.add q)⟩ k.l1 }).updDir
      (s.homeOf p) ln fun d => if d.uo.contains c then d else { d with uo := d.uo ++ [c] }
  match mapGet? ln (s.core c).l1 with
  | some ⟨q, .uo x⟩ =>
    if q.key = p.key ∧ x.op = op ∧ x.w64 = w64 then
      put s { x with who := if x.who.contains who then x.who else x.who ++ [who], rel := if rel.isSome then rel else x.rel }
    else put (s.flushLine c ln) fresh
  | _ => put (s.l1Room c ln) fresh

end Sys2Proof.Machine
end

