-- ==== Sys2Proof/Machine/Exact.lean ====
section
/-! DEFINITION. Exact expressions over floating values, with one rounding where a rule names one (R42, R221, R252, R262, R265). -/

namespace Sys2Proof.Machine

open Sys2Proof

/-- A product times one more exact factor. -/
def Term.mulF (t : Term × Nat) (y : FVal) : Term × Nat :=
  match t.1, y with
  | .nan, .nan s => (.nan, t.2 ||| (if s then flNV else 0))
  | .nan, _ => t
  | _, .nan s => (.nan, t.2 ||| (if s then flNV else 0))
  | .inf a, .inf b => (.inf (a != b), t.2)
  | .inf a, .fin b n _ => if n = 0 then (.nan, t.2 ||| flNV) else (.inf (a != b), t.2)
  | .val u a, .inf b => if u.m = 0 then (.nan, t.2 ||| flNV) else (.inf (a != b), t.2)
  | .val u a, .fin b n e => (.val (u.mul (Dy.of b n e)) (a != b), t.2)

/-- A quotient in FP32, rounded once (R372). -/
def fDiv (mode : Rnd) (x y : Nat) : Nat × Nat :=
  match fp32.unpack x, fp32.unpack y with
  | .nan s, .nan t => (fp32.nan, if s || t then flNV else 0)
  | .nan s, _ => nanOut fp32 s
  | _, .nan t => nanOut fp32 t
  | .inf _, .inf _ => (fp32.nan, flNV)
  | .inf a, .fin b _ _ => (fp32.inf (a != b), 0)
  | .fin a _ _, .inf b => (fp32.signBit (a != b), 0)
  | .fin a m e, .fin b n g =>
    if n = 0 then (if m = 0 then (fp32.nan, flNV) else (fp32.inf (a != b), flDZ))
    else if m = 0 then (fp32.signBit (a != b), 0)
    else fp32.round mode 0 false (ratioMag (a != b) m n (e - g))

/-- The exact sum of terms with its flags (R221): a NaN among them, opposite infinities, or the sum; the zero of a sum is
negative only when there are terms and each is a negative zero. -/
def sumTerms (ts : List (Term × Nat)) : Term × Nat :=
  let fl := ts.foldl (fun a t => a ||| t.2) 0
  if ts.any fun t => decide (t.1 = .nan) then (.nan, fl)
  else
    let pos := ts.any fun t => decide (t.1 = .inf false)
    let neg := ts.any fun t => decide (t.1 = .inf true)
    if pos && neg then (.nan, fl ||| flNV)
    else if pos || neg then (.inf neg, fl)
    else match ts with
      | [] => (.val ⟨0, 0⟩ false, fl)
      | t :: rest =>
        let (r, _) := rest.foldl (Term.add .rne) t
        (r, fl)

/-- A term as a value. -/
def Term.fval (t : Term) : FVal :=
  match t with
  | .nan => .nan false
  | .inf n => .inf n
  | .val d n => .fin (if d.m = 0 then n else decide (d.m < 0)) d.m.natAbs d.e

/-- An FP32 value as an exact term. -/
def tv (x : Nat) : Term × Nat := (fp32.unpack x).term
/-- Exact product, negation, half and sum. -/
def tmul (x y : Term × Nat) : Term × Nat :=
  let r := Term.mulF x y.1.fval
  (r.1, r.2 ||| y.2)
def tneg (x : Term × Nat) : Term × Nat :=
  match x.1 with
  | .nan => x
  | .inf n => (.inf (!n), x.2)
  | .val d n => (.val d.neg (!n), x.2)
def thalf (x : Term × Nat) : Term × Nat :=
  match x.1 with
  | .val d n => (.val (d.shr 1) n, x.2)
  | _ => x
def tsub (x y : Term × Nat) : Term × Nat := sumTerms [x, tneg y]
/-- An exact integer constant. -/
def tint (n : Int) : Term × Nat := (.val (Dy.ofInt n) (decide (n < 0)), 0)
/-- One rounding to FP32 in RNE. -/
def tround (x : Term × Nat) : Nat × Nat := fp32.ofTerm .rne 0 x

/-- Comparisons of FP32 values, which raise no flag here; false with a NaN. -/
def fGt (x y : Nat) : Bool := (fCompare (fp32.unpack y) (fp32.unpack x)).1
def fGe (x y : Nat) : Bool := let c := fCompare (fp32.unpack y) (fp32.unpack x); c.1 || c.2
def fLe (x y : Nat) : Bool := fGe y x

/-- Is an FP32 value finite, and its exact value. -/
def fDy (x : Nat) : Option Dy :=
  match fp32.unpack x with
  | .fin n m e => some (Dy.of n m e)
  | _ => none

/-- exp(p) for a finite p below zero, given as its magnitude: in (0, 1), never exact. -/
def expMag (m : Nat) (e : Int) : Mag :=
  if dyGt m e 1 10 then ⟨false, 1, -400, true⟩
  else
    let y := m * 2 ^ (e + fxBits).toNat
    let n := y / ln2Fx
    let x := expSeries (ln2Fx - (y - n * ln2Fx)) (2 ^ fxBits) 0 110
    ⟨false, x / 2 ^ 20, 19 - (fxBits : Int) - n, true⟩

/-- round(exp(p)) for p that is not above zero (R265). -/
def fExpNeg (p : Nat) : Nat × Nat :=
  match fp32.unpack p with
  | .nan _ => (fp32.nan, 0)
  | .inf _ => (0, 0)
  | .fin _ 0 _ => (0x3F800000, 0)
  | .fin _ m e => fp32.round .rne 0 false (expMag m e)

end Sys2Proof.Machine
end

