-- ==== Sys2Proof/Machine/Records.lean ====
section
/-! DEFINITION. The splat records: footprint, and what BLEND, BLENDB and RIGX make of the records they read (R261, R265 to R267,
R269). -/

namespace Sys2Proof.Machine

open Sys2Proof

/-- What the footprint of a record delivers (R265). -/
structure Foot where
  alpha : Nat
  e : Nat
  dx : Nat
  dy : Nat
  cl : Bool
  fl : Nat
  deriving DecidableEq, Repr

/-- A word of a record (R261). -/
def recW (r : List Elem) (i : Nat) : Nat := (r.getD i Elem.zero).nat
def recP (r : List Elem) (i : Nat) : Bool := (r.getD i Elem.zero).pois

/-- The footprint of a record at a pixel centre (R265). -/
def footprint (r : List Elem) (px py : Nat) : Foot :=
  let (dx, f1) := fp32.add .rne 0 px (fp32.flip (recW r 0))
  let (dy, f2) := fp32.add .rne 0 py (fp32.flip (recW r 1))
  let (ca, cb, cc) := (tv (recW r 2), tv (recW r 3), tv (recW r 4))
  let (x, y) := (tv dx, tv dy)
  let s := sumTerms [tmul (tmul ca x) x, tmul (tmul (tmul (tint 2) cb) x) y, tmul (tmul cc y) y]
  let (p, f3) := tround (thalf (tneg s))
  let fl := f1 ||| f2 ||| f3
  if !fLe p 0 then ⟨0, 0, dx, dy, false, fl⟩
  else
    let (ex, f4) := fExpNeg p
    let (a, f5) := fp32.mul .rne 0 (recW r 5) ex
    let fl := fl ||| f4 ||| f5
    if fGt a 0x3F7D70A4 then ⟨0x3F7D70A4, ex, dx, dy, true, fl⟩
    else if fGe a 0x3B808081 then ⟨a, ex, dx, dy, false, fl⟩
    else ⟨0, ex, dx, dy, false, fl⟩

/-- Do poisoned words reach the footprint? -/
def footPois (r : List Elem) (pxy : Bool) : Bool := pxy || (List.range 6).any fun i => recP r i

/-- A lane of BLEND while it goes through its records: R, G, B, T and C with their poison, flags. -/
structure BlendSt where
  col : List (Nat × Bool)
  t : Nat × Bool
  c : Nat × Bool
  fl : Nat
  stop : Bool
  deriving DecidableEq, Repr

/-- One record of BLEND (R266). When T is poisoned it is not known whether the lane goes on: what the record would write
is poisoned (R47). -/
def blendRec (thr px py : Nat) (pxy : Bool) (b : BlendSt) (r : List Elem) : BlendSt :=
  let lost (b : BlendSt) : BlendSt := { b with col := b.col.map fun q => (q.1, true), t := (b.t.1, true) }
  if b.stop then b
  else if b.t.2 then { lost b with c := (b.c.1, true) }
  else if !fGe b.t.1 thr then { b with stop := true }
  else
    let b1 := { b with c := ((b.c.1 + 1) % 2 ^ 32, b.c.2) }
    if footPois r pxy then lost b1
    else
      let f := footprint r px py
      if f.alpha = 0 then { b1 with fl := b1.fl ||| f.fl }
      else
        let (w, f1) := fp32.mul .rne 0 f.alpha b.t.1
        let one (q : Nat × Bool) (i : Nat) : (Nat × Bool) × Nat :=
          if q.2 || recP r (6 + i) then ((q.1, true), 0)
          else let (v, g) := fp32.fma .rne 0 w (recW r (6 + i)) q.1; ((v, false), g)
        let cs := b.col.zipIdx.map fun (p : (Nat × Bool) × Nat) => one p.1 p.2
        let (u, f2) := fp32.add .rne 0 0x3F800000 (fp32.flip f.alpha)
        let (t, f3) := fp32.mul .rne 0 b.t.1 u
        { b1 with col := cs.map (·.1), t := (t, false), fl := cs.foldl (fun a p => a ||| p.2) (b1.fl ||| f.fl ||| f1 ||| f2 ||| f3) }

/-- The thresholds 2^−(6 + t) of R266. -/
def blendThr (t : Nat) : Nat := (121 - t) * 2 ^ 23

/-- The captured operands of a lane: words, and a mask of the poisoned ones last. -/
def capture (es : List Elem) : List Word :=
  es.map Elem.val ++ [BitVec.ofNat 32 ((es.zipIdx.foldl (fun (a : Nat) (p : Elem × Nat) => if p.1.pois then a + 2 ^ p.2 else a) 0))]
def captured (ws : List Word) (i : Nat) : Nat × Bool :=
  ((ws.getD i 0#32).toNat, bit (ws.getLastD 0#32).toNat i)

/-- Elements of results. -/
def elemsOf (xs : List (Nat × Bool)) : List Elem := xs.map fun q => ⟨BitVec.ofNat 32 q.1, q.2⟩

/-- BLEND in one lane (R266): operands R, G, B, T, px, py, C. -/
def blendLane (n t : Nat) (ops : List Word) (recs : List Elem) : List Elem × Nat :=
  let o (i : Nat) : Nat × Bool := captured ops i
  let b0 : BlendSt := ⟨[o 0, o 1, o 2], o 3, o 6, 0, false⟩
  let b := (List.range n).foldl (fun b i =>
    blendRec (blendThr t) (o 4).1 (o 5).1 ((o 4).2 || (o 5).2) b ((recs.drop (16 * i)).take 16)) b0
  (elemsOf (b.col ++ [b.t, b.c]), b.fl)

/-- BLENDB in one lane (R267): operands Sr, Sg, Sb, T, Gr, Gg, Gb, J, px, py; results D0 to D7, then the octet A. -/
def blendbLane (ops : List Word) (r : List Elem) : List Elem × Nat :=
  let o (i : Nat) : Nat × Bool := captured ops i
  let idx : Nat × Bool := (recW r 10, recP r 10)
  let octet := (List.range 8).map o
  let j := o 7
  let fp := footPois r ((o 8).2 || (o 9).2)
  let bad (q : Nat × Bool) : Nat × Bool := (q.1, true)
  let zeros := List.replicate 7 ((0, false) : Nat × Bool)
  let keep (a : List (Nat × Bool)) (d : List (Nat × Bool)) : List Elem := elemsOf (d ++ [idx] ++ a)
  if j.2 then (keep ((octet.take 4).map bad ++ (octet.drop 4).take 3 ++ [bad j]) (zeros.map bad), 0)
  else if sext j.1 32 > 0 then (keep (octet.take 7 ++ [(j.1 - 1, false)]) zeros, 0)
  else if fp then (keep ((octet.take 4).map bad ++ octet.drop 4) (zeros.map bad), 0)
  else
    let f := footprint r (o 8).1 (o 9).1
    if f.alpha = 0 then (keep octet zeros, f.fl)
    else
      let (t1, f1) := fp32.add .rne 0 0x3F800000 (fp32.flip f.alpha)
      let tp := (o 3).2
      let (ti, f2) := if tp then (0, 0) else fDiv .rne (o 3).1 t1
      let sp (i : Nat) : Bool := (o i).2
      let gAp := tp || (List.range 3).any fun i => sp i || sp (4 + i) || recP r (6 + i)
      let ch (i : Nat) : Term × Nat := tmul (tv (o (4 + i)).1) (tsub (tv (recW r (6 + i))) (tv (o i).1))
      let (ga, f3) := if gAp then (0, 0) else tround (tmul (tv ti) (sumTerms [ch 0, ch 1, ch 2]))
      let gpp := gAp && !f.cl
      let (gp, f4) := if f.cl ∨ gAp then (0, 0) else fp32.mul .rne 0 ga f.alpha
      let (x, y) := (tv f.dx, tv f.dy)
      let (ca, cb, cc) := (tv (recW r 2), tv (recW r 3), tv (recW r 4))
      let g := tv gp
      let d (t : Term × Nat) : (Nat × Bool) × Nat := if gpp then ((0, true), 0) else let (v, fl) := tround t; ((v, false), fl)
      let d0 := d (tmul g (sumTerms [tmul ca x, tmul cb y]))
      let d1 := d (tmul g (sumTerms [tmul cb x, tmul cc y]))
      let d2 := d (thalf (tmul (tmul (tneg g) x) x))
      let d3 := d (tmul (tmul (tneg g) x) y)
      let d4 := d (thalf (tmul (tmul (tneg g) y) y))
      let d5 : (Nat × Bool) × Nat := if f.cl then ((0, false), 0) else if gAp then ((0, true), 0)
        else let (v, fl) := fp32.mul .rne 0 ga f.e; ((v, false), fl)
      let d6 : (Nat × Bool) × Nat := if tp then ((0, true), 0) else let (v, fl) := fp32.mul .rne 0 f.alpha ti; ((v, false), fl)
      let s (i : Nat) : (Nat × Bool) × Nat :=
        if sp i || recP r (6 + i) then (((o i).1, true), 0)
        else
          let (v, fl) := tround (sumTerms [tmul (tv f.alpha) (tv (recW r (6 + i))), tmul (tv t1) (tv (o i).1)])
          ((v, false), fl)
      let ds := [d0, d1, d2, d3, d4, d5, d6]
      let ss := [s 0, s 1, s 2]
      (keep (ss.map (·.1) ++ [(ti, tp)] ++ octet.drop 4) (ds.map (·.1)),
        (ds ++ ss).foldl (fun a q => a ||| q.2) (f.fl ||| f1 ||| f2 ||| f3 ||| f4))

/-- The slice of a table that RIGX takes (R269): its index and whether a poisoned start decided it. -/
def rigSlice (recs : List Elem) (t : Nat) (lo hi : Nat) (p : Bool) : Nat → Nat × Bool
  | 0 => (lo, p)
  | n + 1 =>
    if hi - lo > 1 then
      let mid := (lo + hi) / 2
      let p' := p || recP recs (16 * mid)
      if recW recs (16 * mid) ≤ t then rigSlice recs t mid hi p' n else rigSlice recs t lo mid p' n
    else (lo, p)

/-- RIGX in one lane (R269): operands x, y, z, t. -/
def rigxLane (n : Nat) (ops : List Word) (recs : List Elem) : List Elem × Nat :=
  let o (i : Nat) : Nat × Bool := captured ops i
  let (k, p) := rigSlice recs (o 3).1 0 n false 9
  let r := (recs.drop (16 * k)).take 16
  let bad0 := p || (o 3).2 || (o 0).2 || (o 1).2 || (o 2).2
  let one (i : Nat) : (Nat × Bool) × Nat :=
    if bad0 || (List.range 4).any fun j => recP r (1 + 4 * i + j) then ((0, true), 0)
    else
      let (v, fl) := tround (sumTerms [tmul (tv (recW r (1 + 4 * i))) (tv (o 0).1), tmul (tv (recW r (2 + 4 * i))) (tv (o 1).1),
        tmul (tv (recW r (3 + 4 * i))) (tv (o 2).1), tv (recW r (4 + 4 * i))])
      ((v, false), fl)
  let rs := [one 0, one 1, one 2]
  (elemsOf (rs.map (·.1) ++ [o 3]), rs.foldl (fun a q => a ||| q.2) 0)

/-- What a lane's records come to. -/
def recordLane (op n t : Nat) (ops : List Word) (recs : List Elem) : List Elem × Nat :=
  match op with
  | 0 => blendLane n t ops recs
  | 1 => blendbLane ops recs
  | _ => rigxLane n ops recs

end Sys2Proof.Machine
end

