-- ==== Sys2Proof/Machine/Reduce.lean ====
section
/-! DEFINITION. Steps of the Granary's reductions, which the banks and the issuing core both take (R329, R373). -/

namespace Sys2Proof.Machine

open Sys2Proof

/-- Bytes of an element of a format (R59). -/
def fmtBytes (f : Fmt) : Nat :=
  match f with
  | .fp32 | .int32 | .uint32 => 4
  | .int64 | .uint64 => 8
  | .fp16 | .bf16 | .int16 | .uint16 => 2
  | _ => 1

/-- Is the format a floating one of the banks? -/
def gupdFloat (f : Fmt) : Bool := f == .fp32 || f == .fp16 || f == .bf16

/-- A step of a reduction (R373): sums of FP16 and BF16 in FP32; integers wrap. -/
def reduceStep (op rnd : Nat) (f : Fmt) (acc x : Nat) : Nat × Nat :=
  let n := if (fmtBytes f) = 8 then 64 else 32
  if gupdFloat f then
    (if op = 4 then fp32.add (Rnd.ofCode rnd) 0 acc x else (fspecOf f).minmax (op = 6) acc x)
  else if op = 4 then ((acc + x) % 2 ^ n, 0)
  else
    let lt := if intSigned f then decide (sext acc n < sext x n) else decide (acc < x)
    (if op = 6 then (if lt then x else acc) else (if lt then acc else x), 0)

/-- The result of a reduction: a NaN is canonical, and a signalling one, which no step has taken in, sets NV (R23). -/
def reduceOut (op : Nat) (f : Fmt) (x : Nat) : Nat × Nat :=
  if gupdFloat f then
    let sp := if op = 4 then fp32 else fspecOf f
    match sp.unpack x with
    | .nan sg => (sp.nan, if sg then flNV else 0)
    | _ => (x, 0)
  else (x, 0)

/-- The sticky flags of a bank for a tenant (R329). -/
def State.granFlag (s : State) (b ctx fl : Nat) : State :=
  if fl = 0 then s else { s with granFlags := mapSet (64 * b + ctx) (mapGetD (64 * b + ctx) 0 s.granFlags ||| fl) s.granFlags }

/-- The bank results of a reduction combined in order of the banks' lowest addresses (R329), each step's flags with the bank
that it takes in; the result is canonical where it is a NaN (R23). A poisoned reduction raises none (R47). -/
def reduceBanks (op rnd : Nat) (f : Fmt) : List (Nat × Nat × Bool) → Option (Nat × Bool × List (Nat × Nat))
  | [] => none
  | (b, x, bad) :: rest =>
    let r := rest.foldl (fun (acc : Nat × Bool × List (Nat × Nat)) r =>
      let (y, fl) := reduceStep op rnd f acc.1 r.2.1
      (y, acc.2.1 || r.2.2, acc.2.2 ++ [(r.1, fl)])) (x, bad, [])
    let (y, fl) := reduceOut op f r.1
    some (y, r.2.1, if r.2.1 then [] else r.2.2 ++ [(b, fl)])

end Sys2Proof.Machine
end

