-- ==== Sys2Proof/Machine/Texel.lean ====
section
/-! DEFINITION. The texture unit's arithmetic (R257 to R259): descriptor, level of detail, texels, filtering. -/

namespace Sys2Proof.Machine

open Sys2Proof

/-- A texture descriptor (R257). -/
structure TexDesc where
  base : Nat
  w : Nat
  h : Nat
  levels : Nat
  fmt : Nat
  lin : Bool
  mip : Bool
  au : Nat
  av : Nat
  border : List Nat
  deriving DecidableEq, Repr

/-- A number in the words of a descriptor, by byte offset and size. -/
def descField (ws : List Word) (off n : Nat) : Nat :=
  bits (((ws.getD (off / 4) 0#32).toNat + 2 ^ 32 * (ws.getD (off / 4 + 1) 0#32).toNat) >>> (8 * (off % 4))) (8 * n - 1) 0

/-- The descriptor in 16 words; none where it breaks R257. Reserved bytes are ignored (R7). -/
def texDesc (ws : List Word) : Option TexDesc :=
  let f := descField ws
  let d : TexDesc := ⟨f 0 8, f 8 2, f 10 2, f 12 1, f 13 1, bit (f 14 1) 0, bit (f 14 1) 1, bits (f 15 1) 1 0, bits (f 15 1) 3 2,
    [f 16 4, f 20 4, f 24 4, f 28 4]⟩
  if d.base % 16 = 0 ∧ 1 ≤ d.w ∧ d.w ≤ 16384 ∧ 1 ≤ d.h ∧ d.h ≤ 16384 ∧ 1 ≤ d.levels ∧ d.levels ≤ 15 ∧ d.fmt ≤ 3
      ∧ f 14 1 < 4 ∧ f 15 1 < 16 ∧ d.au ≠ 3 ∧ d.av ≠ 3 then some d
  else none

/-- Bytes of a texel. -/
def TexDesc.bytes (d : TexDesc) : Nat := [4, 8, 16, 4].getD d.fmt 4
/-- Width and height of a level. -/
def TexDesc.lw (d : TexDesc) (k : Nat) : Nat := max 1 (d.w >>> k)
def TexDesc.lh (d : TexDesc) (k : Nat) : Nat := max 1 (d.h >>> k)
/-- Texels before a level. -/
def TexDesc.before (d : TexDesc) (k : Nat) : Nat := (List.range k).foldl (fun a j => a + d.lw j * d.lh j) 0

/-- A position after the address mode; none for the border. -/
def texWrap (mode : Nat) (i : Int) (n : Nat) : Option Nat :=
  match mode with
  | 0 => some (i % (n : Int)).toNat
  | 1 => some (min (max i 0) ((n : Int) - 1)).toNat
  | _ => if 0 ≤ i ∧ i < (n : Int) then some i.toNat else none

/-- The address of texel (i, j) of a level; none for the border. -/
def TexDesc.addr (d : TexDesc) (k : Nat) (i j : Int) : Option Nat :=
  match texWrap d.au i (d.lw k), texWrap d.av j (d.lh k) with
  | some x, some y => some (d.base + (d.before k + y * d.lw k + x) * d.bytes)
  | _, _ => none

/-- The square of the length of a gradient, scaled to the texture (R258). -/
def gradLen (du dv : Term × Nat) (w h : Nat) : Term :=
  let x := tmul du (tint w)
  let y := tmul dv (tint h)
  (sumTerms [tmul x x, tmul y y]).1

/-- 256 λ of a level of detail, clamped and truncated (R258): from λ itself, or from the square of ρ. -/
def lodOf (levels : Nat) (t : Term) : Nat :=
  match t with
  | .nan => 0
  | .inf n => if n then 0 else 256 * (levels - 1)
  | .val d _ => if d.m ≤ 0 then 0 else min ((d.mul (Dy.ofInt 256)).floor.toNat) (256 * (levels - 1))
def lodOfRho2 (levels : Nat) (t : Term) : Nat :=
  match t with
  | .nan => 0
  | .inf _ => 256 * (levels - 1)
  | .val d _ =>
    if d.m ≤ 0 then 0
    else
      -- 256 log2 ρ = 128 log2 ρ², and the floor of log2 of an exact power
      let k : Int := (Nat.log2 (d.m.natAbs ^ 128) : Int) + 128 * d.e
      if k ≤ 0 then 0 else min k.toNat (256 * (levels - 1))

/-- The larger of two squares of ρ; a NaN stays. -/
def maxTerm (x y : Term) : Term :=
  match x, y with
  | .nan, _ => .nan
  | _, .nan => .nan
  | .inf _, _ => x
  | _, .inf _ => y
  | .val a _, .val b _ => if a.lt b then y else x

/-- One tap of a sample: its weight in 2^−24, and the address of its texel, or none for the border. -/
structure Tap where
  w : Nat
  at_ : Option Nat
  deriving DecidableEq, Repr

/-- Taps of one level, with the weight of the level out of 256. -/
def TexDesc.taps (d : TexDesc) (k wt : Nat) (u v : Dy) : List Tap :=
  let s := u.mul (Dy.ofInt (d.lw k))
  let t := v.mul (Dy.ofInt (d.lh k))
  if d.lin then
    let half := (Dy.ofInt 1).shr 1
    let (s, t) := (s.sub half, t.sub half)
    let (i, j) := (s.floor, t.floor)
    let a := (((s.sub (Dy.ofInt i)).mul (Dy.ofInt 256)).floor).toNat
    let b := (((t.sub (Dy.ofInt j)).mul (Dy.ofInt 256)).floor).toNat
    [⟨wt * (256 - a) * (256 - b), d.addr k i j⟩, ⟨wt * a * (256 - b), d.addr k (i + 1) j⟩,
      ⟨wt * (256 - a) * b, d.addr k i (j + 1)⟩, ⟨wt * a * b, d.addr k (i + 1) (j + 1)⟩]
  else [⟨wt * 65536, d.addr k s.floor t.floor⟩]

/-- The taps of a sample at 256 λ (R258). -/
def TexDesc.sample (d : TexDesc) (lod : Nat) (u v : Dy) : List Tap :=
  if d.mip then
    let (k, f) := (lod / 256, lod % 256)
    d.taps k (256 - f) u v ++ (if f > 0 then d.taps (k + 1) f u v else [])
  else d.taps ((lod + 128) / 256) 256 u v

/-- The colour of a texel as exact terms, times 255 for RGBA8. -/
def texColour (fmt : Nat) (ws : List Nat) : List (Term × Nat) :=
  let w (i : Nat) : Nat := ws.getD i 0
  let h (i : Nat) : Term × Nat := (fp16.unpack (bits (w (i / 2)) (16 * (i % 2) + 15) (16 * (i % 2)))).term
  match fmt with
  | 0 => (List.range 4).map fun i => tint (bits (w 0) (8 * i + 7) (8 * i) : Nat)
  | 1 => (List.range 4).map h
  | 2 => (List.range 4).map fun i => tv (w i)
  | _ => [tv (w 0), tint 0, tint 0, tint 1]

/-- The border's colour in the same measure. -/
def TexDesc.edge (d : TexDesc) : List (Term × Nat) :=
  d.border.map fun b => if d.fmt = 0 then tmul (tv b) (tint 255) else tv b

/-- One rounding of a sum of weighted colours: weights in 2^−24, over 255 for RGBA8. -/
def texRound (fmt : Nat) (t : Term) : Nat :=
  match t with
  | .nan => fp32.nan
  | .inf n => fp32.inf n
  | .val d n =>
    if fmt = 0 then (if d.m = 0 then fp32.signBit n else (fp32.round .rne 0 false (ratioMag (decide (d.m < 0)) d.m.natAbs 255 (d.e - 24))).1)
    else (fp32.round .rne 0 false ((d.shr 24).mag n)).1

/-- The result of a sample in one lane: its captured words are what kind it is (0 a sample, 1 canonical NaNs, 2 a result the
specification does not state, log entry 12, with a counter), then for each tap its weight and whether its texel is the border's.
A texel that is poisoned, or that never came, poisons the channels that depend on it (R260). -/
def texelLane (desc data : List Word) (texel : Nat → Option (List Elem)) : List Elem :=
  match (data.getD 0 0#32).toNat with
  | 1 => List.replicate 4 (elemOf fp32.nan)
  | 2 => (List.range 4).map fun c => ⟨Config.unstated (data.getD 1 0#32).toNat c, false⟩
  | _ =>
    match texDesc desc with
    | none => List.replicate 4 (elemOf fp32.nan)
    | some d =>
      let n := (data.length - 1) / 2
      let one (c i : Nat) : (Term × Nat) × Bool :=
        let w := (data.getD (1 + 2 * i) 0#32).toNat
        let (col, p) : List (Term × Nat) × Bool :=
          if (data.getD (2 + 2 * i) 0#32).toNat = 1 then (d.edge, false)
          else match texel i with
            | none => ([], decide (d.fmt ≠ 3 ∨ c = 0))
            | some es =>
              let used := match d.fmt with
                | 0 | 3 => if d.fmt = 3 ∧ c > 0 then [] else es.take 1
                | 1 => (es.drop (c / 2)).take 1
                | _ => (es.drop c).take 1
              (texColour d.fmt (es.map Elem.nat), used.any Elem.pois)
        (tmul (tint w) (col.getD c (tint 0)), p)
      (List.range 4).map fun c =>
        let ts := (List.range n).map (one c)
        if ts.any (·.2) then ⟨0#32, true⟩ else elemOf (texRound d.fmt (sumTerms (ts.map (·.1))).1)

end Sys2Proof.Machine
end

