-- ==== Sys2Proof/Machine/Access.lean ====
section
/-! DEFINITION. The accesses of a group from issue to return: their order (R335 to R346), sending their parts, the answers,
the failure record (R347, R348), and the return of the in-flight counters (R60). -/

namespace Sys2Proof.Machine

open Sys2Proof

/-- Does an access wait for its parts, or for one to be sent? -/
def Flight.open_ (f : Flight) : Bool := f.parts.any fun p => decide (p.st ≠ .done)
def Flight.held (f : Flight) : Bool := f.parts.any Part.held

/-- An access of the group that orders count: not an engine command (R335), not a fence, no work of a coprocessor that
reads and writes no location (R332). Path 9 marks the operations of queues, which no counter counts (R382). -/
def Flight.plain (f : Flight) : Bool := (decide (f.path < 7) || decide (f.path = 9)) && (f.reads || f.writes)

/-- Is a part of the access on its way to where it is performed? -/
def Flight.abroad (f : Flight) : Bool := f.parts.any fun p => decide (p.st = .sent)

/-- The writes of the groups of a core, one group apart, that have passed its L1, where the core's lanes read them, and that have not been performed
for every agent (R335, R340). -/
def State.passedWrites (s : State) (core tid gix : Nat) : List Nat :=
  s.teams.flatMap fun t =>
    if t.2.core = some core then
      t.2.groups.flatMap fun g =>
        if t.1 = tid ∧ g.1 = gix then [] else (g.2.flights.filter fun f => f.plain && f.writes && f.abroad).map (·.id)
    else []

/-- Have the flushes and the writes that an access waits for been acknowledged? -/
def State.acked (s : State) (core : Nat) (ids : Option (List Nat)) : Bool :=
  match ids with
  | some l =>
    (l.all fun i => (mapGet? i (s.core core).flushes).isNone) &&
    !(s.teams.any fun t => decide (t.2.core = some core) && t.2.groups.any fun g =>
      g.2.flights.any fun f => l.contains f.id && f.abroad)
  | none => false

/-- Does a fence with the accesses before it hold a later access (R346)? `acked` says whether what it flushed is acknowledged. -/
def fenceHolds (acked : Option (List Nat) → Bool) (before : List Flight) (fence f : Flight) : Bool :=
  (fence.acq && before.any fun e => e.plain && e.reads && e.open_) ||
  (fence.rel && (f.writes || fence.acq) &&
    (if fence.scope ≥ 2 then (before.any fun e => e.plain && e.open_) || !acked fence.flush
     else before.any fun e => e.plain && e.held))

/-- The fences among the accesses before one. -/
def fencesHold (acked : Option (List Nat) → Bool) (f : Flight) : List Flight → List Flight → Bool
  | _, [] => false
  | before, e :: es => (decide (e.path = 8) && fenceHolds acked before e f) || fencesHold acked f (before ++ [e]) es

/-- Do the accesses before a release hold it (R335), its flushes apart? One through the windows waits for those of paths 0 and 3 to be performed,
whatever its scope (R291). -/
def releaseHeld (earlier : List Flight) (path scope : Nat) : Bool :=
  (if scope ≥ 2 then earlier.any fun e => e.plain && e.open_ else earlier.any fun e => e.plain && e.held) ||
    (decide (path = 3) && earlier.any fun e => decide (e.path = 0 ∨ e.path = 3) && e.open_)

/-- Is an access held by an acquire or a fence before it? -/
def acquireHeld (acked : Option (List Nat) → Bool) (earlier : List Flight) (f : Flight) : Bool :=
  (earlier.any fun e => e.plain && e.acq && e.open_) || fencesHold acked f [] earlier

/-- Parts that are performed in issue order (R195, R290, R303, R327, R341). -/
def sameOrder (p q : Req) : Bool :=
  match p.tgt, q.tgt with
  | .scratch _, .scratch _ => true
  | .turning, .turning => true
  | .window a, .window b => decide (a = b)
  | .bank a, .bank b => decide (a = b)
  | .home, .home => decide (lineNo p.place.pa = lineNo q.place.pa)
  | .host _, .host _ => decide (lineNo p.place.pa = lineNo q.place.pa)
  | .remote a, .remote b => decide (a = b) && decide (lineNo p.place.pa = lineNo q.place.pa)
  | _, _ => false

/-- Is a part behind an earlier one that has not been sent? -/
def partHeld (earlier : List Flight) (p : Part) : Bool :=
  earlier.any fun e => e.parts.any fun q => q.held && sameOrder q.req p.req

/-- Change one flight, or one part. -/
def Group.updFlight (g : Group) (fid : Nat) (f : Flight → Flight) : Group :=
  { g with flights := updFirst (fun x => decide (x.id = fid)) f g.flights }
def Group.updPart (g : Group) (fid pi : Nat) (f : Part → Part) : Group :=
  g.updFlight fid fun x => { x with parts := listUpd pi f x.parts }
def Group.flight? (g : Group) (fid : Nat) : Option Flight := g.flights.find? fun x => decide (x.id = fid)

/-- A failed write enters the failure record (R347, R348). -/
def Group.recordFailure (g : Group) (fail : Nat) : Group :=
  if fail = 0 then g
  else { g with fail := FailRec.mk (g.fail.lost || decide (fail = 1)) (g.fail.refused || decide (fail = 2)) (min 0xFFFF (g.fail.count + 1)) }

/-- Words that have come back, for each lane. -/
def mergeGot (got new : Map (List Elem)) : Map (List Elem) := new.foldl (fun m x => mapSet x.1 x.2 m) got

/-- Does the access copy its data on, element by element, into the turning store (TSLD, R231) or the scratchpad
(BLEND.STAGE, R264)? Its last part stands for the copies. -/
def Flight.copies (f : Flight) : Bool := decide (f.dst = .none) && f.reads && !f.writes && f.parts.any fun p => decide (p.req.tgt = .unit)

/-- What the lanes of a failed part deliver: poison. -/
def lostLanes (f : Flight) (pi : Nat) : Map (List Elem) :=
  match f.parts[pi]? with
  | some p => p.req.lanes.foldl (fun m l => mapSet l.lane [⟨0#32, true⟩] m) []
  | none => []

/-- A part has been performed, or has failed (R348, R356, R365). -/
def Group.partDone (g : Group) (fid pi : Nat) (words : Map (List Elem)) (fail fl lines : Nat) : Group :=
  match g.flight? fid with
  | none => g
  | some f =>
    let g1 := if f.writes && !f.reads && decide (f.path ≠ 7) then g.recordFailure fail else g
    g1.updFlight fid fun f => { f with
      parts := listUpd pi (fun (p : Part) => { p with st := PartSt.done }) f.parts
      got := if fail = 0 then mergeGot f.got words else if f.copies then mergeGot f.got (lostLanes f pi) else f.got
      flags := f.flags ||| fl
      lines := f.lines + lines
      partialR := f.partialR || decide (fail ≠ 0) }

/-- A window part takes its place in its member's scratchpad queue when none of its group's earlier ones is still on its
way to that member (R290). -/
def State.admitWindows (s : State) (stop : Nat) : Nat → State
  | 0 => s
  | n + 1 =>
    let ready := s.packets.find? fun (q : Nat × Packet) => decide (q.2.dst = stop) && (match q.2.loc with | .arrived _ => true | _ => false) &&
      (match q.2.body with
       | .access r => (match r.tgt, r.ret with
         | .window t, .part a b _ _ =>
           !(s.packets.any fun (o : Nat × Packet) => match o.2.body with
             | .access r' => (match r'.tgt, r'.ret with
               | .window t', .part a' b' _ _ => decide (t' = t ∧ a' = a ∧ b' = b ∧ r'.num < r.num)
               | _, _ => false)
             | _ => false)
         | _, _ => false)
       | _ => false)
    match ready with
    | none => s
    | some (id, q) => match q.body with
      | .access r => match r.tgt with
        | .window t =>
          (State.updCore { s with packets := mapDel id s.packets } stop fun c => { c with scrQ := c.scrQ ++ [ScrOp.mk t r] }).admitWindows stop n
        | _ => s
      | _ => s

/-- The port stop of the host (R448), and the exit port toward another package (R473). -/
def portStop (port : Nat) : Nat := if port = 0 then 0 else 255
def fabricStop (port : Nat) : Nat :=
  64 * (port / 4) + (match port % 4 with | 0 => 1 | 1 => 6 | 2 => 57 | _ => 62)
def exitStop (pkg : Nat) : Nat := fabricStop (pkg % 16)

/-- Send a part of an access (R182, R289, R301, R354, R364 to R366, R473). -/
def State.sendPart (s : State) (tid gix fid pi core : Nat) (r : Req) : State :=
  let mark (s : State) (st : PartSt) : State := s.updGroup tid gix fun g => g.updPart fid pi fun p => { p with st := st }
  let ln := lineNo r.place.pa
  let l1 := mapGet? ln (s.core core).l1
  let toHome (s : State) (r : Req) : State :=
    (mark s .sent).send .request core (s.homeOf r.place) r.place.key none (.access r)
  let flushUo (s : State) : State := match l1 with
    | some ⟨_, .uo _⟩ => s.flushLine core ln
    | _ => s
  -- a load is answered from V only where no earlier load or atomic of its group to the line is on its way (R341), and no promotion is asked for (R344)
  let past : Bool := match s.group? tid gix with
    | some (_, g) => (g.flights.takeWhile fun f => decide (f.id ≠ fid)).any fun f => f.reads && f.parts.any fun q =>
        decide (q.st = .sent) && sameOrder q.req r
    | none => false
  match r.tgt with
  | .scratch t => (mark s .sent).updCore core fun c => { c with scrQ := c.scrQ ++ [⟨t, r⟩] }
  | .turning => (mark s .sent).updCore core fun c => { c with tsQ := c.tsQ ++ [⟨tid, r⟩] }
  | .window t =>
    match mapGet? t s.teams with
    | none => s
    | some m =>
      let dst := m.core.getD core
      ((mark s .sent).send .request core dst 0 none (.access r)).admitWindows dst 64
  | .bank b => (mark s .sent).send .request core b 0 none (.access r)
  | .host p => (mark s .sent).send .request core (portStop p) 0 none (.access r)
  | .remote k => (mark s .sent).send .request core (exitStop k) 0 (some k) (.access r)
  | .refused => s.updGroup tid gix fun g => g.partDone fid pi [] 2 0 0
  | .lost => s.updGroup tid gix fun g => g.partDone fid pi [] 1 0 0
  | .unit => mark s .sent
  | .home =>
    match r.act with
    | .load _ _ =>
      match l1 with
      | some ⟨p, .v l⟩ =>
        if p.key = r.place.key ∧ past = false ∧ (r.acq && r.rem && decide (r.scope ≥ 3)) = false then
          s.updGroup tid gix fun g => g.partDone fid pi (l.perform r.act r.lanes).2.out 0 0 0
        else toHome s r
      | _ => toHome (flushUo s) r
    | .store _ =>
      let s1 := flushUo s
      let s2 := match l1 with
        | some ⟨p, .v l⟩ =>
          if p.key = r.place.key then
            s1.updCore core fun c => { c with l1 := mapSet ln ⟨p, .v (l.perform r.act r.lanes).1⟩ c.l1 }
          else s1.updCore core (Core.dropV ln)
        | _ => s1
      toHome (s2.noFill core ln) r
    | .atom _ _ =>
      let s1 := (flushUo s).updCore core (Core.dropV ln)
      toHome (s1.noFill core ln) r
    | .red op w64 => (s.redL1 core op w64 r (tid, gix)).updGroup tid gix fun g => g.partDone fid pi [] 0 0 0
    | .query _ => (mark s .sent).send .request core ((r.lanes.map LaneReq.addr).headD 0) 0 none (.access r)
    | _ => toHome (flushUo s) r

/-- Send the parts of an access that nothing holds. -/
def State.pumpParts (s : State) (tid gix fid core : Nat) (earlier : List Flight) : List (Part × Nat) → State
  | [] => s
  | (p, i) :: ps =>
    let s1 := if decide (p.st = .todo) && !partHeld earlier p then s.sendPart tid gix fid i core p.req else s
    s1.pumpParts tid gix fid core earlier ps

/-- A release or a fence flushes every update-only line of the core; a release waits for the writes of its other groups as well, which its group may
have read (R335, R346). -/
def State.drainFor (s : State) (tid gix core : Nat) (f : Flight) : State :=
  let s1 := s.flushCore core
  let ids := (s1.core core).flushes.map (·.1) ++ (if f.drain = 2 then s1.passedWrites core tid gix else [])
  s1.updGroup tid gix fun g => g.updFlight f.id fun f => { f with flush := some ids }

/-- One access: what it waits for, and the sending of its parts. A release at cluster scope or wider first flushes every update-only line of the core
(R335); a fence does when every access before it has been sent (R346). -/
def State.pumpFlight (s : State) (tid gix core fid : Nat) : State :=
  match s.group? tid gix with
  | none => s
  | some (_, g) =>
    let earlier := g.flights.takeWhile fun f => decide (f.id ≠ fid)
    match g.flight? fid with
    | none => s
    | some f =>
      if f.path = 8 then
        (if f.drain ≠ 0 ∧ f.flush = none ∧ (earlier.any fun e => e.plain && e.held) = false then s.drainFor tid gix core f else s)
      else if !f.held || (f.plain && acquireHeld (s.acked core) earlier f) then s
      else if f.rel && releaseHeld earlier f.path f.scope then s
      else
        let s1 := if f.drain ≠ 0 ∧ f.flush = none then s.drainFor tid gix core f else s
        let ids := match s1.group? tid gix with
          | some (_, g) => (match g.flight? fid with | some f => f.flush | none => none)
          | none => none
        if f.drain = 0 ∨ s1.acked core ids = true then s1.pumpParts tid gix fid core earlier f.parts.zipIdx else s1

/-- The status word of FENCE (R347). -/
def fenceStatus (r : FailRec) (pending : Bool) : Nat :=
  (if r.lost || r.refused then 2 ^ 31 else 0) + (if r.lost then 2 ^ 30 else 0) + (if r.refused then 2 ^ 29 else 0)
    + (if pending then 2 ^ 28 else 0) + r.count

/-- Has a RED of the group been combined in the L1 whose flush has not been acknowledged (R347)? -/
def State.redsOut (s : State) (core tid gix : Nat) : Bool :=
  ((s.core core).l1.any fun x => match x.2.st with | .uo q => q.who.contains (tid, gix) | _ => false) ||
    (s.core core).flushes.any fun f => f.2.contains (tid, gix)

/-- A value written to a uniform register by an instruction that has waited; a poisoned guard poisons it (R106). -/
def statusElem (s : State) (gp : Bool) (x : Nat) : Elem := if gp then ⟨Config.poisonBits s.fresh 0, true⟩ else elemOf x

/-- A fence completes (R347): at cluster scope or wider when every earlier write is acknowledged or has failed and the
flushes are acknowledged; it writes its status and clears the record. -/
def State.tryFence (s : State) (tid gix entry : Nat) : State :=
  match s.group? tid gix with
  | none => s
  | some (t, g) =>
    match mapGet? entry g.frags with
    | none => s
    | some fr =>
      match fr.wait with
      | .fence d _ scope _ gp =>
        match g.flights.find? fun f => decide (f.path = 8 ∧ f.entry = entry ∧ f.lines = 0) with
        | none => s
        | some f =>
          let earlier := g.flights.takeWhile fun x => decide (x.id ≠ f.id)
          let unacked := earlier.any fun x => x.plain && x.writes && x.open_
          if scope ≥ 2 ∧ (unacked = true ∨ s.acked (t.core.getD 0) f.flush = false) then s
          else
            let st := fenceStatus g.fail (decide (scope < 2) && (unacked || s.redsOut (t.core.getD 0) tid gix))
            let s1 := s.updGroup tid gix fun g =>
              { ((g.setS d (statusElem s gp st)).updFlight f.id fun f => { f with lines := 1 }) with fail := FailRec.mk false false 0 }
            endWait s1 tid gix entry
      | _ => s

/-- Completed fences that no longer order anything are forgotten. -/
def dropFences : List Flight → List Flight
  | [] => []
  | f :: fs => if f.path = 8 ∧ f.lines = 1 then dropFences fs else if f.open_ || decide (f.path = 8) then f :: fs else f :: dropFences fs

/-- Every access of a group that nothing holds is sent, and every fence that may complete does. -/
def State.pump (s : State) (tid gix : Nat) : State :=
  match s.group? tid gix with
  | none => s
  | some (t, g) =>
    match t.core with
    | none => s
    | some c =>
      let s1 := g.flights.foldl (fun s f => s.pumpFlight tid gix c f.id) s
      let s2 := (g.frags.filterMap fun f => match f.2.wait with | .fence _ _ _ _ _ => some f.1 | _ => none).foldl
        (fun s e => s.tryFence tid gix e) s1
      s2.updGroup tid gix fun g => if g.flights.any fun f => decide (f.path = 8) then { g with flights := dropFences g.flights } else g

/-- Pump every group of a core: a flush of the core has been acknowledged. -/
def State.pumpCore (s : State) (c : Nat) : State :=
  (s.teams.filter fun t => decide (t.2.core = some c)).foldl (fun s t =>
    t.2.groups.foldl (fun s g => if g.2.flights.isEmpty then s else s.pump t.1 g.1) s) s

/-- An answer for a part of a group's access: its data, and the line for the L1. -/
def State.answerPart (s : State) (tid gix fid pi : Nat) (words : Map (List Elem)) (fail fl : Nat) (line : Option Line) (lines : Nat) : State :=
  match s.group? tid gix with
  | none => s
  | some (t, g) =>
    let req : Option Req := match g.flight? fid with
      | some f => (f.parts[pi]?).map Part.req
      | none => none
    let s1 := match t.core, req, line with
      | some c, some r, some l => if r.fill then s.l1Fill c r.place l else s
      | _, _, _ => s
    let s2 := (s1.updGroup tid gix fun g => g.partDone fid pi words fail fl lines).pump tid gix
    -- a release of another group of the core may wait for this write (R335)
    match t.core, g.flight? fid with
    | some c, some f => if f.writes then s2.pumpCore c else s2
    | _, _ => s2

/-- An answer reaches whoever asked. -/
def State.answer_ (s : State) (ret : Ret) (words : Map (List Elem)) (fail fl : Nat) (line : Option Line) (lines : Nat) : State :=
  match ret with
  | .none => s
  | .part t g f p => s.answerPart t g f p words fail fl line lines
  | .flush c id => (s.updCore c fun k => { k with flushes := mapDel id k.flushes }).pumpCore c
  | .cmd id n => { s with cmds := mapUpd id (fun c => { c with
      wait := c.wait - 1, status := if fail = 0 then c.status else max c.status 2, count := if fail = 0 then c.count + n else c.count }) s.cmds }
  | .remote pkg tok => s.send .response (exitStop pkg) (exitStop pkg) 0 (some pkg) (.reply (.remote pkg tok) words fail fl none lines)

/-- An acknowledgement of a recall reaches the home (R322). -/
def State.recallAcked (s : State) (slice ln core : Nat) : State :=
  s.updDir slice ln fun d => { d with
    waiting := d.waiting.filter fun c => decide (c ≠ core)
    v := d.v.filter fun c => decide (c ≠ core)
    uo := d.uo.filter fun c => decide (c ≠ core) }

/-- A flow: the other package and the class (R473). -/
def flowOf (pkg cls : Nat) : Nat := 4 * pkg + cls
def State.entryFlow (s : State) (f : Nat) : EntryFlow := mapGetD f ⟨0, [], []⟩ s.entries

/-- Is the packet on its way between two ports of the fabric (R473), and the other package of a packet of the fabric. -/
def Packet.between (p : Packet) : Bool := match p.body with | .leg _ _ | .came _ _ _ _ => true | _ => false
def Packet.bound (p : Packet) : Option Nat :=
  match p.body with
  | .leg f _ => some (f / 4)
  | .came k _ _ _ => some k
  | _ => p.pkg

/-- A packet of another package has come to its entry port (R473, R474): one whose number has been released is discarded. -/
def State.fabricArrive (s : State) (pkg : Nat) (cls : PClass) (number : Nat) (body : Body) : State :=
  let f := flowOf pkg cls.code
  let e := s.entryFlow f
  let stop := exitStop pkg
  let old := decide ((number + 2 ^ 32 - e.next) % 2 ^ 32 ≥ 2 ^ 31) || e.ahead.contains number || (mapGet? number e.held).isSome
  if old ∨ s.dead.contains pkg then s
  else
    let p : Packet := ⟨cls, stop, stop, stop, 0, 0, body, .exit, s.clock, none, some pkg, 0, 0, false⟩
    { s with entries := mapSet f { e with held := mapSet number p e.held } s.entries }

/-- A packet of another package arrives on a plane (R473): at the entry port itself, or at that plane's port, from which it goes over the torus to the
entry port. -/
def State.fabricIn (s : State) (pkg : Nat) (cls : PClass) (number : Nat) (body : Body) (plane : Nat) : State :=
  if fabricStop plane = exitStop pkg then s.fabricArrive pkg cls number body
  else s.send cls (fabricStop plane) (exitStop pkg) 0 none (.came pkg cls number body)

/-- A numbered packet leaves its exit port for the sending port of its plane (R473); where the two are one it is at its plane at once. -/
def State.sendLeg (s : State) (flow number plane : Nat) (p : Packet) : State :=
  let port := exitStop (flow / 4)
  if fabricStop plane = port then s else s.send p.cls port (fabricStop plane) p.key none (.leg flow number)

/-- Is that packet of the flow still on its way to its sending port? -/
def State.legOut (s : State) (flow number : Nat) : Bool := s.packets.any fun p => decide (p.2.body = .leg flow number)

/-- A packet has reached its destination (R303): answers are taken at once, requests wait in the endpoint. -/
def State.deliver (s : State) (id : Nat) : State :=
  match mapGet? id s.packets with
  | none => s
  | some p =>
    if p.pkg.isSome then { s with packets := mapSet id { p with loc := .exit } s.packets }
    else
      let gone : State := { s with packets := mapDel id s.packets }
      match p.body with
      | .reply ret words fail fl line lines => gone.answer_ ret words fail fl line lines
      | .recallAck ln c => gone.recallAcked p.dst ln c
      | .drainAck ln => gone.updDir p.dst ln fun d => { d with drainOut := false, drained := true }
      | .leg _ _ => gone
      | .came pkg cls n body => gone.fabricArrive pkg cls n body
      | _ =>
        let s1 : State := { s with packets := mapSet id { p with loc := .arrived s.nextId } s.packets, nextId := s.nextId + 1 }
        s1.admitWindows p.dst 64

/-- Send an answer, under the key ID of the access (R301); one for the sender's own stop arrives at once. -/
def State.reply (s : State) (cls : PClass) (src dst key : Nat) (body : Body) : State :=
  let id := s.nextId
  let s1 := s.send cls src dst key none body
  if src = dst then s1.deliver id else s1

/-- Where the answer to a request goes, from a stop. -/
def State.replyTo (s : State) (stop : Nat) (r : Req) (words : Map (List Elem)) (fail fl : Nat) (line : Option Line) (lines : Nat) : State :=
  match r.ret with
  | .none => s
  | .remote pkg tok =>
    s.send .response stop (exitStop pkg) r.place.key (some pkg) (.reply (.remote pkg tok) words fail fl none lines)
  | ret => s.reply .response stop (r.core.getD stop) r.place.key (.reply ret words fail fl line lines)

/-- Elements that never came: a refused or lost read, or a lane that no part answered (R356). -/
def gotWord (f : Flight) (fresh l j : Nat) : Elem :=
  match mapGet? l f.got with
  | some ws => match ws[j]? with
    | some e => if e.pois then ⟨Config.poisonBits fresh (32 * j + l), true⟩ else e
    | none => ⟨Config.poisonBits fresh (32 * j + l), true⟩
  | none => ⟨Config.poisonBits fresh (32 * j + l), true⟩

/-- The data of an access is written to its destination (R193, R128, R364), its flags raised (R46). -/
def Group.landFlight (g : Group) (f : Flight) (fresh : Nat) : Group :=
  let g1 := match f.dst with
    | .none => g
    | .v r n => g.setVs r f.mask ((List.range n).map fun j => lanesTab fun l => gotWord f fresh l j)
    | .v2 r n q m =>
      (g.setVs r f.mask ((List.range n).map fun j => lanesTab fun l => gotWord f fresh l j)).setVs q f.mask
        ((List.range m).map fun j => lanesTab fun l => gotWord f fresh l (n + j))
    | .s r n => g.setSs r ((List.range n).map fun j => if f.gp then ⟨Config.poisonBits fresh j, true⟩ else gotWord f fresh 0 j)
    | .sh i => g.setShape i ((List.range 16).map fun j => if f.gp then ⟨Config.poisonBits fresh j, true⟩ else gotWord f fresh 0 j)
  g1.raise f.flags

/-- The bank results of a reduction, in part order. -/
def bankResults (f : Flight) : List (Nat × Nat × Bool) :=
  f.parts.filterMap fun p => match p.req.tgt with
    | .bank b => match mapGet? b f.got with
      | some es => some (b, ofWords (es.map Elem.val), es.any Elem.pois)
      | none => none
    | _ => none

/-- The results of BLEND, BLENDB and RIGX when the records are in (R265). -/
def Flight.landRecords (f : Flight) (op n t : Nat) (lanes : List LaneReq) : Flight :=
  let rs := lanes.map fun q => (q.lane, recordLane op n t q.data (mapGetD q.lane [] f.got))
  { f with
    got := rs.foldl (fun m r => mapSet r.1 r.2.1 m) []
    flags := rs.foldl (fun a r => a ||| r.2.2) f.flags }

/-- The results of SAMPLE when the texels are in (R258): those of lane l stand under 16 × l + tap. -/
def Flight.landTexels (f : Flight) (desc : List Word) (lanes : List LaneReq) : Flight :=
  { f with got := lanes.foldl (fun m q => mapSet q.lane (texelLane desc q.data fun i => mapGet? (16 * q.lane + i) f.got) m) [] }

/-- What an access makes of its parts' answers when all are in: CCTL its status (R370), a range reduction its result,
poisoned when an element was refused (R329, R373), splat records and texels what is computed from them (R258, R265); others
keep their words. -/
def State.gather (s : State) (f : Flight) : State × Flight :=
  match f.parts with
  | [] => (s, f)
  | ⟨r, _⟩ :: _ => match r.act with
    | .cctl _ => (s, { f with got := [(0, [elemOf ((if f.partialR then 2 ^ 31 else 0) + f.lines)])] })
    | .gupd op rnd fmt _ _ _ =>
      if op < 4 then (s, f)
      else match reduceBanks op rnd ((Fmt.ofCode fmt).getD .fp32) (bankResults f) with
        | none => (s, { f with got := [] })
        | some (x, bad, fls) =>
          (fls.foldl (fun (s : State) b => s.granFlag b.1 r.ctx b.2) s,
            if f.partialR then { f with got := [] } else { f with got := [(0, [⟨BitVec.ofNat 32 x, bad⟩, ⟨BitVec.ofNat 32 (x / 2 ^ 32), bad⟩])] })
    | .record op n t => (s, f.landRecords op n t r.lanes)
    | .texture op desc => (s, if op = 0 then f.landTexels desc r.lanes else f)
    | _ => (s, f)

/-- The oldest access of a path returns, when it has been performed (R60): it writes its destination and lowers the counter. -/
def State.accessReturn (s : State) (tid gix path : Nat) : State :=
  match s.group? tid gix with
  | none => s
  | some (_, g) =>
    match g.flights.find? fun f => decide (f.path = path) with
    | none => s
    | some f =>
      if f.open_ then s
      else
        let (s0, f') := s.gather f
        let s1 := s0.updGroup tid gix fun g =>
          let g1 := g.landFlight f' s.fresh
          { g1 with
            flights := removeFirst (fun x => decide (x.id = f.id)) g1.flights
            cnt := listUpd path (fun n => n - 1) g1.cnt }
        let s2 : State := { s1 with fresh := s1.fresh + 1 }
        (wakePaths s2 tid gix).pump tid gix

/-- Every access of a path that may return does so, oldest first. -/
def State.returnPath (s : State) (tid gix path : Nat) : Nat → State
  | 0 => s
  | n + 1 =>
    match s.group? tid gix with
    | none => s
    | some (_, g) =>
      match g.flights.find? fun f => decide (f.path = path) with
      | none => s
      | some f => if f.open_ then s else (s.accessReturn tid gix path).returnPath tid gix path n

/-- Is an acquire through the windows out? The group's later accesses of every path are issued only after its data has returned (R291). -/
def Group.windowAcquire (g : Group) : Bool := g.flights.any fun f => decide (f.path = 3) && f.acq

/-- A counted access is issued (R60): with the counter at 63, or behind an acquire through the windows, it does not issue. -/
def issueFlight (e : Env) (s : State) (f : Flight) : Except Stop State :=
  match s.group? e.iss.team e.iss.gix with
  | none => .error .stall
  | some (_, g) =>
    if g.cnt.getD f.path 0 ≥ 63 ∨ g.windowAcquire = true then .error .stall
    else
      let s1 : State := { s.setGroup e.iss.team e.iss.gix { g with
        cnt := listUpd f.path (fun n => n + 1) g.cnt
        flights := g.flights ++ [f] } with nextId := s.nextId + 1 }
      .ok (s1.pump e.iss.team e.iss.gix)

/-- A flight of the instruction in hand, with no parts yet. -/
def Env.flight (e : Env) (s : State) (path : Nat) (dst : Dst) (reads writes : Bool) : Flight :=
  let cl := match e.g.clause with
    | some c => if c.entry = e.iss.entry then some c.addr else none
    | none => none
  { id := s.nextId, path := path, entry := e.iss.entry, pc := cl.getD e.pc, inClause := cl.isSome, dst := dst, mask := e.act
    reads := reads, writes := writes, acq := false, rel := false, scope := 0, parts := [], got := [], gp := e.gp, flags := 0
    drain := 0, flush := none, lines := 0, partialR := false }

/-- The order fields of the memory layout (R84): order and scope of the instruction in hand. -/
def Env.order (e : Env) : Nat := mOrder e.x.m
def Env.scope (e : Env) : Nat := mScope e.x.m
def Env.acq (e : Env) : Bool := bit e.order 0
def Env.rel (e : Env) : Bool := bit e.order 1

/-- A flight with the order of the instruction. -/
def Env.ordered (e : Env) (f : Flight) : Flight :=
  { f with acq := e.acq, rel := e.rel, scope := e.scope, drain := if e.rel && decide (e.scope ≥ 2) then 2 else 0 }

end Sys2Proof.Machine
end

