-- ==== Sys2Proof/Machine/Scratch.lean ====
section
/-! DEFINITION. Lane accesses in common (R192, R288, R363), the scratchpad (R177 to R179, R189 to R196), the cluster and
mirror windows (R284 to R291). -/

namespace Sys2Proof.Machine

open Sys2Proof

/-- Bytes and sign of a width code (R189). -/
def widthOf (c : Nat) : Nat × Bool :=
  match c with
  | 0 => (4, false)
  | 1 => (8, false)
  | 2 => (16, false)
  | 3 => (1, false)
  | 4 => (1, true)
  | 5 => (2, false)
  | _ => (2, true)

/-- A trap that names lanes: the address of the lowest of them. -/
def lanesTrap {α : Type} (code : Nat) (m : Mask) (addr : Nat → Nat) : Except Stop α :=
  .error (.trap { code := code, pois := decide (code = tcPoison), mask := some m
                  addr := BitVec.ofNat 64 (addr ((lanesOf m).headD 0)) })

/-- Does a watchpoint match an access of w bytes at an address (R205, R206)? -/
def wptHit (r : Dword) (space : Nat) (rd wr : Bool) (addr w : Nat) : Bool :=
  let x := r.toNat
  let len := [4, 8, 64, 128].getD (bits x 58 57) 4
  let base := bits x 56 0 / len * len
  bit x 63 && decide (bits x 60 59 = space) && ((bit x 62 && rd) || (bit x 61 && wr))
    && decide (addr < base + len) && decide (base < addr + w)

/-- Watchpoints apply outside a handler, and not to the first instruction after RTE (R207). -/
def Env.watched (e : Env) : Bool :=
  e.g.handler.isNone && !(match mapGet? e.iss.entry e.g.frags with | some f => f.exempt | none => false)

/-- Does any watchpoint of the group match? -/
def Env.wpt (e : Env) (space : Nat) (rd wr : Bool) (addr w : Nat) : Bool :=
  e.watched && e.g.sp.wpt.any fun r => wptHit r space rd wr addr w

/-- The lanes of active(F) that meet a test. -/
def Env.lanesWith (e : Env) (p : Nat → Bool) : Mask := maskOf fun l => inMask e.act l && p l

/-- Fail with a trap when some active lane meets the test. -/
def Env.check (e : Env) (code : Nat) (addr : Nat → Nat) (p : Nat → Bool) : Except Stop Unit :=
  let m := e.lanesWith p
  if m = 0#32 then .ok () else lanesTrap code m addr

/-- The words of a data operand of n registers, in each lane; an inline constant is read by the operand's type (R87). -/
def dataRegs (g : Group) (ty : CTy) (f : Fld) (n : Nat) : List Lanes :=
  match n with
  | 0 => []
  | 1 => [g.srcV ty f]
  | 2 => [g.srcV ty f, g.srcVHi ty f]
  | n => g.vregs f n

/-- The type of the operands of an operation of R190: FADD takes FP32. -/
def atomTy (op : Nat) : CTy := if op = 1 then .fp32 else .int

/-- The elements a lane of a data operand holds. -/
def laneData (rs : List Lanes) (l : Nat) : List Elem := rs.map fun r => laneAt r l

/-- A lane access as its instruction gives it: width, what it does, addresses, data, new values, poison of both. -/
structure LaneAcc where
  w : Nat
  act : Act
  addr : Nat → Nat
  addrPois : Nat → Bool
  data : List Lanes
  new : List Lanes

/-- Is any data of a lane poisoned? -/
def LaneAcc.dataPois (a : LaneAcc) (l : Nat) : Bool := (laneData (a.data ++ a.new) l).any Elem.pois

/-- The lanes of the access with what each brings. -/
def LaneAcc.lanes (a : LaneAcc) (m : Mask) (f : Nat → Nat) : List LaneReq :=
  (lanesOf m).map fun l => ⟨l, f (a.addr l), (laneData a.data l).map Elem.val, (laneData a.new l).map Elem.val⟩

/-- The address operands of an access: base, and addend where there is one. -/
def Env.addr32 (e : Env) (addend : Bool) : (Nat → Nat) × (Nat → Bool) :=
  let a := e.g.srcV .int e.x.a
  let b := if addend then e.g.srcV .int e.x.b else Lanes.zero
  (fun l => ((laneAt a l).nat + (laneAt b l).nat) % 2 ^ 32, fun l => (laneAt a l).pois || (laneAt b l).pois)

/-- Load, store and atomic forms over 32-bit addresses (R189, R190, R286, R360). -/
def Env.loadAcc (e : Env) (wcode : Nat) : LaneAcc :=
  let (w, sg) := widthOf wcode
  let (ad, p) := e.addr32 true
  ⟨w, .load w sg, ad, p, [], []⟩
def Env.storeAcc (e : Env) (wcode : Nat) : LaneAcc :=
  let (w, _) := widthOf wcode
  let (ad, p) := e.addr32 true
  ⟨w, .store w, ad, p, dataRegs e.g .int e.x.c (regsOfWidth wcode), []⟩
def Env.atomAcc (e : Env) : LaneAcc :=
  let o := mOpx e.x.m
  let n := regsOfAtom e.x.m
  let (ad, p) := e.addr32 false
  let ty := atomTy (bits o 3 0)
  ⟨4 * n, .atom (bits o 3 0) (bit o 4), ad, p, dataRegs e.g ty e.x.b n, if isCas e.x.m then dataRegs e.g ty e.x.c n else []⟩

/-- Where the data of a lane access goes. -/
def Env.dstV (e : Env) (n : Nat) : Dst :=
  match e.x.d with
  | .v r => .v r.toNat n
  | _ => .none

/-- Reads and writes of an access (R206, R346). -/
def Act.isRead : Act → Bool
  | .load _ _ | .atom _ _ | .record _ _ _ => true
  | _ => false
def Act.isWrite : Act → Bool
  | .store _ | .atom _ _ | .red _ _ => true
  | _ => false

/-- A place that is none: for accesses that are not translated. -/
def Place.none : Place := ⟨0, 0, false, 0, 0⟩

/-- A part of the instruction in hand. -/
def Env.part (e : Env) (s : State) (pi : Nat) (a : Act) (lanes : List LaneReq) (place : Place) (tgt : Target) (fill : Bool) : Part :=
  ⟨{ act := a, lanes := lanes, place := place, tgt := tgt, ret := .part e.iss.team e.iss.gix s.nextId pi
     core := match mapGet? e.iss.team s.teams with | some t => t.core | none => none
     ctx := e.cfg.ctx, acq := e.acq, rel := e.rel, rem := mRem e.x.m, scope := e.scope, num := s.nextId, fill := fill }, .todo⟩

/-- The checks of R192, R288: poison, alignment, range; a watchpoint where the space has one. -/
def Env.scratchChecks (e : Env) (a : LaneAcc) (size : Nat) (wpt : Bool) (mis rng : Nat) : Except Stop Unit := do
  e.check tcPoison a.addr a.addrPois
  if a.act.isWrite then e.check tcPoison a.addr a.dataPois
  e.check mis a.addr fun l => decide (a.addr l % a.w ≠ 0)
  e.check rng a.addr fun l => decide (a.addr l + a.w > size)
  if wpt then e.check tcWatch a.addr fun l => e.wpt 0 a.act.isRead a.act.isWrite (a.addr l) a.w

/-- LDS, STS and ATS from their checks to their issue (R192). -/
def scratchAccess (e : Env) (s : State) (a : LaneAcc) (dst : Dst) : Except Stop (State × Ctl) := do
  e.scratchChecks a e.cfg.scratch true tcMisScratch tcRangeScratch
  if e.act = 0#32 then .ok (s, .seq)
  else do
    let f := e.ordered (e.flight s 0 dst a.act.isRead a.act.isWrite)
    let p := e.part s 0 a.act (a.lanes e.act id) Place.none (.scratch e.iss.team) false
    let s1 ← issueFlight e s { f with parts := [p] }
    .ok (s1, .seq)

/-- LDS (R189, R192, R193). -/
def execLds (x : Args) (s : State) : Out :=
  run .lds x s fun e s1 => scratchAccess e s1 (e.loadAcc (mOpx x.m)) (e.dstV (regsOfWidth (mOpx x.m)))

/-- STS (R189, R192, R194). -/
def execSts (x : Args) (s : State) : Out := run .sts x s fun e s1 => scratchAccess e s1 (e.storeAcc (mOpx x.m)) .none

/-- ATS (R190, R192, R194). -/
def execAts (x : Args) (s : State) : Out :=
  run .ats x s fun e s1 => scratchAccess e s1 e.atomAcc (e.dstV (regsOfAtom x.m))

/-- Words whose 8 bytes were all written. -/
def wholeWords (ov : List Host.Cell) : List Nat :=
  (ov.filter fun c => decide (c.1 % 8 = 0)).filterMap fun c =>
    if (List.range 8).all fun i => (cellGet (c.1 + i) ov).isSome then some (c.1 / 8) else none

/-- An access performed on a team's scratchpad (R178, R179, R193, R194). -/
def Team.perform (t : Team) (a : Act) (lanes : List LaneReq) : Team × Perf :=
  let p := Machine.perform (fun x => (cellGet x t.scratch).getD 0#8) (fun x => t.scratchPois.contains (x / 8)) a lanes
  let clean := match a with
    | .store _ => wholeWords p.ov
    | _ => []
  ({ t with
      scratch := p.ov.foldl (fun m c => cellPutZ c.1 c.2 m) t.scratch
      scratchPois := t.scratchPois.filter fun w => !clean.contains w }, p)

/-- Has the scratchpad of a team's core served every access that has arrived? The Porter and the blend walker take their turn then (R178). -/
def State.scratchIdle (s : State) (tid : Nat) : Bool :=
  match mapGet? tid s.teams with
  | some t => match t.core with
    | some c => (s.core c).scrQ.isEmpty
    | none => true
  | none => true

/-- SCRATCHPAD_ACCESS_SERVED (R178): the oldest access of the core's scratchpad is performed, lanes ascending. -/
def execScratchpadAccessServed (core : Nat) (s : State) : Out :=
  match (s.core core).scrQ with
  | [] => .next s
  | op :: rest =>
    let s1 := s.updCore core fun c => { c with scrQ := rest }
    match mapGet? op.team s1.teams with
    | none => .next s1
    | some t =>
      let (t', p) := t.perform op.req.act op.req.lanes
      let s2 : State := { s1 with teams := mapSet op.team t' s1.teams }
      match op.req.tgt with
      | .window _ => .next (s2.replyTo core op.req p.out 0 p.fl none 0)
      | _ => .next (s2.answer_ op.req.ret p.out 0 p.fl none 0)

/-- The member and the offset of a cluster-window offset (R284). -/
def windowMember (t c : Nat) : Nat := c / 128 % t
def windowOffset (t c : Nat) : Nat := 128 * (c / (128 * t)) + c % 128

/-- The teams of an issuer's cluster, by TIX. -/
def Env.members (e : Env) (s : State) : List Nat :=
  match mapGet? e.iss.team s.teams with
  | none => [e.iss.team]
  | some t => match mapGet? t.cluster s.clusters with
    | some c => c.teams
    | none => [e.iss.team]

/-- The parts of an access through the windows: one for each member it reaches (R289). -/
def Env.windowParts (e : Env) (s : State) (a : LaneAcc) (mirror : Bool) : List Part :=
  let ms := e.members s
  let n := ms.length
  let one (j : Nat) : Option (Act × List LaneReq × Nat) :=
    let m := if mirror then e.act else e.lanesWith fun l => decide (windowMember n (a.addr l) = j)
    if m = 0#32 then none
    else some (a.act, a.lanes m (if mirror then id else windowOffset n), ms.getD j 0)
  ((List.range n).filterMap one).zipIdx.map fun (q, i) => e.part s i q.1 q.2.1 Place.none (.window q.2.2) false

/-- LDC, STC, ATC and STM (R288, R289). -/
def windowAccess (e : Env) (s : State) (a : LaneAcc) (mirror : Bool) (dst : Dst) : Except Stop (State × Ctl) := do
  let n := (e.members s).length
  e.scratchChecks a (if mirror then e.cfg.scratch else n * e.cfg.scratch) false tcMisScratch tcRangeScratch
  if e.act = 0#32 then .ok (s, .seq)
  else do
    let f := e.ordered (e.flight s 3 dst a.act.isRead a.act.isWrite)
    let s1 ← issueFlight e s { f with parts := e.windowParts s a mirror }
    .ok (s1, .seq)

/-- LDC (R286, R288). -/
def execLdc (x : Args) (s : State) : Out :=
  run .ldc x s fun e s1 => windowAccess e s1 (e.loadAcc (mOpx x.m)) false (e.dstV (regsOfWidth (mOpx x.m)))

/-- STC (R286, R288). -/
def execStc (x : Args) (s : State) : Out := run .stc x s fun e s1 => windowAccess e s1 (e.storeAcc (mOpx x.m)) false .none

/-- ATC (R286, R289). -/
def execAtc (x : Args) (s : State) : Out :=
  run .atc x s fun e s1 => windowAccess e s1 e.atomAcc false (e.dstV (regsOfAtom x.m))

/-- STM (R285, R286, R289): every member's scratchpad takes the store. -/
def execStm (x : Args) (s : State) : Out := run .stm x s fun e s1 => windowAccess e s1 (e.storeAcc (mOpx x.m)) true .none

/-- ACCESS_RETURN (R60): the oldest access of the path returns, if it has been performed. -/
def execAccessReturn (team gix path : Nat) (s : State) : Out := .next (s.accessReturn team gix path)

/-- SLEEP_EXPIRY (R126). -/
def execSleepExpiry (team gix entry : Nat) (s : State) : Out :=
  match s.group? team gix with
  | none => .next s
  | some (_, g) => match mapGet? entry g.frags with
    | none => .next s
    | some f => match f.wait with
      | .sleep till _ => .next (if s.clock ≥ till then endWait s team gix entry else s)
      | _ => .next s

/-- FRAGQ_QUANTUM_EXPIRY (R67): the port moves to the next ready fragment when the quantum is spent; never inside a clause (R69). -/
def execFragqQuantumExpiry (team gix : Nat) (s : State) : Out :=
  match s.group? team gix with
  | none => .next s
  | some (_, g) =>
    if g.issued ≥ g.quantum ∧ g.clause.isNone then .next (s.setGroup team gix (g.rotate s.clock)) else .next s

/-- STARVATION_TIMEOUT (R175): a candidate unselected for 4,096 clocks is selected ahead of every class. -/
def execStarvationTimeout (team gix : Nat) (s : State) : Out :=
  .next (s.updGroup team gix fun g => if g.unselected ≥ 4096 ∨ g.unselectedU ≥ 4096 then { g with starved := true } else g)

end Sys2Proof.Machine
end

