-- ==== Sys2Proof/Machine/Barrier.lean ====
section
/-! DEFINITION. Named barriers (R180, R181, R197 to R203) and cluster barriers (R292 to R295). -/

namespace Sys2Proof.Machine

open Sys2Proof

/-- The mask of one group or member. -/
def bitMask (i : Nat) : Mask := BitVec.ofNat 32 (2 ^ i)

/-- The word of a team's barrier, and of a cluster's. -/
def Team.bar (t : Team) (b : Nat) : BarWord := t.bars.getD b BarWord.zero
def Cluster.bar (c : Cluster) (b : Nat) : BarWord := c.bars.getD b BarWord.zero

/-- An arrival counted (R181): the phase completes when the count is reached. -/
def BarWord.arrive (w : BarWord) (i : Nat) : BarWord :=
  let a := w.arrived ||| bitMask i
  if popcount a.toNat 32 = w.expect then { w with phase := (w.phase + 1) % 65536, arrived := 0#32 } else { w with arrived := a }

/-- The status word of an arrival (R199): REFUSED and PHASE. -/
def arriveStatus (refused : Bool) (phase : Nat) : Nat := (if refused then 2 ^ 31 else 0) + phase

/-- The fragments of a group whose wait meets a test. -/
def Group.waiting (g : Group) (p : Wait → Bool) : List Nat := (g.frags.filter fun f => p f.2.wait).map (·.1)

/-- End the waits of a team's fragments that meet a test. -/
def releaseTeam (s : State) (tid : Nat) (p : Wait → Bool) : State :=
  match mapGet? tid s.teams with
  | none => s
  | some t => t.groups.foldl (fun s g => (g.2.waiting p).foldl (fun s e => endWait s tid g.1 e) s) s

/-- Fragments whose wait meets a test trap at their next issue, with the instruction they wait in (R181, R202). -/
def Frag.trapWait (code : Nat) (p : Wait → Bool) (f : Frag) : Frag :=
  if p f.wait then f.trapNext code else f
def Group.trapWaits (g : Group) (code : Nat) (p : Wait → Bool) : Group :=
  { g with frags := g.frags.map fun f => (f.1, f.2.trapWait code p) }
def trapTeam (s : State) (tid : Nat) (code : Nat) (p : Wait → Bool) : State :=
  s.updTeam tid fun t => { t with groups := t.groups.map fun g => (g.1, g.2.trapWaits code p) }

/-- Waits on a named barrier that a change of its word satisfies (R181). -/
def waitsOn (b : Nat) (w : Wait) : Bool :=
  match w with
  | .barrier b' _ _ => decide (b' = b)
  | _ => false
def waitOver (b phase : Nat) (w : Wait) : Bool :=
  match w with
  | .barrier b' t _ => decide (b' = b ∧ t ≠ phase)
  | _ => false
def clusterWaitOver (b phase : Nat) (w : Wait) : Bool :=
  match w with
  | .cluster b' t _ => decide (b' = b ∧ t ≠ phase)
  | _ => false

/-- Put a barrier word. -/
def setBar (s : State) (tid b : Nat) (w : BarWord) : State := s.updTeam tid fun t => { t with bars := listSet b w t.bars }

/-- The barrier operand: poisoned, out of range, or its number (R197, R293). -/
def barNumber (a : Elem) (n : Nat) : Except Stop Nat :=
  if a.pois then poisonTrap none 0
  else if a.nat ≥ n then progErr
  else .ok a.nat

/-- Whether an instruction other than BAR.INIT may act on a word: VALID, not BROKEN (R181). DESIGN CHOICE (log entry 62): of a word that is both BROKEN
and not VALID, the barrier-error trap is taken. -/
def barUsable (w : BarWord) : Except Stop Unit :=
  if w.broken then .error (.trap { code := tcBarrier })
  else if w.valid then .ok () else progErr

/-- The word that an issuer's team holds. -/
def Env.barWord (e : Env) (s : State) (b : Nat) : BarWord :=
  match mapGet? e.iss.team s.teams with
  | some t => t.bar b
  | none => BarWord.zero

/-- BAR.INIT (R198): VALID set, every waiter released. -/
def execBarInit (x : Args) (s : State) : Out :=
  run .barInit x s fun e s1 => do
    let b ← barNumber (e.g.srcU x.a) e.cfg.nbar
    let c := e.g.srcU x.b
    if c.pois then poisonTrap none 0
    else if 1 ≤ c.nat ∧ c.nat ≤ 32 then
      let w := e.barWord s1 b
      .ok (releaseTeam (setBar s1 e.iss.team b { w with valid := true, broken := false, expect := c.nat, arrived := 0#32 })
        e.iss.team (waitsOn b), .seq)
    else progErr

/-- BAR.INV (R202). -/
def execBarInv (x : Args) (s : State) : Out :=
  run .barInv x s fun e s1 => do
    let b ← barNumber (e.g.srcU x.a) e.cfg.nbar
    let w := e.barWord s1 b
    barUsable w
    .ok (trapTeam (setBar s1 e.iss.team b { w with valid := false }) e.iss.team tcProgram (waitsOn b), .seq)

/-- BAR.WT (R201). -/
def execBarWt (x : Args) (s : State) : Out :=
  run .barWt x s fun e s1 => do
    let b ← barNumber (e.g.srcU x.a) e.cfg.nbar
    let t := e.g.srcU x.b
    if t.pois then poisonTrap none 0
    else do
      let w := e.barWord s1 b
      barUsable w
      if w.phase ≠ t.nat % 65536 then .ok (s1, .seq)
      else .ok (s1.updGroup e.iss.team e.iss.gix fun g =>
        g.updFrag e.iss.entry fun f => { f with wait := .barrier b (t.nat % 65536) x.bytes }, .hold)

/-- BAR.TRY (R201). -/
def execBarTry (x : Args) (s : State) : Out :=
  run .barTry x s fun e s1 => do
    let b ← barNumber (e.g.srcU x.a) e.cfg.nbar
    let t := e.g.srcU x.b
    if t.pois then poisonTrap none 0
    else do
      let w := e.barWord s1 b
      barUsable w
      .ok (s1.updGroup e.iss.team e.iss.gix fun g =>
        g.setQ (fldIdx x.d) (decide (w.phase ≠ t.nat % 65536)) e.gp, .seq)

/-- The mark of an arrival among the accesses of the group, so that the arrival knows what was issued before it; at cluster scope or wider a
release flushes the core's update-only lines (R335). -/
def Env.marker (e : Env) (s : State) : Flight :=
  { e.flight s 8 .none false false with scope := e.scope, gp := e.gp, drain := if e.rel && decide (e.scope ≥ 2) then 2 else 0 }

/-- An arrival or a fence takes its place among the accesses, and its fragment waits. -/
def Env.markOrder (e : Env) (s : State) (f : Flight) (w : Wait) : State :=
  ({ s with nextId := s.nextId + 1 }.updGroup e.iss.team e.iss.gix fun g =>
    { (g.updFrag e.iss.entry fun fr => { fr with wait := w }) with flights := g.flights ++ [f] }).pump e.iss.team e.iss.gix

/-- The register that a status goes to. -/
def uDst (d : Fld) : Nat := fldIdx d

/-- BAR.ARV (R199, R200): the fragment waits until its arrival is applied. -/
def execBarArv (x : Args) (s : State) : Out :=
  run .barArv x s fun e s1 => do
    let b ← barNumber (e.g.srcU x.a) e.cfg.nbar
    barUsable (e.barWord s1 b)
    .ok (e.markOrder s1 (e.marker s1) (.arrive b (uDst x.d) e.order e.scope x.bytes e.gp), .hold)

/-- May an arrival be applied: its scratchpad accesses are performed (R200), its window accesses too (R294), and with release
its global accesses are visible at the scope (R335)? -/
def arrivalReady (s : State) (core : Nat) (g : Group) (entry order scope : Nat) (window : Bool) : Option Flight :=
  match g.flights.find? fun f => decide (f.path = 8 ∧ f.entry = entry ∧ f.lines = 0) with
  | none => none
  | some f =>
    let earlier := g.flights.takeWhile fun x => decide (x.id ≠ f.id)
    let near := earlier.any fun x => (decide (x.path = 0) || (window && decide (x.path = 3))) && x.open_
    let far := bit order 1 && (releaseHeld earlier 8 scope || (decide (scope ≥ 2) && !s.acked core f.flush))
    if near || far then none else some f

/-- The arrival has its answer: the status is written and the fragment goes on. -/
def arrivalDone (s : State) (tid gix entry d : Nat) (gp : Bool) (fid st : Nat) : State :=
  let s1 := s.updGroup tid gix fun g => (g.setS d (statusElem s gp st)).updFlight fid fun f => { f with lines := 1 }
  (endWait s1 tid gix entry).pump tid gix

/-- BARRIER_ARRIVAL (R181, R200): the arrival is counted, or refused, or the word cannot be used and the fragment traps. -/
def execBarrierArrival (team gix entry : Nat) (s : State) : Out :=
  match s.group? team gix with
  | none => .next s
  | some (t, g) => match mapGet? entry g.frags with
    | none => .next s
    | some fr => match fr.wait with
      | .arrive b d order scope _ gp =>
        if t.core.isNone then .next s
        else match arrivalReady s (t.core.getD 0) g entry order scope false with
        | none => .next s
        | some f =>
          let w := t.bar b
          let trapped (code : Nat) : State := s.updGroup team gix fun g =>
            (g.updFrag entry (Frag.trapNext code)).updFlight f.id fun f => { f with lines := 1 }
          if w.broken then .next (trapped tcBarrier)
          else if !w.valid then .next (trapped tcProgram)
          else if inMask w.arrived gix then .next (arrivalDone s team gix entry d gp f.id (arriveStatus true w.phase))
          else
            let w' := w.arrive gix
            let s1 := arrivalDone (setBar s team b w') team gix entry d gp f.id (arriveStatus false w.phase)
            .next (releaseTeam s1 team (waitOver b w'.phase))
      | _ => .next s

/-- The cluster of an issuer, by its number, and its barrier word. -/
def Env.cluster? (e : Env) (s : State) : Option (Nat × Cluster) :=
  match mapGet? e.iss.team s.teams with
  | none => none
  | some t => (mapGet? t.cluster s.clusters).map fun c => (t.cluster, c)

/-- CBAR.ARV (R293, R294). -/
def execCbarArv (x : Args) (s : State) : Out :=
  run .cbarArv x s fun e s1 => do
    let n := match e.cluster? s1 with | some (_, c) => c.bars.length | none => 0
    let b ← barNumber (e.g.srcU x.a) n
    let w := match e.cluster? s1 with | some (_, c) => c.bar b | none => BarWord.zero
    if w.broken then .error (.trap { code := tcBarrier })
    else .ok (e.markOrder s1 (e.marker s1) (.carrive b (uDst x.d) e.order e.scope x.bytes e.gp), .hold)

/-- CBAR.WT (R295). -/
def execCbarWt (x : Args) (s : State) : Out :=
  run .cbarWt x s fun e s1 => do
    let n := match e.cluster? s1 with | some (_, c) => c.bars.length | none => 0
    let b ← barNumber (e.g.srcU x.a) n
    let t := e.g.srcU x.b
    let w := match e.cluster? s1 with | some (_, c) => c.bar b | none => BarWord.zero
    if t.pois then poisonTrap none 0
    else if w.broken then .error (.trap { code := tcBarrier })
    else if w.phase ≠ t.nat % 65536 then .ok (s1, .seq)
    else .ok (s1.updGroup e.iss.team e.iss.gix fun g =>
      g.updFrag e.iss.entry fun f => { f with wait := .cluster b (t.nat % 65536) x.bytes }, .hold)

/-- CLUSTER_BARRIER_ARRIVAL (R293, R294): the arrival of the group's member. -/
def execClusterBarrierArrival (team gix entry : Nat) (s : State) : Out :=
  match s.group? team gix with
  | none => .next s
  | some (t, g) => match mapGet? entry g.frags, mapGet? t.cluster s.clusters with
    | some fr, some c => match fr.wait with
      | .carrive b d order scope _ gp =>
        if t.core.isNone then .next s
        else match arrivalReady s (t.core.getD 0) g entry order scope true with
        | none => .next s
        | some f =>
          let w := c.bar b
          if w.broken then
            .next (s.updGroup team gix fun g =>
              (g.updFrag entry (Frag.trapNext tcBarrier)).updFlight f.id fun f => { f with lines := 1 })
          else if inMask w.arrived t.tix then .next (arrivalDone s team gix entry d gp f.id (arriveStatus true w.phase))
          else
            let w' := w.arrive t.tix
            let s0 : State := { s with clusters := mapSet t.cluster { c with bars := listSet b w' c.bars } s.clusters }
            let s1 := arrivalDone s0 team gix entry d gp f.id (arriveStatus false w.phase)
            .next (c.teams.foldl (fun s tm => releaseTeam s tm (clusterWaitOver b w'.phase)) s1)
      | _ => .next s
    | _, _ => .next s

end Sys2Proof.Machine
end

