-- ==== Sys2Proof/Machine/Debug.lean ====
section
/-! DEFINITION. The debug unit and its mailboxes (R211 to R214). -/

namespace Sys2Proof.Machine

open Sys2Proof

/-- The core of an issuer. -/
def Env.core (e : Env) (s : State) : Nat :=
  match mapGet? e.iss.team s.teams with | some t => t.core.getD 0 | none => 0

/-- Does the issuer's tenant own the debug unit of its core (R211, R213)? -/
def Env.ownsDebug (e : Env) (s : State) : Bool :=
  let r := s.reg (coreReg (e.core s) 0)
  bit r 63 && decide (bits r 5 0 = e.cfg.ctx)

/-- DBGM.SEND (R212): a full mailbox holds the instruction at issue (R184). -/
def execDbgmSend (x : Args) (s : State) : Out :=
  run .dbgmSend x s fun e s1 =>
    let a := e.g.srcU x.a
    -- DESIGN CHOICE (log entry 63): the owner is checked before the poison of the data
    if !e.ownsDebug s1 then progErr
    else if a.pois then poisonTrap none 0
    else if (s1.core (e.core s1)).dbgOut.length ≥ 16 then .error .stall
    else .ok (s1.updCore (e.core s1) fun c => { c with dbgOut := c.dbgOut ++ [a.val] }, .seq)

/-- An unpoisoned value to the uniform register D, in no latch (R212). -/
def putStatus (e : Env) (s : State) (x : Nat) : State :=
  s.updGroup e.iss.team e.iss.gix fun g => g.setS (uDst e.x.d) (statusElem s e.gp x)

/-- DBGM.RECV (R212): 0 when the mailbox is empty. -/
def execDbgmRecv (x : Args) (s : State) : Out :=
  run .dbgmRecv x s fun e s1 =>
    if !e.ownsDebug s1 then progErr
    else match (s1.core (e.core s1)).dbgIn with
      | [] => .ok (putStatus e s1 0, .seq)
      | w :: ws => .ok (putStatus e (s1.updCore (e.core s1) fun c => { c with dbgIn := ws }) w.toNat, .seq)

/-- DBGM.STAT (R212). -/
def execDbgmStat (x : Args) (s : State) : Out :=
  run .dbgmStat x s fun e s1 =>
    let c := s1.core (e.core s1)
    .ok (putStatus e s1 (if e.ownsDebug s1 then 2 ^ 16 + c.dbgIn.length * 2 ^ 8 + c.dbgOut.length else 0), .seq)

/-- The entry that a split-table mode reads (R212). -/
def Env.entryOperand (e : Env) : Except Stop Nat :=
  let a := e.g.srcU e.x.a
  if a.pois then poisonTrap none 0 else if a.nat ≥ 32 then progErr else .ok a.nat

/-- A split-table mode that reads a fragment part. -/
def readFragPart (o : Op) (x : Args) (s : State) (f : Frag → Nat) : Out :=
  run o x s fun e s1 => do
    let n ← e.entryOperand
    .ok (putStatus e s1 (match mapGet? n e.g.frags with | some fr => f fr | none => 0), .seq)

/-- DBGM.FOWN (R212). -/
def execDbgmFown (x : Args) (s : State) : Out := readFragPart .dbgmFown x s fun f => f.own.toNat
/-- DBGM.FMASK (R212). -/
def execDbgmFmask (x : Args) (s : State) : Out := readFragPart .dbgmFmask x s fun f => f.emask.toNat

/-- DBGM.FPC (R212). -/
def execDbgmFpc (x : Args) (s : State) : Out :=
  run .dbgmFpc x s fun e s1 => do
    let n ← e.entryOperand
    let p := match mapGet? n e.g.frags with | some fr => fr.pc.toNat | none => 0
    .ok (s1.updGroup e.iss.team e.iss.gix fun g =>
      g.setSs (uDst x.d) [statusElem s1 e.gp (p % 2 ^ 32), statusElem s1 e.gp (p / 2 ^ 32)], .seq)

/-- The state of a fragment as FINFO reports it: parked at a join, parked by a fault, waiting, halted, ready. -/
def fragState (parkedFault : Bool) (f : Frag) : Nat :=
  if f.parked then 1 else if parkedFault then 2 else if f.wait ≠ .none then 4 else if f.halted then 3 else 0

/-- DBGM.FINFO (R212). -/
def execDbgmFinfo (x : Args) (s : State) : Out :=
  run .dbgmFinfo x s fun e s1 => do
    let n ← e.entryOperand
    let v := match mapGet? n e.g.frags with
      | some f => 2 ^ 16 + (match f.jtop with | some j => j * 2 ^ 8 | none => 2 ^ 15)
          + fragState (s1.parked e.iss.team e.iss.gix) f
      | none => 0
    .ok (putStatus e s1 v, .seq)

/-- DBGM.JMASK (R212). -/
def execDbgmJmask (x : Args) (s : State) : Out :=
  run .dbgmJmask x s fun e s1 => do
    let n ← e.entryOperand
    .ok (putStatus e s1 (match mapGet? n e.g.joins with | some j => j.jmask.toNat | none => 0), .seq)

/-- Both mailboxes empty (R213). -/
def Core.emptyMail (c : Core) : Core := { c with dbgOut := [], dbgIn := [] }

/-- DBGOWN_WRITE (R213, R214): the ownership, and both mailboxes empty. -/
def execDbgownWrite (core : Nat) (value : Dword) (s : State) : Out :=
  .next ((s.updCore core Core.emptyMail).setReg (coreReg core 0) (value.toNat &&& 0x800000000000003F))

/-- DBGCTL_CLR (R213). -/
def execDbgctlClr (core : Nat) (s : State) : Out := .next (s.updCore core Core.emptyMail)

/-- A group that has live lanes is to take the debug-halt trap at its next issue; an MTILE under way stops (R241). -/
def Group.haltNext (g : Group) : Group :=
  { g with haltPending := !g.frags.isEmpty, frags := g.frags.map fun f => (f.1, { f.2 with wait := f.2.wait.halt }) }

/-- Every group of a team takes the debug-halt trap. -/
def Team.halt (t : Team) : Team := { t with groups := t.groups.map fun g => (g.1, g.2.haltNext) }

/-- DBGCTL_HALT (R213): every group of the owning tenant on the core takes the debug-halt trap at its next issue. -/
def execDbgctlHalt (core : Nat) (s : State) : Out :=
  let r := s.reg (coreReg core 0)
  if bit r 63 then
    .next { s with teams := s.teams.map fun t =>
        if t.2.core = some core ∧ t.2.cfg.ctx = bits r 5 0 then (t.1, t.2.halt) else t }
  else .next s

/-- DBGOUT_READ (R213): the oldest outbound word is removed and returned, with VALID in bit 32. -/
def execDbgoutRead (core : Nat) (s : State) : Out :=
  match (s.core core).dbgOut with
  | [] => .next { s with answer := toBytes 0 8 }
  | w :: ws => .next { s.updCore core fun c => { c with dbgOut := ws } with answer := toBytes (2 ^ 32 + w.toNat) 8 }

/-- DBGIN_WRITE (R213): the word is appended, or INOVF set; DATA reads as the last value written (R6). -/
def execDbginWrite (core : Nat) (value : Dword) (s : State) : Out :=
  .next (s.updCore core fun c =>
    let w := value.setWidth 32
    if c.dbgIn.length ≥ 16 then { c with inovf := true, dbgData := w } else { c with dbgIn := c.dbgIn ++ [w], dbgData := w })

end Sys2Proof.Machine
end

