-- ==== Sys2Proof/Machine/Home.lean ====
section
/-! DEFINITION. The steps of the home slices and of the network (R302 to R326, R331, R344, R462, R466). -/

namespace Sys2Proof.Machine

open Sys2Proof

/-- The packets that have arrived at a stop, oldest first. -/
def State.inbox (s : State) (stop : Nat) : List (Nat × Packet) :=
  let here := s.packets.filter fun q => decide (q.2.dst = stop) && q.2.pkg.isNone && (match q.2.loc with | .arrived _ => true | _ => false)
  let stamp (q : Nat × Packet) : Nat := match q.2.loc with | .arrived n => n | _ => 0
  sortBy (fun a b => decide (stamp a ≤ stamp b)) here

/-- KCNT of a key ID (R326). -/
def Slice.kcnt (sl : Slice) (key : Nat) : Nat :=
  let ts := sl.tags.filter fun t => decide (t.2.key = key)
  let shared := ts.filter fun t => match t.2.entry with
    | some e => match mapGet? e sl.entries with | some x => decide (x.rc ≥ 2) | none => false
    | none => false
  let zeros := ts.filter fun t => t.2.entry.isNone
  let es := sl.entries.filter fun e => decide (e.2.key = key)
  shared.length * 2 ^ 48 + zeros.length * 2 ^ 32 + es.length * 2 ^ 16 + ts.length

/-- Does a request write its line? -/
def Act.writesLine : Act → Bool
  | .store _ | .atom _ _ | .red _ _ => true
  | .cctl 2 => true
  | _ => false

/-- Does the request need the update-only copies (R323)? Pinning, unpinning and cleaning do not read the line. -/
def Act.needsUo : Act → Bool
  | .cctl 2 => true
  | .cctl _ | .prefetch => false
  | _ => true

/-- A pin (R319, R320): refused at the limits. -/
def Slice.pin (sl : Slice) (ln : Nat) : Slice × Bool :=
  match mapGet? ln sl.tags with
  | none => (sl, false)
  | some t =>
    let pins := sl.tags.filter fun x => x.2.n
    if t.n then (sl, true)
    else if pins.length ≥ 16384 ∨ (pins.filter fun x => decide (Config.l2Set x.1 % 4096 = Config.l2Set ln % 4096)).length ≥ 8 then
      (sl, false)
    else ({ sl with tags := mapSet ln { t with n := true } sl.tags }, true)

/-- A clean (R370): dirty content goes to memory and D clears. -/
def State.cleanLine (s : State) (i ln : Nat) : State :=
  match mapGet? ln (s.slice i).tags with
  | none => s
  | some t =>
    if t.d then (s.writeBack ln t.key ((s.slice i).content t)).updSlice i fun sl => { sl with tags := mapSet ln { t with d := false } sl.tags }
    else s

/-- CCTL on a present line, as one step at its home (R370): was the line acted on? -/
def State.cctlLine (s : State) (i ln op : Nat) : State × Bool :=
  match op with
  | 0 => let (sl, ok) := (s.slice i).pin ln; (s.setSlice i sl, ok)
  | 1 => (s.updSlice i fun sl => { sl with tags := mapUpd ln (fun t => { t with n := false }) sl.tags }, true)
  | 2 =>
    let sl := s.slice i
    match mapGet? ln sl.tags with
    | none => (s, true)
    | some t => (s.setSlice i (Slice.release { sl with tags := mapDel ln sl.tags } t.entry), true)
  | _ => (s.cleanLine i ln, true)

/-- A request of a line is performed (R310, R313, R364, R365, R370): as one step, and answered. -/
def State.performHome (s : State) (i : Nat) (r : Req) : State :=
  let ln := lineNo r.place.pa
  let sl := s.slice i
  match mapGet? ln sl.tags with
  | none => s
  | some t =>
    let (c, p) := (sl.content t).perform r.act r.lanes
    match r.act with
    | .cctl op =>
      let (s1, ok) := s.cctlLine i ln op
      s1.replyTo i r [] (if ok then 0 else 2) 0 none (if ok then 1 else 0)
    | .prefetch =>
      -- the core's own stores and partials that are on their way would be missing from the copy (R340)
      let late (core : Nat) : Bool := s.packets.any fun q => decide (q.2.src = core ∧ q.2.body.line = some ln) &&
        (match q.2.body with | .access o => o.act.writesLine | _ => true)
      match r.core with
      | some core =>
        if r.fill && !late core then
          (s.updDir i ln fun d => { d with v := if d.v.contains core then d.v else d.v ++ [core] }).l1Fill core r.place c
        else s
      | none => s
    | a =>
      let s1 := if a.writesLine then s.writeLine i ln fun _ => c else s
      let s2 := match a with
        | .store _ => p.ov.foldl (fun (s : State) (x : Host.Cell) => s.countWrite x.1 1) s1
        | _ => s1
      let s3 := s2.updDir i ln fun d =>
        let d1 := match a, r.core with
          | .load _ _, some core => if r.fill && !d.v.contains core then { d with v := d.v ++ [core] } else d
          | _, _ => d
        let d2 := match r.core with
          | some core => if r.rel && decide (r.scope ≤ 2) then { d1 with lastRel := some (core, r.num) } else d1
          | none => d1
        { d2 with drained := false }
      s3.replyTo i r p.out 0 p.fl (match a with | .load _ _ => some c | _ => none) 0

/-- What the home does next for the request at the head of a line's queue (R310, R318, R322, R323, R344, R450): none
while it must wait. A flush of the line that is on its way is waited for, but for one that stands behind an older request of its own core. -/
def State.homeStep (s : State) (i id : Nat) (p : Packet) (r : Req) : Option State :=
  let gone : State := { s with packets := mapDel id s.packets }
  let ln := lineNo r.place.pa
  let key := r.place.key
  let sl := s.slice i
  let d := sl.dir ln
  match r.act with
  | .query k => some (gone.replyTo i r [(0, [elemOf ((sl.kcnt k) % 2 ^ 32), elemOf ((sl.kcnt k) / 2 ^ 32)])] 0 0 none 0)
  | _ =>
    if s.behind id p then none
    else if !s.keyOn key then some (gone.replyTo i r [] 2 0 none 0)
    else if !d.waiting.isEmpty ∨ d.drainOut then none
    else
      let owned := match mapGet? ln sl.tags with | some t => t.w.isSome | none => false
      if owned then none
      else
        let present := match mapGet? ln sl.tags with | some t => decide (t.key = key) | none => false
        let absentOk := match r.act with | .cctl 1 | .cctl 2 | .cctl 3 => decide (d.uo = []) | _ => false
        if !present && absentOk then some (gone.replyTo i r [] 0 0 none 1)
        else if !present then
          (if sl.fills.contains (ln, key) then none
           else
             let s1 := match mapGet? ln sl.tags with | some _ => s.evict i ln | none => s
             some (s1.updSlice i fun sl => { sl with fills := sl.fills ++ [(ln, key)] }))
        else
          let flight := s.packets.any fun q => match q.2.body with
            | .flushed pl _ _ _ => decide (lineNo pl.pa = ln) && !s.behind q.1 q.2
            | _ => false
          let ask := (if r.act.needsUo then d.uo else []) ++
            (if r.act.writesLine || (r.act.needsUo && !d.uo.isEmpty) then
              d.v.filter fun c => (match r.act with | .store _ => decide (some c ≠ r.core) | _ => true) && !d.uo.contains c else [])
          if !ask.isEmpty then
            let s1 := ask.foldl (fun s c => s.reply .recall i c key (.recall ln (d.uo.contains c))) s
            some (s1.updDir i ln fun d => { d with waiting := ask })
          else if r.act.needsUo && flight then none
          else
            let promote := match d.lastRel with
              | some _ => r.acq && r.rem && decide (r.scope ≥ 3) && !d.drained
              | none => false
            match d.lastRel with
            | some (c, n) =>
              if promote then some ((s.reply .recall i c key (.drain ln n)).updDir i ln fun d => { d with drainOut := true })
              else some (gone.performHome i r)
            | none => some (gone.performHome i r)

/-- A request of host memory is performed at the port (R354): at the host, with the host's refusals (R348); of the operations,
FetchAdd, Swap and CAS (R365). -/
def State.hostStep (s : State) (i id : Nat) (p : Packet) (r : Req) : Option State :=
  if s.behind id p then none
  else
    let gone : State := { s with packets := mapDel id s.packets }
    let okOp := match r.act with
      | .atom op _ => decide (op = 0 ∨ op = 9 ∨ op = 10)
      | _ => true
    if !okOp || !s.hostOk r.place.pa then some (gone.replyTo i r [] 2 0 none 0)
    else
      let q := perform s.hostByte (fun _ => false) r.act r.lanes
      some (State.replyTo { gone with hostMem := q.ov.foldl (fun m (c : Host.Cell) => cellPut c.1 c.2 m) gone.hostMem } i r q.out 0 q.fl none 0)

/-- A request that came for another package's windows (R470, R471) is performed at this package's home. -/
def State.exported (s : State) (r : Req) (src : Nat) : Option Req :=
  let need := match r.act with | .load _ _ => 1 | .store _ => 2 | _ => 7
  let n := match r.act with | .load w _ => w | .store w => w | .atom _ b => if b then 8 else 4 | _ => 128
  match s.window r.place.pa n need src with
  | none => none
  | some q =>
    let shift (a : Nat) : Nat := a - r.place.pa / 128 * 128 + q.pa / 128 * 128
    some { r with place := { q with pa := q.pa / 128 * 128 }, tgt := .home, lanes := r.lanes.map fun l => { l with addr := shift l.addr } }

/-- The first of the arrived requests for which the home can do something. The requests of a line are taken in arrival order; one that an earlier
request of its own source has not yet caught up with holds up no other (R303, R310). `busy` are the lines of the requests passed over. -/
def State.homePick (s : State) (i : Nat) : List Nat → List (Nat × Packet) → Option State
  | _, [] => none
  | busy, (id, p) :: ps =>
    let turn := match p.body.line with | some l => !busy.contains l | none => true
    let this := match p.body with
      | .access r => match r.tgt with
        | .home => if turn then s.homeStep i id p r else none
        | .host _ => if turn then s.hostStep i id p r else none
        | _ => none
      | _ => none
    match this with
    | some s1 => some s1
    | none =>
      let held := match p.body with | .access _ => !s.behind id p | _ => false
      s.homePick i (match p.body.line with | some l => if held then l :: busy else busy | none => busy) ps

/-- HOME_REQUEST (R310): the home slice of the stop, or the host port there, takes one request a step further. -/
def execHomeRequest (slice : Nat) (s : State) : Out := .next ((s.homePick slice [] (s.inbox slice)).getD s)

/-- L2_FILL (R313): the memory content asked for returns and is admitted. -/
def execL2Fill (slice line : Nat) (s : State) : Out :=
  match (s.slice slice).fills.find? fun f => decide (f.1 = line) with
  | none => .next s
  | some f =>
    let s1 := s.updSlice slice fun sl => { sl with fills := removeFirst (fun x => decide (x = f)) sl.fills }
    .next (s1.fill slice line f.2)

/-- A failed partial is reported once to each group whose REDs it holds (R347, R348). -/
def State.failPartial (s : State) (p : Partial) : State :=
  p.who.foldl (fun s w => s.updGroup w.1 w.2 fun g => g.recordFailure 2) s

/-- The partial at the head of the line's queue (R323): combined, or a step toward it; V copies are invalidated first. -/
def State.partialStep (s : State) (i id : Nat) (p : Packet) (pl : Place) (q : Partial) (core fl : Nat) : Option State :=
  let ln := lineNo pl.pa
  let sl := s.slice i
  let d := sl.dir ln
  let gone : State := { s with packets := mapDel id s.packets }
  let ack (s : State) : State := s.reply .response i core pl.key (.reply (.flush core fl) [] 0 0 none 0)
  let owned := match mapGet? ln sl.tags with | some t => t.w.isSome | none => false
  if s.behind id p || owned then none
  else if !s.keyOn pl.key then some (ack (gone.failPartial q))
  else
    let present := match mapGet? ln sl.tags with | some t => decide (t.key = pl.key) | none => false
    if !present then
      (if sl.fills.contains (ln, pl.key) then none
       else
         let s1 := match mapGet? ln sl.tags with | some _ => s.evict i ln | none => s
         some (s1.updSlice i fun sl => { sl with fills := sl.fills ++ [(ln, pl.key)] }))
    else if !d.v.isEmpty then
      (if d.waiting.isEmpty then
        some ((d.v.foldl (fun s c => s.reply .recall i c pl.key (.recall ln false)) s).updDir i ln fun d => { d with waiting := d.v })
       else none)
    else
      let s1 := (gone.writeLine i ln fun c => c.combine q).updDir i ln fun d =>
        d.combined core (!d.waiting.contains core && (match mapGet? ln (s.core core).l1 with | some ⟨_, .uo _⟩ => false | _ => true)) q
      some (ack s1)

/-- The first partial that can go a step further. -/
def State.partialPick (s : State) (i : Nat) : List (Nat × Packet) → Option State
  | [] => none
  | (id, p) :: ps =>
    let this := match p.body with
      | .flushed pl q c fl => s.partialStep i id p pl q c fl
      | _ => none
    match this with
    | some s1 => some s1
    | none => s.partialPick i ps

/-- RED_PARTIAL_COMBINE (R323). -/
def execRedPartialCombine (slice : Nat) (s : State) : Out := .next ((s.partialPick slice (s.inbox slice)).getD s)

/-- Is everything a core issued before a release done, its flushes acknowledged (R344)? What has not been sent, or waits at the line itself, came
after the release. -/
def State.drainReady (s : State) (c : Nat) (d : Drain) : Bool :=
  s.acked c d.flush && !(s.teams.any fun t => decide (t.2.core = some c) && t.2.groups.any fun g =>
    g.2.flights.any fun f => f.plain && decide (f.id < d.num) && f.parts.any fun p =>
      decide (p.st = .sent) && decide (p.req.tgt ≠ .home ∨ lineNo p.req.place.pa ≠ d.line))

/-- RECALL (R322, R344): a recall or invalidation reaches the core, which drops V or flushes UO and acknowledges; a drain is
answered when everything before the release is done. -/
def execRecall (core : Nat) (s : State) : Out :=
  let box := s.inbox core
  match box.find? fun q => match q.2.body with | .recall _ _ => true | .drain _ _ => true | _ => false with
  | some (id, p) =>
    let gone : State := { s with packets := mapDel id s.packets }
    match p.body with
    | .recall ln _ =>
      let s1 := (gone.updCore core (Core.dropV ln)).flushLine core ln
      .next ((s1.noFill core ln).reply .recall core p.src p.key (.recallAck ln core))
    | .drain ln n =>
      let s1 := gone.flushCore core
      .next (s1.updCore core fun c => { c with drains := c.drains ++ [⟨p.src, ln, p.key, n, some (c.flushes.map (·.1))⟩] })
    | _ => .next s
  | none =>
    match (s.core core).drains.find? fun d => s.drainReady core d with
    | some d =>
      .next ((s.updCore core fun c => { c with drains := removeFirst (fun x => decide (x = d)) c.drains }).reply .recall core d.slice d.key (.drainAck d.line))
    | none => .next s

/-- PACKET_ROUTE (R302): the router gives a packet to an output that reduces its distance, or, with all of those off, to one
of its fallback table. -/
def execPacketRoute (packet dir : Nat) (s : State) : Out :=
  match mapGet? packet s.packets with
  | none => .next s
  | some p =>
    let dest := neighbour p.here dir
    -- a packet that has reached its stop enters the endpoint, which needs no buffer of the router
    let room := if dest = p.dst then some 0 else s.freeChannel p.here dir
    match room with
    | none => .next s
    | some v =>
      if p.loc = .net ∧ (s.outputs p).contains dir = true ∧ s.heldBack packet p = false then
        let r := s.router p.here
        let s1 := if r.armed = some packet then s.setRouter p.here { r with armed := none } else s
        let q : Packet := { p with here := dest, since := s.clock, via := some (p.here, dir), vc := v, fired := false,
                                   detours := if nearer p.here p.dst dir then p.detours else p.detours + 1 }
        let s2 : State := { s1 with packets := mapSet packet q s1.packets }
        .next (if dest = p.dst then s2.deliver packet else s2)
      else .next s

/-- The time-out of a stop (R326). -/
def State.netTo (s : State) (stop : Nat) : Nat := bits (s.reg (stopReg stop 0x08)) 15 0

/-- ROUTER_TIMEOUT (R304, R306): a packet blocked for TO clocks in a buffer of its router fires the detector; an IDLE router is ARMED. One that its
source holds back (R303) is in no router. -/
def execRouterTimeout (packet : Nat) (s : State) : Out :=
  match mapGet? packet s.packets with
  | none => .next s
  | some p =>
    let r := s.router p.here
    if p.loc = .net ∧ s.clock ≥ p.since + s.netTo p.here ∧ s.heldBack packet p = false ∧ (p.fired = false ∨ r.armed = none) then
      .next (State.setRouter { s with packets := mapSet packet { p with fired := true } s.packets } p.here
        { r with armed := if r.armed.isNone then some packet else r.armed, fire := if p.fired then r.fire else addW r.fire 1 })
    else .next s

/-- LANTERN_ARRIVAL (R305, R306): the Lantern goes from its stop to the next; an ARMED router drains its packet onto the recovery lane. It leaves
no stop whose recovery buffer is full, and comes by a stop that has drained only when it has gone round. -/
def execLanternArrival (stop : Nat) (s : State) : Out :=
  let l := s.lantern
  if l.works = false ∨ l.carry.isSome ∨ l.buf.isSome ∨ (l.at_ + 1) % 256 ≠ stop then .next s
  else
    let r := s.router stop
    let moved : State := { s with lantern := { l with at_ := stop } }
    match r.armed with
    | none => .next moved
    | some id => match mapGet? id s.packets with
      | none => .next (moved.setRouter stop { r with armed := none })
      | some p =>
        let s1 := moved.setRouter stop { r with armed := none, capt := addW r.capt 1 }
        .next { s1 with
          lantern := { l with at_ := stop, carry := some id }
          packets := mapSet id { p with loc := .lane } s1.packets }

/-- RECOVERY_PACKET_ARRIVAL (R305, R306): the drained packet comes to its destination's recovery buffer, and the Lantern with it; then the endpoint
handles it, ahead of what the network has brought, and the buffer is empty. -/
def execRecoveryPacketArrival (s : State) : Out :=
  match s.lantern.carry, s.lantern.buf with
  | some id, _ => match mapGet? id s.packets with
    | none => .next { s with lantern := { s.lantern with carry := none } }
    | some p =>
      .next { s with
        lantern := { s.lantern with carry := none, buf := some id, at_ := p.dst }
        packets := mapSet id { p with here := p.dst } s.packets }
  | none, some id =>
    let s1 := ({ s with lantern := { s.lantern with buf := none } }.deliver id)
    .next { s1 with packets := mapUpd id (fun q => match q.loc with | .arrived _ => { q with loc := .arrived 0 } | _ => q) s1.packets }
  | none, none => .next s

/-- A packet is lost on a link that dies (R331), one between ports of the fabric apart, which is sent again (R474, R478): reads return poison, writes enter the failure record, counters fall
all the same; the loss of a partial is reported to its groups. -/
def State.losePacket (s : State) (id : Nat) : State :=
  match mapGet? id s.packets with
  | none => s
  | some p =>
    let gone : State := { s with packets := mapDel id s.packets }
    if p.between then gone else
    let s1 := postError gone { kind := 0x0A, sev := 2, unit := p.here, ctx := 0xFF, addr := 0, detail := 0 }
    match p.body with
    | .access r => (s1.answer_ r.ret [] 1 0 none 0).admitWindows p.dst 64
    | .reply ret _ _ _ _ _ =>
      -- the acknowledgement of a partial: its groups are told that it is lost
      let who := match ret with | .flush c id => mapGetD id [] (s1.core c).flushes | _ => []
      (who.foldl (fun s w => s.updGroup w.1 w.2 fun g => g.recordFailure 1) s1).answer_ ret [] 1 0 none 0
    | .flushed _ q c fl =>
      (q.who.foldl (fun s w => s.updGroup w.1 w.2 fun g => g.recordFailure 1) s1).answer_ (.flush c fl) [] 1 0 none 0
    | .recall ln _ => s1.recallAcked p.src ln p.dst
    | .recallAck ln c => s1.recallAcked p.dst ln c
    | .drain ln _ => s1.updDir p.src ln fun d => { d with drainOut := false, drained := true }
    | .drainAck ln => s1.updDir p.dst ln fun d => { d with drainOut := false, drained := true }
    | .leg _ _ | .came _ _ _ _ => s1

/-- One step narrower (R331): full, half, quarter, off. -/
def narrow (w : Nat) : Nat := min 3 (w + 1)

/-- LINK_FAILURE (R331): the link turns off in both directions, and the packet on it is lost: the one that took the link
in this clock. -/
def execLinkFailure (stop dir : Nat) (s : State) : Out :=
  let back := neighbour stop dir
  let rdir := match dir with | 0 => 1 | 1 => 0 | 2 => 3 | _ => 2
  let off (r : Router) (d : Nat) : Router := { r with lnkw := listSet d 3 r.lnkw }
  let s1 := s.setRouter stop (off (s.router stop) dir)
  let s2 := s1.setRouter back (off (s1.router back) rdir)
  let lost := s2.packets.filter fun p => decide (p.2.loc = .net ∧ p.2.since = s.clock ∧ (p.2.via = some (stop, dir) ∨ p.2.via = some (back, rdir)))
  .next (lost.foldl (fun s p => s.losePacket p.1) s2)

/-- L2_SCRUB (R321): an entry is read; an error that a scrub finds is the step UNCORRECTABLE_ERROR, and a sound entry
stays as it is. -/
def execL2Scrub (slice entry : Nat) (s : State) : Out :=
  let sl := s.slice slice
  match mapGet? entry sl.entries with
  | none => .next s
  | some e =>
    if e.line.pois = 0#32 then .next s
    else .next (s.setSlice slice { sl with
      entries := mapSet entry { e with indexed := false } sl.entries
      tags := sl.tags.map fun t => if t.2.entry = some entry then (t.1, { t.2 with x := true }) else t })

/-- The decision of a window of adaptive admission (R466). -/
def Adapt.next (a : Adapt) : Adapt :=
  let w := a.window + 1
  let good := decide (16 * a.joins ≥ a.admissions)
  let (on, off) : Bool × Option Nat :=
    match a.offSince with
    | none => if a.admissions = 0 then (a.on, none) else if good then (true, none) else (false, some w)
    | some o =>
      let sample := decide ((w - o) % 16 = 0)
      if a.on then
        -- the window that ends was a sampling window
        (if a.admissions ≠ 0 ∧ good then (true, none) else (sample, some o))
      else (sample, some o)
  { on := on, offSince := off, window := w, admissions := 0, joins := 0 }

/-- DEDUP_WINDOW_EXPIRY (R466). -/
def execDedupWindowExpiry (slice : Nat) (s : State) : Out :=
  .next (s.updSlice slice fun sl => { sl with adapt := sl.adapt.next })

/-- DDMODE_WRITE (R317, R466): 0b11 is written as 0b00; adaptive windows begin anew with admission on. -/
def execDdmodeWrite (stop : Nat) (value : Dword) (s : State) : Out :=
  let m := if bits value.toNat 1 0 = 3 then 0 else bits value.toNat 1 0
  let s1 := s.setReg (stopReg stop 0x18) m
  .next (if m = 0 then s1.updSlice stop fun sl => { sl with adapt := ⟨true, none, 0, 0, 0⟩ } else s1)

end Sys2Proof.Machine
end

