-- ==== Sys2Proof/Machine/Granary.lean ====
section
/-! DEFINITION. The Granary: its banks' operations and reductions (R327 to R330, R371 to R373). -/

namespace Sys2Proof.Machine

open Sys2Proof

/-- The bank of a physical Granary address (R327). -/
def bankOf (gp : Nat) : Nat := bits gp 17 10

/-- The bytes of an element that an update or a reduction steps by (R371): ADAM steps through P, which is FP32 (R372). -/
def gupdStride (op : Nat) (f : Fmt) : Nat := if op = 3 then 4 else fmtBytes f

/-- A context's window (R387): base and size in bytes. -/
def State.granBase (s : State) (ctx : Nat) : Nat := bits (s.reg (ctxReg ctx 0x30)) 8 0 * 262144
def State.granSize (s : State) (ctx : Nat) : Nat := bits (s.reg (ctxReg ctx 0x30)) 25 16 * 262144

/-- The physical address of byte g of a context's window (R327): 27 bits. -/
def State.granAddr (s : State) (ctx g : Nat) : Nat := (s.granBase ctx + g) % 2 ^ 27

/-- Is the slice and bank of a stop retired (R417, R331)? -/
def State.sliceRetired (s : State) (b : Nat) : Bool := bit (s.reg (0x00B40040 + 8 * (b / 64))) (b % 64)
/-- Is a core retired (R417)? -/
def State.coreRetired (s : State) (c : Nat) : Bool := bit (s.reg (0x00B40020 + 8 * (c / 64))) (c % 64) || s.retiring.contains c

/-- A byte of the Granary: one that nothing has written is a free value (log entry 1); Granary addresses lie above memory's
in that function. -/
def State.granByte (s : State) (gp : Nat) : Byte := (cellGet gp s.granary).getD (Config.unwritten (2 ^ 52 + gp))
def State.granBad (s : State) (gp : Nat) : Bool := s.granPois.contains (gp / 8)

/-- A value of w bytes, and whether it is poisoned. -/
def State.granVal (s : State) (gp w : Nat) : Nat × Bool :=
  (ofBytes ((List.range w).map fun i => s.granByte (gp + i)), s.granBad gp || s.granBad (gp + w - 1))

/-- Write bytes: words written whole lose their poison (R330). -/
def State.granWrite (s : State) (ov : List Host.Cell) : State :=
  let clean := wholeWords ov
  { s with
    granary := ov.foldl (fun m c => cellPut c.1 c.2 m) s.granary
    granPois := s.granPois.filter fun w => !clean.contains w }

/-- Write a value of w bytes. -/
def State.granPut (s : State) (gp w x : Nat) : State := s.granWrite (cellPuts gp (toBytes x w) [])

/-- A word of a parameter block. -/
def parW (par : List Word) (i : Nat) : Nat := (par.getD i 0#32).toNat

/-- A step's result is stored, with the flags of the step; a poisoned one poisons the word it goes to, and raises none (R47, R329). -/
def State.granStep (s : State) (b ctx gp w : Nat) (bad : Bool) (r : Nat × Nat) : State :=
  if bad then { s with granPois := if s.granBad gp then s.granPois else gp / 8 :: s.granPois }
  else (s.granPut gp w r.1).granFlag b ctx r.2

/-- The steps of ADAM (R372) from m0, v0, gr and p0: m, v and p, each with the flags of the steps that lead to it alone. -/
def adamSteps (fs : FSpec) (mode : Rnd) (par : List Word) (m0 v0 g0 p0 : Nat) : (Nat × Nat) × (Nat × Nat) × (Nat × Nat) :=
  let u := fun n => fp32.unpack n
  let gr := fs.unpack g0
  let isNan := fun n => match u n with | .nan _ => true | _ => false
  let nv := fun n => if isNan n then flNV else 0
  let (m, f1) := fp32.ofTerm mode 0 (Term.add mode (mulTerm (u (parW par 3)) (u m0)) (mulTerm (u (parW par 4)) gr))
  let (v, f2) := fp32.ofTerm mode 0
    (Term.add mode (mulTerm (u (parW par 5)) (u v0)) (Term.mulF (mulTerm (u (parW par 6)) gr) gr))
  let (sq, f3) : Nat × Nat := match u v with
    | .nan _ => (fp32.nan, 0)
    | .inf n => if n then (0, 0) else (v, 0)
    | .fin n k _ => if n ∨ k = 0 then (0, 0) else fSqrt mode 0 v
  let (d, f4) := fp32.add mode 0 sq (parW par 8)
  let (uq, f5) := fDiv mode m d
  let (p, f6) := fp32.ofTerm mode 0 (Term.add mode (u p0).term (mulTerm (u (fp32.flip (parW par 7))) (u uq)))
  ((m, f1 ||| nv m), (v, f2 ||| nv v), (p, f3 ||| f4 ||| f5 ||| f6 ||| nv p))

/-- One element of an update (R371, R372): reads of other arrays are as they stand. `at_` gives the physical address of w bytes of another array,
none beyond the window; an element that needs such bytes is refused, and none is answered. -/
def gupdElem (s : State) (b ctx op rnd : Nat) (f : Fmt) (par : List Word) (gp i : Nat) (at_ : Nat → Nat → Option Nat) : Option State :=
  let w := fmtBytes f
  let fs := fspecOf f
  let mode := Rnd.ofCode rnd
  let a := fp32.unpack (parW par 0)
  match op with
  | 0 => some (s.granPut gp w (parW par 0 + (if w = 8 then 2 ^ 32 * parW par 1 else 0)))
  | 1 =>
    let (x, xb) := s.granVal gp w
    some (s.granStep b ctx gp w xb (fs.ofTerm mode 0 (mulTerm a (fs.unpack x))))
  | 2 =>
    let (x, xb) := s.granVal gp w
    match at_ w (parW par 1 + w * i) with
    | none => none
    | some q =>
      let (y, yb) := s.granVal q w
      some (s.granStep b ctx gp w (xb || yb) (fs.ofTerm mode 0 (Term.add mode (mulTerm a (fs.unpack y)) (fs.unpack x).term)))
  | _ =>
    match at_ 4 (parW par 0 + 4 * i), at_ 4 (parW par 1 + 4 * i), at_ w (parW par 2 + w * i) with
    | some qm, some qv, some qg =>
      let (m0, mb) := s.granVal qm 4
      let (v0, vb) := s.granVal qv 4
      let (g0, gb) := s.granVal qg w
      let (p0, pb) := s.granVal gp 4
      let (m, v, p) := adamSteps fs mode par m0 v0 g0 p0
      some (((s.granStep b ctx qm 4 (mb || gb) m).granStep b ctx qv 4 (vb || gb) v).granStep b ctx gp 4 (mb || vb || gb || pb) p)
    | _, _, _ => none

/-- An element as a reduction takes it: sums of narrow floats widen to FP32, narrow integers to 32 bits. -/
def reduceElem (op : Nat) (f : Fmt) (x : Nat) : Nat × Nat :=
  if gupdFloat f then (if op = 4 ∧ f ≠ .fp32 then cvt f .fp32 .rne 0 false x else (x, 0))
  else if (fmtBytes f) = 8 then (x, 0) else (wrapI (intVal f x) 32, 0)

/-- The elements of a range that a bank holds, ascending, within the window. -/
def bankElems (base gsize gbase w count b : Nat) : List Nat :=
  (List.range count).filter fun i => decide (base + w * i + w ≤ gsize) && decide (bankOf (gbase + base + w * i) = b)

/-- One bank's share of a range reduction (R329): the result of each step in ascending address order, its poison, and its flags, of which a poisoned
share raises none (R47). -/
def reduceBank (s : State) (op rnd : Nat) (f : Fmt) (gps : List Nat) : Option Nat × Bool × Nat :=
  let r := gps.foldl (fun (acc : Option Nat × Bool × Nat) gp =>
    let (x, bad) := s.granVal gp (fmtBytes f)
    let (y, f0) := reduceElem op f x
    match acc.1 with
    | none => (some y, bad, f0)
    | some z =>
      let (r, f1) := reduceStep op rnd f z y
      (some r, acc.2.1 || bad, acc.2.2 ||| f0 ||| f1)) (none, false, 0)
  (r.1, r.2.1, if r.2.1 then 0 else r.2.2)

/-- GUPD at one bank (R328, R371): updates element by element, whether one was refused, or the bank's share of a reduction. -/
def gupdBank (s : State) (b ctx op rnd : Nat) (f : Fmt) (count : Nat) (par : List Word) (base : Nat) : State × Bool × Map (List Elem) :=
  let w := gupdStride op f
  let is := bankElems base (s.granSize ctx) (s.granBase ctx) w count b
  let gps := fun i => s.granAddr ctx (base + w * i)
  if op ≤ 3 then
    let at_ (n g : Nat) : Option Nat := if g + n ≤ s.granSize ctx then some (s.granAddr ctx g) else none
    let r := is.foldl (fun (a : State × Bool) i => match gupdElem a.1 b ctx op rnd f par (gps i) i at_ with
      | some s1 => (s1, a.2)
      | none => (a.1, true)) (s, false)
    (r.1, r.2, [])
  else
    let (r, bad, fl) := reduceBank s op rnd f (is.map gps)
    match r with
    | none => (s, false, [])
    | some x =>
      let es : List Elem := [⟨BitVec.ofNat 32 x, bad⟩, ⟨BitVec.ofNat 32 (x / 2 ^ 32), bad⟩]
      (s.granFlag b ctx fl, false, [(b, es)])

/-- Is an earlier operation of the same group on the same bank still on its way (R303, R327)? -/
def State.bankBehind (s : State) (r : Req) : Bool :=
  s.packets.any fun q => match q.2.body with
    | .access o => (match o.ret, r.ret with
      | .part a b _ _, .part a' b' _ _ => decide (a = a' ∧ b = b' ∧ o.tgt = r.tgt ∧ o.num < r.num)
      | _, _ => false)
    | _ => false

/-- The name under which a bank keeps what it knows of an element's releases (R344, R345). -/
def granLine (gp : Nat) : Nat := 2 ^ 45 + gp / 8

/-- One operation at a bank (R328, R344, R364, R365), or the drain that a promotion asks for first. -/
def State.bankStep (s : State) (b id : Nat) (r : Req) : Option State :=
  let gone : State := { s with packets := mapDel id s.packets }
  if s.bankBehind r then none
  else if s.sliceRetired b then some (gone.replyTo b r [] 2 0 none 0)
  else match r.act with
  | .gupd op rnd fmt count par base =>
    let (s1, refused, out) := gupdBank gone b r.ctx op rnd ((Fmt.ofCode fmt).getD .fp32) count par base
    some (s1.replyTo b r out (if refused then 2 else 0) 0 none 0)
  | a =>
    let sl := s.slice b
    let waits := r.lanes.any fun l => (sl.dir (granLine l.addr)).drainOut
    let ask := r.lanes.find? fun l =>
      let d := sl.dir (granLine l.addr)
      match d.lastRel with
      | some _ => r.acq && r.rem && decide (r.scope ≥ 3) && !d.drained
      | none => false
    if waits then none
    else match ask with
    | some l =>
      match (sl.dir (granLine l.addr)).lastRel with
      | some (c, n) => some ((s.reply .recall b c 0 (.drain (granLine l.addr) n)).updDir b (granLine l.addr) fun d => { d with drainOut := true })
      | none => none
    | none =>
      let p := perform s.granByte s.granBad a r.lanes
      let pois := gone.granPois
      let s1 := gone.granWrite p.ov
      -- an atomic leaves the poison of what it touches (R194)
      let s2 : State := match a with
        | .store _ => s1
        | _ => { s1 with granPois := pois }
      let s3 := s2.granFlag b r.ctx p.fl
      let s4 := r.lanes.foldl (fun s l => s.updDir b (granLine l.addr) fun d =>
        let d' : Dir := { d with drained := false }
        match r.core with
        | some core => if r.rel && decide (r.scope ≤ 2) then { d' with lastRel := some (core, r.num) } else d'
        | none => d') s3
      some (s4.replyTo b r p.out 0 0 none 0)

/-- The first arrived operation that may be performed. -/
def State.bankPick (s : State) (b : Nat) : List (Nat × Packet) → Option State
  | [] => none
  | (id, p) :: ps =>
    let this := match p.body with
      | .access r => (match r.tgt with | .bank _ => s.bankStep b id r | _ => none)
      | _ => none
    match this with
    | some s1 => some s1
    | none => s.bankPick b ps

/-- GRANARY_BANK_OPERATION (R328). -/
def execGranaryBankOperation (bank : Nat) (s : State) : Out := .next ((s.bankPick bank (s.inbox bank)).getD s)

end Sys2Proof.Machine
end

