-- ==== Sys2Proof/Machine/Global.lean ====
section
/-! DEFINITION. Global memory and Granary instructions (R360 to R373, R128): from their checks to their issue. -/

namespace Sys2Proof.Machine

open Sys2Proof

/-- The permissions an access needs (R407). -/
def Act.need : Act → Nat
  | .store _ | .red _ _ => permW
  | .atom _ _ => permR + permW
  | .cctl 2 => permW
  | _ => permR

/-- ACCESS of a fault record for an access of a group (R411): read and write. -/
def accessBits (need : Nat) : Nat := need % 4

/-- The permissions that an access needs of an export window (R471): an atomic needs R, W and A. -/
def Act.windowNeed : Act → Nat
  | .load _ _ => 1
  | .store _ => 2
  | _ => 7

/-- Where an access to a translated line is performed (R354, R366, R449, R470, R472, R479). -/
def State.target (s : State) (a : Act) (p : Place) : Place × Target :=
  match spaceOf p.pa with
  | .hbm => (p, .home)
  | .beyond => (p, .refused)
  | .host i => match a with
    | .load _ _ | .store _ | .atom _ _ => (p, .host i)
    | _ => (p, .refused)
  | .remote k => match a with
    | .load _ _ | .store _ | .atom _ _ =>
      if s.pkg = some k then
        match s.window p.pa 128 a.windowNeed k with
        | some q => (q, .home)
        | none => (p, .refused)
      else if s.dead.contains k then (p, .lost)
      else (p, .remote k)
    | _ => (p, .refused)

/-- Is the address covered by a cached translation? -/
def State.cached (s : State) (ctx va : Nat) : Bool := s.tlb.any fun e => decide (e.ctx = ctx ∧ e.va ≤ va ∧ va < e.va + e.size)

/-- Must an access of a die wait because its fault buffer is full (R411)? -/
def State.mustWait (s : State) (d ctx va : Nat) : Bool := s.faultsFull d 1 && !s.cached ctx va

/-- A part that has translated: its place, where it goes, physical addresses. A line that is not this package's HBM under
the leaf's own key fills no L1. -/
def Part.resolved (p : Part) (q : Place) (t : Target) (own : Bool) : Part :=
  { p with
    st := .todo
    req := { p.req with
      place := q, tgt := t, fill := p.req.fill && own && decide (t = .home)
      lanes := p.req.lanes.map fun l => { l with addr := q.pa + l.addr % 128 } } }

/-- Translate the line of a part and decide where it goes; a part whose walk fails enters the fault buffer of the core's
die (R410). None while the buffer has no room. -/
def State.resolvePart (s : State) (tid gix core fid pi : Nat) (p : Part) : Option (State × Part) :=
  let d := dieOf (coreStop core)
  let va := p.req.place.va
  let need := p.req.act.need
  if s.mustWait d p.req.ctx va then none
  else match s.translate p.req.ctx va need with
  | (s1, .ok q) =>
    let (q', t) := s.target p.req.act q
    some (s1, p.resolved q' t (decide (q' = q)))
  | (s1, .error w) =>
    let n := p.req.lanes.length
    if s.faultsFull d n then none
    else some (s1.addFault d p.req.ctx ((p.req.lanes.map LaneReq.addr).headD va) w (accessBits need) (coreStop core)
      (.part tid gix fid pi) n, { p with st := .faulted })

/-- Translate every part of an access. -/
def State.resolveParts (s : State) (tid gix core fid : Nat) : List (Part × Nat) → Option (State × List Part)
  | [] => some (s, [])
  | (p, i) :: ps =>
    match s.resolvePart tid gix core fid i p with
    | none => none
    | some (s1, q) => match s1.resolveParts tid gix core fid ps with
      | none => none
      | some (s2, qs) => some (s2, q :: qs)

/-- The lines that lanes reach, each once, in the order of their lowest lanes (R364). -/
def lineGroups (addr : Nat → Nat) (m : Mask) : List (Nat × Mask) :=
  ((lanesOf m).foldl (fun (ls : List Nat) l => if ls.contains (addr l / 128) then ls else ls ++ [addr l / 128]) []).map fun ln =>
    (ln, maskOf fun l => inMask m l && decide (addr l / 128 = ln))

/-- The parts of a global access before translation: one for each line, at virtual addresses (R364). -/
def Env.lineParts (e : Env) (s : State) (a : LaneAcc) (fill : Bool) : List (Part × Nat) :=
  (lineGroups a.addr e.act).zipIdx.map fun (g, i) =>
    (e.part s i a.act (a.lanes g.2 id) ⟨0, 0, false, e.cfg.ctx, g.1 * 128⟩ .unit fill, i)

/-- An access that has passed its checks takes its place (R60): each part translates, and the access is counted. -/
def Env.issueLines (e : Env) (s : State) (f : Flight) (parts : List (Part × Nat)) : Except Stop State :=
  match s.resolveParts e.iss.team e.iss.gix (e.core s) s.nextId parts with
  | none => .error .stall
  | some (s1, ps) => issueFlight e s1 { f with parts := ps }

/-- The checks of R363: poisoned addresses, poisoned data, range, alignment, watchpoints. -/
def Env.accessChecks (e : Env) (a : LaneAcc) (global : Bool) : Except Stop Unit := do
  e.check tcPoison a.addr a.addrPois
  if a.act.isWrite then e.check tcPoison a.addr a.dataPois
  if global then e.check tcRange a.addr fun l => decide (a.addr l ≥ 2 ^ 57)
  e.check (if global then tcMisGlobal else tcMisGranary) a.addr fun l => decide (a.addr l % a.w ≠ 0)
  e.check tcWatch a.addr fun l => e.wpt (if global then 1 else 2) a.act.isRead a.act.isWrite (a.addr l) a.w

/-- LD, ST, ATOM and RED (R363, R364). -/
def globalAccess (e : Env) (s : State) (a : LaneAcc) (path : Nat) (dst : Dst) (fill : Bool) : Except Stop (State × Ctl) := do
  e.accessChecks a true
  if e.act = 0#32 then .ok (s, .seq)
  else do
    let f := e.ordered (e.flight s path dst a.act.isRead a.act.isWrite)
    let s1 ← e.issueLines s f (e.lineParts s a fill)
    .ok (s1, .seq)

/-- The base pair in each lane, low and high, with the poison of either. -/
def Env.base64 (e : Env) (l : Nat) : Nat × Bool :=
  let lo := laneAt (e.g.srcV .int e.x.a) l
  let hi := laneAt (e.g.srcVHi .int e.x.a) l
  (pairNat lo hi, lo.pois || hi.pois)

/-- The address of a lane (R363): the base, and the addend sign-extended where there is one. -/
def Env.addr64 (e : Env) (addend : Bool) (l : Nat) : Nat :=
  if addend then wrapI ((e.base64 l).1 + sext (laneAt (e.g.srcV .int e.x.b) l).nat 32) 64 else (e.base64 l).1
def Env.addr64Pois (e : Env) (addend : Bool) (l : Nat) : Bool :=
  (e.base64 l).2 || (addend && (laneAt (e.g.srcV .int e.x.b) l).pois)

/-- HINT .NA (R362): no L1 fill. -/
def Env.hintNa (e : Env) : Bool := decide (bits (mOpx e.x.m) 4 3 = 1)

/-- LD (R363, R364). -/
def execLd (x : Args) (s : State) : Out :=
  run .ld x s fun e s1 =>
    let (w, sg) := widthOf (bits (mOpx x.m) 2 0)
    globalAccess e s1 ⟨w, .load w sg, e.addr64 true, e.addr64Pois true, [], []⟩ 1 (e.dstV (regsOfWidth (bits (mOpx x.m) 2 0))) (!e.hintNa)

/-- ST (R363, R364). -/
def execSt (x : Args) (s : State) : Out :=
  run .st x s fun e s1 =>
    let (w, _) := widthOf (bits (mOpx x.m) 2 0)
    globalAccess e s1 ⟨w, .store w, e.addr64 true, e.addr64Pois true, dataRegs e.g .int x.c (regsOfWidth (bits (mOpx x.m) 2 0)), []⟩ 2
      .none false

/-- ATOM (R363, R365). -/
def execAtom (x : Args) (s : State) : Out :=
  run .atom x s fun e s1 =>
    let n := regsOfAtom x.m
    globalAccess e s1 ⟨4 * n, .atom (bits (mOpx x.m) 3 0) (bit (mOpx x.m) 4), e.addr64 false, e.addr64Pois false,
      dataRegs e.g (atomTy (bits (mOpx x.m) 3 0)) x.b n, if isCas x.m then dataRegs e.g .int x.c n else []⟩ 2 (e.dstV n) false

/-- RED (R363, R366). -/
def execRed (x : Args) (s : State) : Out :=
  run .red x s fun e s1 =>
    let n := regsOfAtom x.m
    globalAccess e s1 ⟨4 * n, .red (bits (mOpx x.m) 3 0) (bit (mOpx x.m) 4), e.addr64 true, e.addr64Pois true,
      dataRegs e.g (atomTy (bits (mOpx x.m) 3 0)) x.c n, []⟩ 2 .none false

/-- The Granary parts of an access: one for each bank it reaches, and one that is refused for the lanes beyond GSIZE (R327, R363). -/
def Env.bankParts (e : Env) (s : State) (a : LaneAcc) : List Part :=
  let gs := s.granSize e.cfg.ctx
  let inside := e.lanesWith fun l => decide (a.addr l + a.w ≤ gs)
  let outside := e.lanesWith fun l => decide (a.addr l + a.w > gs)
  let bank (l : Nat) : Nat := bankOf (s.granAddr e.cfg.ctx (a.addr l))
  let bs := (lanesOf inside).foldl (fun (bs : List Nat) l => if bs.contains (bank l) then bs else bs ++ [bank l]) []
  let one (b : Nat) : List LaneReq × Target :=
    (a.lanes (maskOf fun l => inMask inside l && decide (bank l = b)) (s.granAddr e.cfg.ctx), .bank b)
  let all := bs.map one ++ (if outside = 0#32 then [] else [(a.lanes outside id, Target.refused)])
  all.zipIdx.map fun (q, i) => e.part s i a.act q.1 Place.none q.2 false

/-- GLD, GST and GOP (R363 to R365). -/
def granaryAccess (e : Env) (s : State) (a : LaneAcc) (dst : Dst) (reads : Bool) : Except Stop (State × Ctl) := do
  e.accessChecks a false
  if e.act = 0#32 then .ok (s, .seq)
  else do
    let f := e.ordered (e.flight s 4 dst reads a.act.isWrite)
    let s1 ← issueFlight e s { f with parts := e.bankParts s a }
    .ok (s1, .seq)

/-- GLD (R363, R364). -/
def execGld (x : Args) (s : State) : Out :=
  run .gld x s fun e s1 => granaryAccess e s1 (e.loadAcc (bits (mOpx x.m) 2 0)) (e.dstV (regsOfWidth (bits (mOpx x.m) 2 0))) true

/-- GST (R363, R364). -/
def execGst (x : Args) (s : State) : Out :=
  run .gst x s fun e s1 => granaryAccess e s1 (e.storeAcc (bits (mOpx x.m) 2 0)) .none false

/-- GOP (R363, R365); with NORET nothing returns, and a failure enters the record. -/
def execGop (x : Args) (s : State) : Out :=
  run .gop x s fun e s1 =>
    let noret := bit (mOpx x.m) 5
    granaryAccess e s1 e.atomAcc (if noret then .none else e.dstV (regsOfAtom x.m)) (!noret)

/-- One line of PREF: a request to its home that nothing answers; dropped where it faults, is refused or is not HBM (R368). -/
def Env.prefetchLine (e : Env) (l1 : Bool) (s : State) (va : Nat) : State :=
  match s.translate e.cfg.ctx va permR with
  | (_, .error _) => s
  | (s1, .ok q) =>
    match spaceOf q.pa with
    | .hbm =>
      let c := e.core s1
      let r : Req := { (e.part s1 0 .prefetch [] q .home l1).req with ret := .none }
      s1.send .request c (s1.homeOf q) q.key none (.access r)
    | _ => s

/-- PREF (R368): not an access of the model, not counted. -/
def execPref (x : Args) (s : State) : Out :=
  run .pref x s fun e s1 => do
    e.check tcPoison (e.addr64 true) (e.addr64Pois true)
    let lines := (lineGroups (e.addr64 true) (e.lanesWith fun l => decide (e.addr64 true l < 2 ^ 57))).map fun g => g.1 * 128
    .ok (lines.foldl (e.prefetchLine (decide (mOpx x.m = 0))) s1, .seq)

/-- FENCE (R346, R347, R369): at cluster scope or wider it flushes the core's update-only lines. -/
def execFence (x : Args) (s : State) : Out :=
  run .fence x s fun e s1 =>
    let f : Flight := { e.ordered (e.marker s1) with drain := if e.scope < 2 then 0 else if e.rel then 2 else 1 }
    .ok (e.markOrder s1 f (.fence (uDst x.d) e.order e.scope x.bytes e.gp), .hold)

/-- A range translated page by page before its access is counted; a fault parks the group and the instruction is issued again
once the fault has been answered (R370, R410, R461). -/
def Env.pages (e : Env) (s : State) (need va n : Nat) : State × Option (Except Unit (List (Place × Nat))) :=
  let d := dieOf (coreStop (e.core s))
  if s.mustWait d e.cfg.ctx va then (s, none)
  else match s.translateAll e.cfg.ctx need (pagesOf va n) with
  | (s1, .ok ps) => (s1, some (.ok ps))
  | (s1, .error (a, w)) =>
    if s.faultsFull d 1 then (s, none)
    else (s1.addFault d e.cfg.ctx a w (accessBits need) (coreStop (e.core s)) (.fetch e.iss.team e.iss.gix e.iss.entry) 1, some (.error ()))

/-- CCTL of lines (R370): one part for each line, refused where the line is not HBM. -/
def cctlRange (o : Op) (op : Nat) (x : Args) (s : State) : Out :=
  run o x s fun e s1 =>
    let (a, ap) := e.g.srcU64 x.a
    let b := e.g.srcU x.b
    if ap || b.pois then poisonTrap none 0
    else if a % 128 ≠ 0 ∨ b.nat % 128 ≠ 0 ∨ b.nat < 128 ∨ b.nat > 2 ^ 31 then progErr
    else if a ≥ 2 ^ 57 ∨ a + b.nat > 2 ^ 57 then .error (.trap { code := tcRange, addr := BitVec.ofNat 64 a })
    else match e.pages s1 (Act.need (.cctl op)) a b.nat with
    | (_, none) => .error .stall
    | (s2, some (.error ())) => .ok (s2, .hold)
    | (s2, some (.ok ps)) => do
      let f := e.flight s2 2 (.s (uDst x.d) 1) false false
      let parts := ((ps.flatMap fun p => linesOf p.1 p.2).zipIdx).map fun (q, i) =>
        let (p, t) := s2.target (.cctl op) q.1
        e.part s2 i (.cctl op) [] p t false
      let s3 ← issueFlight e s2 { f with parts := parts }
      .ok (s3, .seq)

/-- CCTL.PIN (R370, R319). -/
def execCctlPin (x : Args) (s : State) : Out := cctlRange .cctlPin 0 x s
/-- CCTL.UNPIN (R370). -/
def execCctlUnpin (x : Args) (s : State) : Out := cctlRange .cctlUnpin 1 x s
/-- CCTL.DISCARD (R370, R313). -/
def execCctlDiscard (x : Args) (s : State) : Out := cctlRange .cctlDiscard 2 x s
/-- CCTL.CLEAN (R370). -/
def execCctlClean (x : Args) (s : State) : Out := cctlRange .cctlClean 3 x s

/-- CCTL.QUERY (R370): the counters of a slice for the key ID of a page; a retired slice reports zero. -/
def execCctlQuery (x : Args) (s : State) : Out :=
  run .cctlQuery x s fun e s1 =>
    let (a, ap) := e.g.srcU64 x.a
    let b := e.g.srcU x.b
    if ap || b.pois then poisonTrap none 0
    else if a % 128 ≠ 0 ∨ b.nat > 255 then progErr
    else if a ≥ 2 ^ 57 then .error (.trap { code := tcRange, addr := BitVec.ofNat 64 a })
    else match e.pages s1 permR a 1 with
    | (_, none) => .error .stall
    | (s2, some (.error ())) => .ok (s2, .hold)
    | (s2, some (.ok ps)) => do
      let key := (ps.map fun p => p.1.key).headD 0
      let f := e.flight s2 2 (.s (uDst x.d) 2) false false
      let p := e.part s2 0 (.query key) [⟨0, b.nat, [], []⟩] Place.none .home false
      let s3 ← issueFlight e s2 { f with parts := [p] }
      .ok (s3, .seq)

/-- The parameter words that an operation of GUPD reads (R371, R372). -/
def gupdWords (op : Nat) (f : Fmt) : Nat :=
  match op with
  | 0 => if fmtBytes f = 8 then 2 else 1
  | 1 => 1
  | 2 => 2
  | 3 => 9
  | _ => 0

/-- The banks of a range of the window, in the order of their lowest elements (R327, R329). -/
def bankOrder (gb gs g n : Nat) : List Nat :=
  let top := min (g + n) gs
  if top ≤ g then []
  else (List.range (min 256 ((top - 1) / 1024 - g / 1024 + 1))).map fun i => bankOf (gb + (g / 1024 + i) * 1024)

/-- Are the bases of GUPD multiples of the sizes of their elements (R371): A, the x of AXPY, and M, V and G of ADAM? -/
def gupdAligned (op : Nat) (f : Fmt) (a : Nat) (par : List Word) : Bool :=
  decide (a % gupdStride op f = 0) &&
    (match op with
     | 2 => decide (parW par 1 % fmtBytes f = 0)
     | 3 => decide (parW par 0 % 4 = 0 ∧ parW par 1 % 4 = 0 ∧ parW par 2 % fmtBytes f = 0)
     | _ => true)

/-- GUPD (R371 to R373): a part for each bank, and a refused one where the range passes GSIZE. -/
def execGupd (x : Args) (s : State) : Out :=
  run .gupd x s fun e s1 =>
    let a := e.g.srcU x.a
    let b := e.g.srcU x.b
    let par := e.g.sregs x.c 16
    let op := bits x.m 3 0
    let rnd := bits x.m 5 4
    let f := (slotFmt e.cfg.fs x.fs.toNat).getD .fp32
    let w := gupdStride op f
    if a.pois || b.pois || (par.take (gupdWords op f)).any Elem.pois then poisonTrap none 0
    else if b.nat < 1 ∨ b.nat > 16777216 ∨ gupdAligned op f a.nat (par.map Elem.val) = false then progErr
    else do
      let gb := s1.granBase e.cfg.ctx
      let gs := s1.granSize e.cfg.ctx
      let act : Act := .gupd op rnd f.code b.nat (par.map Elem.val) a.nat
      let tgts := (bankOrder gb gs a.nat (w * b.nat)).map Target.bank ++
        (if a.nat + w * b.nat > gs then [Target.refused] else [])
      let parts := tgts.zipIdx.map fun (t, i) =>
        let p := e.part s1 i act [] Place.none t false
        { p with req := { p.req with acq := false, rel := false, rem := false, scope := 0 } }
      let dst : Dst := if op < 4 then .none else .s (uDst x.d) (if w = 8 then 2 else 1)
      let fl := e.flight s1 4 dst (decide (op ≥ 4)) (decide (op < 4))
      let s2 ← issueFlight e s1 { fl with parts := parts }
      .ok (s2, .seq)

/-- The address of SHLD and SHST (R128), with its poison. -/
def Env.shapeAddr (e : Env) : Nat × Bool :=
  let (a, ap) := e.g.srcU64 e.x.a
  let b := e.g.srcU e.x.b
  (wrapI (a + sext b.nat 32) 64, ap || b.pois)

/-- The checks of SHLD and SHST (R128). -/
def Env.shapeChecks (e : Env) (pois rd : Bool) : Except Stop Unit :=
  let (a, ap) := e.shapeAddr
  if ap || pois then poisonTrap none a
  else if a ≥ 2 ^ 57 then .error (.trap { code := tcRange, addr := BitVec.ofNat 64 a })
  else if a % 64 ≠ 0 then progErr
  else if e.wpt 1 rd (!rd) a 64 then .error (.trap { code := tcWatch, addr := BitVec.ofNat 64 a })
  else .ok ()

/-- The one part of SHLD or SHST. -/
def Env.shapePart (e : Env) (s : State) (a : Act) (data : List Word) (fill : Bool) : List (Part × Nat) :=
  let va := e.shapeAddr.1
  [(e.part s 0 a [⟨0, va, data, []⟩] ⟨0, 0, false, e.cfg.ctx, va / 128 * 128⟩ .unit fill, 0)]

/-- SHLD (R128). -/
def execShld (x : Args) (s : State) : Out :=
  run .shld x s fun e s1 => do
    e.shapeChecks false true
    let f := e.ordered (e.flight s1 1 (.sh (fldIdx x.d)) true false)
    let s2 ← e.issueLines s1 f (e.shapePart s1 (.load 64 false) [] true)
    .ok (s2, .seq)

/-- SHST (R128): the data is captured at issue. -/
def execShst (x : Args) (s : State) : Out :=
  run .shst x s fun e s1 => do
    let ws := e.g.shape (fldIdx x.d)
    e.shapeChecks (ws.any Elem.pois) false
    let f := e.ordered (e.flight s1 2 .none false true)
    let s2 ← e.issueLines s1 f (e.shapePart s1 (.store 64) (ws.map Elem.val) false)
    .ok (s2, .seq)

end Sys2Proof.Machine
end

