-- ==== Sys2Proof/Machine/Create.lean ====
section
/-! DEFINITION. The resources of a core (R171 to R173), the launch record (R389), the creation of groups and teams (R49, R72, R75), and
the rank of launches (R392, R393). -/

namespace Sys2Proof.Machine

open Sys2Proof

/-- A field of a block of bytes: offset and size. -/
def blockField (bs : List Byte) (off n : Nat) : Nat := ofBytes ((bs.drop off).take n)

/-- A field of the launch record, and of the block named by EXT (R389). -/
def Launch.f (l : Launch) (off n : Nat) : Nat := blockField l.rcd off n
def Launch.x (l : Launch) (off n : Nat) : Nat := blockField l.ext off n
/-- Clusters of the grid. -/
def Launch.total (l : Launch) : Nat := if l.gathered then 1 else l.f 0x1C 2 * l.f 0x1E 2
/-- KIND 0x01 is a draw; LFLAGS bit 0 a cooperative grid. -/
def Launch.draw (l : Launch) : Bool := !l.gathered && decide (l.f 0x2C 1 = 1)
def Launch.coop (l : Launch) : Bool := !l.gathered && bit (l.f 0x2D 1) 0

/-- What is free on a core (R171, R173): slots and register units of its ports, granules, barrier words, macros, squares. -/
structure Room where
  slots : List Nat
  units : List Nat
  granules : Nat
  bars : Nat
  macros : Nat
  tsq : Nat
  deriving DecidableEq, Repr

/-- An empty core. -/
def Room.full : Room :=
  ⟨List.replicate 4 Config.slotsPerPort, List.replicate 4 Config.unitsPerPort, Config.granules, Config.barrierWords, 8, 16⟩

/-- What a team needs (R173), with the cluster-barrier words of member 0 (R283) and the slots that a draw reserves on each port
(R245). -/
structure Need where
  groups : Nat
  k : Nat
  scratch : Nat
  bars : Nat
  macros : Nat
  tsq : Nat
  pixg : Nat
  deriving DecidableEq, Repr

/-- Groups that a team of n puts on port p (R172). -/
def onPort (n p : Nat) : Nat := (n - p + 3) / 4

/-- Take what a team needs; none where it is not free. -/
def Room.take (r : Room) (n : Need) : Option Room :=
  let slots (p : Nat) : Nat := onPort n.groups p + n.pixg
  let units (p : Nat) : Nat := onPort n.groups p * (n.k / 8)
  let gr := (n.scratch + 511) / 512
  if ((List.range 4).all fun p => decide (slots p ≤ r.slots.getD p 0) && decide (units p ≤ r.units.getD p 0)) = true
      ∧ gr ≤ r.granules ∧ n.bars ≤ r.bars ∧ n.macros ≤ r.macros ∧ n.tsq ≤ r.tsq then
    some ⟨(List.range 4).map fun p => r.slots.getD p 0 - slots p, (List.range 4).map fun p => r.units.getD p 0 - units p,
      r.granules - gr, r.bars - n.bars, r.macros - n.macros, r.tsq - n.tsq⟩
  else none

/-- Sum over a list. -/
def sumOf {α : Type} (f : α → Nat) (xs : List α) : Nat := xs.foldl (fun a x => a + f x) 0

/-- The teams on a core. -/
def State.teamsOn (s : State) (c : Nat) : List (Nat × Team) := s.teams.filter fun t => decide (t.2.core = some c)

/-- Cluster-barrier words that a team's core holds: those of member 0 (R283). -/
def State.ncbarOf (s : State) (t : Team) : Nat :=
  if t.tix = 0 then (match mapGet? t.cluster s.clusters with | some c => c.bars.length | none => 0) else 0

/-- What is free on a core, the teams of some clusters not counted. -/
def State.room (s : State) (c : Nat) (without : List Nat) : Room :=
  let ts := (s.teamsOn c).filter fun t => !without.contains t.2.cluster
  let gone (l : Nat) : Bool := ts.all fun t => decide (t.2.cfg.launch ≠ l)
  let res := (s.core c).rend.reserved.filter fun r => without.isEmpty || !gone r.1
  let used (p : Nat) : Nat := sumOf (fun (t : Nat × Team) =>
    (t.2.groups.filter fun g => decide (g.2.port = p) && decide (g.2.kind ≠ .pixel)).length) ts
  let units (p : Nat) : Nat := sumOf (fun (t : Nat × Team) =>
    (t.2.groups.filter fun g => decide (g.2.port = p)).length * (t.2.cfg.k / 8)) ts
  let resv := sumOf (fun (r : Nat × Nat) => r.2) res
  ⟨(List.range 4).map fun p => Config.slotsPerPort - used p - resv, (List.range 4).map fun p => Config.unitsPerPort - units p,
    Config.granules - sumOf (fun (t : Nat × Team) => (t.2.cfg.scratch + 511) / 512) ts,
    Config.barrierWords - sumOf (fun (t : Nat × Team) => t.2.cfg.nbar + s.ncbarOf t.2) ts,
    8 - sumOf (fun (t : Nat × Team) => t.2.cfg.macros) ts, 16 - sumOf (fun (t : Nat × Team) => t.2.cfg.tsq) ts⟩

/-- What member i of a launch's cluster needs on a core; `held` when the core runs the draw already. -/
def Launch.need (l : Launch) (i : Nat) (held : Bool) : Need :=
  ⟨l.f 0x22 1, 8 * l.f 0x23 1, l.f 0x24 4, l.f 0x28 1 + (if i = 0 then l.f 0x29 1 else 0), l.f 0x2A 1, l.f 0x2B 1,
    if l.draw && !held then l.x 0x1A 1 else 0⟩

/-- The save image of a team (R186, R243, R297), rounded up to 4 KiB (R395). -/
def saveSize (groups k scratch nbar macros tsq ncbar : Nat) : Nat :=
  (groups * (4096 + 132 * k) + scratch + 8 * nbar + 38912 * macros + 16640 * tsq + 8 * ncbar + 4095) / 4096 * 4096
def State.saveOf (s : State) (t : Team) : Nat :=
  saveSize t.cfg.groups t.cfg.k t.cfg.scratch t.cfg.nbar t.cfg.macros t.cfg.tsq (s.ncbarOf t)

/-- Give the groups of a team that is placed on a core the lowest free slots of their ports (R174 leaves the choice open: log entry 72). -/
def freeSlotOf (used : List Nat) : Nat := ((List.range Config.slotsPerPort).find? fun n => !used.contains n).getD 0
def State.giveSlots (s : State) (c tid : Nat) : State :=
  let taken (gs : Map Group) (p : Nat) : List Nat := (gs.filter fun g => decide (g.2.port = p)).map fun g => g.2.slot
  let others := ((s.teamsOn c).filter fun t => decide (t.1 ≠ tid)).flatMap fun t => t.2.groups
  let give (gs : Map Group) : Map Group :=
    gs.foldl (fun acc g => acc ++ [(g.1, { g.2 with slot := freeSlotOf (taken others g.2.port ++ taken acc g.2.port) })]) []
  { s with teams := mapUpd tid (fun t => { t with groups := give t.groups }) s.teams }

/-- The parts of the save area of a context that are reserved (R395): first byte and size, of its teams that have not ended. Mesh and pixel
groups are saved with no reservation (log entry 40). -/
def State.saveSpans (s : State) (ctx : Nat) : List (Nat × Nat) :=
  (s.teams.filter fun t => decide (t.2.cfg.ctx = ctx) && (mapGet? t.2.cluster s.clusters).isSome).map fun t => (t.2.image, s.saveOf t.2)

/-- Room for images of given sizes, each at the lowest place that is free (log entry 40). -/
def spanFor (limit size : Nat) (spans : List (Nat × Nat)) : Option Nat :=
  (ascending (0 :: spans.map fun x => x.1 + x.2)).find? fun a =>
    decide (a + size ≤ limit) && spans.all fun x => decide (a + size ≤ x.1 ∨ x.1 + x.2 ≤ a)
def spansFor (limit : Nat) (spans : List (Nat × Nat)) : List Nat → Option (List Nat)
  | [] => some []
  | n :: ns => match spanFor limit n spans with
    | none => none
    | some a => (spansFor limit ((a, n) :: spans) ns).map fun as => a :: as

/-- The special registers at creation (R72, R42). -/
def Special.fresh (gix teamid cluid gridpos : Nat) (seed g : Nat) : Special :=
  { groupid := BitVec.ofNat 32 gix, teamid := BitVec.ofNat 32 teamid, cluid := BitVec.ofNat 32 cluid, gridpos := BitVec.ofNat 32 gridpos
    fragq := 32#32, flags := 0#32, trapcause := 0#32, trappc := 0#64, trapaddr := 0#64, trapmask := 0#32, seqstate := 0#64
    rngstate := BitVec.ofNat 64 (rngFix (seed ^^^ (g * 0x9E3779B97F4A7C15 % 2 ^ 64))), step := 0#32
    wpt := List.replicate 4 0#64, bpt := List.replicate 8 0#64 }

/-- A group at creation (R49, R75): one fragment in entry 0 with the live lanes. -/
def Group.fresh (kind : GroupKind) (port : Nat) (live : Mask) (entry : Dword) (sp : Special) (v : Map Lanes) (sr : Map Elem) (clock : Nat) : Group :=
  { kind := kind, port := port, slot := 0, v := v, s := sr, p := List.replicate 8 ⟨0#32, 0#32⟩, q := 0#8, qPois := 0#8
    bl := List.replicate 4 none, sl := List.replicate 4 none, sh := [], cnt := List.replicate 8 0, flights := []
    frags := [(0, ⟨live, live, entry, none, Loop.off, Loop.off, false, false, .none, none, false⟩)], joins := [], sp := sp
    cur := 0, issued := 0, quantum := sp.fragq.toNat, age := clock, unselected := 0, unselectedU := 0, starved := false, clause := none
    handler := none, stepping := none, haltPending := false, stopped := false, fail := ⟨false, false, 0⟩ }

/-- The format slots of a launch (R59). -/
def Launch.slots (l : Launch) : List Nat := (List.range 8).map fun i => l.f (0x30 + i) 1 % 32

/-- The configuration of a launch's teams. -/
def Launch.cfg (l : Launch) (id : Nat) : TeamCfg :=
  { launch := id, ctx := l.ctx, k := 8 * l.f 0x23 1, groups := l.f 0x22 1, scratch := l.f 0x24 4, nbar := l.f 0x28 1
    macros := l.f 0x2A 1, tsq := l.f 0x2B 1, fs := l.slots, entry := BitVec.ofNat 64 (l.f 0 8), trapv := BitVec.ofNat 64 (l.f 8 8) }

/-- Team TIX of a cluster at placement (R75, R173, R215, R282): its groups, zeroed scratchpad, barrier words and matrix state. -/
def Launch.team (l : Launch) (id cid cluid tix core clock : Nat) : Team :=
  let cfg := l.cfg id
  let w := l.f 0x20 1
  let t := w * l.f 0x21 1
  let gx := l.f 0x1C 2
  let teamid := tix % w + tix / w * 16 + tix * 256
  let kind : GroupKind := if l.draw then .task else .compute
  let grp (gix : Nat) : Group :=
    Group.fresh kind (gix % 4) (BitVec.allOnes 32) cfg.entry
      (Special.fresh gix teamid cluid (cluid % gx + 65536 * (cluid / gx)) (l.f 0x38 8) ((cluid * t + tix) * cfg.groups + gix)) [] [] clock
  { cfg := cfg, cluster := cid, tix := tix, core := some core, owner := none, image := 0, imageLost := [], groups := (List.range cfg.groups).map fun i => (i, grp i)
    scratch := [], scratchPois := [], bars := List.replicate cfg.nbar BarWord.zero, mx := TeamMx.fresh cfg.macros }

/-- The rectangles of a die for a shape, corners in ascending order; the cores of each by TIX (R19, R282). -/
def rects (die w h : Nat) : List (List Nat) :=
  ((List.range 64).filter fun c => decide (c % 8 + w ≤ 8 ∧ c / 8 + h ≤ 8)).map fun c =>
    (List.range (w * h)).map fun i => 64 * die + c + 8 * (i / w) + i % w

/-- Does a list of cores take a cluster of the launch; the rooms are given by core. -/
def fitsOn (l : Launch) (room : Nat → Room) (held : Nat → Bool) (cs : List Nat) : Bool :=
  cs.zipIdx.all fun (c : Nat × Nat) => ((room c.1).take (l.need c.2 (held c.1))).isSome

/-- Does the core run the draw? -/
def State.runs (s : State) (c lid : Nat) : Bool := (mapGet? lid (s.core c).rend.reserved).isSome

/-- The rectangles on which a cluster of a launch may be placed now, the teams of some clusters not counted (R19, R173); a gathered
group goes to a core of its die (R399). -/
def State.placesFor (s : State) (lid : Nat) (l : Launch) (without : List Nat) : List (List Nat) :=
  let dies := if l.gathered then [l.nextClu % 4] else [0, 1, 2, 3]
  (dies.flatMap fun d => rects d (l.f 0x20 1) (l.f 0x21 1)).filter fun cs =>
    (cs.all fun c => !s.coreRetired c) && fitsOn l (fun c => s.room c without) (fun c => s.runs c lid) cs

/-- Has a context a budget that is spent (R393)? -/
def State.budgetOver (s : State) (ctx : Nat) : Bool :=
  let b := s.reg (ctxReg ctx 0x20)
  decide (bits b 63 32 ≠ 0) && decide (bits (s.reg (ctxReg ctx 0x28)) 31 0 ≥ bits b 31 0)

/-- The class and the deadline of a launch for ranking (R392, R393); a deadline of 0 is none. -/
def State.classOf (s : State) (l : Launch) : Nat :=
  if s.spent.contains l.ctx then 0
  else if l.f 0x2E 1 = 0xFF then bits (s.reg (ctxReg l.ctx 0)) 2 0 else l.f 0x2E 1 % 8
def State.deadlineOf (s : State) (l : Launch) : Nat := if s.spent.contains l.ctx then 0 else l.deadline

/-- Is a context enabled (R387)? -/
def State.ctxOn (s : State) (ctx : Nat) : Bool := bit (s.reg (ctxReg ctx 0)) 63

/-- Reserve a draw's pixel slots on a core (R245). -/
def State.reservePix (s : State) (c lid : Nat) (l : Launch) : State :=
  if l.draw then s.updCore c fun k => { k with rend := { k.rend with reserved := mapSet lid (l.x 0x1A 1) k.rend.reserved } } else s

/-- A mesh or a pixel group at its core: a team of one group that belongs to no cluster (R245, R389). -/
def Launch.renderTeam (l : Launch) (id : Nat) (kind : GroupKind) (self core port clock : Nat) (owner : Option (Nat × Nat)) (live : Mask) (v : Map Lanes) (sr : Map Elem) : Team :=
  let mesh := decide (kind = .mesh)
  let entry := BitVec.ofNat 64 (if mesh then l.x 0 8 else l.x 8 8)
  let cfg : TeamCfg := { l.cfg id with
    k := 8 * (if mesh then l.x 0x18 1 else l.x 0x19 1), groups := 1, scratch := 0, nbar := 0, macros := 0, tsq := 0, entry := entry }
  { cfg := cfg, cluster := self, tix := 0, core := some core, owner := owner, image := 0, imageLost := []
    groups := [(0, Group.fresh kind port live entry (Special.fresh 0 0 0 0 (l.f 0x38 8) 0) v sr clock)]
    scratch := [], scratchPois := [], bars := [], mx := TeamMx.fresh 0 }

end Sys2Proof.Machine
end

