-- ==== Sys2Proof/Machine/Image.lean ====
section
/-! DEFINITION. The save image of a team (R185, R186, R243, R292, R297, R395): its bytes, and a team as an image restores it. The order of what the
specification does not place, and the bytes of a group's fixed block and of a macro, which it does not lay out, are log entry 40. -/

namespace Sys2Proof.Machine

open Sys2Proof

/-- Bytes of an image, each with its poison. -/
abbrev Bytes := List (Byte × Bool)
def plain (x n : Nat) : Bytes := (toBytes x n).map fun b => (b, false)

/-- Bits of a list of elements' poison, as bytes. -/
def poisonBytes (es : List Elem) : Bytes := plain ((es.zipIdx.filter fun x => x.1.pois).foldl (fun a x => a + 2 ^ x.2) 0) ((es.length + 7) / 8)

/-- The data of elements, then their poison bits: 128 + 4 bytes of a vector register, 16,384 + 512 of an accumulator bank. -/
def elemsBytes (es : List Elem) : Bytes := (es.flatMap fun e => plain e.nat 4) ++ poisonBytes es

/-- n bytes of the fixed block of a group, or of a macro. -/
def freeBytes (fresh n : Nat) : Bytes := (List.range n).map fun i => (Config.imageByte fresh i, false)

/-- The elements of a bank by row and column. -/
def bankElems' (b : Map (List Elem)) : List Elem := (List.range 32).flatMap fun r => mapGetD r (List.replicate 128 Elem.zero) b

/-- The bytes from a to a + n of what a list of cells and a list of poisoned 8-byte words hold. -/
def cellBytes (cells : List Host.Cell) (pois : List Nat) (a n : Nat) : Bytes :=
  (List.range n).map fun i => ((cellGet (a + i) cells).getD 0#8, pois.contains ((a + i) / 8))

/-- A square of the turning store: its bytes, and the poison bit of each 8-byte word. -/
def squareBytes (m : TeamMx) (i : Nat) : Bytes :=
  ((List.range 16384).map fun j => ((cellGet (16384 * i + j) m.ts).getD 0#8, false)) ++
    plain (((List.range 2048).filter fun w => m.tsPois.contains (2048 * i + w)).foldl (fun a w => a + 2 ^ w) 0) 256

/-- The image (R186, R243, R297): groups by GIX, scratchpad, barrier words, of member 0 the cluster-barrier words, macros with their banks,
squares. -/
def Team.imageBytes (t : Team) (cbars : List BarWord) (fresh : Nat) : Bytes :=
  (t.groups.flatMap fun g => freeBytes fresh 4096 ++ (List.range t.cfg.k).flatMap fun r => elemsBytes (mapGetD r Lanes.zero g.2.v))
    ++ cellBytes t.scratch t.scratchPois 0 t.cfg.scratch
    ++ (t.bars.flatMap fun w => plain w.word 8) ++ (if t.tix = 0 then cbars.flatMap fun w => plain w.word 8 else [])
    ++ (t.mx.banks.flatMap fun b => freeBytes fresh 22016 ++ elemsBytes (bankElems' b))
    ++ (List.range t.cfg.tsq).flatMap (squareBytes t.mx)

/-- The physical place of a piece of 128 bytes of a team's image. -/
def State.imagePlace (s : State) (t : Team) (i : Nat) : Place :=
  let r := s.reg (ctxReg t.cfg.ctx 0x38)
  ⟨bits r 51 12 * 4096 + t.image + 128 * i, bits r 11 0, false, 0, 0⟩

/-- The image is written under KEY, piece by piece (R395); the pieces whose write is refused. -/
def State.writeImage (s : State) (t : Team) : Bytes → Nat → Nat → State × List Nat
  | _, _, 0 => (s, [])
  | bs, i, n + 1 =>
    if bs.isEmpty then (s, [])
    else
      let (s1, ok) := s.writePhysP (s.imagePlace t i) (bs.take 128)
      let (s2, lost) := s1.writeImage t (bs.drop 128) (i + 1) n
      (s2, if ok then lost else i :: lost)

/-- The image is read again: pieces that were not written, or cannot be read, are poison. -/
def State.readImage (s : State) (t : Team) : Nat → Nat → State × Bytes
  | _, 0 => (s, [])
  | i, n + 1 =>
    let bad : Bytes := List.replicate 128 (0#8, true)
    let (s1, r) := if t.imageLost.contains i then (s, none) else s.readPhys (s.imagePlace t i) 128
    let (s2, rest) := s1.readImage t (i + 1) n
    (s2, r.getD bad ++ rest)

/-- The first k pieces of n bytes; the bits of bytes, lowest first, those of a poisoned byte all set. -/
def pieces (n : Nat) : Nat → Bytes → List Bytes
  | 0, _ => []
  | k + 1, bs => bs.take n :: pieces n k (bs.drop n)
def bitsOfBytes (bs : Bytes) : List Bool := bs.flatMap fun b => (List.range 8).map fun i => b.2 || bit b.1.toNat i

/-- Elements from an image: their data, then their poison bits. -/
def elemFrom (d : Bytes) (p : Bool) (free : Word) : Elem :=
  ⟨if d.any (·.2) then free else BitVec.ofNat 32 (ofBytes (d.map (·.1))), p || d.any (·.2)⟩
def savedElems (bs : Bytes) (n fresh : Nat) : List Elem :=
  ((pieces 4 n bs).zip (bitsOfBytes (bs.drop (4 * n)))).zipIdx.map fun x => elemFrom x.1.1 x.1.2 (Config.poisonBits fresh x.2)

/-- A group whose fixed block did not come back whole: every element in it is poison (R395). -/
def Group.poisonFixed (g : Group) (fresh : Nat) : Group :=
  let e (i : Nat) : Elem := ⟨Config.poisonBits fresh i, true⟩
  { g with
    s := (List.range 128).map fun r => (r, e r)
    sh := (List.range 16).map fun i => (i, (List.range 16).map e)
    p := g.p.map fun q => { q with pois := BitVec.allOnes 32 }, qPois := BitVec.allOnes 8 }

/-- A group from its part of the image: registers that no write has reached and that read zero stay unlisted. -/
def Group.restore (g : Group) (k fresh : Nat) (bs : Bytes) : Group :=
  let g1 := if (bs.take 4096).any (·.2) then g.poisonFixed fresh else g
  { g1 with v := (List.range k).filterMap fun r =>
      let x := savedElems ((bs.drop (4096 + 132 * r)).take 132) 32 (fresh + r)
      if (mapGet? r g.v).isSome ∨ x ≠ Lanes.zero then some (r, x) else none }

/-- A barrier word from the image; what did not come back is an uncorrectable error in it (R180). -/
def barOf (bs : Bytes) : BarWord :=
  let w := BarWord.ofWord (ofBytes (bs.map (·.1)))
  if bs.any (·.2) then { w with broken := true } else w
def barsOf (bs : Bytes) (n : Nat) : List BarWord := (List.range n).map fun i => barOf ((bs.drop (8 * i)).take 8)

/-- The cells, and the poisoned words, of bytes of an image. -/
def cellsOf (bs : Bytes) : List Host.Cell := (bs.zipIdx.filter fun x => decide (x.1.1 ≠ 0#8)).map fun x => (x.2, x.1.1)
def poisOf (bs : Bytes) : List Nat := ((pieces 8 ((bs.length + 7) / 8) bs).zipIdx.filter fun x => x.1.any (·.2)).map (·.2)

/-- Poison in a macro's cells. -/
def Macro.poisonAll (m : Macro) : Macro :=
  { m with tile := m.tile.map fun c => c.map fun x => x.map fun (v : FVal × Bool) => (v.1, true) }

/-- A bank from the image. -/
def bankOfBytes (old : Map (List Elem)) (bs : Bytes) (fresh : Nat) : Map (List Elem) :=
  let es := savedElems bs 4096 fresh
  (List.range 32).filterMap fun r =>
    let x := (es.drop (128 * r)).take 128
    if (mapGet? r old).isSome ∨ x ≠ List.replicate 128 Elem.zero then some (r, x) else none

/-- Matrix state from its part of the image (R243). -/
def TeamMx.restore (m : TeamMx) (tsq fresh : Nat) (bs : Bytes) : TeamMx :=
  let n := m.macros.length
  let part (i : Nat) : Bytes := bs.drop (38912 * i)
  let square (i : Nat) : Bytes := (bs.drop (38912 * n + 16640 * i)).take 16640
  let data := (List.range tsq).flatMap fun i => (square i).take 16384
  let bad (i : Nat) : List Nat :=
    (((pieces 8 2048 (square i)).zip (bitsOfBytes ((square i).drop 16384))).zipIdx.filter fun x => x.1.2 || x.1.1.any (·.2)).map fun x => 2048 * i + x.2
  { macros := m.macros.zipIdx.map fun x => if ((part x.2).take 22016).any (·.2) then x.1.poisonAll else x.1
    banks := m.banks.zipIdx.map fun x => bankOfBytes x.1 (((part x.2).drop 22016).take 16896) fresh
    ts := cellsOf data
    tsPois := (List.range tsq).flatMap bad }

/-- A team from its image (R185), and the cluster-barrier words of member 0 (R297). -/
def Team.restore (t : Team) (cbars fresh : Nat) (bs : Bytes) : Team × List BarWord :=
  let one := 4096 + 132 * t.cfg.k
  let a := t.groups.length * one
  let b := a + t.cfg.scratch
  let c := b + 8 * t.bars.length
  let nc := if t.tix = 0 then cbars else 0
  let scr := (bs.drop a).take t.cfg.scratch
  ({ t with
      groups := t.groups.zipIdx.map fun x => (x.1.1, x.1.2.restore t.cfg.k fresh ((bs.drop (x.2 * one)).take one))
      scratch := cellsOf scr, scratchPois := poisOf scr, bars := barsOf (bs.drop b) t.bars.length
      mx := t.mx.restore t.cfg.tsq fresh (bs.drop (c + 8 * nc)), imageLost := [] },
    barsOf (bs.drop c) nc)

/-- Step 4 of R185 for one team: its image is written to the part of the save area that is reserved for it. -/
def State.saveImage (s : State) (tid : Nat) (t : Team) : State :=
  match mapGet? t.cluster s.clusters with
  | none => s
  | some c =>
    let bs := t.imageBytes c.bars s.fresh
    let (s1, lost) := State.writeImage { s with fresh := s.fresh + 1 } t bs 0 bs.length
    s1.updTeam tid fun t => { t with imageLost := lost }

/-- The resume of one team restores its image (R185). -/
def State.loadImage (s : State) (tid : Nat) (t : Team) : State :=
  match mapGet? t.cluster s.clusters with
  | none => s
  | some c =>
    let n := ((t.imageBytes c.bars 0).length + 127) / 128
    let (s1, bs) := s.readImage t 0 n
    let (t1, cb) := t.restore c.bars.length s.fresh bs
    { s1 with
      fresh := s1.fresh + 1 + t.cfg.k, teams := mapSet tid t1 s1.teams
      clusters := if t.tix = 0 then mapSet t.cluster { c with bars := cb } s1.clusters else s1.clusters }

end Sys2Proof.Machine
end

