-- ==== Sys2Proof/Machine/Resume.lean ====
section
/-! DEFINITION. Pre-emption of a team's groups and their return to a core (R185 to R187, R297, R395, R413), and the end of a cluster
(R75, R375). -/

namespace Sys2Proof.Machine

open Sys2Proof

/-- Is a cluster being pre-empted, or saved? Its groups are no candidates (R185). -/
def State.frozen (s : State) (cid : Nat) : Bool :=
  match mapGet? cid s.clusters with
  | some c => c.preempting || c.saved
  | none => false

/-- The cluster with which a team is pre-empted: of a mesh group, that of the TEMIT that made it (R251). -/
def Team.with_ (t : Team) : Nat := match t.owner with | some o => o.1 | none => t.cluster

/-- The teams that are pre-empted with a cluster. -/
def State.teamsWith (s : State) (cid : Nat) : List (Nat × Team) := s.teams.filter fun t => decide (t.2.with_ = cid)

/-- A wait when pre-emption falls: SLEEP ends (R126), MTILE, MSETUP and an arrival that has not been applied are issued again (R200, R241, R248,
R294), other waits stay. -/
def Wait.suspend (w : Wait) : Wait :=
  match w with
  | .sleep _ n => .over n
  | .slot _ | .arrive _ _ _ _ _ _ | .carrive _ _ _ _ _ _ => .none
  | w => w.halt

/-- Does the fragment of an entry wait for an arrival? -/
def Group.arriving (g : Group) (entry : Nat) : Bool :=
  match mapGet? entry g.frags with
  | some f => (match f.wait with | .arrive _ _ _ _ _ _ | .carrive _ _ _ _ _ _ => true | _ => false)
  | none => false

/-- Step 1 of R185: a clause in progress is abandoned and will be replayed (R70); waits as they are suspended. -/
def Group.suspend (g : Group) : Group :=
  let g1 := g.interrupt
  { g1 with
    flights := g1.flights.filter fun f => !(decide (f.path = 8 ∧ f.lines = 0) && g1.arriving f.entry)
    frags := g1.frags.map fun f => (f.1, { f.2 with wait := f.2.wait.suspend }) }

/-- Pre-emption of a cluster begins. -/
def State.startPreempt (s : State) (cid : Nat) : State :=
  match mapGet? cid s.clusters with
  | none => s
  | some c =>
    if c.saved || c.preempting then s
    else
      let s1 : State := { s with clusters := mapSet cid { c with preempting := true } s.clusters }
      { s1 with teams := s1.teams.map fun t =>
          if t.2.with_ = cid then (t.1, { t.2 with groups := t.2.groups.map fun g => (g.1, g.2.suspend) }) else t }

/-- Is nothing of the access on its way: of one that copies its data on, everything that has come has been copied? -/
def Flight.home (f : Flight) : Bool :=
  f.parts.all (fun p => decide (p.st ≠ .sent) || (f.copies && p.isCopy)) && (!f.copies || f.got.isEmpty)

/-- Step 2 of R185: are the paths of a group drained? An access of a group that a fault parks is saved as pending (R61); a QPUSH or QPOP that
has been sent is answered first (R382). -/
def Group.drained (g : Group) (parked : Bool) : Bool :=
  g.flights.all fun f => decide (f.path = 7 ∨ f.path = 8) || (decide (f.path = 9) || parked) && f.home

/-- A command whose ranges lie in a team's scratchpad (R375). -/
def State.scratchBusy (s : State) (tid : Nat) : Bool := s.cmds.any fun c => decide (c.2.team = some tid)

/-- Is everything of a team drained: its paths, its scratchpad-side commands, its payloads (R185, R251, R375)? -/
def State.teamDrained (s : State) (tid : Nat) (t : Team) : Bool :=
  (t.groups.all fun g => g.2.drained (s.parked tid g.1)) && !s.scratchBusy tid
    && !(match t.core with
      | some c => (s.core c).rend.slots.any fun q => decide (q.2.team = tid) && q.2.pub.isSome
      | none => false)

/-- The group's accesses have their flushes behind them, its latches are empty (R49, R183). -/
def Group.saved (g : Group) : Group :=
  { g with
    bl := List.replicate 4 none, sl := List.replicate 4 none
    flights := g.flights.map fun f => { f with flush := f.flush.map fun _ => [] } }

/-- The fragment that holds the lane which opened a slot, or the one in the lowest entry when that lane has exited, goes back to the MSETUP
(R251). -/
def Group.reopen (g : Group) (q : Slot) : Group :=
  let e := match g.frags.find? fun f => inMask f.2.own q.lane with
    | some f => some f.1
    | none => (g.frags.head?).map (·.1)
  match e with
  | some e => g.updFrag e fun f => { f with pc := q.pc }
  | none => g

/-- The open slots of a team's groups are freed, and their groups execute MSETUP again (R251). -/
def State.reopenSlots (s : State) (tid c : Nat) : State :=
  let open_ := (s.core c).rend.slots.filter fun q => decide (q.2.team = tid) && q.2.pub.isNone
  let s1 := open_.foldl (fun (s : State) (q : Nat × Slot) =>
    s.updGroup q.2.team q.2.gix fun g => g.reopen q.2) s
  s1.updCore c fun k => { k with rend := { k.rend with slots := k.rend.slots.filter fun q => !(open_.map (·.1)).contains q.1 } }

/-- A draw holds its reserved pixel slots on a core while it has a team or work there (R245). -/
def State.quiet (s : State) (c lid : Nat) : Bool :=
  let r := (s.core c).rend
  !(s.teams.any fun t => decide (t.2.core = some c ∧ t.2.cfg.launch = lid)) && !(r.slots.any fun q => decide (q.2.launch = lid))
    && !(r.meshQ.any fun q => decide (q.launch = lid)) && !(r.work.any fun q => decide (q.launch = lid))
    && !(r.pix.any fun q => decide (q.launch = lid))
def State.dropQuiet (s : State) (c : Nat) : State :=
  if (s.core c).rend.reserved.isEmpty then s
  else s.updCore c fun k => { k with rend := { k.rend with reserved := k.rend.reserved.filter fun r => !s.quiet c r.1 } }

/-- Drop the entries that meet a test; the record of an entry that has not been posted passes to the next entry of its page (R411,
R413). -/
def passRecord (gone : FaultEntry) : List FaultEntry → List FaultEntry
  | [] => []
  | e :: es => if e.ctx = gone.ctx ∧ e.va / 4096 = gone.va / 4096 then { e with record := true } :: es else e :: passRecord gone es
def State.releaseFaults (s : State) (p : FaultEntry → Bool) : State :=
  { s with faults := s.faults.map fun d =>
      (d.1, ((d.2.filter p).filter FaultEntry.record).foldl (fun es g => passRecord g es) (d.2.filter fun e => !p e)) }

/-- Does a fault entry belong to a team? -/
def FaultEntry.ofTeam (tid : Nat) (e : FaultEntry) : Bool :=
  match e.who.group with
  | some (t, _) => decide (t = tid)
  | none => false

/-- Steps 4 and 5 of R185 for one team; a mesh group has no image (log entry 40). -/
def State.saveTeam (s : State) (tid : Nat) : State :=
  match mapGet? tid s.teams with
  | none => s
  | some t => match t.core with
    | none => s
    | some c =>
      let s1 := (s.reopenSlots tid c).releaseFaults (FaultEntry.ofTeam tid)
      let s2 := if t.owner.isNone then s1.saveImage tid t else s1
      (s2.updTeam tid fun t => { t with core := none, groups := t.groups.map fun g => (g.1, g.2.saved) }).dropQuiet c

/-- The cores that the teams of a cluster stand on. -/
def State.coresOf (s : State) (cid : Nat) : List Nat := ((s.teamsWith cid).filterMap fun t => t.2.core).eraseDups

/-- PREEMPT_CLUSTER (R185, R297, R395): when every member has drained, the update-only lines of its cores are flushed; when those are
acknowledged, the members' images are written and their resources freed. -/
def execPreemptCluster (cluster : Nat) (s : State) : Out :=
  match mapGet? cluster s.clusters with
  | none => .next s
  | some c =>
    let ts := s.teamsWith cluster
    let cores := s.coresOf cluster
    if c.preempting = false ∨ (ts.all fun t => s.teamDrained t.1 t.2) = false then .next s
    else if (cores.any fun k => (s.core k).l1.any fun l => match l.2.st with | .uo _ => true | _ => false) = true then
      .next (cores.foldl (fun s k => s.flushCore k) s)
    else if (cores.any fun k => !(s.core k).flushes.isEmpty) = true then .next s
    else
      let ctx := ((ts.map fun t => t.2.cfg.ctx).headD 0)
      let s1 := ts.foldl (fun (s : State) (t : Nat × Team) => s.saveTeam t.1) s
      let s2 : State := { s1 with clusters := mapSet cluster { c with preempting := false, saved := true } s1.clusters }
      let r := s2.reg (ctxReg ctx 0x58)
      .next (s2.setReg (ctxReg ctx 0x58) (setBits r 63 32 (addW (bits r 63 32) 1)))

/-- The accesses of a group that were saved as pending walk again (R413); none while a fault buffer has no room. -/
def State.rewalk (s : State) (tid gix core fid : Nat) : List (Part × Nat) → Option State
  | [] => some s
  | (p, i) :: ps =>
    if p.st = .faulted then
      match s.resolvePart tid gix core fid i p with
      | none => none
      | some (s1, q) => (s1.updGroup tid gix fun g => g.updPart fid i fun _ => q).rewalk tid gix core fid ps
    else s.rewalk tid gix core fid ps
def State.rewalkFlights (s : State) (tid gix core : Nat) : List Flight → Option State
  | [] => some s
  | f :: fs => match s.rewalk tid gix core f.id f.parts.zipIdx with
    | none => none
    | some s1 => s1.rewalkFlights tid gix core fs
def State.rewalkGroups (s : State) (tid core : Nat) : List (Nat × Group) → Option State
  | [] => some s
  | (gix, g) :: gs => match s.rewalkFlights tid gix core g.flights with
    | none => none
    | some s1 => s1.rewalkGroups tid core gs

/-- A saved team takes its place on a core (R185): its image is restored, and its groups are candidates again, on their ports. -/
def State.resumeTeam (s0 : State) (tid core : Nat) (port : Option Nat) : Option State :=
  let s := match mapGet? tid s0.teams with
    | some t => if t.owner.isNone then s0.loadImage tid t else s0
    | none => s0
  match mapGet? tid s.teams with
  | none => some s
  | some t =>
    let t1 : Team := { t with
      core := some core
      groups := t.groups.map fun g => (g.1, { g.2 with port := port.getD g.2.port, age := s.clock }) }
    match State.rewalkGroups (State.giveSlots { s with teams := mapSet tid t1 s.teams } core tid) tid core t1.groups with
    | none => none
    | some s1 => some (t1.groups.foldl (fun (s : State) (g : Nat × Group) => wakePaths (s.pump tid g.1) tid g.1) s1)
def State.resumeTeams (s : State) : List (Nat × Nat) → Option State
  | [] => some s
  | (tid, c) :: ts => match s.resumeTeam tid c none with
    | none => none
    | some s1 => s1.resumeTeams ts

/-- The mesh groups that a member's TEMIT has queued follow it to its new core. -/
def State.moveMeshQ (s : State) (cid tix core : Nat) : State :=
  let mine (q : MeshReq) : Bool := decide (q.owner = (cid, tix))
  let moved := s.cores.flatMap fun c => c.2.rend.meshQ.filter mine
  if moved.isEmpty then s
  else
    let s1 : State := { s with cores := s.cores.map fun c => (c.1, { c.2 with rend := { c.2.rend with meshQ := c.2.rend.meshQ.filter fun q => !mine q } }) }
    s1.updCore core fun k => { k with rend := { k.rend with meshQ := k.rend.meshQ ++ moved } }

/-- A saved cluster resumes on a rectangle (R185, R297). -/
def State.resumeCluster (s : State) (cid : Nat) (c : Cluster) (l : Launch) (cs : List Nat) : Option State :=
  let s1 : State := { s with clusters := mapSet cid { c with saved := false, since := s.clock, ripe := false } s.clusters }
  match s1.resumeTeams (c.teams.zip cs) with
  | none => none
  | some s2 => some (cs.zipIdx.foldl (fun (s : State) (k : Nat × Nat) => (s.reservePix k.1 c.launch l).moveMeshQ cid k.2 k.1) s2)

/-- A cluster has ended when its groups have retired and no command uses a scratchpad of it (R75, R375): its resources are free. -/
def State.reapCluster (s : State) (cid : Nat) : State :=
  match mapGet? cid s.clusters with
  | none => s
  | some c =>
    let busy := c.teams.any fun t => (match mapGet? t s.teams with | some tm => !tm.groups.isEmpty | none => false) || s.scratchBusy t
    if busy then s
    else { s with
      teams := s.teams.filter fun t => !c.teams.contains t.1
      clusters := mapDel cid s.clusters
      launches := mapUpd c.launch (fun (l : Launch) => { l with ended := l.ended + 1 }) s.launches }

/-- The cluster of a team, when a command of its scratchpad has ended. -/
def State.reapTeam (s : State) (tid : Nat) : State :=
  match mapGet? tid s.teams with
  | some t => s.reapCluster t.cluster
  | none => s

end Sys2Proof.Machine
end

