-- ==== Sys2Proof/Machine/Fetch.lean ====
section
/-! DEFINITION. Fetching an instruction (R93, R94, R407, R410), LOOP (R116) and ULDK (R122). -/

namespace Sys2Proof.Machine

open Sys2Proof

/-- What a fetch comes to. -/
inductive Fetched where
  | ok (i : Instr) (words : Nat)
  /-- A trap of decoding: the code, whether in a clause it is an illegal instruction instead (R69, R93), and the guard of a word of the
  lane set, which gives active(F) (R55, R74). -/
  | bad (code : Nat) (barred : Bool) (guard : Option Guard)
  /-- A word does not translate: its address, and the walk. -/
  | fault (va : Nat) (w : WalkFault)
  /-- The fault buffer has no room (R411). -/
  | wait
  deriving DecidableEq, Repr

/-- The line of a core's instruction cache that a launch may fetch from: one that was filled after the launch was accepted, so that it holds every
word that was visible before (R95). -/
def State.codeLine (s : State) (core lid : Nat) (p : Place) : Option CodeLine :=
  match mapGet? (lineNo p.pa) (s.core core).icode with
  | some l => if l.key = p.key ∧ lid < l.at_ then some l else none
  | none => none

/-- A fetched line takes its place in the instruction cache. -/
def State.keepCode (s : State) (core : Nat) (p : Place) : State :=
  s.updCore core fun c => { c with icode := mapSet (lineNo p.pa) ⟨p.key, (s.peekLine p).bytes, s.nextId + 1⟩ c.icode }

/-- Four bytes of a line. -/
def wordOfLine (bs : List Byte) (pa : Nat) : Nat := ofBytes ((bs.drop (pa % 128)).take 4)

/-- A word of an instruction (R95): as memory holds it, or, where the core's instruction cache holds another, either; which is a free value (log
entry 64). A fetch that is refused delivers a free value (log entry 11). -/
def State.fetchWord (s : State) (core ctx lid va : Nat) : State × Except (Option (Nat × WalkFault)) Word :=
  if s.mustWait (dieOf (coreStop core)) ctx va then (s, .error none)
  else match s.translate ctx va permX with
  | (s1, .error w) => (s1, .error (some (va, w)))
  | (s1, .ok p) => match s1.peekPhys p 4 with
    | none => (s1, .ok (BitVec.ofNat 32 (ofBytes ((List.range 4).map fun i => Config.remoteByte s.fresh (p.pa + i)))))
    | some bs => force (ofBytes (bs.map (·.1))) fun w =>
      if spaceOf p.pa ≠ .hbm then (s1, .ok (BitVec.ofNat 32 w))
      else match s1.codeLine core lid p with
        | none => (s1.keepCode core p, .ok (BitVec.ofNat 32 w))
        | some l =>
          let old := wordOfLine l.bytes p.pa
          if old = w then (s1, .ok (BitVec.ofNat 32 w))
          else if Config.oldCode s.fresh va then (s1, .ok (BitVec.ofNat 32 old))
          else (s1.keepCode core p, .ok (BitVec.ofNat 32 w))

/-- A fetch fault parks the group with TRAPPC at the main word (R93, R410). -/
def Group.fetchFault (pc : Dword) (g : Group) : Group := { g with sp := { g.sp with trappc := pc } }

/-- The guard that a main word of the lane set and its extension word name, decodable or not. -/
def laneGuard (w x : Word) : Option Guard :=
  if bit w.toNat 31 = false ∧ bit x.toNat 12 = true then some ⟨BitVec.ofNat 3 (bits x.toNat 16 14), bit x.toNat 13⟩ else none

/-- What a decoding comes to. -/
def ofDecoded (d : Decoded) (w x : Word) : Fetched :=
  match d with
  | .ok i n => .ok i n
  | .illegalInstr => .bad tcIllegalInstr true (laneGuard w x)
  | .illegalOperand b => .bad tcIllegalOperand b (laneGuard w x)
  | .short _ => .bad tcIllegalInstr true (laneGuard w x)

/-- What a failed fetch comes to. -/
def ofFetchError (e : Option (Nat × WalkFault)) : Fetched :=
  match e with
  | some (va, w) => .fault va w
  | none => .wait

/-- Fetch and decode the instruction at an address (R93): every word of it is fetched before any check. -/
def State.fetchInstr (s : State) (core ctx lid pc : Nat) : State × Fetched :=
  match s.fetchWord core ctx lid pc with
  | (s1, .error e) => (s1, ofFetchError e)
  | (s1, .ok w) =>
    let long := bit w.toNat 30
    match (if long then s1.fetchWord core ctx lid (pc + 4) else (s1, .ok shortExt)) with
    | (s2, .error e) => (s2, ofFetchError e)
    | (s2, .ok x) =>
      let have_ := if long then 2 else 1
      let n := wordCount w x
      if n = have_ then (s2, ofDecoded (decodeWords w x 0#32) w x)
      else match s2.fetchWord core ctx lid (pc + 4 * have_) with
        | (s3, .error e) => (s3, ofFetchError e)
        | (s3, .ok t) => (s3, ofDecoded (decodeWords w x t) w x)

/-- The address after the instruction at a target of LOOP, or why there is none (R116): its decoding in full, the checks of its operands that need
the group included. -/
def Env.afterTarget (e : Env) (s : State) (le : Dword) : State × Except Stop (Option Dword) :=
  match s.fetchInstr (e.core s) e.cfg.ctx e.cfg.launch le.toNat with
  | (s1, .ok i n) =>
    let legal := match i.split with | some (o, x) => operandsLegal o x e.g e.cfg false | none => true
    if legal then (s1, .ok (some (le + BitVec.ofNat 64 (4 * n)))) else (s1, illOp)
  | (s1, .bad c _ _) => (s1, .error (.trap { code := c }))
  | (s1, .wait) => (s1, .error .stall)
  | (s1, .fault va w) =>
    let d := dieOf (coreStop (e.core s1))
    if s1.faultsFull d 1 then (s1, .error .stall)
    else ((s1.updGroup e.iss.team e.iss.gix (Group.fetchFault e.pc)).addFault d e.cfg.ctx va w 4 (coreStop (e.core s1))
      (.fetch e.iss.team e.iss.gix e.iss.entry) 1, .ok none)

/-- The lowest inactive loop level opens (R116). -/
def Frag.openLoop (f : Frag) (n : Word) (ls le : Dword) : Frag :=
  let l : Loop := ⟨true, n, ls, le⟩
  if f.loop0.active then { f with loop1 := l } else { f with loop0 := l }

/-- LOOP (R116). -/
def execLoop (x : Args) (s : State) : Out :=
  run .loop x s fun e s1 =>
    let c := e.g.srcU x.c
    let le := offTarget e
    let full := match mapGet? e.iss.entry e.g.frags with
      | some f => f.loop0.active && f.loop1.active
      | none => false
    if c.pois then poisonTrap none 0
    else if badAddr le then .error (.trap { code := tcRange, addr := le })
    else if le.toNat < e.next.toNat then progErr
    else if full then progErr
    else if c.nat = 0 then
      match e.afterTarget s1 le with
      | (_, .error st) => .error st
      | (s2, .ok none) => .ok (s2, .hold)
      | (s2, .ok (some p)) => .ok (s2, .jump p)
    else .ok (s1.updGroup e.iss.team e.iss.gix fun g =>
      g.updFrag e.iss.entry fun f => f.openLoop c.val e.next le, .seq)

/-- The copy of a launch record, or of the argument block, that ULDK reads (R122). -/
def Env.uldkRegion (e : Env) (s : State) (region : Nat) : List Byte :=
  match mapGet? e.cfg.launch s.launches with
  | some l => if region = 0 then l.rcd else l.args
  | none => []

/-- ULDK (R122). -/
def execUldk (x : Args) (s : State) : Out :=
  run .uldk x s fun e s1 =>
    let n := fldIdx x.b
    let off := x.m
    let bs := e.uldkRegion s1 (fldIdx x.a)
    if off + 4 * n > min bs.length 4096 then progErr
    else .ok (s1.updGroup e.iss.team e.iss.gix fun g =>
      g.setSs (uDst x.d) ((List.range n).map fun i =>
        if e.gp then ⟨Config.poisonBits e.fresh i, true⟩ else elemOf (ofBytes ((bs.drop (off + 4 * i)).take 4))), .seq)

end Sys2Proof.Machine
end

