-- ==== Sys2Proof/Machine/Matrix.lean ====
section
/-! DEFINITION. The matrix engine: lines, passes, macros, accumulators, write-back (R215 to R229, R234 to R236). -/

namespace Sys2Proof.Machine

open Sys2Proof

/-- The family of a line format, and of a macro's tile (R218). -/
def famOf (f : Fmt) : Family :=
  match f with
  | .int8 => .int8
  | .bf16 => .bf16
  | .fp16 => .fp16
  | .sx7 | .sx4x | .sx2x | .e4m3 | .e5m2 => .sx
  | _ => .none

/-- Columns of a tile: 128 for the one-byte families, 64 for the others (R216). -/
def famN (f : Family) : Nat :=
  match f with
  | .bf16 | .fp16 => 64
  | _ => 128

/-- Formats that the column axis admits (R218). -/
def colOk (f : Fmt) : Bool := f == .e4m3 || f == .e5m2 || f == .int8 || f == .bf16 || f == .fp16

/-- Formats whose lines are encoded to SX7 blocks when they are read (R220). -/
def isE8 (f : Fmt) : Bool := f == .e4m3 || f == .e5m2

/-- Bytes of an element of a line, and of a line of L elements on the row axis (R218). -/
def elemW (f : Fmt) : Nat := if f == .bf16 || f == .fp16 then 2 else 1
def rowBytes (f : Fmt) (n : Nat) : Nat :=
  match f with
  | .sx7 => n / 16 * 18
  | .sx4x | .sx2x => n + n / 16
  | .fp32 | .int32 => 4 * n
  | .bf16 | .fp16 => 2 * n
  | _ => n

/-- A line to be read (R217): in scratchpad, on the column axis, its format, offset and length. -/
structure LineAt where
  sp : Bool
  col : Bool
  f : Fmt
  o : Nat
  n : Nat
  deriving DecidableEq, Repr

/-- The bytes of a team's space, with the poison of their words (R179, R216). -/
def Team.arrByte (t : Team) (sp : Bool) (o : Nat) : Byte × Bool :=
  if sp then ((cellGet o t.scratch).getD 0#8, t.scratchPois.contains (o / 8))
  else ((cellGet o t.mx.ts).getD 0#8, t.mx.tsPois.contains (o / 8))

/-- The size of the space (R219). -/
def Team.arrSize (t : Team) (sp : Bool) : Nat := if sp then t.cfg.scratch else 16384 * t.cfg.tsq

/-- Write bytes; words written whole lose their poison (R179, R194). -/
def Team.putArr (t : Team) (sp : Bool) (o : Nat) (bs : List Byte) : Team :=
  let ov := cellPuts o bs []
  let clean := wholeWords ov
  let put (m : List Host.Cell) : List Host.Cell := ov.foldl (fun m c => cellPutZ c.1 c.2 m) m
  if sp then { t with scratch := put t.scratch, scratchPois := t.scratchPois.filter fun w => !clean.contains w }
  else { t with mx := { t.mx with ts := put t.mx.ts, tsPois := t.mx.tsPois.filter fun w => !clean.contains w } }

/-- Poison a word. -/
def Team.poisonArr (t : Team) (sp : Bool) (o : Nat) : Team :=
  let add (l : List Nat) : List Nat := if l.contains (o / 8) then l else l ++ [o / 8]
  if sp then { t with scratchPois := add t.scratchPois } else { t with mx := { t.mx with tsPois := add t.mx.tsPois } }

/-- Alignment of a line, and its range (R217, R219). -/
def LineAt.mis (x : LineAt) : Bool :=
  if x.col then decide (x.o % elemW x.f ≠ 0 ∨ x.o % 16384 + elemW x.f > 128) else decide (x.o % 8 ≠ 0)
def LineAt.out (t : Team) (x : LineAt) : Bool :=
  if x.col then decide (x.o / 16384 ≥ t.cfg.tsq) else decide (x.o + rowBytes x.f x.n > t.arrSize x.sp)

/-- The trap code of a line's failure (R219). -/
def lineCode (mis sp : Bool) : Nat :=
  if mis then (if sp then tcMisScratch else tcMisTurning) else if sp then tcRangeScratch else tcRangeTurning

/-- One phase of the check of the lines of every active lane (R219): alignment of all, then range of all. -/
def Env.linePhase (e : Env) (bad : LineAt → Bool) (mis : Bool) (lanes : Nat → List LineAt) : Except Stop Unit :=
  let m := e.lanesWith fun l => (lanes l).any bad
  match ((lanesOf m).map lanes).head? with
  | none => .ok ()
  | some xs => match xs.find? bad with
    | none => .ok ()
    | some x => .error (.trap { code := lineCode mis x.sp, mask := some m, addr := BitVec.ofNat 64 x.o })
def Env.checkLines (e : Env) (t : Team) (lanes : Nat → List LineAt) : Except Stop Unit := do
  e.linePhase LineAt.mis true lanes
  e.linePhase (LineAt.out t) false lanes

/-- The check of the lines of a uniform instruction, or of a step of a tile sequence. -/
def checkLinesU (t : Team) (xs : List LineAt) : Except Stop Unit :=
  match xs.find? LineAt.mis with
  | some x => .error (.trap { code := lineCode true x.sp, addr := BitVec.ofNat 64 x.o })
  | none => match xs.find? (LineAt.out t) with
    | some x => .error (.trap { code := lineCode false x.sp, addr := BitVec.ofNat 64 x.o })
    | none => .ok ()

/-- What a line reads as (R220): elements with their poison, flags, and whether an expanded element byte is malformed. -/
structure LineRead where
  el : List (FVal × Bool)
  fl : Nat
  bad : Bool
  deriving DecidableEq, Repr

/-- The value of an element of a block (R29). -/
def sxVal (e n : Nat) (m s : Bool) (mag : Nat) : FVal := if e = 0xFF then .nan false else .fin s mag (sxUnit e n m)

/-- Sixteen values encoded to an SX7 block and read back (R220). -/
def viaSx7 (xs : List FVal) (mode : Rnd) (draw : Nat → Nat) : List FVal × Nat :=
  let (b, fls) := sxEncode xs 7 mode draw false
  ((List.range 16).map fun i => (fun (p : Bool × Nat) => sxVal b.e 7 (b.m.getD (i / 2) false) p.1 p.2) (b.el.getD i (false, 0)),
    fls.foldl (· ||| ·) 0)

/-- An 8-bit integer element: −128 is read as −127 and sets SATD (R220). -/
def int8Elem (x : Nat) : FVal × Nat :=
  if x = 0x80 then (.fin true 127 0, flSATD) else if x < 128 then (.fin false x 0, 0) else (.fin true (256 - x) 0, 0)

/-- Read a line (R220); `draw i` is the draw of element i. -/
def Team.readLine (t : Team) (x : LineAt) (mode : Rnd) (draw : Nat → Nat) : LineRead :=
  let at_ (k : Nat) : Byte × Bool := t.arrByte x.sp (x.o + k)
  let w := elemW x.f
  let off (i : Nat) : Nat := if x.col then 128 * i else w * i
  match x.f with
  | .int8 =>
    let es := (List.range x.n).map fun i => let (b, p) := at_ (off i); (int8Elem b.toNat, p)
    ⟨es.map fun q => (q.1.1, q.2), es.foldl (fun a q => if q.2 then a else a ||| q.1.2) 0, false⟩
  | .bf16 | .fp16 =>
    ⟨(List.range x.n).map fun i =>
      let (b, p) := at_ (off i)
      let (c, q) := at_ (off i + 1)
      ((fspecOf x.f).unpack (b.toNat + 256 * c.toNat), p || q), 0, false⟩
  | .e4m3 | .e5m2 =>
    let blocks := (List.range (x.n / 16)).map fun q =>
      let bs := (List.range 16).map fun i => at_ (off (16 * q + i))
      let p := bs.any (·.2)
      let (vs, fl) := viaSx7 (bs.map fun b => (fspecOf x.f).unpack b.1.toNat) mode fun i => draw (16 * q + i)
      (vs.map fun v => (v, p), if p then 0 else fl)
    ⟨blocks.flatMap (·.1), blocks.foldl (fun a b => a ||| b.2) 0, false⟩
  | .sx7 =>
    ⟨(List.range x.n).map fun i =>
      let q := i / 16
      let (e, p) := at_ (18 * q)
      let (m, p') := at_ (18 * q + 1)
      let (b, p'') := at_ (18 * q + 2 + i % 16)
      (sxVal e.toNat 7 (bit m.toNat (i % 16 / 2)) (bit b.toNat 7) (b.toNat % 128), p || p' || p''), 0, false⟩
  | f =>
    let n := sxN f
    let es := (List.range x.n).map fun i =>
      let (e, p) := at_ (x.n + i / 16)
      let (ev, p') := at_ (i / 2 * 2)
      let (b, p'') := at_ i
      -- the other bits of a NaN block are not read (R29)
      (((sxVal e.toNat n (bit ev.toNat 6) (bit b.toNat 7) (b.toNat % 64), p || p' || p'') : FVal × Bool),
        decide (e.toNat ≠ 0xFF) && decide (b.toNat % 64 / 2 ^ n ≠ 0))
    ⟨es.map (·.1), 0, es.any (·.2)⟩

/-- The integer of an INT8 element. -/
def FVal.int : FVal → Int
  | .fin n m _ => if n then -(m : Int) else m
  | _ => 0

/-- One element of the result of a pass (R221): its factors are the present cells against the line. -/
def passElem (fam : Family) (za bad : Bool) (fs : List ((FVal × Bool) × (FVal × Bool))) (old : Elem) (fresh : Nat → Word) : Elem × Nat :=
  let pois := bad || (fs.any fun f => f.1.2 || f.2.2) || (!za && old.pois)
  let (v, fl) : Nat × Nat := match fam with
    | .int8 =>
      let s := fs.foldl (fun a f => a + f.1.1.int * f.2.1.int) (0 : Int)
      (wrapI (s + if za then 0 else sext old.nat 32) 32, 0)
    | _ =>
      let ts := fs.map fun f => mulTerm f.1.1 f.2.1
      let o := (fp32.unpack old.nat).term
      let all := if za then ts else ts ++ [o]
      match sumTerms all with
      | (.val d _, f) =>
        -- the zero of the products alone is positive when there are none of them
        let neg := if za then (match sumTerms ts with | (.val _ n, _) => n | _ => false)
          else (match sumTerms ts, o.1 with | (.val _ n, _), .val _ m => n && m | _, _ => false)
        fp32.ofTerm .rne 0 (.val d (if d.m = 0 then neg else decide (d.m < 0)), f)
      | r => fp32.ofTerm .rne 0 r
  if pois then (⟨fresh v, true⟩, 0) else (elemOf v, fl)

/-- A row of a bank: 128 elements (R216). -/
def TeamMx.row (x : TeamMx) (b r : Nat) : List Elem := mapGetD r (List.replicate 128 Elem.zero) (x.banks.getD b [])
def TeamMx.setRow (x : TeamMx) (b r : Nat) (es : List Elem) : TeamMx := { x with banks := listUpd b (mapSet r es) x.banks }

/-- The cells that meet element j of the result of a pass, with the line (R221). -/
def passFactors (tile : List (List (Option (FVal × Bool)))) (fwd : Bool) (line : List (FVal × Bool)) (j : Nat) :
    List ((FVal × Bool) × (FVal × Bool)) :=
  let cells : List (Option (FVal × Bool)) := if fwd then tile.getD j [] else tile.map fun c => c.getD j none
  (line.zip cells).filterMap fun p => p.2.map fun c => (p.1, c)

/-- A pass (R221): the matrix state after it, and its flags; an error in its row of the row buffer poisons every result (R244). -/
def TeamMx.pass (x : TeamMx) (fam : Family) (fwd : Bool) (line : List (FVal × Bool)) (m b row : Nat) (za bad : Bool) (fresh : Nat) :
    TeamMx × Nat :=
  let tile := match x.macros[m]? with | some k => k.tile | none => []
  let old := x.row b row
  let n := if fwd then famN fam else 128
  let rs := (List.range n).map fun j =>
    passElem fam za bad (passFactors tile fwd line j) (old.getD j Elem.zero) fun _ => Config.poisonBits fresh (128 * row + j)
  (x.setRow b row (rs.map (·.1) ++ old.drop n), rs.foldl (fun a r => a ||| r.2) 0)

/-- The team of an issuer. -/
def Env.team? (e : Env) (s : State) : Option Team := mapGet? e.iss.team s.teams

/-- Have the group's earlier accesses of the team's spaces been performed, and everything that arrived there before (R178,
R226, R233)? A line is read only then. -/
def Env.spacesIdle (e : Env) (s : State) : Bool :=
  let c := s.core (e.core s)
  !(c.scrQ.any fun o => decide (o.team = e.iss.team)) && !(c.tsQ.any fun o => decide (o.team = e.iss.team)) &&
    !(e.g.flights.any fun f => f.parts.any fun p => p.held && (match p.req.tgt with | .scratch _ => true | .turning => true | _ => false))

/-- A part that a unit of the core performs: it is under way at once. -/
def Env.unitPart (e : Env) (s : State) (i : Nat) : Part :=
  { e.part s i (.load 0 false) [] Place.none .unit false with st := .sent }

/-- A command of the matrix engine takes its place: counted on path 6, with one part for each command (R224, R226). DESIGN CHOICE (log entry 70):
the core's queues to its coprocessors (R184) hold any number of commands. -/
def Env.queueMx (e : Env) (s : State) (ops : List MxOp) : Except Stop State :=
  let f := e.flight s 6 .none false false
  match issueFlight e s { f with parts := (List.range ops.length).map fun i => e.unitPart s i } with
  | .error st => .error st
  | .ok s1 => .ok (s1.updCore (e.core s1) fun c =>
      { c with mx := ⟨c.mx.q ++ ops.zipIdx.map fun (o, i) => ⟨e.iss.team, e.iss.gix, f.id, i, o⟩⟩ })

/-- Is a command a pass? -/
def MxOp.isPass : MxOp → Bool
  | .pass _ _ _ _ _ _ _ _ => true
  | _ => false

/-- Room in the row buffer of 32 rows (R216, R224). Lines that could never stand there at once pass through it when it is empty. -/
def rowRoom (c : Core) (n : Nat) : Bool :=
  let used := (c.mx.q.filter fun k => k.op.isPass).length
  decide (used = 0 ∨ used + n ≤ 32)

/-- Flags and the step of the generator, on the group in the state (R40, R46). -/
def Env.raiseRng (e : Env) (s : State) (fl : Nat) (rng : Bool) : State :=
  s.updGroup e.iss.team e.iss.gix fun g => let g1 := g.raise fl; if rng then g1.stepRng else g1

/-- MMA and MMDUAL (R223, R224). -/
def matrixMul (o : Op) (dual : Bool) (x : Args) (s : State) : Out :=
  run o x s fun e s1 =>
    let d := fldIdx x.d
    let b := bits d 2 0
    let m := bits d 6 4
    let c := fldIdx x.c
    let f := (slotFmt e.cfg.fs x.fs.toNat).getD .fp32
    let mode := Rnd.ofCode (bits x.m 2 0)
    let (spa, spb, cola, colb) := (bit x.m 6, bit x.m 5, bit x.m 4, bit x.m 3)
    let oa (l : Nat) : Elem := laneAt (e.g.srcV .int x.a) l
    let ob (l : Nat) : Elem := laneAt (e.g.srcV .int x.b) l
    match e.team? s1 with
    | none => .error .stall
    | some t => do
      if (cola && (spa || !colOk f)) || (dual && colb && (spb || !colOk f)) then illOp
      let fam := match t.mx.macros[m]? with | some k => k.fam | none => .none
      if fam ≠ famOf f ∨ fam = .none then progErr
      let lines (l : Nat) : List LineAt :=
        [⟨spa, cola, f, (oa l).nat, 128⟩] ++ (if dual then [⟨spb, colb, f, (ob l).nat, famN fam⟩] else [])
      e.check tcPoison (fun l => (oa l).nat) fun l => (oa l).pois || (dual && (ob l).pois)
      e.checkLines t lines
      if e.act = 0#32 then .ok (s1, .seq)
      else if !e.spacesIdle s1 || !rowRoom (s1.core (e.core s1)) ((if dual then 2 else 1) * popcount e.act.toNat 32) then .error .stall
      else
        let reads (l : Nat) : List LineRead := (lines l).zipIdx.map fun (y, i) => t.readLine y mode fun j => e.draw l (128 * i + j)
        let bad := e.lanesWith fun l => (reads l).any LineRead.bad
        if bad ≠ 0#32 then
          let l0 := (lanesOf bad).headD 0
          let at_ := (((lines l0).zip (reads l0)).find? fun p => p.2.bad).map (·.1.o)
          .error (.trap { code := tcIllegalOperand, mask := some bad, addr := BitVec.ofNat 64 (at_.getD 0) })
        else
          let za := bit x.m 7
          let ops := (lanesOf e.act).flatMap fun l => (reads l).zipIdx.map fun (r, i) =>
            MxOp.pass fam (decide (i = 0)) r.el m (if i = 0 then b else c) l za false
          let fl := (lanesOf e.act).foldl (fun a l => (reads l).foldl (fun a r => a ||| r.fl) a) 0
          match e.queueMx s1 ops with
          | .error st => .error st
          | .ok s2 => .ok (e.raiseRng s2 fl (decide (mode = .sr) && isE8 f), .seq)

/-- MMA (R224). -/
def execMma (x : Args) (s : State) : Out := matrixMul .mma false x s
/-- MMDUAL (R224). -/
def execMmdual (x : Args) (s : State) : Out := matrixMul .mmdual true x s

/-- The bank, the macro that a command names (R226). -/
def MxOp.names : MxOp → List (Bool × Nat)
  | .pass _ _ _ m b _ _ _ => [(false, m), (true, b)]
  | .load m _ => [(false, m)]
  | .wb b _ _ _ _ _ _ _ _ => [(true, b)]
def MxCmd.conflicts (x y : MxCmd) : Bool := decide (x.team = y.team) && x.op.names.any fun n => y.op.names.contains n

/-- The first command of a kind that no earlier command of its macro or bank holds (R226). -/
def pickMx (p : MxOp → Bool) : List MxCmd → List MxCmd → Option MxCmd
  | _, [] => none
  | before, c :: cs => if p c.op && !(before.any fun b => b.conflicts c) then some c else pickMx p (before ++ [c]) cs

/-- A command has been performed: it leaves the queue, and its access has one part less under way. -/
def State.doneMx (s : State) (core : Nat) (c : MxCmd) : State :=
  (s.updCore core fun k => { k with mx := ⟨removeFirst (fun d => decide (d = c)) k.mx.q⟩ }).updGroup c.team c.gix fun g =>
    g.partDone c.fl c.pt [] 0 0 0

/-- MATRIX_PASS (R221, R226): the next pass that may be performed; its flags enter FLAGS of the issuing group. -/
def execMatrixPass (core : Nat) (s : State) : Out :=
  match pickMx MxOp.isPass [] (s.core core).mx.q with
  | none => .next s
  | some c => match c.op, mapGet? c.team s.teams with
    | .pass fam fwd line m b row za bad, some t =>
      let (mx, fl) := t.mx.pass fam fwd line m b row za bad s.fresh
      let s1 : State := { s with teams := mapSet c.team { t with mx := mx } s.teams, fresh := s.fresh + 1 }
      .next ((s1.doneMx core c).updGroup c.team c.gix fun g => g.raise fl)
    | _, _ => .next s

/-- A tile takes effect: FORMAT at issue, the cells when the command is performed (R227). -/
def TeamMx.setFam (x : TeamMx) (m : Nat) (f : Family) : TeamMx := { x with macros := listUpd m (fun (k : Macro) => { k with fam := f }) x.macros }
def TeamMx.setTile (x : TeamMx) (m : Nat) (t : List (List (Option (FVal × Bool)))) : TeamMx :=
  { x with macros := listUpd m (fun (k : Macro) => { k with tile := t }) x.macros }

/-- MACRO_TILE_LOAD (R226, R227). -/
def execMacroTileLoad (core : Nat) (s : State) : Out :=
  match pickMx (fun o => match o with | .load _ _ => true | _ => false) [] (s.core core).mx.q with
  | none => .next s
  | some c => match c.op, mapGet? c.team s.teams with
    | .load m tile, some t =>
      .next (State.doneMx { s with teams := mapSet c.team { t with mx := t.mx.setTile m tile } s.teams } core c)
    | _, _ => .next s

/-- The load of a macro at issue: FORMAT, counter, queue, flags, generator (R227); `read` says whether anything was read, not filled: only then is
anything drawn (R40). -/
def Env.loadMacro (e : Env) (s : State) (m : Nat) (f : Fmt) (tile : List (List (Option (FVal × Bool)))) (fl : Nat) (mode : Rnd) (read : Bool) :
    Except Stop (State × Ctl) :=
  match e.queueMx s [.load m tile] with
  | .error st => .error st
  | .ok s1 =>
    let s2 := s1.updTeam e.iss.team fun t => { t with mx := t.mx.setFam m (famOf f) }
    .ok (e.raiseRng s2 fl (decide (mode = .sr) && isE8 f && read), .seq)

/-- The draw of element (k, n) of a macro's tile (R227). -/
def tileDraw (rng : Dword) (n k : Nat) : Nat := drawOf rng.toNat (n % 32) (128 * (n / 32) + k)

/-- Lines read into a tile: its columns, flags, and the first malformed line (R227). -/
def Team.readTile (t : Team) (xs : List LineAt) (mode : Rnd) (rng : Dword) : List LineRead :=
  xs.zipIdx.map fun (x, n) => t.readLine x mode (tileDraw rng n)

/-- MBLD (R227). -/
def execMbld (x : Args) (s : State) : Out :=
  run .mbld x s fun e s1 =>
    let a := e.g.srcU x.a
    let b := e.g.srcU x.b
    let f := (slotFmt e.cfg.fs x.fs.toNat).getD .fp32
    let mode := Rnd.ofCode (bits x.m 2 0)
    let (sp, col) := (bit x.m 3, bit x.m 4)
    match e.team? s1 with
    | none => .error .stall
    | some t =>
      if col && (sp || !colOk f) then illOp
      else if a.pois || b.pois then poisonTrap none 0
      else do
        let n := famN (famOf f)
        let lines := (List.range n).map fun i => (⟨sp, col, f, a.nat + i * (if col then elemW f else b.nat), 128⟩ : LineAt)
        if col ∧ a.nat % 16384 ≠ 0 then .error (.trap { code := tcMisTurning, addr := BitVec.ofNat 64 a.nat })
        checkLinesU t lines
        if !e.spacesIdle s1 then .error .stall
        let rs := t.readTile lines mode e.g.sp.rngstate
        match (lines.zip rs).find? fun p => p.2.bad with
        | some p => .error (.trap { code := tcIllegalOperand, addr := BitVec.ofNat 64 p.1.o })
        | none => e.loadMacro s1 (fldIdx x.d) f (rs.map fun r => r.el.map some) (rs.foldl (fun a r => a ||| r.fl) 0) mode true

/-- A word of a shape register. -/
def Group.shWord (g : Group) (i w : Nat) : Nat := ((g.shape i).getD w Elem.zero).nat
/-- Is a word of the shape register poisoned? -/
def Group.shPois (g : Group) (i : Nat) : Bool := (g.shape i).any Elem.pois

/-- FILL of a region of lines (R237): an element read in FMT; for the SX family read as FP32. A fill is no arithmetic, and sets no flag (R46). -/
def fillElem (f : Fmt) (w : Nat) : FVal :=
  match famOf f with
  | .int8 => (int8Elem (w % 256)).1
  | .sx => match fp32.unpack w with
    | .fin n m e => (viaSx7 (List.replicate 16 (.fin n m e)) .rne fun _ => 0).1.headD (.fin false 0 0)
    | _ => .nan false
  | _ => (fspecOf f).unpack (w % 65536)

/-- A 32-bit word of the arrays of a gather descriptor, checked under R219; a poisoned one is a poisoned address. -/
def Team.gatherWord (t : Team) (sp : Bool) (o : Nat) : Except Stop Nat :=
  if o + 4 > t.arrSize sp then .error (.trap { code := lineCode false sp, addr := BitVec.ofNat 64 o })
  else
    let bs := (List.range 4).map fun i => t.arrByte sp (o + i)
    if bs.any (·.2) then poisonTrap none o else .ok (ofBytes (bs.map (·.1)))

/-- The raw element of the value array, with its poison. -/
def Team.gatherVal (t : Team) (sp : Bool) (o w : Nat) : Except Stop (Nat × Bool) :=
  if o + w > t.arrSize sp then .error (.trap { code := lineCode false sp, addr := BitVec.ofNat 64 o })
  else
    let bs := (List.range w).map fun i => t.arrByte sp (o + i)
    .ok (ofBytes (bs.map (·.1)), bs.any (·.2))

/-- The flags of reading a raw element of the value array (R220). -/
def readFlags (f : Fmt) (v : Nat × Bool) : Nat := if f == .int8 && !v.2 then (int8Elem v.1).2 else 0

/-- The entries e to e + n − 1 of a CSR row into a column (R229), with the flags of every element read, one that a later entry replaces included. -/
def Team.gatherRow (t : Team) (sp : Bool) (f : Fmt) (cidx val col0 e : Nat) (col : List (Option (Nat × Bool))) (fl : Nat) :
    Nat → Except Stop (List (Option (Nat × Bool)) × Nat)
  | 0 => .ok (col, fl)
  | n + 1 => do
    let c ← t.gatherWord sp (cidx + 4 * e)
    let k := wrapI ((c : Int) - col0) 32
    if k < 128 then do
      let v ← t.gatherVal sp (val + e * elemW f) (elemW f)
      t.gatherRow sp f cidx val col0 (e + 1) (listSet k (some v) col) (fl ||| readFlags f v) n
    else t.gatherRow sp f cidx val col0 (e + 1) col fl n

/-- A gathered column as the cells of a tile (R229): raw elements decoded; E4M3 and E5M2 encoded block by block, an absent
cell counting as +0; the flags of that encoding. -/
def gatherCells (f : Fmt) (mode : Rnd) (draw : Nat → Nat) (col : List (Option (Nat × Bool))) : List (Option (FVal × Bool)) × Nat :=
  if isE8 f then
    let blocks := (List.range 8).map fun q =>
      let cs := (col.drop (16 * q)).take 16
      let p := cs.any fun c => match c with | some v => v.2 | none => false
      let (vs, fl) := viaSx7 (cs.map fun c => match c with | some v => (fspecOf f).unpack v.1 | none => .fin false 0 0) mode
        fun i => draw (16 * q + i)
      ((cs.zip vs).map fun (q : Option (Nat × Bool) × FVal) => q.1.map fun _ => (q.2, p), if p then 0 else fl)
    (blocks.flatMap (·.1), blocks.foldl (fun a b => a ||| b.2) 0)
  else if f == .int8 then (col.map fun c => c.map fun v => ((int8Elem v.1).1, v.2), 0)
  else (col.map fun c => c.map fun v => ((fspecOf f).unpack v.1, v.2), 0)

/-- MBGTH (R228, R229). -/
def execMbgth (x : Args) (s : State) : Out :=
  run .mbgth x s fun e s1 =>
    let i := fldIdx x.a
    let w (k : Nat) : Nat := e.g.shWord i k
    let mode := Rnd.ofCode (bits x.m 2 0)
    match e.team? s1, Fmt.ofCode (bits (w 0) 15 8) with
    | none, _ => .error .stall
    | some _, none => if e.g.shPois i then poisonTrap none 0 else illOp
    | some t, some f =>
      let ew := elemW f
      if e.g.shPois i then poisonTrap none 0
      else if w 0 % 256 ≠ 0x06 ∨ colOk f = false ∨ w 1 % 4 ≠ 0 ∨ w 2 % 4 ≠ 0 ∨ w 3 % ew ≠ 0 ∨ (bits x.m 2 0 ≠ 0 ∧ isE8 f = false) then illOp
      else if !e.spacesIdle s1 then .error .stall
      else do
        let sp := bit (w 0) 16
        let column (n : Nat) : Except Stop (List (Option (FVal × Bool)) × Nat) := do
          let g := w 4 + n
          if g ≥ w 6 then .ok (List.replicate 128 (some (fillElem f (w 15), false)), 0)
          else do
            let lo ← t.gatherWord sp (w 1 + 4 * g)
            let hi ← t.gatherWord sp (w 1 + 4 * (g + 1))
            if hi < lo then progErr
            else do
              let (col, fl) ← t.gatherRow sp f (w 2) (w 3) (w 5) lo (List.replicate 128 none) 0 (min (hi - lo) (2 ^ 18))
              let (cells, fl') := gatherCells f mode (tileDraw e.g.sp.rngstate n) col
              .ok (cells, fl ||| fl')
        let cols ← (List.range (famN (famOf f))).mapM column
        e.loadMacro s1 (fldIdx x.d) f (cols.map (·.1)) (cols.foldl (fun a c => a ||| c.2) 0) mode (decide (w 4 < w 6))

/-- Does a queued command of the team name the bank (R226)? -/
def Env.bankBusy (e : Env) (s : State) (b : Nat) : Bool :=
  (s.core (e.core s)).mx.q.any fun c => decide (c.team = e.iss.team) && c.op.names.contains (true, b)

/-- MACRD (R234). -/
def execMacrd (x : Args) (s : State) : Out :=
  run .macrd x s fun e s1 =>
    let b := fldIdx x.b
    let a (l : Nat) : Elem := laneAt (e.g.srcV .int x.a) l
    match e.team? s1 with
    | none => .error .stall
    | some t => do
      e.check tcPoison (fun _ => 0) fun l => (a l).pois
      if e.bankBusy s1 b then .error .stall
      let v := lanesTab fun l => (t.mx.row b (bits (a l).nat 4 0)).getD (bits (a l).nat 14 8) Elem.zero
      .ok (s1.updGroup e.iss.team e.iss.gix fun g => g.outV x.d e.act v, .seq)

/-- A value against a bound of magnitude c (R236): NaN stays NaN. -/
def clipTo (c : FVal) (t : Term) : Term :=
  match c with
  | .fin _ m e =>
    let lim (n : Bool) : Term := .val (Dy.of n m e) n
    match t with
    | .nan => .nan
    | .inf n => lim n
    | .val d n => if (Dy.of false m e).lt ⟨d.m.natAbs, d.e⟩ then lim (decide (d.m < 0)) else .val d n
  | _ => t

/-- The values of a row of MWB before their rounding (R236). -/
def wbVals (es : List Elem) (iacc clip : Bool) (scale lim : FVal) : List (FVal × Nat) :=
  es.map fun e =>
    let x : FVal := if iacc then .fin (decide (sext e.nat 32 < 0)) (sext e.nat 32).natAbs 0 else fp32.unpack e.nat
    let (t, fl) := mulTerm x scale
    ((if clip then clipTo lim t else t).fval, fl)

/-- The bytes of an SX block in a row, and of its exponent plane (R30, R31). -/
def sxBytes (f : Fmt) (b : SxBlock) : List Byte × List Byte :=
  let e := BitVec.ofNat 8 b.e
  let ms := (List.range 8).foldl (fun a j => a + if b.m.getD j false then 2 ^ j else 0) 0
  if f == .sx7 then
    (e :: BitVec.ofNat 8 ms :: b.el.map fun p => BitVec.ofNat 8 ((if p.1 then 128 else 0) + p.2), [])
  else
    (b.el.zipIdx.map fun (q : (Bool × Nat) × Nat) =>
      BitVec.ofNat 8 ((if q.1.1 then 128 else 0) + (if b.m.getD (q.2 / 2) false then 64 else 0) + q.1.2), [e])

/-- A row of values rounded to the destination format: its bytes and flags (R36 to R38, R236). -/
def wbRow (f : Fmt) (mode : Rnd) (sat : Bool) (draw : Nat → Nat) (vs : List (FVal × Nat)) : List Byte × Nat :=
  let fl0 := vs.foldl (fun a v => a ||| v.2) 0
  if f.isSx then
    let bs := (List.range (vs.length / 16)).map fun q =>
      let (b, fls) := sxEncode (((vs.drop (16 * q)).take 16).map (·.1)) (sxN f) mode (fun i => draw (16 * q + i)) sat
      (sxBytes f b, fls.foldl (· ||| ·) 0)
    (bs.flatMap (fun b => b.1.1) ++ bs.flatMap (fun b => b.1.2), bs.foldl (fun a b => a ||| b.2) fl0)
  else
    let w := rowBytes f 1
    let rs := vs.zipIdx.map fun (v, j) =>
      if f.isFloat then fvConvert (fspecOf f) mode (draw j) sat v.1 else fvToInt f mode (draw j) sat v.1
    (rs.flatMap fun r => toBytes r.1 w, rs.foldl (fun a r => a ||| r.2) fl0)

/-- MWB at issue (R235, R236). -/
def execMwb (x : Args) (s : State) : Out :=
  run .mwb x s fun e s1 =>
    let bank := fldIdx x.d
    let a := e.g.srcU x.a
    let lo := e.g.srcU x.b
    let hi := e.g.srcUHi x.b
    let c := e.g.srcU x.c
    let f := (slotFmt e.cfg.fs x.fs.toNat).getD .fp32
    let sp := bit c.nat 12
    let nrows := bits c.nat 10 5
    let row0 := bits c.nat 4 0
    let cols := if bit c.nat 14 then 64 else 128
    let stride := 8 * bits c.nat 31 16
    let nanClip := match fp32.unpack hi.nat with | .nan _ => true | _ => false
    match e.team? s1 with
    | none => .error .stall
    | some t =>
      if e.bankBusy s1 bank then .error .stall
      else if a.pois || lo.pois || hi.pois || c.pois then poisonTrap none 0
      else if bit c.nat 15 ∨ bit c.nat 11 ∨ nrows < 1 ∨ nrows > 32 ∨ row0 + nrows > 32 ∨ (bit x.m 5 && nanClip) then progErr
      else if a.nat % 8 ≠ 0 then .error (.trap { code := lineCode true sp, addr := BitVec.ofNat 64 a.nat })
      else
        let at_ (r : Nat) : Nat := a.nat + stride * r
        match (List.range nrows).find? fun r => decide (at_ r + rowBytes f cols > t.arrSize sp) with
        | some r => .error (.trap { code := lineCode false sp, addr := BitVec.ofNat 64 (at_ r) })
        | none =>
          match (List.range nrows).find? fun r => ((t.mx.row bank (row0 + r)).take cols).any Elem.pois with
          | some r => poisonTrap none (at_ r)
          | none =>
            match e.queueMx s1 [.wb bank f.code x.m c.nat lo.val hi.val a.nat e.g.sp.rngstate 0] with
            | .error st => .error st
            | .ok s2 => .ok (e.raiseRng s2 0 (decide (Rnd.ofCode (bits x.m 2 0) = .sr)), .seq)

/-- One row of MWB is written (R236): the bytes, the flags, and with ZERO the elements read. -/
def Team.wbStep (t : Team) (b : Nat) (f : Fmt) (mod ctl : Nat) (scale clip : Word) (dst : Nat) (rng : Dword) (r : Nat) : Team × Nat :=
  let row := bits ctl 4 0 + r
  let cols := if bit ctl 14 then 64 else 128
  let es := t.mx.row b row
  let vs := wbVals (es.take cols) (bit mod 4) (bit mod 5) (fp32.unpack scale.toNat) (fp32.unpack clip.toNat)
  let (bs, fl) := wbRow f (Rnd.ofCode (bits mod 2 0)) (bit mod 3) (fun j => drawOf rng.toNat row j) vs
  let t1 := t.putArr (bit ctl 12) (dst + 8 * bits ctl 31 16 * r) bs
  (if bit ctl 13 then { t1 with mx := t1.mx.setRow b row (List.replicate cols Elem.zero ++ es.drop cols) } else t1, fl)

/-- MWB_WRITE (R236): the next row of the next write-back that may be performed. -/
def execMwbWrite (core : Nat) (s : State) : Out :=
  match pickMx (fun o => match o with | .wb _ _ _ _ _ _ _ _ _ => true | _ => false) [] (s.core core).mx.q with
  | none => .next s
  | some c => match c.op, mapGet? c.team s.teams with
    | .wb b f mod ctl scale clip dst rng next, some t =>
      let (t1, fl) := t.wbStep b ((Fmt.ofCode f).getD .fp32) mod ctl scale clip dst rng next
      let s1 := State.updGroup { s with teams := mapSet c.team t1 s.teams } c.team c.gix fun g => g.raise fl
      if next + 1 ≥ bits ctl 10 5 then .next (s1.doneMx core c)
      else
        let c' : MxCmd := { c with op := .wb b f mod ctl scale clip dst rng (next + 1) }
        .next (s1.updCore core fun k => { k with mx := ⟨updFirst (fun d => decide (d = c)) (fun _ => c') k.mx.q⟩ })
    | _, _ => .next s

end Sys2Proof.Machine
end

