-- ==== Sys2Proof/Machine/Turning.lean ====
section
/-! DEFINITION. The turning store's accesses, TSLD (R230 to R233), and tile sequences (R237 to R241). -/

namespace Sys2Proof.Machine

open Sys2Proof

/-- TSRD and TSWR from their checks to their issue (R232). -/
def turningAccess (e : Env) (s : State) (a : LaneAcc) (dst : Dst) : Except Stop (State × Ctl) := do
  e.scratchChecks a (16384 * e.cfg.tsq) false tcMisTurning tcRangeTurning
  if e.act = 0#32 then .ok (s, .seq)
  else do
    let f := e.flight s 6 dst false false
    let s1 ← issueFlight e s { f with parts := [e.part s 0 a.act (a.lanes e.act id) Place.none .turning false] }
    .ok (s1, .seq)

/-- TSRD (R232). -/
def execTsrd (x : Args) (s : State) : Out :=
  run .tsrd x s fun e s1 => turningAccess e s1 (e.loadAcc (bits x.m 2 0)) (e.dstV (regsOfWidth (bits x.m 2 0)))

/-- TSWR (R232). -/
def execTswr (x : Args) (s : State) : Out :=
  run .tswr x s fun e s1 => turningAccess e s1 (e.storeAcc (bits x.m 2 0)) .none

/-- An access performed on a team's turning store (R193, R194, R233). -/
def Team.performTs (t : Team) (a : Act) (lanes : List LaneReq) : Team × Perf :=
  let p := Machine.perform (fun x => (t.arrByte false x).1) (fun x => (t.arrByte false x).2) a lanes
  let clean := match a with
    | .store _ => wholeWords p.ov
    | _ => []
  let mx := { t.mx with
    ts := p.ov.foldl (fun m c => cellPutZ c.1 c.2 m) t.mx.ts
    tsPois := t.mx.tsPois.filter fun w => !clean.contains w }
  ({ t with mx := mx }, p)

/-- TURNING_STORE_ACCESS (R233): the oldest access of the core's turning store is performed, lanes ascending. -/
def execTurningStoreAccess (core : Nat) (s : State) : Out :=
  match (s.core core).tsQ with
  | [] => .next s
  | op :: rest =>
    let s1 := s.updCore core fun c => { c with tsQ := rest }
    match mapGet? op.team s1.teams with
    | none => .next s1
    | some t =>
      let (t', p) := t.performTs op.req.act op.req.lanes
      .next (State.answer_ { s1 with teams := mapSet op.team t' s1.teams } op.req.ret p.out 0 p.fl none 0)

/-- A tile descriptor (R230). -/
structure TileDesc where
  fmt : Fmt
  base : Nat
  dim0 : Nat
  dim1 : Nat
  rstr : Nat
  org0 : Int
  org1 : Int
  ext0 : Nat
  ext1 : Nat
  dst : Nat
  dstr : Nat
  fill : Nat
  deriving DecidableEq, Repr

/-- Formats of a tile descriptor. -/
def tileFmt (f : Fmt) : Bool :=
  match f with
  | .fp32 | .fp16 | .bf16 | .e4m3 | .e5m2 | .int8 | .uint8 | .int16 | .uint16 | .int32 | .uint32 => true
  | _ => false

/-- The tile descriptor of a shape register; none where a limit of R230 is breached. Reserved fields are ignored (R7). -/
def Group.tileDesc (g : Group) (i : Nat) : Option TileDesc :=
  let w (k : Nat) : Nat := g.shWord i k
  match Fmt.ofCode (bits (w 0) 15 8) with
  | none => none
  | some f =>
    let n := fmtBytes f
    let d : TileDesc := ⟨f, w 1 + 2 ^ 32 * w 2, w 3, w 4, w 5 + 2 ^ 32 * w 6, sext (w 7) 32, sext (w 8) 32,
      w 9 % 65536, w 9 / 65536, w 10, w 11, w 15⟩
    if w 0 % 256 = 2 ∧ tileFmt f = true ∧ d.base % n = 0 ∧ d.base < 2 ^ 57 ∧ 1 ≤ d.dim0 ∧ 1 ≤ d.dim1
        ∧ d.rstr % n = 0 ∧ 1 ≤ d.ext0 ∧ d.ext0 ≤ 16384 / n ∧ 1 ≤ d.ext1 ∧ d.ext1 ≤ 2048 ∧ d.dst % n = 0 ∧ d.dstr % n = 0
        ∧ (d.ext1 = 1 ∨ d.ext0 * n ≤ d.dstr) then some d
    else none

/-- The elements of the window: destination offset, and source address of those in bounds (R231). -/
def TileDesc.elems (d : TileDesc) : List (Nat × Option Nat) :=
  let w := fmtBytes d.fmt
  (List.range d.ext1).flatMap fun (r : Nat) => (List.range d.ext0).map fun (k : Nat) =>
    let y : Int := d.org1 + (r : Int)
    let x : Int := d.org0 + (k : Int)
    (d.dst + r * d.dstr + k * w,
      if 0 ≤ x ∧ x < (d.dim0 : Int) ∧ 0 ≤ y ∧ y < (d.dim1 : Int) then some (wrapI ((d.base : Int) + y * (d.rstr : Int) + x * (w : Int)) 64) else none)

/-- The loads of a window by source line, lines in the order of their first elements: each element is a lane share that
bears its destination offset. -/
def byLine (es : List (Nat × Nat)) : List (Nat × List LaneReq) :=
  let lines := es.foldl (fun (ls : List Nat) p => if ls.contains (p.2 / 128) then ls else ls ++ [p.2 / 128]) []
  lines.map fun ln => (ln, (es.filter fun p => decide (p.2 / 128 = ln)).map fun p => ⟨p.1, p.2, [], []⟩)

/-- The parts of TSLD: one for each source line, and one for the copies. -/
def Env.tileParts (e : Env) (s : State) (w : Nat) (ls : List (Nat × List LaneReq)) : List (Part × Nat) :=
  ls.zipIdx.map fun (q, i) => (e.part s i (.load w false) q.2 ⟨0, 0, false, e.cfg.ctx, q.1 * 128⟩ .unit true, i)

/-- TSLD (R230, R231). -/
def execTsld (x : Args) (s : State) : Out :=
  run .tsld x s fun e s1 =>
    let i := fldIdx x.d
    if e.g.shPois i then poisonTrap none 0
    else match e.g.tileDesc i with
    | none => illOp
    | some d =>
      let w := fmtBytes d.fmt
      let es := d.elems
      let srcs := es.filterMap fun p => p.2.map fun a => (p.1, a)
      match srcs.find? fun p => decide (p.2 ≥ 2 ^ 57) with
      | some p => .error (.trap { code := tcRange, addr := BitVec.ofNat 64 p.2 })
      | none =>
        match es.find? fun p => decide (p.1 + w > 16384 * e.cfg.tsq) with
        | some p => .error (.trap { code := tcRangeTurning, addr := BitVec.ofNat 64 p.1 })
        | none =>
          match srcs.find? fun p => e.wpt 1 true false p.2 w with
          | some p => .error (.trap { code := tcWatch, addr := BitVec.ofNat 64 p.2 })
          | none =>
            let ls := byLine srcs
            match s1.resolveParts e.iss.team e.iss.gix (e.core s1) s1.nextId (e.tileParts s1 w ls) with
            | none => .error .stall
            | some (s2, ps) =>
              let fills := es.foldl (fun (m : Map (List Elem)) p => if p.2.isNone then mapSet p.1 [elemOf (d.fill % 2 ^ (8 * w))] m else m) []
              let unit : Part := { e.part s1 ls.length (.load w false) [] Place.none .unit false with st := .sent }
              let f := e.ordered (e.flight s1 6 .none true false)
              match issueFlight e s2 { f with parts := ps ++ [unit], got := fills } with
              | .error st => .error st
              | .ok s3 => .ok (s3, .seq)

/-- The copies that an access of the core may make now: team, group, access, key. -/
def State.copiesOf (s : State) (core path : Nat) : List (Nat × Nat × Nat × Nat) :=
  (s.teams.filter fun t => decide (t.2.core = some core)).flatMap fun t => t.2.groups.flatMap fun g =>
    (g.2.flights.filter fun f => decide (f.path = path) && f.copies).flatMap fun f => f.got.map fun k => (t.1, g.1, f.id, k.1)

/-- A copy has been made: it is no longer to make, and with the last of them the access has been performed, once every line has been fetched. -/
def Flight.copied (f : Flight) (k : Nat) : Flight :=
  let got := mapDel k f.got
  let fetched := f.parts.all fun p => p.isCopy || decide (p.st = .done)
  let done (p : Part) : Part := if p.isCopy then { p with st := .done } else p
  { f with got := got, parts := if got.isEmpty && fetched then f.parts.map done else f.parts }

/-- TSLD_ELEMENT_LAND (R231): one element lands; a poisoned one poisons its words (R179). -/
def execTsldElementLand (core pick : Nat) (s : State) : Out :=
  match (s.copiesOf core 6)[pick]? with
  | none => .next s
  | some (tid, gix, fid, k) => match s.group? tid gix with
    | none => .next s
    | some (t, g) => match g.flight? fid with
      | none => .next s
      | some f =>
        let w := match f.parts.map (·.req.act) with
          | .load w _ :: _ => w
          | _ => 4
        let es := mapGetD k [] f.got
        let t1 := if es.any Elem.pois then t.poisonArr false k else t.putArr false k (toBytes (ofWords (es.map Elem.val)) w)
        .next ((State.updGroup { s with teams := mapSet tid t1 s.teams } tid gix fun g =>
          g.updFlight fid fun f => f.copied k).pump tid gix)

/-- A tensor layout (R237). -/
structure Layout where
  fmt : Fmt
  sp : Bool
  col : Bool
  base : Nat
  lstr : Nat
  kstr : Nat
  nlines : Nat
  fill : Nat
  deriving DecidableEq, Repr

/-- The layout of a shape register; none where a limit of R218 or R237 is breached. -/
def Group.layout (g : Group) (i : Nat) : Option Layout :=
  let w (k : Nat) : Nat := g.shWord i k
  match Fmt.ofCode (bits (w 0) 15 8) with
  | none => none
  | some f =>
    let l : Layout := ⟨f, bit (w 0) 16, bit (w 0) 17, w 1, w 2, w 3, w 4, w 15⟩
    if w 0 % 256 = 1 ∧ famOf f ≠ .none  ∧ (l.col = true → l.sp = false ∧ colOk f = true) then some l
    else none

/-- Line g of K-block kt (R237). -/
def Layout.line (l : Layout) (g kt : Nat) : LineAt := ⟨l.sp, l.col, l.fmt, (l.base + g * l.lstr + kt * l.kstr) % 2 ^ 32, 128⟩

/-- A line at or beyond NLINES: every element is FILL. -/
def Layout.filled (l : Layout) : LineRead := ⟨List.replicate 128 (fillElem l.fmt l.fill, false), 0, false⟩

/-- Read a line, or take FILL. -/
def Layout.read (l : Layout) (t : Team) (g kt : Nat) (mode : Rnd) (draw : Nat → Nat) : LineRead :=
  if g < l.nlines then t.readLine (l.line g kt) mode draw else l.filled

/-- A tile-sequence descriptor with its layouts (R238). -/
structure TileSeq where
  a : Layout
  b : Layout
  mt : Nat
  nt : Nat
  rnd : Rnd
  za : Bool
  kt : Nat
  mrows : Nat
  mac0 : Nat
  bank0 : Nat
  deriving DecidableEq, Repr

/-- Steps of one K-block, and of the sequence (R239). -/
def TileSeq.period (q : TileSeq) : Nat := q.nt + q.mt * q.nt
def TileSeq.steps (q : TileSeq) : Nat := q.kt * q.period

/-- Do the tiles of a column-axis B begin at multiples of a square (R227, R238)? Those of later columns and later K-blocks lie at multiples of N × LSTR
and of KSTR from BASE. -/
def TileSeq.squares (q : TileSeq) : Bool :=
  let n := famN (famOf q.b.fmt)
  !q.b.col || (decide (q.b.base % 16384 = 0) && (decide (q.nt = 1 ∨ q.b.nlines ≤ n) || decide (n * q.b.lstr % 16384 = 0))
    && (decide (q.kt = 1) || decide (q.b.kstr % 16384 = 0)))

/-- The checks of MTILE (R237, R238, R241). -/
def Group.tileSeq (g : Group) (macros i : Nat) : Except Stop TileSeq :=
  let w (k : Nat) : Nat := g.shWord i k
  if g.shPois i then poisonTrap none 0
  else if w 0 % 256 ≠ 7 then illOp
  else
    let (sa, sb) := (bits (w 0) 11 8, bits (w 0) 15 12)
    if g.shPois sa || g.shPois sb then poisonTrap none 0
    else match g.layout sa, g.layout sb with
    | some a, some b =>
      let q : TileSeq := ⟨a, b, bits (w 0) 18 16 + 1, bits (w 0) 21 19 + 1, Rnd.ofCode (bits (w 0) 24 22), bit (w 0) 25,
        bits (w 1) 19 0, bits (w 2) 8 0, bits (w 3) 3 0, bits (w 3) 7 4⟩
      if bits (w 0) 24 22 ≤ 4
          ∧ 1 ≤ q.kt ∧ 1 ≤ q.mrows ∧ q.mrows ≤ 32 * q.mt ∧ q.mac0 + q.nt ≤ macros
          ∧ q.bank0 + q.mt * q.nt ≤ macros ∧ famOf a.fmt = famOf b.fmt ∧ q.squares = true then .ok q
      else illOp
    | _, _ => illOp

/-- SEQSTATE (R240). -/
def seqWord (entry sh row step : Nat) : Dword := BitVec.ofNat 64 (2 ^ 63 + entry * 2 ^ 56 + sh * 2 ^ 52 + row * 2 ^ 32 + step)

/-- MTILE at issue (R241): the sequence opens, or resumes, and the fragment waits. While a sequence of another fragment is open the
instruction waits, and the port goes on. -/
def execMtile (x : Args) (s : State) : Out :=
  run .mtile x s fun e s1 =>
    let i := fldIdx x.a
    let q := e.g.sp.seqstate.toNat
    let active := bit q 63
    let put (f : Group → Group) : State := s1.updGroup e.iss.team e.iss.gix f
    let go (w : Dword) (g : Group) : Group :=
      { (g.updFrag e.iss.entry fun f => { f with wait := .tile false none x.bytes }) with sp := { g.sp with seqstate := w } }
    if active ∧ bits q 60 56 ≠ e.iss.entry then .ok (put fun g => g.rotate e.clock, .hold)
    else match e.g.tileSeq e.cfg.macros i with
    | .error st => .error st
    | .ok d =>
      if active then
        let (row, step) := (bits q 37 32, bits q 31 0)
        if bits q 55 52 ≠ i ∨ step ≥ d.steps ∨ row > 31 ∨ (row ≠ 0 ∧ step % d.period < d.nt) then progErr
        else .ok (put (go e.g.sp.seqstate), .hold)
      else .ok (put (go (seqWord e.iss.entry i 0 0)), .hold)

/-- Have a group's earlier accesses of its team's spaces been performed (R178, R233)? -/
def State.idleSpaces (s : State) (tid gix core : Nat) : Bool :=
  let c := s.core core
  !(c.scrQ.any fun o => decide (o.team = tid)) && !(c.tsQ.any fun o => decide (o.team = tid)) &&
    (match s.group? tid gix with
     | some (_, g) => !(g.flights.any fun f => f.parts.any fun p => p.held && (match p.req.tgt with | .scratch _ => true | .turning => true | _ => false))
     | none => false)

/-- What one move of the sequencer does: the team, flags, whether its step is over and drew, and what is left of the step. -/
structure TileMove where
  team : Team
  fl : Nat
  drew : Bool
  rest : Option TileStep

/-- A load step (R239): as MBLD. It draws where it reads a line. -/
def TileSeq.loadStep (q : TileSeq) (t : Team) (rng : Dword) (kt j : Nat) : Except Stop TileMove := do
  let n := famN (famOf q.b.fmt)
  let gs := (List.range n).map fun i => j * n + i
  checkLinesU t ((gs.filter fun g => decide (g < q.b.nlines)).map fun g => q.b.line g kt)
  let rs := gs.zipIdx.map fun (p : Nat × Nat) => q.b.read t p.1 kt q.rnd (tileDraw rng p.2)
  match (gs.zip rs).find? fun (p : Nat × LineRead) => p.2.bad with
  | some p => .error (.trap { code := tcIllegalOperand, addr := BitVec.ofNat 64 (q.b.line p.1 kt).o })
  | none =>
    let m := q.mac0 + j
    .ok ⟨{ t with mx := (t.mx.setFam m (famOf q.b.fmt)).setTile m (rs.map fun r => r.el.map some) },
      rs.foldl (fun a r => a ||| r.fl) 0, decide (q.rnd = .sr) && isE8 q.b.fmt && decide (j * n < q.b.nlines), none⟩

/-- The start of a batch step, or its resumption at a row (R239, R241): the macro's family is checked (R218), and every line of the step is checked
and read before its first pass; the draws are those of RNGSTATE at this point. -/
def TileSeq.batchStart (q : TileSeq) (t : Team) (rng : Dword) (kt i row : Nat) (last : Bool) : Except Stop TileStep := do
  let (mt, nt) := (i / q.nt, i % q.nt)
  let all := (List.range 32).filter fun r => decide (32 * mt + r < q.mrows)
  let rows := all.filter fun r => decide (row ≤ r)
  let fam := match t.mx.macros[q.mac0 + nt]? with | some k => k.fam | none => .none
  if fam ≠ famOf q.a.fmt ∨ fam = .none then progErr
  checkLinesU t ((rows.filter fun r => decide (32 * mt + r < q.a.nlines)).map fun r => q.a.line (32 * mt + r) kt)
  let rs := rows.map fun r => (r, q.a.read t (32 * mt + r) kt q.rnd fun j => drawOf rng.toNat r j)
  match rs.find? fun (p : Nat × LineRead) => p.2.bad with
  | some p => .error (.trap { code := tcIllegalOperand, addr := BitVec.ofNat 64 (q.a.line (32 * mt + p.1) kt).o })
  | none =>
    .ok ⟨fam, q.mac0 + nt, q.bank0 + i, q.za && decide (kt = 0),
      decide (q.rnd = .sr) && isE8 q.a.fmt && all.any fun r => decide (32 * mt + r < q.a.nlines),
      rs.map fun p => (p.1, p.2.el, p.2.fl), last⟩

/-- The next pass of a batch step. -/
def TileStep.pass (b : TileStep) (t : Team) (fresh : Nat) : TileMove :=
  match b.rows with
  | [] => ⟨t, 0, b.drew, none⟩
  | (r, line, fl) :: rest =>
    let (mx, fl') := t.mx.pass b.fam true line b.mac b.bank r b.za false fresh
    ⟨{ t with mx := mx }, fl ||| fl', b.drew, if rest.isEmpty then none else some { b with rows := rest }⟩

/-- The start of the next step (R239, R241): a load is performed whole; of a batch step, the first pass. -/
def TileSeq.begin (q : TileSeq) (t : Team) (rng : Dword) (step row fresh : Nat) : Except Stop TileMove :=
  let (kt, j) := (step / q.period, step % q.period)
  if step ≥ q.steps then progErr
  else if j < q.nt then q.loadStep t rng kt j
  else match q.batchStart t rng kt (j - q.nt) row (decide (step + 1 ≥ q.steps)) with
    | .error e => .error e
    | .ok b => .ok (b.pass t fresh)

/-- SEQSTATE, flags and generator after a move; the fragment waits on. -/
def Group.tileMoved (g : Group) (entry sh row step : Nat) (m : TileMove) (last : Bool) : Group :=
  let g1 := g.raise m.fl
  let g2 := if m.rest.isNone && m.drew then g1.stepRng else g1
  let w : Dword := if last then 0#64 else if m.rest.isNone then seqWord entry sh 0 (step + 1) else seqWord entry sh (row + 1) step
  { (g2.updFrag entry fun f => { f with wait := .tile true m.rest f.wait.len }) with sp := { g2.sp with seqstate := w } }

/-- The sequencer's next move (R239, R241): the pass that follows in the step in hand, or the start of the next step, for which the shape registers
are read afresh; the descriptor tells whether the step is the last. -/
def Group.tileMove (g : Group) (t : Team) (now : Option TileStep) (sh row step fresh : Nat) : Except Stop (TileMove × Bool) :=
  match now with
  | some b =>
    let m := b.pass t fresh
    .ok (m, m.rest.isNone && b.last)
  | none => do
    let q ← g.tileSeq t.cfg.macros sh
    let m ← q.begin t g.sp.rngstate step row fresh
    .ok (m, m.rest.isNone && decide (step + 1 ≥ q.steps))

/-- MTILE_STEP (R239, R241): the sequencer performs its next load or pass. The first is performed after every matrix command of the
team issued earlier (R226). A trap is raised in the waiting fragment, before the step changes any state. -/
def execMtileStep (team gix : Nat) (s : State) : Out :=
  match s.group? team gix with
  | none => .next s
  | some (t, g) => match t.core, g.frags.find? fun f => (match f.2.wait with | .tile _ _ _ => true | _ => false) with
    | some c, some (en, f) => match f.wait with
      | .tile started now len =>
        let v := g.sp.seqstate.toNat
        let (sh, row, step) := (bits v 55 52, bits v 37 32, bits v 31 0)
        if now.isNone && ((!started && (s.core c).mx.q.any fun k => decide (k.team = team)) || !s.idleSpaces team gix c) then .next s
        else match g.tileMove t now sh row step s.fresh with
          | .error (.trap tr) => .next (takeTrap s ⟨team, gix, en⟩ f.pc (f.pc + BitVec.ofNat 64 len) f.emask tr)
          | .error .stall => .next s
          | .ok (m, last) =>
            let s1 : State := { s with teams := mapSet team m.team s.teams, fresh := s.fresh + 1 }
            let s2 := s1.updGroup team gix fun g => g.tileMoved en sh row step m last
            .next (if last then endWait s2 team gix en else s2)
      | _ => .next s
    | _, _ => .next s

end Sys2Proof.Machine
end

