-- ==== Sys2Proof/Machine/Points.lean ====
section
/-! DEFINITION. Exact expressions over FP32 with one rounding at each step, and the point instructions CONIC, SPLATKEY and VOXKEY
(R262, R263, R268). -/

namespace Sys2Proof.Machine

open Sys2Proof

/-- n lane results of a lane's elements written to consecutive registers, without a push (R56). -/
def outQuad (e : Env) (g : Group) (r n : Nat) (f : Nat → List (Nat × Bool)) : Group :=
  g.setVs r e.act ((List.range n).map fun j => lanesTab fun l =>
    if inMask e.act l then (let q := (f l).getD j (0, false); laneOut e (32 * j + l) q.2 q.1) else Elem.zero)

/-- The elements of a register operand of n registers in a lane. -/
def Env.quad (e : Env) (f : Fld) (n l : Nat) : List Elem := laneData (e.g.vregs f n) l

/-- The least integer not below 3 √lm of R262, as FP32: lm = (xx + yy) / 2 + √(((xx − yy) / 2)² + sxy²). -/
def conicRadius (xx yy sxy : Dy) : Nat × Nat :=
  let s := (xx.add yy).shr 1
  let h := (xx.sub yy).shr 1
  let d := (h.mul h).add (sxy.mul sxy)
  let s9 := s.mul (Dy.ofInt 9)
  let d81 := d.mul (Dy.ofInt 81)
  -- n is large enough when n² − 9 s is at least 9 √d
  let ok (n : Nat) : Bool :=
    let q := (Dy.ofInt ((n * n : Nat) : Int)).sub s9
    !q.isNeg && d81.le (q.mul q)
  let n0 := isqrt (s9.floor.toNat + isqrt d81.floor.toNat)
  let n := if ok n0 then n0 else if ok (n0 + 1) then n0 + 1 else n0 + 2
  fp32.round .ru 0 false ⟨false, n, 0, false⟩

/-- CONIC in one lane (R262): four results and the flags. -/
def conicLane (sxx sxy syy h : Nat) : List Nat × Nat :=
  let (xx, f1) := fp32.add .rne 0 sxx h
  let (yy, f2) := fp32.add .rne 0 syy h
  let (det, f3) := tround (tsub (tmul (tv xx) (tv yy)) (tmul (tv sxy) (tv sxy)))
  let fl := f1 ||| f2 ||| f3
  match fDy det, fDy xx, fDy yy, fDy sxy with
  | some d, some x, some y, some z =>
    if d.m > 0 ∧ x.m > 0 ∧ y.m > 0 then
      let (ca, g1) := fDiv .rne yy det
      let (cb, g2) := fDiv .rne (fp32.flip sxy) det
      let (cc, g3) := fDiv .rne xx det
      let (r, g4) := conicRadius x y z
      ([ca, cb, cc, r], fl ||| g1 ||| g2 ||| g3 ||| g4)
    else ([0, 0, 0, 0], fl)
  | _, _, _, _ => ([0, 0, 0, 0], fl)

/-- Results of lanes with their flags: those of a lane with a poisoned source set none (R47). -/
def laneQuads (e : Env) (g : Group) (r n : Nat) (pois : Nat → Bool) (f : Nat → List Nat × Nat) : Group :=
  (outQuad e g r n fun l => (f l).1.map fun x => (x, pois l)).raise
    ((lanesOf e.act).foldl (fun a l => if pois l then a else a ||| (f l).2) 0)

/-- CONIC (R262). -/
def execConic (x : Args) (s : State) : Out :=
  runG .conic x s fun e =>
    let a (l : Nat) : List Elem := e.quad x.a 4 l
    let v (l i : Nat) : Nat := ((a l).getD i Elem.zero).nat
    .ok (laneQuads e e.g (fldIdx x.d) 4 (fun l => (a l).any Elem.pois) fun l => conicLane (v l 0) (v l 1) (v l 2) (v l 3), .seq)

/-- The rectangle of tiles that a splat covers (R263): x0, y0, columns, count. -/
def splatRect (mx my r c : Nat) : Int × Int × Nat × Nat :=
  let tw : Int := (c % 65536 : Nat)
  let th : Int := (c / 65536 : Nat)
  match fDy mx, fDy my, fDy r with
  | some x, some y, some q =>
    let lo (m : Dy) : Int := max 0 ((m.sub q).shr 4).floor
    let hi (m : Dy) (n : Int) : Int := min (n - 1) ((m.add q).shr 4).floor
    let (x0, x1, y0, y1) := (lo x, hi x tw, lo y, hi y th)
    if q.m ≤ 0 ∨ x1 < x0 ∨ y1 < y0 then (0, 0, 0, 0)
    else (x0, y0, (x1 - x0 + 1).toNat, ((x1 - x0 + 1) * (y1 - y0 + 1)).toNat)
  | _, _, _ => (0, 0, 0, 0)

/-- The order-preserving depth (R263). -/
def depthKey (d : Nat) : Nat :=
  match fp32.unpack d with
  | .nan _ => 0xFFFFFFFF
  | .fin _ 0 _ => 0x80000000
  | _ => if bit d 31 then 0xFFFFFFFF - d else d ^^^ 0x80000000

/-- The key of tile j (R263). -/
def splatKey (mx my r depth c j : Nat) : Nat :=
  let (x0, y0, wd, n) := splatRect mx my r c
  if j < n then
    let tx : Int := x0 + (j % wd : Nat)
    let ty : Int := y0 + (j / wd : Nat)
    2 ^ 32 * (wrapI (ty * (c % 65536 : Nat) + tx) 32) + depthKey depth
  else 2 ^ 64 - 1

/-- SPLATKEY (R263). -/
def execSplatkey (x : Args) (s : State) : Out :=
  runG .splatkey x s fun e =>
    let a (l : Nat) : List Elem := e.quad x.a 4 l
    let v (l i : Nat) : Nat := ((a l).getD i Elem.zero).nat
    let c := e.g.srcU x.c
    if bit x.m 0 then
      .ok (laneStep e false fun l =>
        ⟨(splatRect (v l 0) (v l 1) (v l 2) c.nat).2.2.2, c.pois || ((a l).take 3).any Elem.pois, 0⟩, .seq)
    else
      let j (l : Nat) : Elem := laneAt (e.g.srcV .int x.b) l
      .ok (laneStep2 e fun l =>
        ⟨splatKey (v l 0) (v l 1) (v l 2) (v l 3) c.nat (j l).nat, c.pois || (j l).pois || (a l).any Elem.pois, 0⟩, .seq)

/-- VOXKEY in one lane (R268). -/
def voxLane (h : Nat) (p o : List Nat) (s idx : Nat) : List Nat × Nat :=
  let q (i : Nat) : Option Dy :=
    match fDy (p.getD i 0), fDy (o.getD i 0), fDy s with
    | some x, some y, some z => some ((x.sub y).mul z)
    | _, _, _ => none
  match q 0, q 1, q 2 with
  | some x, some y, some z =>
    let ok (d : Dy) : Bool := decide (0 ≤ d.floor ∧ d.floor ≤ 1023)
    if ok x && ok y && ok z then
      let code := x.floor.toNat + 1024 * y.floor.toNat + 1048576 * z.floor.toNat
      let sq (d : Dy) : Dy := let u := (d.sub (Dy.ofInt d.floor)).sub ((Dy.ofInt 1).shr 1); u.mul u
      let (d2, fl) := fp32.round .rne 0 false ((((sq x).add (sq y)).add (sq z)).mag false)
      ([idx, d2, (code * 0x9E3779B1 % 2 ^ 32) >>> (32 - h), code], fl)
    else ([0xFFFFFFFF, 0xFFFFFFFF, 0xFFFFFFFF, 0], 0)
  | _, _, _ => ([0xFFFFFFFF, 0xFFFFFFFF, 0xFFFFFFFF, 0], 0)

/-- VOXKEY (R268): D0 comes from B and from the coordinates, the others from the coordinates. -/
def execVoxkey (x : Args) (s : State) : Out :=
  runG .voxkey x s fun e =>
    let c := e.g.sregs x.c 4
    let a (l : Nat) : List Elem := (e.quad x.a 4 l).take 3
    let b (l : Nat) : Elem := laneAt (e.g.srcV .int x.b) l
    let cp := c.any Elem.pois
    let pt (l : Nat) : Bool := cp || (a l).any Elem.pois
    let r (l : Nat) : List Nat × Nat :=
      voxLane (bits x.m 4 0) ((a l).map Elem.nat) (c.map Elem.nat) ((c.getD 3 Elem.zero).nat) (b l).nat
    let g1 := outQuad e e.g (fldIdx x.d) 4 fun l => (r l).1.zipIdx.map fun (q : Nat × Nat) => (q.1, pt l || (decide (q.2 = 0) && (b l).pois))
    .ok (g1.raise ((lanesOf e.act).foldl (fun a l => if pt l then a else a ||| (r l).2) 0), .seq)

end Sys2Proof.Machine
end

