-- ==== Sys2Proof/Machine/Walker.lean ====
section
/-! DEFINITION. BLEND, BLENDB and RIGX from their checks to their issue (R265 to R267, R269), BLEND.STAGE and the blend walker
(R264). -/

namespace Sys2Proof.Machine

open Sys2Proof

/-- A part without an order: relaxed (R264, R260). -/
def Part.relaxed (p : Part) : Part := { p with req := { p.req with acq := false, rel := false, rem := false, scope := 0 } }

/-- BLEND, BLENDB and RIGX: one scratchpad access over n records for each lane (R192, R265). -/
def recordAccess (e : Env) (s : State) (op n t : Nat) (ops : Nat → List Elem) (dst : Dst) : Except Stop (State × Ctl) := do
  let b := e.g.srcV .int e.x.b
  let at_ (l : Nat) : Nat := (laneAt b l).nat
  e.check tcPoison at_ fun l => (laneAt b l).pois
  e.check tcMisScratch at_ fun l => decide (at_ l % 64 ≠ 0)
  e.check tcRangeScratch at_ fun l => decide (at_ l + 64 * n > e.cfg.scratch)
  e.check tcWatch at_ fun l => e.wpt 0 true false (at_ l) (64 * n)
  if e.act = 0#32 then .ok (s, .seq)
  else do
    let lanes := (lanesOf e.act).map fun l => LaneReq.mk l (at_ l) (capture (ops l)) []
    let p := e.part s 0 (.record op n t) lanes Place.none (.scratch e.iss.team) false
    let s1 ← issueFlight e s { e.flight s 0 dst true false with parts := [p.relaxed] }
    .ok (s1, .seq)

/-- BLEND (R265, R266). -/
def execBlend (x : Args) (s : State) : Out :=
  run .blend x s fun e s1 =>
    recordAccess e s1 0 (bits x.m 5 0 + 1) (bits x.m 9 6)
      (fun l => e.quad x.d 4 l ++ [laneAt (e.g.srcV .fp32 x.a) l, laneAt (e.g.srcVHi .fp32 x.a) l, laneAt (e.g.srcV .int x.c) l])
      (.v2 (fldIdx x.d) 4 (fldIdx x.c) 1)

/-- BLENDB (R265, R267). -/
def execBlendb (x : Args) (s : State) : Out :=
  run .blendb x s fun e s1 =>
    recordAccess e s1 1 1 0
      (fun l => e.quad x.a 8 l ++ [laneAt (e.g.srcV .fp32 x.c) l, laneAt (e.g.srcVHi .fp32 x.c) l])
      (.v2 (fldIdx x.d) 8 (fldIdx x.a) 8)

/-- RIGX (R265, R269). -/
def execRigx (x : Args) (s : State) : Out :=
  run .rigx x s fun e s1 => recordAccess e s1 2 (bits x.m 7 0 + 1) 0 (fun l => e.quad x.a 4 l) (.v (fldIdx x.d) 4)

/-- BLEND.STAGE (R264): a load of 64 bytes for each lane, by source line; the shares bear their slots. -/
def execBlendStage (x : Args) (s : State) : Out :=
  run .blendStage x s fun e s1 => do
    let a := e.g.srcV .int x.a
    let b := e.g.srcV .int x.b
    let (c, cp) := e.g.srcU64 x.c
    let src (l : Nat) : Nat := (c + 64 * (laneAt a l).nat) % 2 ^ 64
    let slot (l : Nat) : Nat := (laneAt b l).nat
    e.check tcPoison slot fun l => cp || (laneAt a l).pois || (laneAt b l).pois
    if c % 64 ≠ 0 then progErr
    e.check tcMisScratch slot fun l => decide (slot l % 64 ≠ 0)
    e.check tcRangeScratch slot fun l => decide (slot l + 64 > e.cfg.scratch)
    e.check tcRange src fun l => decide (src l ≥ 2 ^ 57)
    e.check tcWatch src fun l => e.wpt 1 true false (src l) 64
    if e.act = 0#32 then .ok (s1, .seq)
    else
      let ls := lineGroups src e.act
      let lanes (m : Mask) : List LaneReq := (lanesOf m).map fun l => LaneReq.mk l (src l) [BitVec.ofNat 32 (slot l)] []
      let parts := ls.zipIdx.map fun (q, i) =>
        ((e.part s1 i (.load 64 false) (lanes q.2) ⟨0, 0, false, e.cfg.ctx, q.1 * 128⟩ .unit true).relaxed, i)
      match s1.resolveParts e.iss.team e.iss.gix (e.core s1) s1.nextId parts with
      | none => .error .stall
      | some (s2, ps) =>
        let unit : Part := { e.part s1 ls.length (.load 64 false) [] Place.none .unit false with st := .sent }
        match issueFlight e s2 { e.flight s1 0 .none true false with parts := ps ++ [unit] } with
        | .error st => .error st
        | .ok s3 => .ok (s3, .seq)

/-- The slot of a lane's copy, and whether a higher lane writes the same slot. -/
def Flight.slotOf (f : Flight) (l : Nat) : Option (Nat × Bool) :=
  let all := f.parts.flatMap fun p => p.req.lanes
  match all.find? fun q => decide (q.lane = l) with
  | none => none
  | some q => some ((q.data.headD 0#32).toNat, all.any fun r => decide (r.lane > l ∧ r.data = q.data))

/-- A record lands in its slot (R264): its words, all of them uncorrectable where the read was poisoned or refused. -/
def Team.landRecord (t : Team) (slot : Nat) (es : List Elem) : Team :=
  if es.any Elem.pois then (List.range 8).foldl (fun (t : Team) i => t.poisonArr true (slot + 8 * i)) t
  else t.putArr true slot (toBytes (ofWords (es.map Elem.val)) 64)

/-- BLEND_WALKER_COPY (R178, R264): one record lands, when the scratchpad has served what arrived before it. -/
def execBlendWalkerCopy (core pick : Nat) (s : State) : Out :=
  match (s.copiesOf core 0)[pick]? with
  | none => .next s
  | some (tid, gix, fid, l) => match s.group? tid gix with
    | none => .next s
    | some (t, g) => match g.flight? fid with
      | none => .next s
      | some f =>
        let t1 := match f.slotOf l with
          | some (slot, false) => t.landRecord slot (mapGetD l [] f.got)
          | _ => t
        if !s.scratchIdle tid then .next s
        else .next ((State.updGroup { s with teams := mapSet tid t1 s.teams } tid gix fun g =>
          g.updFlight fid fun f => f.copied l).pump tid gix)

end Sys2Proof.Machine
end

