-- ==== Sys2Proof/Machine/Texture.lean ====
section
/-! DEFINITION. SAMPLE, SAMPLEL, SAMPLEG and TXQ from their checks to their issue (R257 to R260). -/

namespace Sys2Proof.Machine

open Sys2Proof

/-- What is read of a descriptor: its words, and whether the read was poisoned or refused; or a fault, or a wait. -/
inductive DescRead where
  | ok (ws : List Word) (bad : Bool)
  | fault
  | wait
  deriving DecidableEq, Repr

/-- May the descriptor be read now: no earlier acquire or fence of the group holds the read, and no earlier write of the group to
the line is under way (R335, R341)? -/
def Env.descFree (e : Env) (s : State) (p : Place) : Bool :=
  let f := e.flight s 5 .none true false
  match s.group? e.iss.team e.iss.gix with
  | none => false
  | some (_, g) => !acquireHeld (s.acked (e.core s)) g.flights f &&
      !(g.flights.any fun h => h.writes && h.parts.any fun q => decide (q.st ≠ .done) && decide (lineNo q.req.place.pa = lineNo p.pa))

/-- Read a descriptor of 64 bytes (R257, R260): a relaxed load made at issue. -/
def Env.readDesc (e : Env) (s : State) (va : Nat) : State × DescRead :=
  match e.pages s permR va 64 with
  | (_, none) => (s, .wait)
  | (s1, some (.error ())) => (s1, .fault)
  | (s1, some (.ok ps)) => match ps with
    | [(p, _)] =>
      if !e.descFree s1 p then (s, .wait)
      else match s1.readPhys p 64 with
        | (s2, some bs) => (s2, .ok ((List.range 16).map fun i => BitVec.ofNat 32 (ofBytes (((bs.map (·.1)).drop (4 * i)).take 4))) (bs.any (·.2)))
        | (s2, none) => (s2, .ok [] true)
    | _ => (s1, .ok [] true)

/-- A difference within a quad: +0 with an inactive partner (R258). -/
def Env.quadDiff (e : Env) (x : Nat → Nat) (hi lo l : Nat) : Term × Nat :=
  if inMask e.act (if l = hi then lo else hi) then tsub (tv (x hi)) (tv (x lo)) else tint 0

/-- 256 λ in a lane (R258). -/
def Env.lod (e : Env) (o : Op) (d : TexDesc) (u v : Nat → Nat) (l : Nat) : Nat :=
  let rho (a b c q : Term × Nat) : Nat := lodOfRho2 d.levels (maxTerm (gradLen a b d.w d.h) (gradLen c q d.w d.h))
  match o with
  | .samplel => lodOf d.levels (tv (laneAt (e.g.srcV .fp32 e.x.b) l).nat).1
  | .sampleg =>
    let q (i : Nat) : Term × Nat := tv (((e.quad e.x.b 4 l).getD i Elem.zero).nat)
    rho (q 0) (q 1) (q 2) (q 3)
  | _ =>
    let i := l % 4
    let base := l - i
    let (r0, r1) := (base + i / 2 * 2, base + i / 2 * 2 + 1)
    let (c0, c1) := (base + i % 2, base + i % 2 + 2)
    rho (e.quadDiff u r1 r0 l) (e.quadDiff v r1 r0 l) (e.quadDiff u c1 c0 l) (e.quadDiff v c1 c0 l)

/-- The captured words of a lane, and the addresses of its taps: NaN coordinates give NaNs; with an infinite one the
specification states no result (log entry 12). -/
def Env.lanePlan (e : Env) (o : Op) (d : TexDesc) (u v : Nat → Nat) (l : Nat) : List Word × List (Option Nat) :=
  match fp32.unpack (u l), fp32.unpack (v l) with
  | .nan _, _ => ([1#32], [])
  | _, .nan _ => ([1#32], [])
  | .fin a m x, .fin b n y =>
    let taps := d.sample (e.lod o d u v l) (Dy.of a m x) (Dy.of b n y)
    (0#32 :: taps.flatMap fun t => [BitVec.ofNat 32 t.w, if t.at_.isNone then 1#32 else 0#32], taps.map Tap.at_)
  | _, _ => ([2#32, BitVec.ofNat 32 (128 * e.fresh + 4 * l)], [])

/-- The access of a texture instruction (R260): the part that holds what is captured, and one part for each line of texels. -/
def Env.textureParts (e : Env) (s : State) (op : Nat) (desc : List Word) (plan : Nat → List Word × List (Option Nat)) (w : Nat) :
    Part × List (Part × Nat) :=
  let head : Part := { e.part s 0 (.texture op desc) ((lanesOf e.act).map fun l => LaneReq.mk l 0 (plan l).1 []) Place.none .unit false with
    st := .done }
  let es := (lanesOf e.act).flatMap fun l => (plan l).2.zipIdx.filterMap fun (p : Option Nat × Nat) => p.1.map fun a => (16 * l + p.2, a)
  (head.relaxed, (byLine es).zipIdx.map fun (q, i) =>
    ((e.part s (i + 1) (.load w false) q.2 ⟨0, 0, false, e.cfg.ctx, q.1 * 128⟩ .unit true).relaxed, i + 1))

/-- The results of a texture instruction that reads no texel: the same elements in every lane, or by lane. -/
def Env.textureNow (e : Env) (s : State) (n : Nat) (f : Nat → List Elem) : Except Stop (State × Ctl) := do
  let (head, _) := e.textureParts s 1 [] (fun _ => ([], [])) 4
  let s1 ← issueFlight e s { e.flight s 5 (e.dstV n) true false with
    parts := [head], got := (lanesOf e.act).foldl (fun m l => mapSet l (f l) m) [] }
  .ok (s1, .seq)

/-- The frame of the texture instructions: poison, the descriptor, its watchpoint (R260). -/
def runTexture (o : Op) (x : Args) (s : State) (n : Nat) (pois : Env → Nat → Bool)
    (body : Env → State → List Word → TexDesc → Except Stop (State × Ctl)) : Out :=
  run o x s fun e s1 => do
    let (c, cp) := e.g.srcU64 x.c
    e.check tcPoison (fun _ => c) fun l => cp || pois e l
    if e.act = 0#32 then .ok (s1, .seq)
    else if c ≥ 2 ^ 57 then .error (.trap { code := tcRange, addr := BitVec.ofNat 64 c })
    else do
      e.check tcWatch (fun _ => c) fun _ => e.wpt 1 true false c 64
      if c % 64 ≠ 0 then e.textureNow s1 n fun _ => List.replicate n (elemOf fp32.nan)
      else match e.readDesc s1 c with
      | (_, .wait) => .error .stall
      | (s2, .fault) => .ok (s2, .hold)
      | (s2, .ok ws bad) =>
        if bad then e.textureNow s2 n fun _ => List.replicate n ⟨0#32, true⟩
        else match texDesc ws with
        | none => e.textureNow s2 n fun _ => List.replicate n (elemOf fp32.nan)
        | some d => body e s2 ws d

/-- SAMPLE, SAMPLEL and SAMPLEG (R258, R260). -/
def sampleAccess (o : Op) (x : Args) (s : State) : Out :=
  runTexture o x s 4
    (fun e l => (laneAt (e.g.srcV .fp32 x.a) l).pois || (laneAt (e.g.srcVHi .fp32 x.a) l).pois ||
      (match o with
       | .samplel => (laneAt (e.g.srcV .fp32 x.b) l).pois
       | .sampleg => (e.quad x.b 4 l).any Elem.pois
       | _ => false))
    fun e s1 ws d => do
      let u (l : Nat) : Nat := (laneAt (e.g.srcV .fp32 x.a) l).nat
      let v (l : Nat) : Nat := (laneAt (e.g.srcVHi .fp32 x.a) l).nat
      let plan := e.lanePlan o d u v
      let addrs (l : Nat) : List Nat := (plan l).2.filterMap id
      e.check tcRange (fun l => ((addrs l).find? fun a => decide (a ≥ 2 ^ 57)).getD 0) fun l => (addrs l).any fun a => decide (a ≥ 2 ^ 57)
      let hit (a : Nat) : Bool := e.wpt 1 true false a d.bytes
      e.check tcWatch (fun l => ((addrs l).find? hit).getD 0) fun l => (addrs l).any hit
      let (head, parts) := e.textureParts s1 0 ws plan d.bytes
      match s1.resolveParts e.iss.team e.iss.gix (e.core s1) s1.nextId parts with
      | none => .error .stall
      | some (s2, ps) => do
        let s3 ← issueFlight e s2 { e.flight s1 5 (e.dstV 4) true false with parts := head :: ps }
        .ok (s3, .seq)

/-- SAMPLE (R258). -/
def execSample (x : Args) (s : State) : Out := sampleAccess .sample x s
/-- SAMPLEL (R258). -/
def execSamplel (x : Args) (s : State) : Out := sampleAccess .samplel x s
/-- SAMPLEG (R258). -/
def execSampleg (x : Args) (s : State) : Out := sampleAccess .sampleg x s

/-- TXQ (R259, R260). -/
def execTxq (x : Args) (s : State) : Out :=
  runTexture .txq x s 2 (fun e l => (laneAt (e.g.srcV .int x.a) l).pois) fun e s1 _ d =>
    e.textureNow s1 2 fun l =>
      let k := (laneAt (e.g.srcV .int x.a) l).nat
      if k ≥ d.levels then [elemOf 0, elemOf 0] else [elemOf (d.lw k), elemOf (d.lh k)]

end Sys2Proof.Machine
end

