-- ==== Sys2Proof/Machine/Mesh.lean ====
section
/-! DEFINITION. The task and mesh stages (R245 to R251), and EXIT (R114). -/

namespace Sys2Proof.Machine

open Sys2Proof

/-- The launch of an issuer. -/
def Env.launch? (e : Env) (s : State) : Option Launch := mapGet? e.cfg.launch s.launches

/-- Fields of the render state (R246). -/
def Launch.r (l : Launch) (off n : Nat) : Nat := blockField l.rstate off n
def Launch.na (l : Launch) : Nat := l.r 0x0E 1
def Launch.ntgt (l : Launch) : Nat := l.r 0x0F 1
/-- NODISC and NODEPTHW; early-depth mode is both (R246). -/
def Launch.nodisc (l : Launch) : Bool := bit (l.r 0x0D 1) 2
def Launch.nodepthw (l : Launch) : Bool := bit (l.r 0x0D 1) 3
def Launch.early (l : Launch) : Bool := l.nodisc && l.nodepthw

/-- The instruction belongs to one kind of group (R245). -/
def Env.ofKind (e : Env) (k : GroupKind) : Except Stop Unit := if e.g.kind = k then .ok () else progErr

/-- TEMIT (R247). -/
def execTemit (x : Args) (s : State) : Out :=
  run .temit x s fun e s1 =>
    let c := e.core s1
    let a := e.g.srcU x.a
    if e.g.kind = .task ∧ (s1.core c).rend.slots.length ≥ 4 then .error .stall
    else do
      e.ofKind .task
      if a.pois then poisonTrap none 0
      else if a.nat > 64 then progErr
      else if a.nat = 0 then .ok (s1, .seq)
      else
        let owner := match mapGet? e.iss.team s1.teams with | some t => (t.cluster, t.tix) | none => (0, 0)
        let payload := (List.range 16).map fun i => e.g.sreg (fldIdx x.b + i)
        .ok (s1.updCore c fun k => { k with rend := { k.rend with meshQ := k.rend.meshQ ++ [⟨e.cfg.launch, owner, payload, 0, a.nat⟩] } }, .seq)

/-- A port of the core with a free slot and register units for one group of k registers (R171, R247). -/
def State.portFor (s : State) (c k : Nat) : Option Nat :=
  let r := s.room c []
  (List.range 4).find? fun p => decide (1 ≤ r.slots.getD p 0) && decide (k / 8 ≤ r.units.getD p 0)

/-- A saved mesh group whose member stands on a core again (R251). -/
def State.savedMesh (s : State) (core : Nat) : Option (Nat × Team) :=
  s.teams.find? fun t => t.2.core.isNone && (match t.2.owner with
    | none => false
    | some o => !s.frozen o.1 && s.teams.any fun m => decide (m.2.cluster = o.1 ∧ m.2.tix = o.2 ∧ m.2.core = some core))

/-- The next queued mesh group whose member is not pre-empted. -/
def State.nextMesh (s : State) (core : Nat) : Option MeshReq := (s.core core).rend.meshQ.find? fun q => !s.frozen q.owner.1

/-- Put requests in the place of the first that equals one. -/
def replaceReq (q : MeshReq) (new : List MeshReq) : List MeshReq → List MeshReq
  | [] => []
  | x :: xs => if x = q then new ++ xs else x :: replaceReq q new xs

/-- MESH_GROUP_PLACEMENT (R247): a mesh group that was saved, or the next queued one, is placed when a port has room. -/
def execMeshGroupPlacement (core : Nat) (s : State) : Out :=
  match s.savedMesh core with
  | some (id, t) => match s.portFor core t.cfg.k with
    | none => .next s
    | some p => .next ((s.resumeTeam id core (some p)).getD s)
  | none => match s.nextMesh core with
  | none => .next s
  | some q =>
    let put (q' : List MeshReq) (s : State) : State := s.updCore core fun k =>
      { k with rend := { k.rend with meshQ := replaceReq q q' k.rend.meshQ } }
    match mapGet? q.launch s.launches with
    | none => .next (put [] s)
    | some l => match s.portFor core (8 * l.x 0x18 1) with
      | none => .next s
      | some p =>
        let id := s.nextId
        let t := l.renderTeam q.launch .mesh id core p s.clock (some q.owner) (BitVec.allOnes 32) [(0, splat (elemOf q.next))]
          (q.payload.zipIdx.map fun (e, i) => (i, e))
        let s1 := State.giveSlots { s with teams := mapSet id t s.teams, nextId := id + 1 } core id
        .next (put (if q.next + 1 ≥ q.count then [] else [{ q with next := q.next + 1 }]) s1)

/-- MSETUP (R248). -/
def execMsetup (x : Args) (s : State) : Out :=
  run .msetup x s fun e s1 => do
    e.ofKind .mesh
    let (a, b) := (e.g.srcU x.a, e.g.srcU x.b)
    let c := e.core s1
    let na := bits x.m 3 0
    if a.pois || b.pois then poisonTrap none 0
    else if a.nat < 1 ∨ a.nat > 256 ∨ b.nat < 1 ∨ b.nat > 256 then progErr
    else if some na ≠ (e.launch? s1).map Launch.na then progErr
    else if ((s1.core c).openSlot e.iss.team e.iss.gix).isSome then progErr
    else match mapFree (s1.core c).rend.slots 0 4 with
    | none => .ok (s1.updGroup e.iss.team e.iss.gix fun g => g.updFrag e.iss.entry fun f => { f with wait := .slot x.bytes }, .hold)
    | some i =>
      let sl : Slot := ⟨e.iss.team, e.iss.gix, (lanesOf e.act).headD 0, e.cfg.launch, e.pc, a.nat, b.nat, na, [], [], none, 0⟩
      .ok (s1.updCore c fun k => { k with rend := { k.rend with slots := mapSet i sl k.rend.slots } }, .seq)

/-- Change a slot. -/
def State.updSlot (s : State) (c i : Nat) (f : Slot → Slot) : State :=
  s.updCore c fun k => { k with rend := { k.rend with slots := mapUpd i f k.rend.slots } }

/-- The frame of MVERT and MPRIM (R249): the failing lanes, then one write for each active lane, ascending. -/
def slotWrites (o : Op) (x : Args) (s : State) (bad : Slot → Nat → Bool) (write : Env → Nat → Nat → Slot → Slot) : Out :=
  run o x s fun e s1 => do
    e.ofKind .mesh
    let c := e.core s1
    let b (l : Nat) : Elem := laneAt (e.g.srcV .int x.b) l
    match (s1.core c).openSlot e.iss.team e.iss.gix with
    | none => progErr
    | some (i, sl) => do
      e.check tcProgram (fun _ => 0) fun l => (b l).pois || bad sl (b l).nat
      .ok ((lanesOf e.act).foldl (fun (s : State) l => s.updSlot c i (write e l (b l).nat)) s1, .seq)

/-- MVERT (R249). -/
def execMvert (x : Args) (s : State) : Out :=
  let sel := bits x.m 3 0
  slotWrites .mvert x s (fun sl b => decide (b ≥ sl.nv ∨ (sel ≥ 1 ∧ sel - 1 ≥ sl.na)))
    fun e l b sl => { sl with verts := mapSet (16 * b + sel) (e.quad x.a 4 l) sl.verts }

/-- MPRIM (R249). -/
def execMprim (x : Args) (s : State) : Out :=
  slotWrites .mprim x s (fun sl b => decide (b ≥ sl.np))
    fun e l b sl => { sl with prims := mapSet b (laneAt (e.g.srcV .int x.a) l) sl.prims }

/-- MDONE (R250): the slot is published, and set up after those published before it. -/
def execMdone (x : Args) (s : State) : Out :=
  run .mdone x s fun e s1 => do
    e.ofKind .mesh
    let c := e.core s1
    match (s1.core c).openSlot e.iss.team e.iss.gix with
    | none => progErr
    | some (i, _) =>
      let n := (s1.core c).rend.published
      let s2 := s1.updSlot c i fun sl => { sl with pub := some n }
      .ok (s2.updCore c fun k => { k with rend := { k.rend with published := n + 1 } }, .seq)

/-- EXIT (R114, R66): the lanes of EMASK exit; a fragment with lanes left goes on with all of them. -/
def execExit (x : Args) (s : State) : Out :=
  run .exit x s fun e s1 =>
    match s1.group? e.iss.team e.iss.gix, mapGet? e.iss.entry e.g.frags with
    | some (_, g), some f =>
      let left := f.own &&& ~~~f.emask
      if left ≠ 0#32 then
        let g1 := g.exitLanes f.emask
        .ok (s1.setGroup e.iss.team e.iss.gix (g1.updFrag e.iss.entry fun f => { f with emask := f.own }), .seq)
      else
        let g1 := g.exitLanes f.emask
        let s2 := s1.setGroup e.iss.team e.iss.gix g1
        .ok (if g1.frags.isEmpty then s2.dropOpenSlot (e.core s2) e.iss.team e.iss.gix else s2, .done)
    | _, _ => .error .stall

end Sys2Proof.Machine
end

