-- ==== Sys2Proof/Machine/Engine.lean ====
section
/-! DEFINITION. What the engines share: the submission of commands (R350, R374), their reads and writes of memory (R324, R351,
R377), their translation faults (R410), and the completion record and word (R352, R374). -/

namespace Sys2Proof.Machine

open Sys2Proof

/-- A word and a pair of words of a descriptor. -/
def dW (d : List Word) (i : Nat) : Nat := (d.getD i 0#32).toNat
def dQ (d : List Word) (i : Nat) : Nat := dW d i + 2 ^ 32 * dW d (i + 1)

/-- The stop at which the engine of a command is attached (R448); a queue has the stop of its die's Porter (log entry 42). -/
def CmdKind.stop (k : CmdKind) (die : Nat) : Nat :=
  match k with
  | .sort => 64 * die + 28
  | .encode => 64 * die + 35
  | .coll | .arm _ => 64 * die + 36
  | .emitc | .launch => 0xFFFF
  | _ => 64 * die + 27

/-- A command before its engine has seen it. -/
def Cmd.fresh (k : CmdKind) (die ctx cls : Nat) (desc : List Word) (w seq : Nat) : Cmd :=
  { kind := k, die := die, ctx := ctx, cls := cls, issuer := none, entry := 0, team := none, desc := desc, blk := [], w := w, seq := seq
    at_ := 0, dst := 0, pred := 0, range := none, accepted := none, chan := 0, nth := 0, ranks := [], stage := 0, left := [], got := [], out := []
    result := [], work := [], passes := 0, busy := false, ended := false, recorded := false, wait := 0, status := 0, flags := 0
    count := 0, bucket := none, input := none, after := none }

/-- Change a command, if it is there. -/
def State.updCmd (s : State) (id : Nat) (f : Cmd → Cmd) : State := { s with cmds := mapUpd id f s.cmds }

/-- Issue of a command (R350, R374): it is queued, and counted by an access whose one part is sent when nothing holds it. The path is
7; that of an operation of a queue is 9, and such an operation is an RMW of its queue (R382). -/
def Env.submit (e : Env) (s : State) (path : Nat) (c : Cmd) : Except Stop State :=
  let id := s.nextId
  let p := e.part s 0 .prefetch [] Place.none .unit false
  let rmw := decide (path = 9)
  let f : Flight := { e.ordered (e.flight s path (if rmw && c.blk.isEmpty then .s c.dst 16 else .none) rmw rmw) with parts := [p] }
  let c' : Cmd := { c with issuer := some (e.iss.team, e.iss.gix, id), entry := e.iss.entry }
  issueFlight e { s with cmds := mapSet id c' s.cmds } f

/-- The class of the launch whose group issues (R403). -/
def Env.cls (e : Env) (s : State) : Nat :=
  match mapGet? e.cfg.launch s.launches with
  | some l => s.classOf l
  | none => 0

/-- A command of the issuing group for an engine of its die. -/
def Env.command (e : Env) (s : State) (k : CmdKind) (desc : List Word) (w seq : Nat) : Cmd :=
  Cmd.fresh k (dieOf (e.core s)) e.cfg.ctx (e.cls s) desc w seq

/-- The lines that a command owns are given up (R324). -/
def State.disown (s : State) (ids : List Nat) : State :=
  { s with slices := s.slices.map fun sl => (sl.1, { sl.2 with tags := sl.2.tags.map fun t =>
      match t.2.w with
      | some c => if ids.contains c then (t.1, { t.2 with w := none }) else t
      | none => t }) }

/-- Has the command left its group (R350)? One without an issuer has; that of a retired group leaves when its release is done. -/
def State.cmdSent (s : State) (c : Cmd) : Bool :=
  match c.issuer with
  | none => true
  | some (t, g, f) => match s.group? t g with
    | none => match c.after with
      | some (core, ids) => s.acked core (some ids)
      | none => true
    | some (_, gr) => match gr.flight? f with
      | none => true
      | some fl => fl.parts.all fun p => decide (p.st ≠ .todo)

/-- The access that counts a command returns (R60). -/
def State.cmdTaken (s : State) (c : Cmd) : State :=
  match c.issuer with
  | none => s
  | some (t, g, f) => (s.updGroup t g fun gr => gr.partDone f 0 [] 0 0 0).returnPath t g 7 64

/-- Does a fault of the command wait in a fault buffer (R410)? -/
def State.cmdFaulted (s : State) (id : Nat) : Bool := s.faults.any fun d => d.2.any fun e => decide (e.who = .engine id)

/-- The virtual address of an engine's access: the walk reads bits 56:0 (R407). -/
def va57 (a : Nat) : Nat := a % 2 ^ 57

/-- A failed walk of an engine enters the fault buffer of its die, when that has room (R410, R411). -/
def State.engineFault (s : State) (die ctx va : Nat) (w : WalkFault) (need stop : Nat) (who : Faulter) : State :=
  if s.faultsFull die 1 then s else s.addFault die ctx va w (accessBits need + 8) stop who 1

/-- The line of HBM that a place reaches, and whether a command other than `id` owns it (R324). -/
def State.ownedBy (s : State) (p : Place) (n need : Nat) (id : Option Nat) : Bool :=
  match s.resolve p n need with
  | none => false
  | some q => match mapGet? (lineNo q.pa) (s.slice (s.homeOf q)).tags with
    | some t => decide (t.w ≠ none) && decide (t.w ≠ id)
    | none => false

/-- Has an access to the line arrived at its home, which performs it before an engine owns the line (R324, R351)? -/
def State.lineAsked (s : State) (p : Place) (n : Nat) : Bool :=
  match s.resolve p n 2 with
  | none => false
  | some q => s.packets.any fun (x : Nat × Packet) =>
      decide (x.2.body.line = some (lineNo q.pa)) && !s.behind x.1 x.2 &&
      (match x.2.loc, x.2.body with
       | .arrived _, .access r => decide (r.tgt = .home ∧ x.2.dst = s.homeOf q)
       | _, _ => false)

/-- The pieces of a range of virtual addresses of a context, cut at lines; none while a walk of it faults, a piece is owned by
another command, or, for a write, accesses to it have arrived at its home before. -/
def State.enginePieces (s : State) (die ctx va n need stop : Nat) (who : Faulter) (id : Option Nat) : State × Option (List (Place × Nat)) :=
  if s.mustWait die ctx (va57 va) then (s, none)
  else match s.translateAll ctx need (pagesOf (va57 va) n) with
  | (s1, .error (a, w)) => (s1.engineFault die ctx a w need stop who, none)
  | (s1, .ok ps) =>
    let ls := ps.flatMap fun p => linesOf p.1 p.2
    if ls.any fun (p : Place × Nat) => s1.ownedBy p.1 p.2 need id || (decide (need = permW) && s1.lineAsked p.1 p.2) then (s1, none)
    else (s1, some ls)

/-- Bytes that are poisoned hold free values (R71, log entry 3). -/
def freePois (fresh : Nat) (bs : List (Byte × Bool)) : List (Byte × Bool) :=
  bs.zipIdx.map fun (b : (Byte × Bool) × Nat) => if b.1.2 then ((Config.poisonBits fresh b.2).setWidth 8, true) else b.1

/-- The status of what has been read (R374): refused, poisoned. -/
def readStatus (bs : List (Byte × Bool)) (refused : Bool) : Nat := if refused then 2 else if bs.any (·.2) then 1 else 0

/-- A read of an engine (R351): bytes with their poison, and the status; none while it waits. -/
def State.engineRead (s : State) (id : Nat) (c : Cmd) (va n : Nat) : State × Option (List (Byte × Bool) × Nat) :=
  match s.enginePieces c.die c.ctx va n permR (c.kind.stop c.die) (.engine id) (some id) with
  | (s1, none) => (s1, none)
  | (s1, some ps) =>
    let (s2, bs, bad) := s1.readPieces ps
    (s2, some (freePois s2.fresh bs, readStatus bs bad))

/-- A command takes ownership of a line of HBM (R324): the home recalls it and sets W. -/
def State.own (s : State) (id : Nat) (p : Place) : State :=
  match s.resolve p 128 2 with
  | none => s
  | some q =>
    if s.keyOn q.key then
      let i := s.homeOf q
      let ln := lineNo q.pa
      let s1 := ((s.settleLine q).fill i ln q.key).dropV ln none
      (s1.updDir i ln fun d => { d with v := [] }).updSlice i fun sl =>
        { sl with tags := mapUpd ln (fun t => { t with w := some id }) sl.tags }
    else s

/-- Bytes put into a line by offset; an element that a poisoned byte reaches is poisoned, and the whole line written clears the rest
(R321). -/
def putCells (bs : Map (Byte × Bool)) (l : Line) : Line :=
  ⟨bs.foldl (fun (b : List Byte) (x : Nat × (Byte × Bool)) => listSet x.1 x.2.1 b) l.bytes,
    bs.foldl (fun (a : Mask) (x : Nat × (Byte × Bool)) => if x.2.2 then a ||| BitVec.ofNat 32 (2 ^ (x.1 / 4)) else a)
      (if bs.length = 128 then 0#32 else l.pois)⟩

/-- Does the Porter or the Courier make the write: is it counted (R462)? -/
def CmdKind.counted (k : CmdKind) : Bool := decide (k = .copy) || decide (k = .coll)

/-- A write to a line of another package leaves as a packet (R472, R473), which is awaited and counted when it is acknowledged (R374); a completion
word, or its record, goes as one aligned 8-byte release at system scope (R352). -/
def State.sendStore (s : State) (id stop pkg : Nat) (p : Place) (ctx : Nat) (word : Bool) (bs : Map (Byte × Bool)) : State :=
  let base := p.pa / 128 * 128
  let byte (x : Nat × (Byte × Bool)) : Byte := if x.2.2 then (Config.poisonBits s.fresh x.1).setWidth 8 else x.2.1
  let lanes : List LaneReq :=
    if word then [⟨0, base + (bs.map (·.1)).headD 0, toWords (ofBytes (bs.map byte)) 2, []⟩]
    else bs.map fun x => ⟨x.1, base + x.1, [(byte x).setWidth 32], []⟩
  let r : Req := { act := .store (if word then 8 else 1), lanes := lanes, place := p, tgt := .remote pkg, ret := .cmd id (if word then 0 else bs.length)
                   core := none, ctx := ctx, acq := false, rel := word, rem := false, scope := if word then 5 else 0, num := 0, fill := false }
  (s.updCmd id fun c => { c with wait := c.wait + 1 }).send .request stop (exitStop pkg) 0 (some pkg) (.access r)

/-- One write of an engine is performed (R324, R351): a line in one step, after which W clears and what waited for the line proceeds. `word` says
that it is a completion word or its record. -/
def State.engineWrite (s : State) (id : Nat) (c : Cmd) (word : Bool) (w : EngWrite) : State :=
  let fail (s : State) : State := s.updCmd id fun c => { c with status := max c.status 2 }
  let wrote (s : State) (n : Nat) : State := s.updCmd id fun c => { c with count := c.count + n }
  match w with
  | .refused => fail s
  | .scratch t bs =>
    let cells (m : List Host.Cell) : List Host.Cell := bs.foldl (fun m (x : Nat × (Byte × Bool)) => cellPutZ x.1 x.2.1 m) m
    let whole := wholeWords (bs.map fun (x : Nat × (Byte × Bool)) => (x.1, x.2.1))
    let bad := (bs.filter fun (x : Nat × (Byte × Bool)) => x.2.2).map fun x => x.1 / 8
    wrote (s.updTeam t fun t => { t with
      scratch := cells t.scratch
      scratchPois := (bad.foldl (fun l w => if l.contains w then l else w :: l) (t.scratchPois.filter fun w => !whole.contains w)) }) bs.length
  | .gran bs =>
    let s1 := s.granWrite (bs.map fun (x : Nat × (Byte × Bool)) => (x.1, x.2.1))
    let bad := (bs.filter fun (x : Nat × (Byte × Bool)) => x.2.2).map fun x => x.1 / 8
    wrote { s1 with granPois := bad.foldl (fun l w => if l.contains w then l else w :: l) s1.granPois } bs.length
  | .mem p bs =>
    match s.resolve p 128 2 with
    | some q =>
      if s.keyOn q.key then
        let i := s.homeOf q
        let s1 := s.updSlice i fun sl => { sl with tags := mapUpd (lineNo q.pa) (fun t => { t with w := none }) sl.tags }
        let s2 := s1.writeCo q (putCells bs)
        let s3 := if c.kind.counted then
          bs.foldl (fun (s : State) (x : Nat × (Byte × Bool)) => s.countWrite (q.pa / 128 * 128 + x.1) 1) s2 else s2
        (wrote s3 bs.length).landLate (lineNo q.pa)
      else fail s
    | none =>
      match spaceOf p.pa with
      | .host _ =>
        if s.hostOk p.pa then
          let b (x : Nat × (Byte × Bool)) : Byte := if x.2.2 then (Config.poisonBits s.fresh x.1).setWidth 8 else x.2.1
          wrote { s with hostMem := bs.foldl (fun m (x : Nat × (Byte × Bool)) => cellPut (p.pa / 128 * 128 + x.1) (b x) m) s.hostMem } bs.length
        else fail s
      | .remote k =>
        if s.pkg = some k ∨ s.dead.contains k then fail s
        else s.sendStore id (c.kind.stop c.die) k p c.ctx word bs
      | _ => fail s

/-- Must a write wait: its scratchpad has accesses to serve that have arrived before it (R178)? -/
def State.writeWaits (s : State) (w : EngWrite) : Bool :=
  match w with
  | .scratch t _ => !s.scratchIdle t
  | _ => false

/-- Every write for which the command holds ownership is performed. -/
def State.engineWrites (s : State) (id : Nat) (c : Cmd) : State :=
  if c.out.any s.writeWaits then s
  else c.out.foldl (fun s w => s.engineWrite id c false w) (s.updCmd id fun c => { c with out := [] })

/-- One of several things to do: which, where no order is given, is a free value (log entry 13). -/
def pickOne (fresh : Nat) (xs : List Nat) : Nat :=
  match xs with
  | [] => 0
  | [x] => x
  | x :: _ => xs.getD (Config.enginePick fresh % xs.length) x

/-- The bytes of a result that lie in block b of n addresses, by their offset in it. -/
def inBlock (n b : Nat) (bs : Map (Byte × Bool)) : Map (Byte × Bool) :=
  (bs.filter fun (x : Nat × (Byte × Bool)) => decide (x.1 / n = b)).map fun (x : Nat × (Byte × Bool)) => (x.1 % n, x.2)

/-- Take ownership of a destination line for bytes by offset (R351); none while it waits. -/
def State.ownLine (s : State) (id : Nat) (c : Cmd) (line : Nat) (bs : Map (Byte × Bool)) : State × Option EngWrite :=
  match s.enginePieces c.die c.ctx (128 * line) 128 permW (c.kind.stop c.die) (.engine id) (some id) with
  | (s1, some ((p, _) :: _)) => (s1.own id p, some (.mem p bs))
  | (s1, _) => (s1, none)

/-- The writing stage of an engine whose result stands: the write for which it owns a line is made, or the next line is
taken; the command has ended when none is left. -/
def State.writeStep (s : State) (id : Nat) (c : Cmd) : State :=
  let s1 : State := { s with fresh := s.fresh + 1 }
  if !c.out.isEmpty then s1.engineWrites id c
  else if c.left.isEmpty then s1.updCmd id fun c => { c with ended := true, busy := false }
  else
    let b := pickOne s.fresh c.left
    match s1.ownLine id c b (inBlock 128 b c.result) with
    | (s2, none) => s2
    | (s2, some w) => s2.updCmd id fun c => { c with out := [w], left := c.left.filter fun x => decide (x ≠ b) }

/-- The lines of a list of ranges, each once, ascending. -/
def linesTouched (rs : List (Nat × Nat)) : List Nat :=
  (rs.flatMap fun (r : Nat × Nat) => (List.range ((r.1 + r.2 + 127) / 128 - r.1 / 128)).map fun i => r.1 / 128 + i).eraseDups

/-- A result as bytes by address, later ones over earlier ones. -/
def toResult (bs : List (Nat × (Byte × Bool))) : Map (Byte × Bool) := bs.foldl (fun m x => mapSet x.1 x.2 m) []

/-- A command begins to write its result. -/
def Cmd.writing (c : Cmd) (r : Map (Byte × Bool)) : Cmd :=
  { c with result := r, left := (r.map fun (x : Nat × (Byte × Bool)) => x.1 / 128).eraseDups, stage := 3 }

/-- The reading stage: the next line is read; none is left when `left` is empty. -/
def State.readStep (s : State) (id : Nat) (c : Cmd) : State :=
  let s1 : State := { s with fresh := s.fresh + 1 }
  let b := pickOne s.fresh c.left
  match s1.engineRead id c (128 * b) 128 with
  | (s2, none) => s2
  | (s2, some (bs, st)) =>
    s2.updCmd id fun c => { c with got := mapSet b bs c.got, left := c.left.filter (fun x => decide (x ≠ b)), status := max c.status st }

/-- A byte that the command has read, by address; one that never came is poison. -/
def Cmd.byteAt (c : Cmd) (a : Nat) : Byte × Bool :=
  match mapGet? (a / 128) c.got with
  | some bs => bs.getD (a % 128) (0#8, true)
  | none => (0#8, true)
def Cmd.bytesAt (c : Cmd) (a n : Nat) : List (Byte × Bool) := (List.range n).map fun i => c.byteAt (a + i)

/-- A value read from bytes, and its poison. -/
def valOf (bs : List (Byte × Bool)) : Nat × Bool := (ofBytes (bs.map (·.1)), bs.any (·.2))

/-- Bytes of a value at an address, each with the same poison. -/
def putVal (a n x : Nat) (bad : Bool) : List (Nat × (Byte × Bool)) := (toBytes x n).zipIdx.map fun (b : Byte × Nat) => (a + b.2, (b.1, bad))

/-- May the command be worked on: accepted, not ended, not held by a fault? -/
def State.cmdReady (s : State) (id : Nat) (c : Cmd) : Bool := c.accepted.isSome && !c.ended && !s.cmdFaulted id

/-- Does a command accepted earlier hold its channel, encoder or communicator (R403, R381, R459)? -/
def State.cmdBehind (s : State) (c : Cmd) (same : Cmd → Bool) : Bool :=
  s.cmds.any fun (x : Nat × Cmd) => same x.2 && !x.2.ended && decide (x.2.die = c.die) && (match x.2.accepted, c.accepted with
    | some a, some b => decide (a < b)
    | _, _ => false)

/-- The checks of R374 on a completion word. -/
def wordAligned (w : Nat) : Except Stop Unit := if w % 16 = 0 then .ok () else progErr

/-- The record of R374. -/
def Cmd.record (c : Cmd) : Nat := c.status * 2 ^ 56 + c.flags % 64 * 2 ^ 50 + c.count % 2 ^ 48

/-- A command is gone: its bucket is free again (R462), and a task's input copy is counted off (R397). -/
def State.endCmd (s : State) (id : Nat) (c : Cmd) : State :=
  let s0 : State := { s with cmds := mapDel id s.cmds }
  let s1 : State := match c.team with
    | some t => s0.reapTeam t
    | none => s0
  let s2 : State := match c.bucket with
    | some b => { s1 with buckets := mapDel b s1.buckets }
    | none => s1
  match c.input with
  | some l => { s2 with launches := mapUpd l (fun (x : Launch) =>
      { x with copies := x.copies.filter (fun i => decide (i ≠ id)), status := if c.status > 1 then max x.status 2 else x.status }) s2.launches }
  | none => s2

/-- A write of 8 aligned bytes by an engine; none while it waits. A refused write is not performed. -/
def State.engineWord (s : State) (id : Nat) (c : Cmd) (va x : Nat) : State × Bool :=
  match s.enginePieces c.die c.ctx va 8 permW (c.kind.stop c.die) (.engine id) (some id) with
  | (s1, some ((p, _) :: _)) =>
    let bs : Map (Byte × Bool) := (toBytes x 8).zipIdx.map fun (b : Byte × Nat) => (p.pa % 128 + b.2, (b.1, false))
    (s1.engineWrite id c true (.mem { p with pa := p.pa / 128 * 128 } bs), true)
  | (s1, _) => (s1, false)

/-- ENGINE_COMPLETION_WRITE (R352, R374): when every access of the command has been performed or has failed, first the record goes to
W + 8, then the sequence value to W. The copies of a task's inputs have no word. -/
def execEngineCompletionWrite (cmd : Nat) (s : State) : Out :=
  match mapGet? cmd s.cmds with
  | none => .next s
  | some c =>
    if c.ended = false ∨ c.wait ≠ 0 ∨ c.out ≠ [] ∨ s.cmdFaulted cmd then .next s
    else if c.input.isSome then .next (s.endCmd cmd c)
    else if c.recorded = false then
      match s.engineWord cmd c (c.w + 8) c.record with
      | (s1, false) => .next s1
      | (s1, true) => .next (s1.updCmd cmd fun c => { c with recorded := true })
    else
      match s.engineWord cmd c c.w c.seq with
      | (s1, false) => .next s1
      | (s1, true) => .next (s1.endCmd cmd c)

end Sys2Proof.Machine
end

