-- ==== Sys2Proof/Machine/Porter.lean ====
section
/-! DEFINITION. COPY and the Porter (R375 to R377, R403). -/

namespace Sys2Proof.Machine

open Sys2Proof

/-- The fields of a copy descriptor (R376). -/
structure CopyDesc where
  sf : Fmt
  df : Fmt
  ssp : Nat
  dsp : Nat
  src : Nat
  dim0 : Nat
  dim1 : Nat
  rstr : Nat
  org0 : Int
  org1 : Int
  ext0 : Nat
  ext1 : Nat
  dst : Nat
  dstr : Nat
  xpl : Nat
  xstr : Nat
  fill : Nat
  deriving DecidableEq, Repr

/-- SX4 and SX2 in their expanded form (R31). -/
def Fmt.expanded (f : Fmt) : Bool := f == .sx4x || f == .sx2x

/-- Bytes of a packed block (R30). -/
def blockBytes (f : Fmt) : Nat :=
  match f with
  | .sx7 => 18
  | .sx4 | .sx4x => 12
  | _ => 8

/-- DFMT is SFMT, or the other form of SX4 or SX2. -/
def copyFmts (a b : Fmt) : Bool :=
  a == b || (a == .sx4 && b == .sx4x) || (a == .sx4x && b == .sx4) || (a == .sx2 && b == .sx2x) || (a == .sx2x && b == .sx2)

/-- The descriptor, when its fields are within their limits (R376). -/
def copyDesc? (d : List Word) : Option CopyDesc :=
  match Fmt.ofCode (bits (dW d 0) 15 8), Fmt.ofCode (bits (dW d 0) 23 16) with
  | some a, some b =>
    let c : CopyDesc :=
      { sf := a, df := b, ssp := bits (dW d 0) 25 24, dsp := bits (dW d 0) 27 26, src := dQ d 1, dim0 := dW d 3, dim1 := dW d 4
        rstr := dQ d 5, org0 := sext (dW d 7) 32, org1 := sext (dW d 8) 32, ext0 := bits (dW d 9) 15 0, ext1 := bits (dW d 9) 31 16
        dst := dQ d 10, dstr := dW d 12, xpl := dW d 13, xstr := dW d 14, fill := dW d 15 }
    let wide := Fmt.expanded a || Fmt.expanded b
    if bits (dW d 0) 7 0 = 3 ∧ copyFmts a b = true ∧ c.ssp ≠ 3 ∧ c.dsp ≠ 3 ∧ 1 ≤ c.dim0 ∧ 1 ≤ c.dim1 ∧ 1 ≤ c.ext0 ∧ 1 ≤ c.ext1
        ∧ (a.isSx = true ∨ c.src % fmtBytes a = 0) ∧ (wide = true ∨ (c.xpl = 0 ∧ c.xstr = 0))
        ∧ (a.isSx = false ∨ (dW d 7 % 16 = 0 ∧ c.dim0 % 16 = 0 ∧ c.ext0 % 16 = 0)) then some c else none
  | _, _ => none

/-- A copy goes by units: an element, or a block of 16. Elements of a unit. -/
def CopyDesc.per (c : CopyDesc) : Nat := if c.sf.isSx then 16 else 1

/-- The pieces of unit u of row r: address and length (R377). The exponent plane of an expanded source lies at XPL from SRC (log
entry 43). -/
def unitPieces (f : Fmt) (base stride xpl xstr u r : Nat) : List (Nat × Nat) :=
  if Fmt.expanded f then [((base + r * stride + 16 * u) % 2 ^ 64, 16), ((base + xpl + r * xstr + u) % 2 ^ 64, 1)]
  else
    let n := if f.isSx then blockBytes f else fmtBytes f
    [((base + r * stride + n * u) % 2 ^ 64, n)]

/-- The pieces of destination unit u of row r. -/
def CopyDesc.dstPieces (c : CopyDesc) (u r : Nat) : List (Nat × Nat) := unitPieces c.df c.dst c.dstr c.xpl c.xstr u r

/-- The pieces of its source; none where it is out of bounds. -/
def CopyDesc.srcPieces (c : CopyDesc) (u r : Nat) : Option (List (Nat × Nat)) :=
  let x := c.org0 + c.per * u
  let y := c.org1 + r
  if 0 ≤ x ∧ x < c.dim0 ∧ 0 ≤ y ∧ y < c.dim1 then
    some (unitPieces c.sf c.src c.rstr c.xpl c.xstr (x.toNat / c.per) y.toNat)
  else none

/-- The units of the window: unit and row. -/
def CopyDesc.units (c : CopyDesc) : List (Nat × Nat) :=
  (List.range c.ext1).flatMap fun r => (List.range (c.ext0 / c.per)).map fun u => (u, r)

/-- A packed block taken apart, and put together (R30). -/
def unpackBlock (n : Nat) (bs : List Byte) : SxBlock :=
  let st := ofBytes (bs.drop 2)
  ⟨(bs.getD 0 0#8).toNat, (List.range 8).map fun j => bit (bs.getD 1 0#8).toNat j,
    (List.range 16).map fun i => (bit st ((n + 1) * i + n), bits st ((n + 1) * i + n - 1) ((n + 1) * i))⟩
def packBlock (n : Nat) (b : SxBlock) : List Byte :=
  let ms := (List.range 8).foldl (fun a j => a + if b.m.getD j false then 2 ^ j else 0) 0
  let st := b.el.zipIdx.foldl (fun a (q : (Bool × Nat) × Nat) => a + (q.1.2 + if q.1.1 then 2 ^ n else 0) * 2 ^ ((n + 1) * q.2)) 0
  BitVec.ofNat 8 b.e :: BitVec.ofNat 8 ms :: toBytes st (2 * (n + 1))

/-- The 16 bytes of an expanded block and its exponent (R31): the block, and whether a byte has a high magnitude bit set. -/
def collapse (n : Nat) (bs : List Byte) : SxBlock × Bool :=
  let el := bs.take 16
  (⟨(bs.getD 16 0#8).toNat, (List.range 8).map fun j => bit (el.getD (2 * j) 0#8).toNat 6,
    el.map fun b => (bit b.toNat 7, bits b.toNat (n - 1) 0)⟩, el.any fun b => decide (bits b.toNat 5 n ≠ 0))

/-- A block in the form of a format. -/
def blockForm (f : Fmt) (b : SxBlock) : List Byte :=
  if Fmt.expanded f then (sxBytes f b).1 ++ (sxBytes f b).2 else packBlock (sxN f) b

/-- A unit converted (R377), and its flags. -/
def CopyDesc.convert (c : CopyDesc) (bs : List (Byte × Bool)) : List (Byte × Bool) × Nat :=
  if c.sf == c.df then (bs, 0)
  else
    let raw := bs.map (·.1)
    let bad := bs.any (·.2)
    let n := sxN c.sf
    let (b, odd) := if Fmt.expanded c.sf then collapse n raw else (unpackBlock n raw, false)
    -- a NaN block is written with every other bit zero, and its other bits are not read (R29)
    let nan := decide (b.e = 0xFF)
    ((blockForm c.df (if odd || nan then sxNan else b)).map fun x => (x, bad), if odd && !nan && !bad then flNV else 0)

/-- What a unit out of bounds holds, in the form of DFMT (R237, R377). -/
def CopyDesc.fillUnit (c : CopyDesc) : List Byte :=
  if c.sf.isSx then
    let v := fp32.unpack c.fill
    let b := match v with
      | .fin _ _ _ => (sxEncode (List.replicate 16 v) (sxN c.sf) .rne (fun _ => 0) false).1
      | _ => sxNan
    blockForm c.df b
  else
    let w := fmtBytes c.sf
    toBytes (if c.sf == .int64 then wrapI (sext c.fill 32) 64 else c.fill) w

/-- The extents of a copy in the scratchpad lie within SCRATCH (R377). -/
def CopyDesc.scratchOk (c : CopyDesc) (scratch : Nat) : Bool :=
  decide (c.ssp ≠ 1 ∧ c.dsp ≠ 1) || c.units.all fun (u : Nat × Nat) =>
    (decide (c.ssp ≠ 1) || ((c.srcPieces u.1 u.2).getD []).all fun (p : Nat × Nat) => decide (p.1 + p.2 ≤ scratch)) &&
      (decide (c.dsp ≠ 1) || (c.dstPieces u.1 u.2).all fun (p : Nat × Nat) => decide (p.1 + p.2 ≤ scratch))

/-- A poisoned shape word or operand of an engine command (R374). -/
def Env.engineOperands (e : Env) (pairs : List Fld) : Except Stop Unit :=
  if (e.g.shape (fldIdx e.x.d)).any Elem.pois || pairs.any (fun p => (e.g.srcU64 p).2) then poisonTrap none 0 else .ok ()

/-- COPY (R374, R376, R377). -/
def execCopy (x : Args) (s : State) : Out :=
  run .copy x s fun e s1 => do
    e.engineOperands [x.a, x.b]
    let d := (e.g.shape (fldIdx x.d)).map Elem.val
    match copyDesc? d with
    | none => illOp
    | some c => do
      let w := (e.g.srcU64 x.a).1
      wordAligned w
      if c.scratchOk e.cfg.scratch then do
        let cmd := e.command s1 .copy d w (e.g.srcU64 x.b).1
        let s2 ← e.submit s1 7 { cmd with team := if c.ssp = 1 ∨ c.dsp = 1 then some e.iss.team else none }
        .ok (s2, .seq)
      else .error (.trap { code := tcRangeScratch })

/-- Bytes of a piece of a source: global, of the team's scratchpad, of the Granary window; none while the read waits. -/
def State.copyRead (s : State) (id : Nat) (c : Cmd) (space a n : Nat) : State × Option (List (Byte × Bool) × Nat) :=
  match space with
  | 0 => s.engineRead id c a n
  | 1 =>
    match mapGet? (c.team.getD 0) s.teams with
    | none => (s, some (List.replicate n (0#8, true), 2))
    | some t =>
      if !s.scratchIdle (c.team.getD 0) then (s, none)
      else
      let bs := (List.range n).map fun i => ((cellGet (a + i) t.scratch).getD 0#8, t.scratchPois.contains ((a + i) / 8))
      (s, some (freePois s.fresh bs, readStatus bs false))
  | _ =>
    let gs := s.granSize c.ctx
    let bad (i : Nat) : Bool := decide (a + i ≥ gs) || s.sliceRetired (bankOf (s.granAddr c.ctx (a + i)))
    let bs := (List.range n).map fun i => if bad i then (0#8, true) else (s.granByte (s.granAddr c.ctx (a + i)), s.granBad (s.granAddr c.ctx (a + i)))
    (s, some (freePois s.fresh bs, readStatus bs ((List.range n).any bad)))

/-- The bytes of a unit of the source; none while the read waits. -/
def State.copyPieces (s : State) (id : Nat) (c : Cmd) (space : Nat) : List (Nat × Nat) → State × Option (List (Byte × Bool) × Nat)
  | [] => (s, some ([], 0))
  | (a, n) :: ps =>
    match s.copyRead id c space a n with
    | (s1, none) => (s1, none)
    | (s1, some (bs, st)) => match s1.copyPieces id c space ps with
      | (s2, none) => (s2, none)
      | (s2, some (cs, st')) => (s2, some (bs ++ cs, max st st'))

/-- Spread a unit's bytes over its pieces. -/
def spread : List (Nat × Nat) → List (Byte × Bool) → List (Nat × (Byte × Bool))
  | [], _ => []
  | (a, n) :: ps, bs => ((bs.take n).zipIdx.map fun (b : (Byte × Bool) × Nat) => (a + b.2, b.1)) ++ spread ps (bs.drop n)

/-- The bytes of the units of a block of the destination: with flags and status; none while a read waits. -/
def State.copyUnits (s : State) (id : Nat) (c : Cmd) (d : CopyDesc) : List (Nat × Nat) → State × Option (List (Nat × (Byte × Bool)) × Nat × Nat)
  | [] => (s, some ([], 0, 0))
  | (u, r) :: us =>
    let (s1, x) : State × Option (List (Byte × Bool) × Nat × Nat) :=
      match d.srcPieces u r with
      | none => (s, some (d.fillUnit.map fun b => (b, false), 0, 0))
      | some ps => match s.copyPieces id c d.ssp ps with
        | (s1, none) => (s1, none)
        | (s1, some (bs, st)) => (s1, some ((d.convert bs).1, (d.convert bs).2, st))
    match x with
    | none => (s1, none)
    | some (bs, fl, st) => match s1.copyUnits id c d us with
      | (s2, none) => (s2, none)
      | (s2, some (cs, fl', st')) => (s2, some (spread (d.dstPieces u r) bs ++ cs, fl ||| fl', max st st'))

/-- Addresses that a copy writes as one: a line of memory, an 8-byte word of a scratchpad or of the Granary. -/
def CopyDesc.grain (d : CopyDesc) : Nat := if d.dsp = 0 then 128 else 8
def CopyDesc.block (d : CopyDesc) (a : Nat) : Nat := (if d.dsp = 0 then va57 a else a) / d.grain

/-- The blocks of the destination. -/
def CopyDesc.blocks (d : CopyDesc) : List Nat :=
  (d.units.flatMap fun (u : Nat × Nat) => (d.dstPieces u.1 u.2).flatMap fun (p : Nat × Nat) =>
    (List.range p.2).map fun i => d.block (p.1 + i)).eraseDups

/-- Take a block of the destination: its source is read, and its line owned. -/
def State.copyBlock (s : State) (id : Nat) (c : Cmd) (d : CopyDesc) (b : Nat) : State :=
  let us := d.units.filter fun (u : Nat × Nat) => (d.dstPieces u.1 u.2).any fun (p : Nat × Nat) =>
    (List.range p.2).any fun i => decide (d.block (p.1 + i) = b)
  match s.copyUnits id c d us with
  | (s1, none) => s1
  | (s1, some (bs, fl, st)) =>
    let here := toResult ((bs.filter fun (x : Nat × (Byte × Bool)) => decide (d.block x.1 = b)).map fun (x : Nat × (Byte × Bool)) => (x.1, x.2))
    let note (s : State) (w : EngWrite) : State := s.updCmd id fun c => { c with
      out := [w], left := c.left.filter fun x => decide (x ≠ b), flags := c.flags ||| fl, status := max c.status st }
    match d.dsp with
    | 0 =>
      match s1.ownLine id c b (here.map fun (x : Nat × (Byte × Bool)) => (x.1 % 128, x.2)) with
      | (s2, none) => s2
      | (s2, some w) => note s2 w
    | 1 => note s1 (.scratch (c.team.getD 0) here)
    | _ =>
      let out := here.any fun (x : Nat × (Byte × Bool)) => decide (x.1 ≥ s1.granSize c.ctx) || s1.sliceRetired (bankOf (s1.granAddr c.ctx x.1))
      note s1 (if out then .refused else .gran (here.map fun (x : Nat × (Byte × Bool)) => (s1.granAddr c.ctx x.1, x.2)))

/-- COPY_EXECUTE (R377): the command of a Porter channel goes a step further. The blocks of its destination are written in any order;
each is read from the source, its line is owned, and it is written in one step. -/
def execCopyExecute (cmd : Nat) (s : State) : Out :=
  match mapGet? cmd s.cmds with
  | none => .next s
  | some c =>
    if c.kind ≠ .copy ∨ s.cmdReady cmd c = false ∨ s.cmdBehind c (fun x => decide (x.kind = .copy ∧ x.chan = c.chan)) then .next s
    else
      match copyDesc? c.desc with
      | none => .next s
      | some d =>
        if c.stage = 0 then .next (s.updCmd cmd fun c => { c with stage := 1, left := d.blocks })
        else
          let s1 : State := { s with fresh := s.fresh + 1 }
          if !c.out.isEmpty then .next (s1.engineWrites cmd c)
          else if c.left.isEmpty then .next (s1.updCmd cmd fun c => { c with ended := true })
          else .next (s1.copyBlock cmd c d (pickOne s.fresh c.left))

end Sys2Proof.Machine
end

