-- ==== Sys2Proof/Machine/Sorter.lean ====
section
/-! DEFINITION. SORT and the sort engine (R378, R379), ENCSUB and the encoders (R380, R381). -/

namespace Sys2Proof.Machine

open Sys2Proof

/-- The fields of a sort descriptor (R378). -/
structure SortDesc where
  kbits : Nat
  keys : Nat
  vals : Nat
  outk : Nat
  outv : Nat
  tmp : Nat
  seg : Nat
  n : Nat
  nseg : Nat
  deriving DecidableEq, Repr

/-- Bytes of the work area. -/
def SortDesc.tmpSize (d : SortDesc) : Nat := if d.vals = 0 then 8 * d.n else 12 * d.n

/-- The six ranges. -/
def SortDesc.ranges (d : SortDesc) : List (Nat × Nat) :=
  [(d.keys, 8 * d.n), (d.vals, if d.vals = 0 then 0 else 4 * d.n), (d.outk, 8 * d.n), (d.outv, if d.vals = 0 then 0 else 4 * d.n),
    (d.tmp, d.tmpSize), (d.seg, 8 * d.nseg)]

/-- Two ranges share a byte. -/
def rangesMeet (a b : Nat × Nat) : Bool := decide (a.2 ≠ 0 ∧ b.2 ≠ 0 ∧ a.1 < b.1 + b.2 ∧ b.1 < a.1 + a.2)

/-- Some two of a list of ranges overlap. -/
def anyMeet : List (Nat × Nat) → Bool
  | [] => false
  | r :: rs => rs.any (rangesMeet r) || anyMeet rs

/-- The descriptor, when its fields are within their limits and its ranges do not overlap (R378). -/
def sortDesc? (w : List Word) : Option SortDesc :=
  let d : SortDesc := ⟨bits (dW w 0) 15 8, dQ w 1, dQ w 3, dQ w 5, dQ w 7, dQ w 9, dQ w 11, dW w 13, dW w 14⟩
  if bits (dW w 0) 7 0 = 4 ∧ 1 ≤ d.kbits ∧ d.kbits ≤ 64 ∧ d.keys % 8 = 0 ∧ d.vals % 4 = 0 ∧ d.outk % 8 = 0
      ∧ (d.outv = 0 ↔ d.vals = 0) ∧ d.tmp % 128 = 0 ∧ d.seg % 8 = 0 ∧ 1 ≤ d.n ∧ d.n ≤ 268435456 ∧ d.nseg ≤ 16777216
      ∧ (d.nseg = 0 ↔ d.seg = 0) ∧ anyMeet d.ranges = false then some d else none

/-- SORT (R374, R378). -/
def execSort (x : Args) (s : State) : Out :=
  run .sort x s fun e s1 => do
    e.engineOperands [x.a, x.b]
    let w := (e.g.shape (fldIdx x.d)).map Elem.val
    match sortDesc? w with
    | none => illOp
    | some _ => do
      let cw := (e.g.srcU64 x.a).1
      wordAligned cw
      let s2 ← e.submit s1 7 (e.command s1 .sort w cw (e.g.srcU64 x.b).1)
      .ok (s2, .seq)

/-- The keys and payloads read. -/
def SortDesc.items (d : SortDesc) (c : Cmd) : List SortItem :=
  (List.range d.n).map fun i =>
    let k := valOf (c.bytesAt (va57 (d.keys + 8 * i)) 8)
    let v := if d.vals = 0 then (0, false) else valOf (c.bytesAt (va57 (d.vals + 4 * i)) 4)
    ⟨k.1, v.1, k.2, v.2⟩

/-- Passes of the engine (R379). -/
def SortDesc.passes (d : SortDesc) : Nat := (d.kbits + 15) / 16

/-- One pass: a stable sort by the next 16 bits of the effective key (R379). -/
def sortPassOn (kbits p : Nat) (xs : List SortItem) : List SortItem :=
  let digit (x : SortItem) : Nat := bits x.key (min (kbits - 1) (16 * p + 15)) (16 * p)
  sortBy (fun a b => decide (digit a ≤ digit b)) xs

/-- The segment of a key. -/
def segOf (kbits key : Nat) : Nat := if kbits > 32 then bits key (kbits - 1) 32 else 0

/-- The segment table from the number of keys in each segment: START and END. -/
def segTable : List Nat → Nat → List (Nat × Nat)
  | [], _ => []
  | n :: ns, pos => (pos, pos + n) :: segTable ns (pos + n)

/-- What the engine writes (R379): keys, payloads, segments, and zeros in the work area. -/
def SortDesc.output (d : SortDesc) (xs : List SortItem) : Map (Byte × Bool) :=
  let ks := xs.zipIdx.flatMap fun (x : SortItem × Nat) => putVal (va57 (d.outk + 8 * x.2)) 8 x.1.key x.1.keyPois
  let vs := if d.vals = 0 then [] else
    xs.zipIdx.flatMap fun (x : SortItem × Nat) => putVal (va57 (d.outv + 4 * x.2)) 4 x.1.val x.1.valPois
  let counts := (List.range d.nseg).map fun t => (xs.filter fun x => decide (segOf d.kbits x.key = t)).length
  let bad := xs.any SortItem.keyPois
  let ss := (segTable counts 0).zipIdx.flatMap fun (x : (Nat × Nat) × Nat) =>
    putVal (va57 (d.seg + 8 * x.2)) 8 (x.1.1 + 2 ^ 32 * x.1.2) bad
  let zs := (List.range d.tmpSize).map fun i => (va57 (d.tmp + i), ((0#8 : Byte), false))
  toResult (ks ++ vs ++ ss ++ zs)

/-- The command the sort engine of a die works on (R403): the one whose pass is under way; else the waiting one of highest class, the
earliest accepted among equals. -/
def State.sortNext (s : State) (die : Nat) : Option (Nat × Cmd) :=
  let mine := s.cmds.filter fun (x : Nat × Cmd) => decide (x.2.kind = .sort ∧ x.2.die = die) && x.2.accepted.isSome && !x.2.ended
  match mine.find? fun x => x.2.busy with
  | some x => some x
  | none =>
    let top := mine.foldl (fun m (x : Nat × Cmd) => max m x.2.cls) 0
    (mine.filter fun x => decide (x.2.cls = top)).foldl (fun (b : Option (Nat × Cmd)) x => match b with
      | none => some x
      | some y => if x.2.accepted.getD 0 < y.2.accepted.getD 0 then some x else some y) none

/-- SORT_PASS (R379, R403): the sort engine of the die goes a step further. The first pass reads the keys, the last writes the result;
between passes the engine may take another command. -/
def execSortPass (die : Nat) (s : State) : Out :=
  match s.sortNext die with
  | none => .next s
  | some (id, c) =>
    if s.cmdFaulted id then .next s
    else match sortDesc? c.desc with
    | none => .next s
    | some d =>
      let pass (c : Cmd) : Cmd :=
        let xs := sortPassOn d.kbits c.passes c.work
        if c.passes + 1 < d.passes then { c with work := xs, passes := c.passes + 1, stage := 2, busy := false }
        else { c.writing (d.output xs) with work := [], passes := c.passes + 1, count := d.n, busy := true }
      match c.stage with
      | 0 => .next (s.updCmd id fun c => { c with
          stage := 1, busy := true, left := linesTouched ((d.ranges.take 2).map fun (r : Nat × Nat) => (va57 r.1, r.2)) })
      | 1 => if !c.left.isEmpty then .next (s.readStep id c) else .next (s.updCmd id fun c => pass { c with work := d.items c, got := [] })
      | 2 => .next (s.updCmd id pass)
      | _ => .next ((s.writeStep id c).updCmd id fun c => { c with count := d.n })

/-- The fields of an encode submission block (R380). -/
structure EncDesc where
  surf : Nat
  pitch : Nat
  w : Nat
  h : Nat
  fmt : Nat
  codec : Nat
  ftype : Nat
  qp : Nat
  enc : Nat
  uv : Nat
  ctx : Nat
  ctxsz : Nat
  out : Nat
  outsz : Nat
  deriving DecidableEq, Repr

/-- A frame's bytes in a row of its first plane. -/
def EncDesc.rowBytes (d : EncDesc) : Nat := if d.fmt = 0 then 4 * d.w else d.w

/-- The block, when it keeps its limits (R380). Reserved bytes are ignored (R7). -/
def encDesc? (b : List Byte) : Option EncDesc :=
  let f (off n : Nat) : Nat := blockField b off n
  let d : EncDesc := ⟨f 0 8, f 8 4, f 0xC 2, f 0xE 2, f 0x10 1, f 0x11 1, f 0x12 1, f 0x13 1, f 0x14 1, f 0x18 8, f 0x20 8, f 0x28 4,
    f 0x30 8, f 0x38 4⟩
  if d.surf % 128 = 0 ∧ d.pitch % 128 = 0 ∧ 64 ≤ d.w ∧ d.w ≤ 7680 ∧ d.w % 8 = 0 ∧ 64 ≤ d.h ∧ d.h ≤ 4320 ∧ d.h % 8 = 0 ∧ d.fmt ≤ 1
      ∧ d.codec ≤ 1 ∧ d.ftype ≤ 1 ∧ (d.codec = 1 ∨ d.qp ≤ 51) ∧ (d.enc ≤ 3 ∨ d.enc = 0xFF) ∧ (if d.fmt = 1 then d.uv % 128 = 0 else d.uv = 0)
      ∧ d.ctx % 128 = 0 ∧ 2 * d.ctxsz ≥ 9 * d.w * d.h + 131072 then some d else none

/-- ENCSUB (R374, R380). -/
def execEncsub (x : Args) (s : State) : Out :=
  run .encsub x s fun e s1 =>
    let (a, ap) := e.g.srcU64 x.a
    let (b, bp) := e.g.srcU64 x.b
    let (c, cp) := e.g.srcU64 x.c
    if ap || bp || cp then poisonTrap none 0
    else if a % 128 ≠ 0 then progErr
    else do
      wordAligned b
      let s2 ← e.submit s1 7 { e.command s1 .encode [] b c with at_ := a }
      .ok (s2, .seq)

/-- The lines of a frame and of its stream context (R381). -/
def EncDesc.lines (d : EncDesc) : List Nat :=
  let rows (base n : Nat) : List (Nat × Nat) := (List.range n).map fun r => (va57 (base + r * d.pitch), d.rowBytes)
  linesTouched (rows d.surf d.h ++ (if d.fmt = 1 then rows d.uv (d.h / 2) else []) ++ [(va57 d.ctx, d.ctxsz)])

/-- What the encoder writes of a unit of n bytes (R381): the unit, and the stream context. The bytes are free values (log entry 6);
they are poisoned when poison was read. -/
def EncDesc.output (d : EncDesc) (fresh n : Nat) (bad : Bool) : Map (Byte × Bool) :=
  toResult (((List.range n).map fun i => (va57 (d.out + i), (Config.encodedByte fresh i, bad))) ++
    (List.range d.ctxsz).map fun i => (va57 (d.ctx + i), (Config.encodedByte fresh (n + i), bad)))

/-- ENCODE_FRAME (R381): the encoder of the command goes a step further: the frame's lines are read, then, if the unit fits in OUTSZ, the
unit and the context are written. -/
def execEncodeFrame (cmd : Nat) (s : State) : Out :=
  match mapGet? cmd s.cmds with
  | none => .next s
  | some c =>
    if c.kind ≠ .encode ∨ s.cmdReady cmd c = false ∨ s.cmdBehind c (fun x => decide (x.kind = .encode ∧ x.chan = c.chan)) then .next s
    else match encDesc? (c.desc.flatMap fun w => toBytes w.toNat 4) with
    | none => .next (s.updCmd cmd fun c => { c with ended := true, status := max c.status 5 })
    | some d =>
      match c.stage with
      | 0 => .next (s.updCmd cmd fun c => { c with stage := 1, left := d.lines })
      | 1 =>
        if !c.left.isEmpty then .next (s.readStep cmd c)
        else
          let n := Config.encodedSize s.fresh
          let s1 : State := { s with fresh := s.fresh + 1 }
          if n > d.outsz then .next (s1.updCmd cmd fun c => { c with ended := true, status := max c.status 4, count := n })
          else .next (s1.updCmd cmd fun c => { c.writing (d.output s.fresh n (decide (c.status ≠ 0))) with got := [], nth := n })
      | _ => .next ((s.writeStep cmd c).updCmd cmd fun c => { c with count := c.nth })

end Sys2Proof.Machine
end

