-- ==== Sys2Proof/Machine/Courier.lean ====
section
/-! DEFINITION. COLL and the Courier (R456 to R460, R476 to R479), bucket counters (R461 to R463). -/

namespace Sys2Proof.Machine

open Sys2Proof

/-- The fields of a collective descriptor (R457). -/
structure CollDesc where
  op : Nat
  red : Nat
  sc : Bool
  fmt : Fmt
  rnd : Nat
  src : Nat
  dst : Nat
  count : Nat
  comm : Nat
  scale : Nat
  ord : Nat
  seed : Nat
  deriving DecidableEq, Repr

/-- A communicator's registers (R456). -/
structure Comm where
  en : Bool
  tenant : Nat
  die : Nat
  nrank : Nat
  myrank : Nat
  deriving DecidableEq, Repr
def State.comm (s : State) (n : Nat) : Comm :=
  let r := s.reg (commReg n 0)
  ⟨bit r 63, bits r 55 50, bits r 49 48, bits r 40 32, bits r 24 16⟩

/-- Bytes of the source and of the result for a number of ranks (R457, R461). -/
def CollDesc.srcBytes (d : CollDesc) (nrank : Nat) : Nat :=
  if d.op = 3 then 4096 * d.count else if d.op = 2 then nrank * d.count * fmtBytes d.fmt else d.count * fmtBytes d.fmt
def CollDesc.dstBytes (d : CollDesc) (nrank : Nat) : Nat :=
  if d.op = 3 then 4096 * d.count else if d.op = 1 then nrank * d.count * fmtBytes d.fmt else d.count * fmtBytes d.fmt

/-- The fields as they stand. -/
def collFields (w : List Word) (f : Fmt) : CollDesc :=
  ⟨bits (dW w 0) 11 8, bits (dW w 0) 14 12, bit (dW w 0) 15, f, bits (dW w 0) 26 24, dQ w 1, dQ w 3, dW w 5, bits (dW w 6) 7 0, dW w 7,
    dQ w 8, dQ w 10⟩

/-- The descriptor, when its fields are within their limits (R457); lengths by the ranks of its communicator. -/
def collDesc? (s : State) (w : List Word) : Option CollDesc :=
  match Fmt.ofCode (bits (dW w 0) 23 16) with
  | none => none
  | some f =>
    let d := collFields w f
    let n := (s.comm d.comm).nrank
    let fmtOk := f == .fp32 || f == .fp16 || f == .bf16 || f == .int32 || f == .uint32 || f == .int64 || f == .uint64
    if bits (dW w 0) 7 0 = 5 ∧ d.op ≤ 3 ∧ d.red ≤ 2 ∧ fmtOk = true ∧ d.rnd ≤ 4 ∧ (d.op ≠ 3 ∨ f = .fp32)
        ∧ (d.sc = false ∨ (f.isFloat = true ∧ (d.op = 0 ∨ d.op = 2))) ∧ d.src % 128 = 0 ∧ d.dst % 128 = 0 ∧ 1 ≤ d.count ∧ d.count ≤ 2 ^ 28
        ∧ (d.op ≠ 3 ∨ d.ord % 128 = 0)
        ∧ (d.src = d.dst ∨ rangesMeet (d.src, d.srcBytes n) (d.dst, d.dstBytes n) = false) then some d else none

/-- The checks of COLL (R374, R458). -/
def Env.collChecks (e : Env) (s : State) (pairs : List Fld) (w : Nat) : Except Stop CollDesc := do
  e.engineOperands pairs
  match collDesc? s ((e.g.shape (fldIdx e.x.d)).map Elem.val) with
  | none => illOp
  | some d =>
    let c := s.comm d.comm
    if c.en = true ∧ c.tenant = e.cfg.ctx ∧ w % 16 = 0 then .ok d else progErr

/-- COLL (R458): the command goes to the Courier of its communicator's die. -/
def execColl (x : Args) (s : State) : Out :=
  run .coll x s fun e s1 => do
    let w := (e.g.srcU64 x.a).1
    let d ← e.collChecks s1 [x.a, x.b] w
    let c := e.command s1 .coll ((e.g.shape (fldIdx x.d)).map Elem.val) w (e.g.srcU64 x.b).1
    let s2 ← e.submit s1 7 { c with die := (s1.comm d.comm).die }
    .ok (s2, .seq)

/-- The cached leaf by which an address translates. -/
def State.leafOf (s : State) (ctx va : Nat) : Option TlbEntry :=
  s.tlb.find? fun e => decide (e.ctx = ctx ∧ e.va ≤ va ∧ va < e.va + e.size)

/-- BKSET (R461). -/
def execBkset (x : Args) (s : State) : Out :=
  run .bkset x s fun e s1 => do
    let a := e.g.srcU x.a
    if a.pois then poisonTrap none 0
    else do
      let w := (e.g.srcU64 x.b).1
      let d ← e.collChecks s1 [x.b, x.c] w
      if a.nat > 255 ∨ (mapGet? a.nat s1.buckets).isSome then progErr
      else
        let va := va57 d.src
        let n := d.srcBytes (s1.comm d.comm).nrank
        match e.pages s1 permR va 1 with
        | (_, none) => .error .stall
        | (s2, some (.error ())) => .ok (s2, .hold)
        | (s2, some (.ok ps)) =>
          match ps.head?, s2.leafOf e.cfg.ctx va with
          | some (p, _), some lf =>
            if va + n ≤ lf.va + lf.size then do
              let c := e.command s2 (.arm a.nat) ((e.g.shape (fldIdx x.d)).map Elem.val) w (e.g.srcU64 x.c).1
              let s3 ← e.submit s2 7 { c with die := a.nat / 64, range := some (p, n) }
              .ok (s3, .seq)
            else progErr
          | _, _ => progErr

/-- STATE, OVER and COUNT of a bucket counter as a tenant reads them (R463); one that is FREE is not held. -/
def State.bucketWord (s : State) (b ctx : Nat) : Nat :=
  match mapGet? b s.buckets with
  | none => 0
  | some k =>
    let st := match k.st with | .free => 0 | .armed => 1 | .fired => 2
    st * 2 ^ 62 + (if k.ctx = ctx then (if k.excess then 2 ^ 61 else 0) + k.count % 2 ^ 48 else 0)

/-- BKQ (R463). -/
def execBkq (x : Args) (s : State) : Out :=
  run .bkq x s fun e s1 =>
    let a := e.g.srcU x.a
    if a.pois then poisonTrap none 0
    else if a.nat > 255 then progErr
    else
      let v := s1.bucketWord a.nat e.cfg.ctx
      .ok (s1.updGroup e.iss.team e.iss.gix fun g => g.outU2 x.d (uOut e 0 false (v % 2 ^ 32)) (uOut e 1 false (v / 2 ^ 32)), .seq)

/-- BUCKET_COUNTED_WRITE (R462): bytes of a counted write are added to their bucket; the one that fills it fires its collective. -/
def execBucketCountedWrite (bucket bytes : Nat) (s : State) : Out :=
  if s.counted.contains (bucket, bytes) = false then .next s
  else
    let s1 : State := { s with counted := removeFirst (fun x => decide (x = (bucket, bytes))) s.counted }
    match mapGet? bucket s1.buckets with
    | none => .next s1
    | some k =>
      let n := k.count + bytes
      match k.st with
      | .free => .next s1
      | .fired => .next { s1 with buckets := mapSet bucket { k with count := n, excess := true } s1.buckets }
      | .armed =>
        if n < k.total then .next { s1 with buckets := mapSet bucket { k with count := n } s1.buckets }
        else
          let id := s1.nextId
          let die := (s1.comm (bits (dW k.desc 6) 7 0)).die
          let c : Cmd := { Cmd.fresh .coll die k.ctx 0 k.desc k.w k.seq with bucket := some bucket }
          .next { s1 with
            buckets := mapSet bucket { k with count := n, st := .fired } s1.buckets
            cmds := mapSet id c s1.cmds, nextId := id + 1 }

/-- The draw of the v-th value that a command rounds (R459): bits 15:0 of its converter after v + 1 steps. -/
def collDraw (seed : Nat) (mode : Rnd) (v : Nat) : Nat :=
  match mode with
  | .sr => lfsr (rngFix seed) (v + 1) % 65536
  | _ => 0

/-- One step of a fold (R459): its value and flags. -/
def CollDesc.combine (d : CollDesc) (draw x y : Nat) : Nat × Nat :=
  let w := 8 * fmtBytes d.fmt
  if d.fmt.isFloat then
    let fs := fspecOf d.fmt
    if d.red = 0 then fs.add (Rnd.ofCode d.rnd) draw x y else fs.minmax (decide (d.red = 2)) x y
  else
    let (a, b) := (intVal d.fmt x, intVal d.fmt y)
    (match d.red with
     | 0 => (x + y) % 2 ^ w
     | 1 => if b < a then y else x
     | _ => if b > a then y else x, 0)

/-- Values rounded for one element: the steps of a sum, and the scaling. -/
def CollDesc.perElem (d : CollDesc) (nrank : Nat) : Nat := (if d.red = 0 then nrank - 1 else 0) + if d.sc then 1 else 0

/-- A reduced element (R459): `xs` its contributions with their poison by rank, `g` its number in the whole result. -/
def CollDesc.reduce (d : CollDesc) (xs : List (Nat × Bool)) (g : Nat) : Nat × Bool × Nat :=
  let mode := Rnd.ofCode d.rnd
  let per := d.perElem xs.length
  let bad := xs.any (·.2)
  let (acc, fl) : Nat × Nat := match xs with
    | [] => (0, 0)
    | x :: rest => rest.zipIdx.foldl (fun (a : Nat × Nat) (y : (Nat × Bool) × Nat) =>
        let r := d.combine (collDraw d.seed mode (g * per + y.2)) a.1 y.1.1
        (r.1, a.2 ||| r.2)) (x.1, 0)
  let (z, fl2) : Nat × Nat :=
    if d.sc then
      let fs := fspecOf d.fmt
      fs.ofTerm mode (collDraw d.seed mode (g * per + per - 1)) (mulTerm (fs.unpack acc) (fp32.unpack d.scale))
    else (acc, 0)
  (z, bad, if bad then 0 else fl ||| fl2)

/-- One channel of a pixel composed (R460): the channel's values with the T values of the ranks, front first; for T itself the
product of the T values. `g` is the number of the element. -/
def CollDesc.channel (d : CollDesc) (cs ts : List (Nat × Bool)) (isT : Bool) (g : Nat) : Nat × Bool × Nat :=
  let mode := Rnd.ofCode d.rnd
  let per := cs.length - 1
  let start : Nat × Nat × Nat := ((cs.getD 0 (0, false)).1, (ts.getD 0 (0, false)).1, 0)
  let r := (List.range per).foldl (fun (a : Nat × Nat × Nat) k =>
    let cb := (cs.getD (k + 1) (0, false)).1
    let tb := (ts.getD (k + 1) (0, false)).1
    let dr := collDraw d.seed mode (g * per + k)
    let t := fp32.mul mode (collDraw d.seed mode ((g / 4 * 4 + 3) * per + k)) a.2.1 tb
    let c := if isT then t else fp32.fma mode dr a.2.1 cb a.1
    (c.1, t.1, a.2.2 ||| c.2)) start
  let bad := (cs ++ (if isT then [] else ts.dropLast)).any (·.2)
  (r.1, bad, if bad then 0 else r.2.2)

/-- The contribution of each rank: an element of w bytes by its number. -/
def Cmd.contrib (c : Cmd) (d : CollDesc) (ps : List Peer) (my w : Nat) (k i : Nat) : Nat × Bool :=
  if k = my then valOf (c.bytesAt (va57 (d.src + w * i)) w)
  else match ps.find? fun p => decide (p.rank = k) with
    | some p => valOf ((List.range w).map fun j => p.src.getD (w * i + j) (0#8, true))
    | none => (0, true)

/-- The order of ranks for a tile (R457). -/
def collOrder (ord : List Byte) (nrank t : Nat) : List Nat :=
  (List.range nrank).map fun j => ofBytes ((List.range 2).map fun b => ord.getD (2 * (t * nrank + j) + b) 0#8)

/-- The ORD table of the command. -/
def Cmd.ordBytes (c : Cmd) (d : CollDesc) (nrank : Nat) : List Byte :=
  if d.op = 3 then (c.bytesAt (va57 d.ord) (2 * nrank * d.count)).map (·.1) else []

/-- The elements of the result: number in DST, value, poison, flags (R459, R460). -/
def Cmd.collResult (c : Cmd) (d : CollDesc) (ps : List Peer) (nrank my : Nat) : List (Nat × (Nat × Bool × Nat)) :=
  let w := fmtBytes d.fmt
  let at_ := c.contrib d ps my w
  let all (i : Nat) : List (Nat × Bool) := (List.range nrank).map fun k => at_ k i
  match d.op with
  | 0 => (List.range d.count).map fun i => (i, d.reduce (all i) i)
  | 1 => (List.range nrank).flatMap fun k => (List.range d.count).map fun i => (k * d.count + i, (at_ k i).1, (at_ k i).2, 0)
  | 2 => (List.range d.count).map fun i => (i, d.reduce (all (my * d.count + i)) (my * d.count + i))
  | _ =>
    let ord := c.ordBytes d nrank
    (List.range d.count).flatMap fun t =>
      let rs := collOrder ord nrank t
      (List.range 1024).map fun j =>
        let i := 1024 * t + j
        let ts := rs.map fun k => at_ k (i / 4 * 4 + 3)
        (i, d.channel (rs.map fun k => at_ k i) ts (decide (j % 4 = 3)) i)

/-- Do the paired commands agree (R459)? -/
def Peer.agrees (p : Peer) (w : List Word) (ord : List Byte) : Bool :=
  let same (i hi lo : Nat) : Bool := decide (bits (dW p.desc i) hi lo = bits (dW w i) hi lo)
  same 0 26 8 && same 5 31 0 && same 7 31 0 && decide (dQ p.desc 10 = dQ w 10) && decide (p.ord = ord)

/-- The result formed, and its lines to be written. -/
def Cmd.formed (c : Cmd) (d : CollDesc) (ps : List Peer) (nrank my : Nat) : Cmd :=
  let w := fmtBytes d.fmt
  let rs := c.collResult d ps nrank my
  let bytes := rs.flatMap fun (r : Nat × (Nat × Bool × Nat)) => putVal (va57 (d.dst + w * r.1)) w r.2.1 r.2.2.1
  { c.writing (toResult bytes) with
    got := [], flags := rs.foldl (fun a (r : Nat × (Nat × Bool × Nat)) => a ||| r.2.2.2) 0
    status := max c.status (if rs.any fun (r : Nat × (Nat × Bool × Nat)) => r.2.2.1 then 1 else 0)
    nth := c.nth, count := 0 }

/-- The lines that the Courier reads of a rank. -/
def CollDesc.sourceLines (d : CollDesc) (nrank : Nat) : List Nat :=
  linesTouched ((va57 d.src, d.srcBytes nrank) :: (if d.op = 3 then [(va57 d.ord, 2 * nrank * d.count)] else []))

/-- COLLECTIVE_EXECUTE (R459, R460, R477): the Courier takes a command a step further: its source is read; when the contributions of all
ranks are there the result is formed, in rank order or in ORD order; the result is written line by line. The COUNT of its record
is the bytes written (R484). -/
def execCollectiveExecute (cmd : Nat) (s : State) : Out :=
  match mapGet? cmd s.cmds with
  | none => .next s
  | some c =>
    let cm := bits (dW c.desc 6) 7 0
    let k := s.comm cm
    let finish (st : Nat) : State := s.updCmd cmd fun c => { c with ended := true, status := max c.status st }
    if c.kind ≠ .coll ∨ s.cmdReady cmd c = false ∨ s.cmdBehind c (fun x => decide (x.kind = .coll ∧ bits (dW x.desc 6) 7 0 = cm)) then .next s
    else match collDesc? s c.desc with
    | none => .next (finish 5)
    | some d =>
      if c.ranks.any fun r => s.dead.contains r then
        .next ((s.disown [cmd]).updCmd cmd fun c => { c with ended := true, status := max c.status 2, out := [], busy := false })
      else match c.stage with
      | 0 => .next (s.updCmd cmd fun c => { c with stage := 1, left := d.sourceLines k.nrank })
      | 1 =>
        if !c.left.isEmpty then .next (s.readStep cmd c)
        else
          let ps := s.peers.filter fun p => decide (p.comm = cm ∧ p.nth = c.nth)
          let others := (List.range k.nrank).filter fun r => decide (r ≠ k.myrank)
          if others.any fun r => !(ps.any fun p => decide (p.rank = r)) then .next s
          else
            let ord := c.ordBytes d k.nrank
            let perm (t : Nat) : Bool := (List.range k.nrank).all fun r => (collOrder ord k.nrank t).contains r
            let s1 : State := { s with fresh := s.fresh + 1, peers := s.peers.filter fun p => !decide (p.comm = cm ∧ p.nth = c.nth) }
            if ps.any (fun p => !p.agrees c.desc ord) ∨ (d.op = 3 ∧ !((List.range d.count).all perm)) then
              .next (s1.updCmd cmd fun c => { c with ended := true, status := max c.status 5 })
            else .next (s1.updCmd cmd fun c => c.formed d ps k.nrank k.myrank)
      | _ => .next (s.writeStep cmd c)

end Sys2Proof.Machine
end

