-- ==== Sys2Proof/Machine/Queue.lean ====
section
/-! DEFINITION. The acceptance of commands (R403, R458, R461, R476), hardware queues (R382, R401, R402), and the issue of EMITC and LAUNCH
(R383, R384). -/

namespace Sys2Proof.Machine

open Sys2Proof

/-- A queue's state and its configuration (R401): enabled, tenant, entries of its ring, its address. -/
def State.queue (s : State) (q : Nat) : HwQueue := mapGetD q HwQueue.reset s.queues
def State.updQueue (s : State) (q : Nat) (f : HwQueue → HwQueue) : State := { s with queues := mapSet q (f (s.queue q)) s.queues }
def State.queueOn (s : State) (q : Nat) : Bool := bit (s.reg (queueReg q 0)) 63
def State.queueTenant (s : State) (q : Nat) : Nat := bits (s.reg (queueReg q 0)) 13 8
def State.ringSize (s : State) (q : Nat) : Nat :=
  let z := bits (s.reg (queueReg q 0)) 3 0
  if z = 0 then 0 else 4 * 2 ^ z
def State.ringBase (s : State) (q : Nat) : Nat := bits (s.reg (queueReg q 8)) 63 12 * 4096

/-- The checks of QPUSH and QPOP on their queue (R382). -/
def Env.queueNumber (e : Env) (s : State) : Except Stop Nat :=
  let a := e.g.srcU e.x.a
  if a.pois then poisonTrap none 0
  else if a.nat > 255 ∨ s.queueTenant a.nat ≠ e.cfg.ctx then progErr
  else .ok a.nat

/-- The fragment waits for the answer of its queue (R382). -/
def Env.waitQueue (e : Env) (s : State) : State :=
  s.updGroup e.iss.team e.iss.gix fun g => g.updFrag e.iss.entry fun f => { f with wait := .queue e.x.bytes e.gp }

/-- QPUSH (R382): the block is captured at issue. -/
def execQpush (x : Args) (s : State) : Out :=
  run .qpush x s fun e s1 => do
    let ws := (List.range 16).map fun i => e.g.sreg (fldIdx x.d + i)
    let q ← e.queueNumber s1
    if ws.any Elem.pois then poisonTrap none 0
    else do
      let c : Cmd := { e.command s1 (.push q) [] 0 0 with die := q / 64, blk := ws, dst := fldIdx x.d, pred := fldIdx x.c }
      let s2 ← e.submit s1 9 c
      .ok (e.waitQueue s2, .hold)

/-- QPOP (R382). -/
def execQpop (x : Args) (s : State) : Out :=
  run .qpop x s fun e s1 => do
    let q ← e.queueNumber s1
    let c : Cmd := { e.command s1 (.pop q) [] 0 0 with die := q / 64, dst := fldIdx x.d, pred := fldIdx x.c }
    let s2 ← e.submit s1 9 c
    .ok (e.waitQueue s2, .hold)

/-- EMITC (R383, R398): one record for each active lane, in ascending lane order. -/
def execEmitc (x : Args) (s : State) : Out :=
  run .emitc x s fun e s1 => do
    let (b, bp) := e.g.srcU64 x.b
    let c := e.g.srcU x.c
    let vs := e.g.vregs x.a 13
    let lane (l : Nat) : List Elem := vs.map fun v => laneAt v l
    if bp || c.pois then poisonTrap none 0
    else do
      e.check tcPoison (fun _ => 0) fun l => (lane l).any Elem.pois
      if b % 4 ≠ 0 ∨ c.nat > 15 then progErr
      else if e.act = 0#32 then .ok (s1, .seq)
      else do
        let recs := (lanesOf e.act).flatMap fun l =>
          [BitVec.ofNat 32 b, BitVec.ofNat 32 (b / 2 ^ 32), c.val] ++ (lane l).map Elem.val
        let s2 ← e.submit s1 7 (e.command s1 .emitc recs 0 0)
        .ok (s2, .seq)

/-- LAUNCH (R384): the front end takes the record at LAUNCH_ACCEPT. -/
def execLaunch (x : Args) (s : State) : Out :=
  run .launch x s fun e s1 =>
    let (a, ap) := e.g.srcU64 x.a
    if ap then poisonTrap none 0
    else if a % 256 ≠ 0 then progErr
    else do
      let s2 ← e.submit s1 7 { e.command s1 .launch [] 0 0 with at_ := a }
      .ok (s2, .seq)

/-- A queue answers (R382): q[C], the block of a QPOP that took an entry, and the counts of R401; the fragment goes on. -/
def State.queueAnswer (s : State) (id : Nat) (c : Cmd) (q : Nat) (push ok : Bool) (block : List Elem) : State :=
  let s1 := { s with cmds := mapDel id s.cmds }.updQueue q fun k =>
    if !ok then { k with naks := (k.naks + 1) % 65536 }
    else if push then { k with pushes := addW k.pushes 1 } else { k with pops := addW k.pops 1 }
  match c.issuer with
  | none => s1
  | some (t, g, f) =>
    let gp := match s1.group? t g with
      | some (_, gr) => match mapGet? c.entry gr.frags with
        | some fr => (match fr.wait with | .queue _ p => p | _ => false)
        | none => false
      | none => false
    let put (gr : Group) : Group :=
      let g1 := if ok && !push then gr.setSs c.dst (block.map fun x => if gp then ⟨Config.poisonBits s.fresh 0, true⟩ else x) else gr
      { g1.setQ c.pred ok gp with flights := g1.flights.filter fun x => decide (x.id ≠ f) }
    let s2 := (s1.updGroup t g put).pump t g
    endWait { s2 with fresh := s2.fresh + 1 } t g c.entry

/-- ERR of a queue is set, which raises the queue interrupt (R401, R455). -/
def State.queueErr (s : State) (q : Nat) : State :=
  let r := s.reg irqcfg
  let s1 := s.updQueue q fun k => { k with err := true }
  if bit r 61 then raiseMsix s1 0 (bits r 21 16) else s1

/-- A ring write of a QPUSH ends (R402): answered 1 when it was performed, else 0 with ERR. -/
def State.ringWritten (s : State) (id : Nat) (c : Cmd) (q : Nat) : State :=
  if c.status ≥ 2 ∨ s.queueOn q = false then
    (if c.status ≥ 2 then s.queueErr q else s).queueAnswer id c q true false []
  else
    (s.updQueue q fun k => { k with rtail := addW k.rtail 1, rcnt := k.rcnt + 1, spills := addW k.spills 1 }).queueAnswer id c q true true []

/-- A block as 64 bytes. -/
def blockWords (es : List Elem) : List (Byte × Bool) := es.flatMap fun e => (toBytes e.val.toNat 4).map fun b => (b, e.pois)

/-- The place of a ring entry under the tenant's translation (R402): none while another command owns its line, or the buffer of faults is
full; an error where the walk fails, which fails the write or the refill (R437, log entry 44). -/
def State.ringPlace (s : State) (q i need : Nat) (id : Option Nat) : State × Option (Except Unit Place) :=
  let ctx := s.queueTenant q
  let va := va57 (s.ringBase q + 64 * (i % s.ringSize q))
  if s.mustWait (q / 64) ctx va then (s, none)
  else match s.translate ctx va need with
  | (s1, .error _) => (s1, some (.error ()))
  | (s1, .ok p) => if s1.ownedBy p 64 need id then (s1, none) else (s1, some (.ok p))

/-- QPUSH at its queue (R402): on chip, or to the ring by a relaxed write under the tenant's translation. -/
def State.queuePush (s : State) (id : Nat) (c : Cmd) (q : Nat) : State :=
  let k := s.queue q
  let n := s.ringSize q
  if s.queueOn q = false then s.queueAnswer id c q true false []
  else if k.rcnt = 0 ∧ k.chip.length < 32 then
    (s.updQueue q fun k => { k with chip := k.chip ++ [c.blk] }).queueAnswer id c q true true []
  else if n = 0 ∨ k.rcnt ≥ n then s.queueAnswer id c q true false []
  else
    match s.ringPlace q k.rtail permW (some id) with
    | (s1, none) => s1.updCmd id fun c => { c with accepted := some 0 }
    | (s1, some (.error _)) => (s1.queueErr q).queueAnswer id c q true false []
    | (s1, some (.ok p)) =>
      let bs : Map (Byte × Bool) := (blockWords c.blk).zipIdx.map fun (b : (Byte × Bool) × Nat) => (p.pa % 128 + b.2, b.1)
      let s2 := (s1.updCmd id fun c => { c with stage := 1, accepted := some 0 }).engineWrite id c false (.mem { p with pa := p.pa / 128 * 128 } bs)
      match mapGet? id s2.cmds with
      | some c' => if c'.wait = 0 then s2.ringWritten id c' q else s2
      | none => s2

/-- QPOP at its queue (R402): the oldest entry on chip; with none on chip and some in the ring it waits for the refill. -/
def State.queuePop (s : State) (id : Nat) (c : Cmd) (q : Nat) : State :=
  let k := s.queue q
  if s.queueOn q = false then s.queueAnswer id c q false false []
  else match k.chip with
    | b :: rest => (s.updQueue q fun k => { k with chip := rest }).queueAnswer id c q false true b
    | [] => if k.rcnt = 0 then s.queueAnswer id c q false false [] else s.updCmd id fun c => { c with accepted := some 0 }

/-- Is the operation next at its queue (R402)? No other is under way there, and none of the same group was issued before it. -/
def State.queueTurn (s : State) (id : Nat) (c : Cmd) (q : Nat) : Bool :=
  let onQ (x : Cmd) : Bool := decide (x.kind = .push q ∨ x.kind = .pop q)
  let grp (x : Cmd) : Option (Nat × Nat) := x.issuer.map fun i => (i.1, i.2.1)
  !(s.cmds.any fun (x : Nat × Cmd) => decide (x.1 ≠ id) && onQ x.2 && (x.2.accepted.isSome || (decide (x.1 < id) && decide (grp x.2 = grp c))))

/-- A command is taken by its engine (R403). -/
def State.take (s : State) (id : Nat) (c : Cmd) : State :=
  let n := s.acceptedCmds
  ({ s with acceptedCmds := n + 1, cmds := mapSet id { c with accepted := some n } s.cmds }).cmdTaken c

/-- Commands of a kind that an engine of the die holds. -/
def State.held (s : State) (p : Cmd → Bool) : Nat := (s.cmds.filter fun (x : Nat × Cmd) => p x.2 && x.2.accepted.isSome && !x.2.ended).length

/-- The encoder of a submission block (R403): the one it names, or the one with the fewest commands, the lowest among equals. -/
def State.encoderFor (s : State) (die enc : Nat) : Nat :=
  if enc ≤ 3 then enc
  else
    let load (i : Nat) : Nat := s.held fun x => decide (x.kind = .encode ∧ x.die = die ∧ x.chan = i)
    [1, 2, 3].foldl (fun b i => if load i < load b then i else b) 0

/-- The encoder takes a command (R380): the block is read once. -/
def State.takeEncode (s : State) (id : Nat) (c : Cmd) : State :=
  match s.engineRead id c c.at_ 128 with
  | (s1, none) => s1
  | (s1, some (bs, st)) =>
    let raw := bs.map (·.1)
    let desc := (List.range 32).map fun i => BitVec.ofNat 32 (blockField raw (4 * i) 4)
    match (if st = 0 then encDesc? raw else none) with
    | none => s1.take id { c with desc := desc, ended := true, status := max st 5 }
    | some d => s1.take id { c with desc := desc, chan := s1.encoderFor c.die d.enc }

/-- The rank map of a communicator (R456, R476): package numbers; none where the read is refused. -/
def State.rankMap (s : State) (n : Nat) : State × Option (List (Nat × Bool)) :=
  let r := s.reg (commReg n 8)
  let (s1, bs, bad) := s.readPieces (linesOf ⟨bits r 51 12 * 4096, bits r 63 52, false, 0, 0⟩ (2 * (s.comm n).nrank))
  if bad then (s1, none)
  else (s1, some ((List.range (s.comm n).nrank).map fun i => valOf ((bs.drop (2 * i)).take 2)))

/-- Is a rank map sound (R476)? -/
def ranksOk (rs : List (Nat × Bool)) (my pkg : Nat) : Bool :=
  rs.all (fun r => !r.2 && decide (r.1 < 288)) && decide ((rs.map (·.1)).Nodup) && decide ((rs.map (·.1))[my]? = some pkg)

/-- The Courier takes a command (R459, R476). One whose rank map is not sound has no place among its communicator's commands, nor has one whose
communicator has been disabled, which ends with STATUS 2 (R456; of a bucket counter that fires: DEDUCED, log entry 46). -/
def State.takeColl (s : State) (id : Nat) (c : Cmd) : State :=
  let n := bits (dW c.desc 6) 7 0
  if c.status ≥ 2 ∨ (s.comm n).en = false then s.take id { c with ended := true, status := max c.status 2 }
  else match s.rankMap n with
  | (s1, none) => s1.take id { c with ended := true, status := max c.status 2 }
  | (s1, some rs) =>
    if ranksOk rs (s1.comm n).myrank (bits (s1.reg 0x00C50000) 8 0) then
      let k := mapGetD n 0 s1.commNth
      State.take { s1 with commNth := mapSet n (k + 1) s1.commNth } id { c with nth := k, ranks := rs.map (·.1) }
    else s1.take id { c with ended := true, status := max c.status 5 }

/-- ENGINE_ACCEPT (R403, R382, R461): the unit that a command is for takes it, when it has room. An operation of a queue is performed
there; the records of EMITC and of LAUNCH are taken by steps of their own. -/
def execEngineAccept (cmd : Nat) (s : State) : Out :=
  match mapGet? cmd s.cmds with
  | none => .next s
  | some c =>
    if s.cmdSent c = false ∨ s.cmdFaulted cmd then .next s
    else match c.kind with
    | .push q =>
      if s.queueTurn cmd c q = false then .next s
      else if c.stage = 1 then (if c.wait = 0 then .next (s.ringWritten cmd c q) else .next s)
      else .next (s.queuePush cmd c q)
    | .pop q => if s.queueTurn cmd c q then .next (s.queuePop cmd c q) else .next s
    | .arm b =>
      if (mapGet? b s.buckets).isSome then .next s
      else match c.range with
        | none => .next s
        | some (p, n) =>
          let k : Bucket := ⟨.armed, c.ctx, 0, false, n, p, c.desc, c.w, c.seq⟩
          .next (State.cmdTaken { s with buckets := mapSet b k s.buckets, cmds := mapDel cmd s.cmds } c)
    | .emitc | .launch => .next s
    | k =>
      if c.accepted.isSome then .next s
      else match k with
        | .copy => .next (State.take { s with fresh := s.fresh + 1 } cmd { c with chan := Config.enginePick s.fresh % 8 })
        | .sort => if s.held (fun x => decide (x.kind = .sort ∧ x.die = c.die)) < 32 then .next (s.take cmd c) else .next s
        | .encode => .next (s.takeEncode cmd c)
        | _ => .next (s.takeColl cmd c)

/-- QUEUE_REFILL (R402): the oldest ring entry goes behind the entries on chip; a read that fails delivers a poisoned entry and sets ERR. -/
def execQueueRefill (queue : Nat) (s : State) : Out :=
  let k := s.queue queue
  let n := s.ringSize queue
  let land (s : State) (b : List Elem) (err : Bool) : State := (if err then s.queueErr queue else s).updQueue queue fun k =>
    { k with chip := k.chip ++ [b], rhead := addW k.rhead 1, rcnt := k.rcnt - 1 }
  let bad (s : State) : List Elem := (List.range 16).map fun i => ⟨Config.poisonBits s.fresh i, true⟩
  if s.queueOn queue = false ∨ k.rcnt = 0 ∨ k.chip.length ≥ 32 ∨ n = 0 then .next s
  else
    match s.ringPlace queue k.rhead permR none with
    | (s1, none) => .next s1
    | (s1, some (.error _)) => .next (land { s1 with fresh := s1.fresh + 1 } (bad s1) true)
    | (s1, some (.ok p)) =>
      let (s2, bs, refused) := s1.readPieces [(p, 64)]
      let fs := freePois s2.fresh bs
      let es := (List.range 16).map fun i => let v := valOf ((fs.drop (4 * i)).take 4); (⟨BitVec.ofNat 32 v.1, v.2⟩ : Elem)
      .next (land { s2 with fresh := s2.fresh + 1 } (if refused then bad s2 else es) refused)

/-- QCFG_WRITE (R401): with EN set, a write that leaves it set changes nothing; one that clears it discards every entry; one that sets it
begins with none. -/
def execQcfgWrite (queue : Nat) (value : Dword) (s : State) : Out :=
  let v := value.toNat
  let word := (if bit v 63 then 2 ^ 63 else 0) + bits v 13 8 * 256 + bits v 3 0
  let was := s.queueOn queue
  if was && bit v 63 then .next s
  else
    let s1 := s.setReg (queueReg queue 0) word
    if was then
      .next (s1.updQueue queue fun k => { k with chip := [], rcnt := 0, rhead := k.rtail })
    else if bit v 63 then .next (s1.updQueue queue fun k => { k with chip := [], rcnt := 0, rhead := 0, rtail := 0 })
    else .next s1

end Sys2Proof.Machine
end

