-- ==== Sys2Proof/Machine/Admit.lean ====
section
/-! DEFINITION. The submission of launches, their admission (R388 to R390), tasks (R397) and working sets (R396). -/

namespace Sys2Proof.Machine

open Sys2Proof

/-- What a read of the front end comes to. -/
inductive FeRead where
  | waits
  /-- Refused, poisoned, or answered FATAL (R390). -/
  | fails
  | bytes (bs : List Byte)
  deriving DecidableEq, Repr

/-- A failed walk of the front end or of a gather unit enters a fault buffer (R410, R411). -/
def State.frontFault (s : State) (die ctx va : Nat) (w : WalkFault) (need : Nat) (who : Faulter) : State :=
  if s.faultsFull die 1 then s else s.addFault die ctx va w (accessBits need + 16) 0xFFFF who 1

/-- A read of the front end, or of a gather unit, under a context's translation (R388, R398, R410). -/
def State.frontRead (s : State) (die ctx va n : Nat) (who : Faulter) : State × FeRead :=
  match s.translateAll ctx permR (pagesOf (va57 va) n) with
  | (s1, .error (a, w)) =>
    if s1.frontFatal.contains (ctx, a / 4096) then (s1, .fails) else (s1.frontFault die ctx a w permR who, .waits)
  | (s1, .ok ps) =>
    let ls := ps.flatMap fun p => linesOf p.1 p.2
    if ls.any fun (p : Place × Nat) => s1.ownedBy p.1 p.2 permR none then (s1, .waits)
    else
      let (s2, bs, bad) := s1.readPieces ls
      (s2, if bad || bs.any (·.2) then .fails else .bytes (bs.map (·.1)))

/-- Does a fault of the front end hold the context's acceptance (R410)? -/
def State.frontWaits (s : State) (who : Faulter) : Bool := s.faults.any fun d => d.2.any fun e => decide (e.who = who)

/-- Records refused advance TSTAT.REFUSED (R391). -/
def State.countRefused (s : State) (ctx : Nat) : State :=
  let r := s.reg (ctxReg ctx 0x58)
  s.setReg (ctxReg ctx 0x58) (setBits r 31 0 (addW (bits r 31 0) 1))

/-- TSUBP_TAIL_WRITE (R388): ignored where the ring would hold more than its capacity. -/
def execTsubpTailWrite (ctx : Nat) (value : Dword) (s : State) : Out :=
  let p := s.reg (ctxReg ctx 0x10)
  let size := 16 * 2 ^ bits (s.reg (ctxReg ctx 0x08)) 3 0
  let tail := bits value.toNat 63 32
  if (tail + 2 ^ 32 - bits p 31 0) % 2 ^ 32 > size then .next s
  else .next (s.setReg (ctxReg ctx 0x10) (setBits p 63 32 tail))

/-- The kinds of a record, and its blocks (R389). -/
def Launch.kind (l : Launch) : Nat := l.f 0x2C 1
def Launch.isTask (l : Launch) : Bool := !l.gathered && decide (l.kind = 2)
def Launch.tid (l : Launch) : Nat := l.x 0 2

/-- A block of zero bytes. -/
def zeroBytes (bs : List Byte) : Bool := bs.all fun b => decide (b = 0#8)

/-- An entry address and a trap vector (R389). -/
def entryOk (a : Nat) : Bool := decide (a % 4 = 0) && decide (a < 2 ^ 57)
def trapvOk (a : Nat) : Bool := decide (a = 2 ^ 64 - 1) || entryOk a

/-- The hints and the dead ranges of a record: address and length (R389). -/
def Launch.ranges (l : Launch) (off : Nat) : List (Nat × Nat) :=
  (List.range 4).map fun i => (l.f (off + 16 * i) 8, l.f (off + 16 * i + 8) 4)
def Launch.rangesOk (l : Launch) (off : Nat) : Bool :=
  (List.range 4).all fun i => decide (l.f (off + 16 * i) 8 % 128 = 0) && decide (l.f (off + 16 * i + 8) 4 % 128 = 0) &&
    decide (l.f (off + 16 * i + 12) 4 = 0)

/-- The limits of the record's own fields that every launch keeps (R389), those apart that a continuation template ignores. -/
def Launch.fieldsOk (l : Launch) : Bool :=
  trapvOk (l.f 8 8) && decide (1 ≤ l.f 0x1C 2 ∧ 1 ≤ l.f 0x1E 2 ∧ 1 ≤ l.f 0x22 1 ∧ l.f 0x22 1 ≤ 32 ∧ 1 ≤ l.f 0x23 1 ∧ l.f 0x23 1 ≤ 30)
    && decide (l.f 0x1C 2 ≤ 65535 ∧ l.f 0x1E 2 ≤ 65535 ∧ l.f 0x24 4 % 256 = 0 ∧ l.f 0x24 4 ≤ 523776)
    && decide (l.f 0x28 1 ≤ 64 ∧ l.f 0x29 1 ≤ 4 ∧ l.f 0x2A 1 ≤ 8 ∧ l.f 0x2B 1 ≤ 16 ∧ l.kind ≤ 2)
    && decide (bits (l.f 0x2D 1) 7 5 = 0 ∧ 3 ≤ bits (l.f 0x2D 1) 3 1 ∧ bits (l.f 0x2D 1) 3 1 ≤ 5)
    && zeroBytes ((l.rcd.drop 0xE8).take 24)

/-- The limits of the arguments, of the working sets and of EXT. -/
def Launch.addressesOk (l : Launch) : Bool :=
  entryOk (l.f 0 8) && decide (l.f 0x10 8 % 16 = 0 ∧ l.f 0x18 4 % 16 = 0 ∧ l.f 0x18 4 ≤ 1048576 ∧ (l.f 0x18 4 ≠ 0 ∨ l.f 0x10 8 = 0))
    && l.rangesOk 0x60 && l.rangesOk 0xA0 && (if l.kind = 0 then decide (l.f 0x58 8 = 0) else decide (l.f 0x58 8 % 64 = 0))

/-- The limits of a draw's block (R389). -/
def Launch.drawOk (l : Launch) : Bool :=
  decide (l.x 0 8 % 4 = 0 ∧ l.x 8 8 % 4 = 0 ∧ l.x 0x10 8 % 64 = 0 ∧ 1 ≤ l.x 0x18 1 ∧ l.x 0x18 1 ≤ 30 ∧ 1 ≤ l.x 0x19 1 ∧ l.x 0x19 1 ≤ 30)
    && decide (1 ≤ l.x 0x1A 1 ∧ l.x 0x1A 1 ≤ 8) && zeroBytes ((l.ext.drop 0x1B).take 37)

/-- The descriptor of a task's input copy. -/
def Launch.input (l : Launch) (i : Nat) : List Word := (List.range 16).map fun j => BitVec.ofNat 32 (l.x (0x40 + 64 * i + 4 * j) 4)

/-- The limits of a task's block (R389), and its TID is not live (R390). -/
def Launch.taskOk (s : State) (l : Launch) : Bool :=
  decide (l.x 4 1 ≤ 4) && zeroBytes ((l.ext.drop 5).take 3) && zeroBytes ((l.ext.drop 0x10).take 48)
    && (List.range (l.x 4 1)).all (fun i => match copyDesc? (l.input i) with
      | some c => decide (c.ssp ≠ 1 ∧ c.dsp ≠ 1)
      | none => false)
    && !(s.tasks.any fun t => decide (t.ctx = l.ctx ∧ t.tid = l.tid) && t.sub)

/-- The render state keeps its limits (R246). -/
def Launch.rstateOk (l : Launch) : Bool :=
  let r (off n : Nat) : Nat := blockField l.rstate off n
  let ntgt := r 0x0F 1
  decide (r 0 8 % 128 = 0 ∧ r 8 4 % 4 = 0 ∧ bits (r 0x0C 1) 7 3 = 0 ∧ bits (r 0x0D 1) 7 6 = 0 ∧ r 0x0E 1 ≤ 8 ∧ ntgt ≤ 8)
    && decide (1 ≤ r 0x14 2 ∧ r 0x14 2 ≤ 16384 ∧ 1 ≤ r 0x16 2 ∧ r 0x16 2 ≤ 16384)
    && zeroBytes ((l.rstate.drop 0x18).take 8) && zeroBytes ((l.rstate.drop 0xA0).take 96)
    && (List.range 8).all (fun k => zeroBytes ((l.rstate.drop (0x2E + 16 * k)).take 2)
      && (decide (k ≥ ntgt) || decide (r (0x20 + 16 * k) 8 % 16 = 0 ∧ r (0x2C + 16 * k) 1 ≤ 3 ∧ r (0x2D + 16 * k) 1 ≤ 2)))
    && decide (8 * l.x 0x19 1 ≥ 8 + 4 * r 0x0E 1)

/-- The format slots, and the kernel descriptor named (R59, R104, R390). -/
def Launch.slotsOk (l : Launch) : Bool := (List.range 8).all fun i => (Fmt.ofCode (l.f (0x30 + i) 1)).isSome
def Launch.kdescOk (l : Launch) (k : Option (List Byte)) : Bool :=
  decide (l.f 0xE0 8 = 0) || (match k with
    | none => false
    | some d =>
      let f (off n : Nat) : Nat := blockField d off n
      decide (f 0x18 1 = l.f 0x23 1 ∧ f 0x19 1 = l.f 0x22 1 ∧ f 0x1A 1 = l.f 0x20 1 ∧ f 0x1B 1 = l.f 0x21 1 ∧ f 0x10 4 = l.f 0x24 4)
        && (List.range 8).all fun i => decide (f (0x20 + i) 1 = 0xFF ∨ f (0x20 + i) 1 = l.f (0x30 + i) 1))

/-- The largest team for k (R18). -/
def largestTeam (k : Nat) : Nat := min 32 (4 * min 24 (1536 / k))

/-- The cluster shape (R19), and the barrier words of member 0. -/
def Launch.shapeOk (l : Launch) : Bool :=
  let (w, h) := (l.f 0x20 1, l.f 0x21 1)
  decide (1 ≤ w ∧ w ≤ 8 ∧ 1 ≤ h ∧ h ≤ 8 ∧ w * h ≤ 12 ∧ l.f 0x28 1 + l.f 0x29 1 ≤ 64)

/-- Take a cluster's needs from rooms given by core. -/
def takeRooms (l : Launch) (held : Nat → Bool) : List (Nat × Nat) → Map Room → Option (Map Room)
  | [], m => some m
  | (c, i) :: cs, m =>
    match (mapGetD c Room.full m).take (l.need i (held c)) with
    | none => none
    | some r => takeRooms l held cs (mapSet c r m)

/-- The first fit of R20 for n clusters, on cores that are empty but for the clusters before: the cores tested so far hold the draw's
reserved slots. -/
def fitAll (l : Launch) (ok : Nat → Bool) : Nat → Map Room → Bool
  | 0, _ => true
  | n + 1, m =>
    let places := ([0, 1, 2, 3].flatMap fun d => rects d (l.f 0x20 1) (l.f 0x21 1)).filter fun cs => cs.all ok
    match places.findSome? fun cs => takeRooms l (fun c => (mapGet? c m).isSome) cs.zipIdx m with
    | none => false
    | some m' => fitAll l ok n m'

/-- Can a cooperative grid be resident at once on the pool (R20, R419)? -/
def State.coopFits (s : State) (l : Launch) : Bool := fitAll l (fun c => !s.coreRetired c) l.total []

/-- The first check that refuses a launch (R390), 0 for none. `bad` says that a read of arguments or blocks failed. -/
def State.refusal (s : State) (l : Launch) (kdesc : Option (List Byte)) (bad : Bool) : Nat :=
  let seen := !bad
  if !(l.fieldsOk && l.addressesOk) then 1
  else if seen && decide (l.kind = 1) && !l.drawOk then 1
  else if seen && decide (l.kind = 2) && !(l.taskOk s) then 1
  else if !l.slotsOk || !l.kdescOk kdesc then 2
  else if l.f 0x22 1 > largestTeam (8 * l.f 0x23 1) then 3
  else if !l.shapeOk then 4
  else if bit (l.f 0x2D 1) 0 && !s.coopFits l then 5
  else if seen && decide (l.kind = 1) && !l.rstateOk then 6
  else if l.f 0x2E 1 ≠ 0xFF ∧ l.f 0x2E 1 > bits (s.reg (ctxReg l.ctx 0)) 2 0 then 7
  else if saveSize (l.f 0x22 1) (8 * l.f 0x23 1) (l.f 0x24 4) (l.f 0x28 1) (l.f 0x2A 1) (l.f 0x2B 1) (l.f 0x29 1) > s.reg (ctxReg l.ctx 0x40) then 8
  else if bad then 9
  else 0

/-- The entry of a task, made when it is not there; none when the table is full (R397). -/
def State.taskEntry (s : State) (ctx tid : Nat) : Option State :=
  if s.tasks.any fun t => decide (t.ctx = ctx ∧ t.tid = tid) then some s
  else if s.tasks.length ≥ 4096 then none
  else some { s with tasks := s.tasks ++ [⟨ctx, tid, 0, false⟩] }

/-- Change an entry. -/
def State.updTask (s : State) (ctx tid : Nat) (f : Task → Task) : State :=
  { s with tasks := updFirst (fun t => decide (t.ctx = ctx ∧ t.tid = tid)) f s.tasks }

/-- Start a task whose dependences are done (R397): its input copies go to Porters. On which die is a free value (log entry 13). -/
def State.startTask (s : State) (id : Nat) (l : Launch) : State :=
  let n := l.x 4 1
  let die := Config.enginePick s.fresh % 4
  let ids := (List.range n).map fun i => s.nextId + i
  let cmds := (List.range n).foldl (fun m i =>
    mapSet (s.nextId + i) { Cmd.fresh .copy die l.ctx 0 (l.input i) 0 0 with input := some id } m) s.cmds
  { s with
    fresh := s.fresh + 1, nextId := s.nextId + n, cmds := cmds
    launches := mapSet id { l with phase := 1, copies := ids } s.launches }

/-- Every task whose SUB is set and whose DEP is zero starts. -/
def State.startTasks (s : State) : State :=
  s.launches.foldl (fun (s : State) (x : Nat × Launch) =>
    if x.2.phase = 0 ∧ (s.tasks.any fun t => decide (t.ctx = x.2.ctx ∧ t.tid = x.2.tid ∧ t.dep = 0) && t.sub) = true
    then s.startTask x.1 x.2 else s) s

/-- A predecessor's completion (R397): the successor's DEP falls; without a free entry the event waits. -/
def State.decrement (s : State) (ctx tid : Nat) : State :=
  match s.taskEntry ctx tid with
  | none => { s with tasksDue := s.tasksDue ++ [(ctx, tid)] }
  | some s1 => s1.updTask ctx tid fun t => { t with dep := t.dep - 1 }

/-- Decrements that waited for an entry, in order. -/
def State.retryDue (s : State) : State :=
  s.tasksDue.foldl (fun (s : State) (d : Nat × Nat) => s.decrement d.1 d.2) { s with tasksDue := [] }

/-- The launch that a record under acceptance asks for, with what has been read of it. -/
def Accept.launch (a : Accept) (ctx : Nat) : Launch :=
  { ctx := ctx, rcd := a.rcd.getD [], args := a.args.getD [], ext := a.ext.getD [], rstate := a.rstate.getD [], deadline := 0, reason := 0
    nextClu := 0, ended := 0, retired := 0, status := 0, fetched := 0, phase := 2, copies := [], gathered := false, recs := []
    flushes := [], dropped := 0, hiz := [] }

/-- A launch whose record, arguments and blocks have been read is refused or admitted (R390, R391); none while the task table is
full (R397). -/
def State.admitRecord (s : State) (ctx : Nat) (a : Accept) : Option State :=
  let l0 := a.launch ctx
  let drel := l0.f 0x50 8
  let r := s.refusal l0 a.kdesc a.bad
  let l : Launch := { l0 with
    deadline := if drel ≠ 0 then (s.clock + drel) % 2 ^ 64 else s.reg (ctxReg ctx 0x18)
    reason := r, status := if r = 0 then 0 else 0x10, phase := if r = 0 ∧ l0.kind = 2 then 0 else 2 }
  let put (s : State) : State := { s with launches := mapSet s.nextId l s.launches, nextId := s.nextId + 1 }
  if r ≠ 0 then some (put (s.countRefused ctx))
  else if l.kind = 2 then
    match s.taskEntry ctx l.tid with
    | none => none
    | some s1 => some ((put (s1.updTask ctx l.tid fun t => { t with dep := t.dep + l.x 2 2, sub := true })).startTasks)
  else some (put s)

/-- Acceptance of a record is over: HEAD goes past a record of the ring; the access of a LAUNCH has returned (R384, R388). -/
def State.accepted (s : State) (ctx : Nat) (a : Accept) : State :=
  let s1 : State := { s with accepting := mapDel ctx s.accepting, frontFatal := s.frontFatal.filter fun p => decide (p.1 ≠ ctx) }
  match a.cmd with
  | some _ => s1
  | none =>
    let p := s1.reg (ctxReg ctx 0x10)
    s1.setReg (ctxReg ctx 0x10) (setBits p 31 0 (addW (bits p 31 0) 1))

/-- A block that the record names is read, unless it has been or there is none. -/
def State.readBlock (s : State) (ctx va n : Nat) (have_ : Option (List Byte)) : State × FeRead :=
  match have_ with
  | some bs => (s, .bytes bs)
  | none => if n = 0 then (s, .bytes []) else s.frontRead 0 ctx va n (.frontEnd ctx)

/-- The block of a draw or a task: of a task, as long as its NIN says. -/
def State.readExt (s : State) (ctx kind va : Nat) (have_ : Option (List Byte)) : State × FeRead :=
  if kind = 1 then s.readBlock ctx va 64 have_
  else if kind = 2 then
    match s.readBlock ctx va 64 have_ with
    | (s1, .bytes bs) =>
      let n := blockField bs 4 1
      if bs.length > 64 ∨ n = 0 ∨ n > 4 then (s1, .bytes bs)
      else match s1.frontRead 0 ctx (va + 64) (64 * n) (.frontEnd ctx) with
        | (s2, .bytes cs) => (s2, .bytes (bs ++ cs))
        | r => r
    | r => r
  else (s, .bytes [])

/-- What a read of acceptance leaves: the record with what was read put into it, or with the read marked as failed; whether it goes on. -/
def feStep (r : State × FeRead) (a : Accept) (put : List Byte → Accept) (fail : Accept) : State × Accept × Bool :=
  match r.2 with
  | .bytes bs => (r.1, put bs, true)
  | .fails => (r.1, fail, true)
  | .waits => (r.1, a, false)

/-- Is the launch refused by one of the first n checks of R390? -/
def State.refusedBy (s : State) (ctx : Nat) (a : Accept) (n : Nat) : Bool :=
  let r := s.refusal (a.launch ctx) a.kdesc a.bad
  decide (r ≠ 0) && decide (r ≤ n)

/-- What the record names is read in the order of the checks of R390: block, kernel descriptor, render state, arguments; a check that fails
ends acceptance without the reads behind it. False while a read waits. -/
def State.readRest (s : State) (ctx : Nat) (a : Accept) : State × Accept × Bool :=
  let f (off n : Nat) : Nat := blockField (a.rcd.getD []) off n
  let l := a.launch ctx
  if !(l.fieldsOk && l.addressesOk) then (s, a, true)
  else
    let x1 := if a.bad then (s, a, true)
      else feStep (s.readExt ctx (f 0x2C 1) (f 0x58 8) a.ext) a (fun bs => { a with ext := some bs }) { a with bad := true }
    if !x1.2.2 || x1.1.refusedBy ctx x1.2.1 1 || !l.slotsOk then x1
    else
      let b := x1.2.1
      let x2 := if f 0xE0 8 = 0 then x1
        else feStep (x1.1.readBlock ctx (f 0xE0 8) 64 b.kdesc) b (fun bs => { b with kdesc := some bs }) b
      if !x2.2.2 || x2.1.refusedBy ctx x2.2.1 5 then x2
      else
        let b := x2.2.1
        let x3 := if b.bad ∨ f 0x2C 1 ≠ 1 then x2
          else feStep (x2.1.readBlock ctx (blockField (b.ext.getD []) 0x10 8) 256 b.rstate) b (fun bs => { b with rstate := some bs })
            { b with bad := true }
        if !x3.2.2 || x3.1.refusedBy ctx x3.2.1 8 || x3.2.1.bad then x3
        else
          let b := x3.2.1
          feStep (x3.1.readBlock ctx (f 0x10 8) (min (f 0x18 4) 4096) b.args) b (fun bs => { b with args := some bs }) { b with bad := true }

/-- The record whose acceptance is under way, or the next one: of the ring, or of a LAUNCH (R388). -/
def State.nextAccept (s : State) (ctx : Nat) : Option Accept :=
  match mapGet? ctx s.accepting with
  | some a => some a
  | none =>
    let p := s.reg (ctxReg ctx 0x10)
    let cmds := (s.cmds.filter fun (x : Nat × Cmd) => decide (x.2.kind = .launch ∧ x.2.ctx = ctx) && s.cmdSent x.2).map fun x => x.1 + 1
    let srcs := (if bits p 63 32 = bits p 31 0 then [] else [0]) ++ cmds
    match srcs with
    | [] => none
    | _ =>
      let i := pickOne s.fresh srcs
      some ⟨if i = 0 then none else some (i - 1), none, none, none, none, none, false⟩

/-- The record itself is read; the LAUNCH that names it has returned then (R384). -/
def State.readRecord (s : State) (ctx : Nat) (a : Accept) : State × FeRead :=
  match a.rcd with
  | some bs => (s, .bytes bs)
  | none =>
    match a.cmd with
    | none =>
      let b := s.reg (ctxReg ctx 0x08)
      let i := bits (s.reg (ctxReg ctx 0x10)) 31 0 % (16 * 2 ^ bits b 3 0)
      s.frontRead 0 ctx (bits b 63 12 * 4096 + 256 * i) 256 (.frontEnd ctx)
    | some id => match mapGet? id s.cmds with
      | none => (s, .fails)
      | some c => match s.frontRead 0 ctx c.at_ 256 (.frontEnd ctx) with
        | (s1, .waits) => (s1, .waits)
        | (s1, r) => (State.cmdTaken { s1 with cmds := mapDel id s1.cmds } c, r)

/-- Does a decrement of the context wait for an entry of the task table, and acceptance with it (R397)? -/
def State.taskWaits (s : State) (ctx : Nat) : Bool := s.tasksDue.any fun d => decide (d.1 = ctx)

/-- LAUNCH_ACCEPT (R388, R390): the front end reads a record of the context, its arguments and its blocks, and refuses or admits the
launch, or drops the record. -/
def execLaunchAccept (ctx : Nat) (s : State) : Out :=
  if s.ctxOn ctx = false ∨ s.frontWaits (.frontEnd ctx) ∨ s.taskWaits ctx then .next s
  else match s.nextAccept ctx with
  | none => .next s
  | some a =>
    let s0 : State := { s with fresh := s.fresh + 1, accepting := mapSet ctx a s.accepting }
    match s0.readRecord ctx a with
    | (s1, .waits) => .next s1
    | (s1, .fails) => .next ((s1.countRefused ctx).accepted ctx a)
    | (s1, .bytes rcd) =>
      let a1 : Accept := { a with rcd := some rcd }
      if blockField rcd 0x40 8 % 16 ≠ 0 ∨ blockField rcd 0x2F 1 ≠ ctx then .next ((s1.countRefused ctx).accepted ctx a)
      else match s1.readRest ctx a1 with
        | (s2, a2, false) => .next { s2 with accepting := mapSet ctx a2 s2.accepting }
        | (s2, a2, true) => match s2.admitRecord ctx a2 with
          | none => .next { s2 with accepting := mapSet ctx a2 s2.accepting }
          | some s3 => .next (s3.accepted ctx a)

/-- TASK_INPUT_COPIES_DONE (R397): the last input copy has ended; the grid may be placed. -/
def execTaskInputCopiesDone (launch : Nat) (s : State) : Out :=
  match mapGet? launch s.launches with
  | none => .next s
  | some l =>
    if l.phase = 1 ∧ l.copies = [] then .next { s with launches := mapSet launch { l with phase := 2 } s.launches }
    else .next s

/-- The lines of a record's working-set hints, or of its dead ranges (R396). -/
def Launch.lines (l : Launch) (off : Nat) : List Nat :=
  ((l.ranges off).filter fun r => decide (r.2 ≠ 0)).flatMap fun r => (List.range (r.2 / 128)).map fun i => va57 (r.1 + 128 * i)

/-- WORKING_SET_PREFETCH (R396): the next line of the launch's hints is filled into the L2; a line that faults, is refused, is owned or is
not HBM is dropped. -/
def execWorkingSetPrefetch (launch : Nat) (s : State) : Out :=
  match mapGet? launch s.launches with
  | none => .next s
  | some l =>
    if l.reason ≠ 0 ∨ l.gathered ∨ l.phase = 0 then .next s
    else match (l.lines 0x60)[l.fetched]? with
    | none => .next s
    | some va =>
      let s1 : State := { s with launches := mapSet launch { l with fetched := l.fetched + 1 } s.launches }
      match s1.translate l.ctx va permR with
      | (_, .error _) => .next s1
      | (s2, .ok p) =>
        if spaceOf p.pa = .hbm ∧ s2.keyOn p.key = true ∧ s2.ownedBy p 128 permR none = false then
          .next (s2.fill (s2.homeOf p) (lineNo p.pa) p.key)
        else .next s1

end Sys2Proof.Machine
end

