-- ==== Sys2Proof/Machine/Raster.lean ====
section
/-! DEFINITION. The rasteriser and the pixel stage (R250, R252 to R256). Arithmetic before a rounding is exact, in rational numbers. -/

namespace Sys2Proof.Machine

open Sys2Proof

/-- A dyadic as a rational, and a rational rounded once to FP32 in RNE (R252). -/
def Dy.rat (x : Dy) : Rat := if x.e ≥ 0 then ((x.m * (2 ^ x.e.toNat : Nat) : Int) : Rat) else (x.m : Rat) / ((2 ^ (-x.e).toNat : Nat) : Rat)
def ratRound (q : Rat) : Nat := (fp32.round .rne 0 false (ratioMag (decide (q.num < 0)) q.num.natAbs q.den 0)).1
/-- A finite FP32 value as a rational; 0 for the others. -/
def fRat (x : Nat) : Rat := match fDy x with | some d => d.rat | none => 0
/-- The nearest integer, ties to even (R252). -/
def ratRne (q : Rat) : Int :=
  let f := q.floor
  let r := q - f
  if r < 1 / 2 then f else if r > 1 / 2 then f + 1 else if f % 2 = 0 then f else f + 1

/-- A vertex of a clipped primitive: clip coordinates and the weights of the primitive's three vertices. -/
structure ClipV where
  x : Rat
  y : Rat
  z : Rat
  w : Rat
  b : List Rat
  deriving DecidableEq, Repr

/-- The point where an edge meets a plane, the plane's distances at its ends given. -/
def ClipV.cut (u v : ClipV) (du dv : Rat) : ClipV :=
  let t := du / (du - dv)
  let mix (a b : Rat) : Rat := a + t * (b - a)
  ⟨mix u.x v.x, mix u.y v.y, mix u.z v.z, mix u.w v.w, (u.b.zip v.b).map fun p => mix p.1 p.2⟩

/-- Clip a polygon to the side of a plane where its distance is not negative. -/
def clipPoly (d : ClipV → Rat) (vs : List ClipV) : List ClipV :=
  (vs.zip (vs.drop 1 ++ vs.take 1)).flatMap fun (p : ClipV × ClipV) =>
    let (a, b) := (d p.1, d p.2)
    if a ≥ 0 then (if b ≥ 0 then [p.2] else [p.1.cut p.2 a b])
    else if b ≥ 0 then [p.1.cut p.2 a b, p.2] else []

/-- The viewport: X0, Y0, W, H (R246). -/
def Launch.view (l : Launch) : Nat × Nat × Nat × Nat := (l.r 0x10 2, l.r 0x12 2, l.r 0x14 2, l.r 0x16 2)

/-- The clipped polygon of a primitive (R252): w where a vertex has w ≤ 0, depth, and the guard band. -/
def clipPrim (w h : Nat) (vs : List ClipV) : List ClipV :=
  let v1 := if vs.any fun v => decide (v.w ≤ 0) then clipPoly (fun v => v.w - 1 / ((2 ^ 20 : Nat) : Rat)) vs else vs
  let band (c : ClipV → Rat) (n : Nat) (vs : List ClipV) : List ClipV :=
    let g : Rat := ((2 ^ 14 : Nat) : Rat)
    let lo (v : ClipV) : Rat := (c v + v.w) * (n : Rat) / 2 + g * v.w
    let hi (v : ClipV) : Rat := (v.w - c v) * (n : Rat) / 2 + g * v.w
    clipPoly hi (clipPoly lo vs)
  band (·.y) h (band (·.x) w (clipPoly (fun v => v.w - v.z) (clipPoly (·.z) v1)))

/-- A vertex on the screen: snapped position in 1/256 of a pixel, z, 1/w and the weights over w. -/
structure ScreenV where
  x : Int
  y : Int
  z : Rat
  iw : Rat
  b : List Rat
  deriving DecidableEq, Repr

/-- R252: each step rounded once. -/
def ClipV.screen (v : ClipV) (x0 y0 w h : Nat) : ScreenV :=
  let nx := fRat (ratRound (v.x / v.w))
  let ny := fRat (ratRound (v.y / v.w))
  let at_ (o : Nat) (n : Rat) (d : Nat) : Int := ratRne (256 * fRat (ratRound ((o : Rat) + (n + 1) * (d : Rat) / 2)))
  ⟨at_ x0 nx w, at_ y0 ny h, fRat (ratRound (v.z / v.w)), 1 / v.w, v.b.map fun b => b / v.w⟩

/-- Twice the area of a triangle, positive when it runs clockwise on the screen, y growing downward. -/
def area2 (a b c : ScreenV) : Int := (b.x - a.x) * (c.y - a.y) - (b.y - a.y) * (c.x - a.x)

/-- Is a point on the inner side of an edge, or on a top or a left edge (R252)? The triangle runs clockwise. -/
def edgeIn (a b : ScreenV) (px py : Int) : Bool :=
  let e := (b.x - a.x) * (py - a.y) - (b.y - a.y) * (px - a.x)
  let (dx, dy) := (b.x - a.x, b.y - a.y)
  decide (e > 0) || (decide (e = 0) && (decide (dy < 0) || decide (dy = 0 ∧ dx > 0)))

/-- A triangle that runs clockwise. -/
structure Tri where
  a : ScreenV
  b : ScreenV
  c : ScreenV
  deriving DecidableEq, Repr

/-- Is the pixel covered? -/
def Tri.covers (t : Tri) (x y : Nat) : Bool :=
  let (px, py) : Int × Int := (256 * x + 128, 256 * y + 128)
  edgeIn t.a t.b px py && edgeIn t.b t.c px py && edgeIn t.c t.a px py

/-- The fan of a polygon: its triangles of nonzero area, made to run clockwise. -/
def fan (vs : List ScreenV) : List Tri :=
  match vs with
  | a :: rest => (rest.zip (rest.drop 1)).filterMap fun (p : ScreenV × ScreenV) =>
      let s := area2 a p.1 p.2
      if s > 0 then some ⟨a, p.1, p.2⟩ else if s < 0 then some ⟨a, p.2, p.1⟩ else none
  | [] => []
/-- Twice the snapped area of a polygon. -/
def polyArea (vs : List ScreenV) : Int :=
  match vs with
  | a :: rest => (rest.zip (rest.drop 1)).foldl (fun n (p : ScreenV × ScreenV) => n + area2 a p.1 p.2) 0
  | [] => 0

/-- Values at a pixel (R253): z, and the weights of the primitive's vertices with perspective correction. -/
def Tri.at_ (t : Tri) (x y : Nat) : Rat × List Rat :=
  let p : ScreenV := ⟨256 * x + 128, 256 * y + 128, 0, 0, []⟩
  let s : Rat := (area2 t.a t.b t.c : Int)
  let la : Rat := (area2 p t.b t.c : Int) / s
  let lb : Rat := (area2 t.a p t.c : Int) / s
  let lc : Rat := 1 - la - lb
  let mix (f : ScreenV → Rat) : Rat := la * f t.a + lb * f t.b + lc * f t.c
  (mix (·.z), (List.range 3).map fun i => mix (fun v => v.b.getD i 0) / mix (·.iw))

/-- A vertex's quad by selector: 0 the position, 1 + n attribute quad n. -/
def Slot.vert (sl : Slot) (v sel : Nat) : List Elem := mapGetD (16 * v + sel) (List.replicate 4 Elem.zero) sl.verts

/-- The three vertices of a primitive; none where the primitive is dropped (R250). -/
def Slot.prim? (sl : Slot) (i : Nat) : Option (List Nat) :=
  match mapGet? i sl.prims with
  | none => none
  | some p =>
    let is := [bits p.nat 7 0, bits p.nat 15 8, bits p.nat 23 16]
    let pois := is.any fun v => (List.range (1 + sl.na)).any fun k => (sl.vert v k).any Elem.pois
    if bit p.nat 31 || p.pois || (is.any fun v => decide (v ≥ sl.nv)) || pois then none else some is

/-- The clip vertices of a primitive; none where a position is not finite (log entry 41). -/
def Slot.clip? (sl : Slot) (is : List Nat) : Option (List ClipV) :=
  is.zipIdx.mapM fun (p : Nat × Nat) => do
    let q := (sl.vert p.1 0).map Elem.nat
    let x ← fDy (q.getD 0 0)
    let y ← fDy (q.getD 1 0)
    let z ← fDy (q.getD 2 0)
    let w ← fDy (q.getD 3 0)
    some ⟨x.rat, y.rat, z.rat, w.rat, (List.range 3).map fun i => if i = p.2 then 1 else 0⟩

/-- The registers of a pixel (R253). -/
def pixelRegs (sl : Slot) (is : List Nat) (prim : Nat) (t : Tri) (x y : Nat) (helper back : Bool) : List Word :=
  let (z, b) := t.at_ x y
  let rnd (q : Rat) : Word := BitVec.ofNat 32 (ratRound q)
  let attr (k c : Nat) : Word :=
    let v (i : Nat) : Nat := ((sl.vert (is.getD i 0) (1 + k)).getD c Elem.zero).nat
    let ts := (List.range 3).map fun i => fp32.unpack (v i)
    if ts.all fun t => (match t with | .fin _ _ _ => true | _ => false) then
      rnd ((List.range 3).foldl (fun a i => a + b.getD i 0 * fRat (v i)) 0)
    else BitVec.ofNat 32 (tround (sumTerms (ts.zipIdx.map fun (p : FVal × Nat) => tmul p.1.term (tv (ratRound (b.getD p.2 0)))))).1
  [BitVec.ofNat 32 (x + 65536 * y), rnd z, rnd (b.getD 1 0), rnd (b.getD 2 0), BitVec.ofNat 32 prim,
    BitVec.ofNat 32 ((if helper then 1 else 0) + (if back then 2 else 0)), 0#32, 0#32] ++
    (List.range sl.na).flatMap fun k => (List.range 4).map (attr k)

/-- Floor and ceiling of 1/256 pixels, as a range of pixels within the viewport. -/
def pixRange (lo hi : Int) (o n : Nat) : List Nat :=
  let a := max (lo / 256) (o : Int)
  let b := min (hi / 256 + 1) ((o + n : Nat) : Int)
  (List.range (b - a).toNat).map fun i => a.toNat + i

/-- The quads of a primitive in row order (R253): for each position, the triangle that covers it. -/
def quadsOf (ts : List Tri) (x0 y0 w h : Nat) : List (Nat × Nat × List (Option Tri)) :=
  let xs := ts.flatMap fun t => [t.a.x, t.b.x, t.c.x]
  let ys := ts.flatMap fun t => [t.a.y, t.b.y, t.c.y]
  match xs, ys with
  | x :: _, y :: _ =>
    let lo (l : List Int) (z : Int) : Int := l.foldl min z
    let hi (l : List Int) (z : Int) : Int := l.foldl max z
    let cols := ((pixRange (lo xs x) (hi xs x) x0 w).map (· / 2)).eraseDups
    let rows := ((pixRange (lo ys y) (hi ys y) y0 h).map (· / 2)).eraseDups
    let inView (px py : Nat) : Bool := decide (x0 ≤ px ∧ px < x0 + w ∧ y0 ≤ py ∧ py < y0 + h)
    let find (px py : Nat) : Option Tri := if inView px py then ts.find? fun t => t.covers px py else none
    (rows.flatMap fun r => cols.map fun c =>
      (2 * c, 2 * r, (List.range 4).map fun i => find (2 * c + i % 2) (2 * r + i / 2))).filter fun q => q.2.2.any Option.isSome
  | _, _ => []

/-- The depth test of R254. -/
def depthPass (func d s : Nat) : Bool :=
  let c := fCompare (fp32.unpack d) (fp32.unpack s)
  let nan := match fp32.unpack d, fp32.unpack s with | .nan _, _ => true | _, .nan _ => true | _, _ => false
  match func with
  | 0 => false
  | 7 => true
  | _ => !nan && (match func with
    | 1 => c.1
    | 2 => c.2
    | 3 => c.1 || c.2
    | 4 => !c.1 && !c.2
    | 5 => !c.2
    | _ => !c.1)

/-- What an access of the rasteriser comes to. -/
inductive RendAcc where
  | ok (bs : List (Byte × Bool))
  /-- Refused, or its fault was answered FATAL. -/
  | refused
  /-- It waits in the fault buffer (R410), or for room in it. -/
  | fault
  deriving DecidableEq, Repr

/-- A read, or a write of given bytes of one line, by the rasteriser under the draw's translation, relaxed at device scope (R256). -/
def State.rendLine (s : State) (core lid ctx va n : Nat) (wr : Option (List (Byte × Bool))) : State × RendAcc :=
  let d := dieOf (coreStop core)
  let need := if wr.isSome then permW else permR
  if (s.core core).rend.fatal.contains (ctx, va / 4096) ∨ va ≥ 2 ^ 57 then (s, .refused)
  else match s.translate ctx va need with
  | (s1, .error w) =>
    if s1.faultsFull d 1 then (s, .fault)
    else (s1.addFault d ctx va w need (coreStop core) (.raster core lid) 1, .fault)
  | (s1, .ok p) => match wr with
    | none => match s1.readPhys p n with
      | (s2, some bs) => (s2, .ok bs)
      | (s2, none) => (s2, .refused)
    | some bs => match s1.writePhysP p bs with
      | (s2, true) => (s2, .ok [])
      | (s2, false) => (s2, .refused)

/-- The same of bytes that may lie in two lines: the one access is refused, or waits, when either part does. -/
def State.rend (s : State) (core lid ctx va n : Nat) (wr : Option (List (Byte × Bool))) : State × RendAcc :=
  let k := 128 - va % 128
  if n ≤ k then s.rendLine core lid ctx va n wr
  else match s.rendLine core lid ctx va k (wr.map fun bs => bs.take k) with
    | (s1, .ok xs) => (match s1.rendLine core lid ctx (va + k) (n - k) (wr.map fun bs => bs.drop k) with
      | (s2, .ok ys) => (s2, .ok (xs ++ ys))
      | r => r)
    | r => r

/-- Is the rasteriser of a core waiting for a fault to be answered? -/
def State.rendWaits (s : State) (core : Nat) : Bool :=
  s.faults.any fun d => d.2.any fun e => match e.who with | .raster c _ => decide (c = core) | _ => false

/-- The draw's status for an access that was refused or lost (R391). -/
def State.rendFail (s : State) (lid : Nat) : State :=
  { s with launches := mapUpd lid (fun l => { l with status := 2 }) s.launches }

/-- The address of a pixel in the depth target, and in target t. -/
def Launch.zAt (l : Launch) (x y : Nat) : Nat := l.r 0 8 + y * l.r 8 4 + 4 * x
def Launch.tBytes (l : Launch) (t : Nat) : Nat := [16, 8, 4, 4].getD (l.r (0x2C + 16 * t) 1) 4
def Launch.tAt (l : Launch) (t x y : Nat) : Nat := l.r (0x20 + 16 * t) 8 + y * l.r (0x28 + 16 * t) 4 + l.tBytes t * x
def Launch.zfunc (l : Launch) : Nat := bits (l.r 0x0C 1) 2 0
def Launch.ztest (l : Launch) : Bool := bit (l.r 0x0D 1) 0
def Launch.zwrite (l : Launch) : Bool := bit (l.r 0x0D 1) 1

/-- The bounds of a block with one more stored depth in it; a NaN passes no test and bounds nothing. -/
def hizJoin (b : Option (Nat × Nat)) (d : Nat) : Option (Nat × Nat) :=
  match fp32.unpack d with
  | .nan _ => b
  | _ => match b with
    | none => some (d, d)
    | some (lo, hi) => some (if depthPass 1 d lo then d else lo, if depthPass 4 d hi then d else hi)

/-- May a depth pass against some stored depth within the bounds (R254)? -/
def hizMay (func d : Nat) (b : Option (Nat × Nat)) : Bool :=
  match b with
  | none => decide (func = 7)
  | some (lo, hi) => match func with
    | 1 | 3 => depthPass func d hi
    | 4 | 6 => depthPass func d lo
    | 2 => depthPass 6 d lo && depthPass 3 d hi
    | 5 => depthPass 5 d lo || depthPass 5 d hi
    | f => depthPass f d lo

/-- The same when the program may still set any depth from 0 to 1 (R255). -/
def hizAny (func : Nat) (b : Option (Nat × Nat)) : Bool :=
  hizMay func 0 b || hizMay func 0x3F800000 b || (decide (func = 2) && (match b with
    | some (lo, hi) => depthPass 3 lo 0x3F800000 && depthPass 6 hi 0
    | none => false))

/-- The block of a pixel, and the pixels of a block. -/
def hizKey (x y : Nat) : Nat := 65536 * (y / 8) + x / 8
def hizPixels (k : Nat) : List (Nat × Nat) :=
  (List.range 64).map fun i => (8 * (k % 65536) + i % 8, 8 * (k / 65536) + i / 8)

/-- The bounds of a block, read from the target when the draw first needs them (log entry 73); where a depth cannot be read they are as wide as
can be. Blocks reach no further than the viewport. -/
def State.hizBuild (s : State) (core lid : Nat) (l : Launch) (k : Nat) : Option (Nat × Nat) :=
  let (x0, y0, w, h) := l.view
  ((hizPixels k).filter fun p => decide (x0 ≤ p.1 ∧ p.1 < x0 + w ∧ y0 ≤ p.2 ∧ p.2 < y0 + h)).foldl (fun b p =>
    match s.rend core lid l.ctx (l.zAt p.1 p.2) 4 none with
    | (_, .ok bs) => hizJoin b (ofBytes (bs.map (·.1)))
    | _ => hizJoin (hizJoin b 0xFF800000) 0x7F800000) none
def State.hizBounds (s : State) (core lid : Nat) (l : Launch) (k : Nat) : State × Option (Nat × Nat) :=
  match (mapGet? lid s.launches).bind fun l => mapGet? k l.hiz with
  | some b => (s, b)
  | none =>
    let b := s.hizBuild core lid l k
    ({ s with launches := mapUpd lid (fun (l : Launch) => { l with hiz := mapSet k b l.hiz }) s.launches }, b)

/-- A depth has been stored (R254): the bounds of its block, where they are held, follow. -/
def State.hizStore (s : State) (lid x y d : Nat) : State :=
  { s with launches := mapUpd lid (fun (l : Launch) => match mapGet? (hizKey x y) l.hiz with
      | some b => { l with hiz := mapSet (hizKey x y) (hizJoin b d) l.hiz }
      | none => l) s.launches }

/-- In late-depth mode, may a pixel of the quad pass (R254)? -/
def State.hizQuad (s : State) (core lid : Nat) (l : Launch) : List QuadLane → State × Bool
  | [] => (s, false)
  | q :: qs =>
    if q.helper then s.hizQuad core lid l qs
    else
      let v0 := (q.regs.getD 0 0#32).toNat
      let (s1, b) := s.hizBounds core lid l (hizKey (v0 % 65536) (v0 / 65536))
      if hizMay l.zfunc (q.regs.getD 1 0#32).toNat b || (!l.nodepthw && hizAny l.zfunc b) then (s1, true) else s1.hizQuad core lid l qs
/-- The quads of a primitive in late-depth mode: one that hierarchical depth shows to fail is not formed. -/
def State.hizQuads (s : State) (core lid : Nat) (l : Launch) : List (List QuadLane) → State × List (List QuadLane)
  | [] => (s, [])
  | q :: qs =>
    let (s1, may) := s.hizQuad core lid l q
    let (s2, rest) := s1.hizQuads core lid l qs
    (s2, if may then q :: rest else rest)
def State.lateQuads (s : State) (core lid : Nat) (l : Launch) (qs : List (List QuadLane)) : State × List (List QuadLane) :=
  if l.r 0 8 = 0 ∨ l.ztest = false then (s, qs) else s.hizQuads core lid l qs

/-- The test and the write of one pixel's depth (R254): does it pass? None while a fault waits. No depth target is a test that passes
and a write that goes nowhere; so is one whose access is refused, which the draw's status tells. -/
def State.depthStep (s : State) (core lid : Nat) (l : Launch) (x y d : Nat) : State × Option Bool :=
  if l.r 0 8 = 0 ∨ (l.ztest = false ∧ l.zwrite = false) then (s, some true)
  else
    let va := l.zAt x y
    let (s1, r) := if l.ztest then s.rend core lid l.ctx va 4 none else (s, .ok [])
    match r with
    | .fault => (s1, none)
    | .refused => (s1.rendFail lid, some true)
    | .ok bs =>
      if l.ztest && !depthPass l.zfunc d (ofBytes (bs.map (·.1))) then (s1, some false)
      else if l.zwrite then
        match s1.rend core lid l.ctx va 4 (some ((toBytes d 4).map fun b => (b, false))) with
        | (s2, .fault) => (s2, none)
        | (s2, .refused) => (s2.rendFail lid, some true)
        | (s2, .ok _) => (s2.hizStore lid x y d, some true)
      else (s1, some true)

/-- The pixels of a quad in early-depth mode: those that fail become helpers (R254). None while a fault waits. -/
def State.earlyQuad (s : State) (core lid : Nat) (l : Launch) : List QuadLane → State × Option (List QuadLane)
  | [] => (s, some [])
  | q :: qs =>
    let v0 := (q.regs.getD 0 0#32).toNat
    let (s1, r) := if q.helper then (s, some true)
      else s.depthStep core lid l (v0 % 65536) (v0 / 65536) (q.regs.getD 1 0#32).toNat
    match r with
    | none => (s1, none)
    | some ok => match s1.earlyQuad core lid l qs with
      | (s2, none) => (s2, none)
      | (s2, some rest) =>
        let q' : QuadLane := if ok then q else { helper := true, regs := listSet 5 ((q.regs.getD 5 0#32) ||| 1#32) q.regs }
        (s2, some (q' :: rest))
/-- The quads of a primitive in early-depth mode; a quad with no passing pixel is not formed. -/
def State.earlyQuads (s : State) (core lid : Nat) (l : Launch) : List (List QuadLane) → State × Option (List (List QuadLane))
  | [] => (s, some [])
  | q :: qs => match s.earlyQuad core lid l q with
    | (s1, none) => (s1, none)
    | (s1, some q') => match s1.earlyQuads core lid l qs with
      | (s2, none) => (s2, none)
      | (s2, some rest) => (s2, some (if q'.all QuadLane.helper then rest else q' :: rest))

/-- The quads that a primitive covers (R250, R252, R253); none of it where the primitive is dropped or culled. -/
def Slot.quads (sl : Slot) (l : Launch) (i : Nat) : List (List QuadLane) :=
  let (x0, y0, w, h) := l.view
  match sl.prim? i with
  | none => []
  | some is => match sl.clip? is with
    | none => []
    | some vs =>
      let ss := (clipPrim w h vs).map fun v => v.screen x0 y0 w h
      let area := polyArea ss
      let back := decide (area > 0)
      let zf := l.r 0x0D 1
      if area = 0 ∨ (back && bit zf 4) ∨ (!back && bit zf 5) then []
      else (quadsOf (fan ss) x0 y0 w h).map fun q =>
        let first := (q.2.2.find? Option.isSome).join
        (List.range 4).map fun k =>
          let own := (q.2.2.getD k none)
          match own.or first with
          | some t => ⟨own.isNone, pixelRegs sl is i t (q.1 + k % 2) (q.2.1 + k / 2) own.isNone back⟩
          | none => ⟨true, []⟩

/-- The published slot that is set up next (R250). -/
def Render.nextSlot (r : Render) : Option (Nat × Slot) :=
  r.slots.foldl (fun best q => match q.2.pub, best with
    | none, _ => best
    | some _, none => some q
    | some a, some b => if a < b.2.pub.getD 0 then some q else best) none

/-- A port with a pixel slot of the draw and register units free (R245, R253). -/
def State.pixPort (s : State) (c lid k : Nat) : Option Nat :=
  let r := s.room c []
  let n := mapGetD lid 0 (s.core c).rend.reserved
  (List.range 4).find? fun p =>
    decide (sumOf (fun (t : Nat × Team) => if t.2.cfg.launch = lid then
      (t.2.groups.filter fun g => decide (g.2.port = p) && decide (g.2.kind = .pixel)).length else 0) (s.teamsOn c) < n)
      && decide (k / 8 ≤ r.units.getD p 0)

/-- PRIMITIVE_SETUP (R250, R254): the next primitive of the oldest published slot; the slot is freed after its last. The rasteriser waits for
the pixel groups of the primitive before, and while none of the draw's pixel slots is free (R253). -/
def execPrimitiveSetup (core : Nat) (s : State) : Out :=
  if s.rendWaits core || !(s.core core).rend.work.isEmpty then .next s
  else match (s.core core).rend.nextSlot with
  | none => .next s
  | some (i, sl) => match mapGet? sl.launch s.launches with
    | none => .next (s.freeSlot core i)
    | some l => if (s.pixPort core sl.launch (8 * l.x 0x19 1)).isNone then .next s else
      let qs := sl.quads l sl.next
      let (s1, r) := if l.early then s.earlyQuads core sl.launch l qs
        else (let (s1, qs') := s.lateQuads core sl.launch l qs; (s1, some qs'))
      match r with
      -- an access faulted: the depths that this primitive had written already are written again alike when it is repeated
      | none => .next { s with faults := s1.faults, tlb := s1.tlb }
      | some qs' =>
        let s2 := if qs'.isEmpty then s1
          else s1.updCore core fun k => { k with rend := { k.rend with work := k.rend.work ++ [⟨sl.launch, qs'⟩] } }
        .next (if sl.next + 1 ≥ sl.np then s2.freeSlot core i else s2.updSlot core i fun x => { x with next := x.next + 1 })

/-- The registers of a pixel group: register r of lane 4q + i (R253). -/
def groupRegs (qs : List (List QuadLane)) : Map Lanes :=
  let n := (qs.flatMap fun q => q.map fun p => p.regs.length).foldl max 0
  (List.range n).map fun r => (r, lanesTab fun l =>
    ⟨(((qs.getD (l / 4) []).getD (l % 4) ⟨true, []⟩).regs).getD r 0#32, false⟩)

/-- Its pixels until their commit. -/
def groupPixels (qs : List (List QuadLane)) : List Pixel :=
  qs.zipIdx.flatMap fun (q : List QuadLane × Nat) => q.1.zipIdx.map fun (p : QuadLane × Nat) =>
    let v0 := (p.1.regs.getD 0 0#32).toNat
    ⟨4 * q.2 + p.2, v0 % 65536, v0 / 65536, p.1.helper, false, p.1.regs.getD 1 0#32, []⟩

/-- PIXEL_GROUP_CREATE (R253): up to eight quads of the primitive whose turn it is form a group. -/
def execPixelGroupCreate (core : Nat) (s : State) : Out :=
  match (s.core core).rend.work with
  | [] => .next s
  | w :: rest => match mapGet? w.launch s.launches with
    | none => .next (s.updCore core fun k => { k with rend := { k.rend with work := rest } })
    | some l => match s.pixPort core w.launch (8 * l.x 0x19 1) with
      | none => .next s
      | some p =>
        let qs := w.quads.take 8
        let id := s.nextId
        let live := maskOf fun i => decide (i / 4 < qs.length)
        let t := l.renderTeam w.launch .pixel id core p s.clock none live (groupRegs qs) []
        let left := w.quads.drop 8
        let s1 := State.giveSlots { s with teams := mapSet id t s.teams, nextId := id + 1 } core id
        .next (s1.updCore core fun k => { k with rend := { k.rend with
          work := if left.isEmpty then rest else { w with quads := left } :: rest
          pix := k.rend.pix ++ [⟨w.launch, id, groupPixels qs, false⟩] } })

/-- Change the pixels of a pixel group in a set of lanes that are not helpers. -/
def State.updPixels (s : State) (c team : Nat) (m : Mask) (f : Pixel → Pixel) : State :=
  s.updCore c fun k => { k with rend := { k.rend with pix := k.rend.pix.map fun g =>
    if g.team = team then { g with pixels := g.pixels.map fun p => if inMask m p.lane && !p.helper then f p else p } else g } }

/-- DISCARD (R255). -/
def execDiscard (x : Args) (s : State) : Out :=
  run .discard x s fun e s1 => do
    e.ofKind .pixel
    if (match e.launch? s1 with | some l => l.nodisc | none => false) then progErr
    else .ok (s1.updPixels (e.core s1) e.iss.team e.act fun p => { p with discarded := true }, .seq)

/-- DEPTHW (R255). -/
def execDepthw (x : Args) (s : State) : Out :=
  run .depthw x s fun e s1 => do
    e.ofKind .pixel
    let a (l : Nat) : Elem := laneAt (e.g.srcV .fp32 x.a) l
    let acts (l : Nat) : Bool := (s1.core (e.core s1)).rend.pix.any fun g => decide (g.team = e.iss.team) &&
      g.pixels.any fun p => decide (p.lane = l) && !p.helper && !p.discarded
    if (match e.launch? s1 with | some l => l.nodepthw | none => false) then progErr
    else do
      e.check tcPoison (fun _ => 0) fun l => (a l).pois && acts l
      .ok (s1.updPixels (e.core s1) e.iss.team e.act fun p => { p with depth := BitVec.ofNat 32 (fp32.sat01 (a p.lane).nat) }, .seq)

/-- PXOUT (R256). -/
def execPxout (x : Args) (s : State) : Out :=
  run .pxout x s fun e s1 => do
    e.ofKind .pixel
    let t := fldIdx x.b
    if t ≥ ((e.launch? s1).map Launch.ntgt).getD 0 then progErr
    else do
      e.check tcPoison (fun _ => 0) fun l => (e.quad x.a 4 l).any Elem.pois
      .ok (s1.updPixels (e.core s1) e.iss.team e.act fun p => { p with out := mapSet t ((e.quad x.a 4 p.lane).map Elem.val) p.out }, .seq)

/-- The channels of a stored pixel as exact terms: times 255 for RGBA8 (R256). -/
def storedChannels (fmt : Nat) (bs : List Byte) : List (Term × Nat) :=
  let n (i w : Nat) : Nat := ofBytes ((bs.drop (i * w)).take w)
  match fmt with
  | 0 => (List.range 4).map fun i => tv (n i 4)
  | 1 => (List.range 4).map fun i => (fp16.unpack (n i 2)).term
  | 2 => (List.range 4).map fun i => tint (n i 1 : Nat)
  | _ => [tv (n 0 4)]

/-- The bytes of an exact channel value in a target format (R256): of RGBA8 the value comes times 255. -/
def channelBytes (fmt : Nat) (v : Term × Nat) : List Byte :=
  match fmt with
  | 0 | 3 => toBytes (tround v).1 4
  | 1 => toBytes (fp16.ofTerm .rne 0 v).1 2
  | _ =>
    let n : Nat := match v.1 with
      | .nan => 0
      | .inf neg => if neg then 0 else 255
      | .val d _ => if d.isNeg then 0 else if (Dy.ofInt 255).le d then 255 else (ratRne d.rat).toNat
    toBytes n 1

/-- The bytes that a pixel stores in a target (R256): REPLACE, OVER or ADD, exact before one rounding. -/
def blendPixel (fmt mode : Nat) (src : List Nat) (old : List Byte) : List Byte :=
  let k := if fmt = 2 then 255 else 1
  let d := storedChannels fmt old
  let s (i : Nat) : Term × Nat := tmul (tv (src.getD i 0)) (tint k)
  let one (i : Nat) : List Byte :=
    let di := d.getD i (tint 0)
    channelBytes fmt (match mode with
      | 1 => sumTerms [s i, tmul (tsub (tint 1) (tv (src.getD 3 0))) di]
      | 2 => sumTerms [s i, di]
      | _ => s i)
  (List.range (if fmt = 3 then 1 else 4)).flatMap one

/-- The colours of one pixel are stored, targets ascending (R256). None while a fault waits. -/
def State.commitColours (s : State) (core lid : Nat) (l : Launch) (x y : Nat) : List (Nat × List Word) → State × Bool
  | [] => (s, true)
  | (t, ws) :: rest =>
    let fmt := l.r (0x2C + 16 * t) 1
    let mode := l.r (0x2D + 16 * t) 1
    let va := l.tAt t x y
    let n := l.tBytes t
    let (s1, r) := if mode = 0 then (s, .ok (List.replicate n (0#8, false))) else s.rend core lid l.ctx va n none
    match r with
    | .fault => (s1, false)
    | .refused => (s1.rendFail lid).commitColours core lid l x y rest
    | .ok old =>
      let p := old.any (·.2)
      match s1.rend core lid l.ctx va n (some ((blendPixel fmt mode (ws.map BitVec.toNat) (old.map (·.1))).map fun b => (b, p))) with
      | (s2, .fault) => (s2, false)
      | (s2, .refused) => (s2.rendFail lid).commitColours core lid l x y rest
      | (s2, .ok _) => s2.commitColours core lid l x y rest

/-- The commit of one pixel, depth and colours together (R256): false while a fault waits, with nothing stored. -/
def State.commitPixel (s : State) (core lid : Nat) (p : Pixel) : State × Bool :=
  match mapGet? lid s.launches with
  | none => (s, true)
  | some l =>
    if p.helper || p.discarded then (s, true)
    else
      let undo (s1 : State) : State × Bool := ({ s with faults := s1.faults, tlb := s1.tlb }, false)
      match (if l.early then (s, some true) else s.depthStep core lid l p.x p.y p.depth.toNat) with
      | (s1, none) => undo s1
      | (s1, some false) => (s1, true)
      | (s1, some true) => match s1.commitColours core lid l p.x p.y p.out with
        | (s2, false) => undo s2
        | r => r

/-- Commit what may be committed of a core's pixel groups (R256): of each pixel in rasterisation order. -/
def State.commitPixels (s : State) (core lid : Nat) (blocked : List (Nat × Nat)) : List Pixel → State × List Pixel
  | [] => (s, [])
  | p :: ps =>
    if blocked.contains (p.x, p.y) && !p.helper then
      let (s1, left) := s.commitPixels core lid blocked ps
      (s1, p :: left)
    else match s.commitPixel core lid p with
    | (s1, true) => s1.commitPixels core lid blocked ps
    | (s1, false) => (s1, p :: ps)

def State.sweep (s : State) (core : Nat) (blocked : List (Nat × Nat)) : List PixGroup → State × List PixGroup
  | [] => (s, [])
  | g :: gs =>
    let (s1, left) := if g.retired && !s.rendWaits core then s.commitPixels core g.launch blocked g.pixels else (s, g.pixels)
    let b' := blocked ++ (left.filter fun p => !p.helper).map fun p => (p.x, p.y)
    let (s2, rest) := s1.sweep core b' gs
    (s2, if g.retired && left.isEmpty then rest else { g with pixels := left } :: rest)

/-- A pixel group retires, or a fault of its commits has been answered. -/
def State.commitCore (s : State) (core : Nat) : State :=
  let (s1, left) := s.sweep core [] (s.core core).rend.pix
  s1.updCore core fun k => { k with rend := { k.rend with pix := left } }

end Sys2Proof.Machine
end

