-- ==== Sys2Proof/Machine/Retire.lean ====
section
/-! DEFINITION. The retirement of groups (R71, R75, R415), and the completion of launches (R353, R391, R396, R397). -/

namespace Sys2Proof.Machine

open Sys2Proof

/-- May the group retire (R75): no live lane and the counters of paths 0 to 6 at zero? An engine command is not waited for (see
`State.leaveCommands`). -/
def Group.isOver (g : Group) : Bool :=
  g.frags.isEmpty && (List.range 7).all (fun p => decide (g.cnt.getD p 0 = 0)) && g.flights.all fun f => decide (f.path ≥ 7)

/-- Does a register within the allocation hold a poisoned element (R71)? -/
def Group.holdsPoison (g : Group) (k : Nat) : Bool :=
  (g.v.any fun r => decide (r.1 < k) && r.2.any Elem.pois) || (g.s.any fun r => r.2.pois) || (g.sh.any fun r => r.2.any Elem.pois)
    || (g.p.any fun p => decide (p.pois ≠ 0#32)) || decide (g.qPois ≠ 0#8)

/-- The end of a launch on a core (R183): once its last group there has retired, every update-only line of the core is flushed, and
the launch waits for the core's flushes. -/
def State.endOnCore (s : State) (c lid : Nat) : State :=
  if s.teams.any fun t => decide (t.2.core = some c ∧ t.2.cfg.launch = lid) && !t.2.groups.isEmpty then s
  else
    let s1 := s.flushCore c
    let ids := (s1.core c).flushes.map fun i => (c, i.1)
    State.dropQuiet { s1 with launches := mapUpd lid (fun (l : Launch) =>
      { l with flushes := l.flushes ++ ids.filter fun i => !l.flushes.contains i }) s1.launches } c

/-- The commands of a group that retires while their release still waits for the core's flushes keep that wait (R75, R350). -/
def State.leaveCommands (s : State) (c tid gix : Nat) (g : Group) : State :=
  { s with cmds := s.cmds.map fun (x : Nat × Cmd) => match x.2.issuer with
      | some (t, i, fid) => if t = tid ∧ i = gix then (x.1, { x.2 with after := (g.flight? fid).map fun f => (c, f.flush.getD []) }) else x
      | none => x }

/-- A group leaves its slot: its team, when it is a mesh or a pixel group, or its cluster, when it was the last, goes with it. -/
def State.removeGroup (s : State) (tid gix : Nat) (t : Team) : State :=
  let s1 := s.updTeam tid fun t => { t with groups := mapDel gix t.groups }
  let s2 : State := { s1 with launches := mapUpd t.cfg.launch (fun (l : Launch) => { l with retired := l.retired + 1 }) s1.launches }
  if (mapGet? t.cluster s.clusters).isSome then s2
  else { s2 with teams := mapDel tid s2.teams }

/-- The outputs of a pixel group are committed in rasterisation order once it has retired (R256). -/
def State.retirePixels (s : State) (c tid : Nat) : State :=
  (s.updCore c fun k => { k with rend := { k.rend with pix := k.rend.pix.map fun p => if p.team = tid then { p with retired := true } else p } }).commitCore c

/-- GROUP_RETIRE (R75, R71, R415): the poison check, its error record of kind 0x0B, and the slot is free. A group that was stopped
retires without the check. -/
def execGroupRetire (team gix : Nat) (s : State) : Out :=
  match s.group? team gix with
  | none => .next s
  | some (t, g) => match t.core with
    | none => .next s
    | some c =>
      if g.isOver = false then .next s
      else
        let s0 := s.leaveCommands c team gix g
        let s1 := if !g.stopped && g.holdsPoison t.cfg.k then
            postError s0 { kind := 0x0B, sev := 2, unit := coreStop c, ctx := t.cfg.ctx, addr := 0, detail := g.sp.cluid.toNat }
          else s0
        let s2 := s1.removeGroup team gix t
        let s3 := if g.kind = .pixel then s2.retirePixels c team else s2
        .next ((s3.endOnCore c t.cfg.launch).reapCluster t.cluster)

/-- Is every group, commit and flush of the launch done (R353, R391, R397)? -/
def State.launchOver (s : State) (lid : Nat) (l : Launch) : Bool :=
  decide (l.reason ≠ 0) ||
    (decide (l.phase = 2 ∧ l.ended = l.total ∧ l.copies = []) && !(s.teams.any fun t => decide (t.2.cfg.launch = lid))
      && (s.cores.all fun c => s.quiet c.1 lid) && l.flushes.all fun f => (mapGet? f.2 (s.core f.1).flushes).isNone)

/-- A launch's STATUS becomes at least 2. -/
def State.launchFail (s : State) (lid : Nat) : State :=
  { s with launches := mapUpd lid (fun (l : Launch) => { l with status := max l.status 2 }) s.launches }

/-- The next line of a launch's dead ranges is discarded (R396, R370), update-only copies first; a line that faults or is refused
makes STATUS 2. -/
def State.dropLine (s : State) (lid : Nat) (l : Launch) (va : Nat) : State :=
  let next (s : State) : State := { s with launches := mapUpd lid (fun (l : Launch) => { l with dropped := l.dropped + 1 }) s.launches }
  match s.translate l.ctx va permW with
  | (s1, .error _) => next (s1.launchFail lid)
  | (s1, .ok p) =>
    if spaceOf p.pa ≠ .hbm ∨ s1.keyOn p.key = false then next (s1.launchFail lid)
    else if s1.ownedBy p 128 permW none then s1
    else
      let i := s1.homeOf p
      let ln := lineNo p.pa
      let s2 := (((s1.settleLine p).dropV ln none).updDir i ln fun d => { d with v := [] })
      next (match mapGet? ln (s2.slice i).tags with
        | some t => if t.key = p.key then (s2.cctlLine i ln 2).1 else s2
        | none => s2)

/-- A write of the front end (R391): none while a fault or the owner of the line holds it; else, was it performed? A write to
another package leaves by the fabric, from stop 0. -/
def State.frontWrite (s : State) (ctx va : Nat) (bs : List Byte) (who : Faulter) : State × Option Bool :=
  match s.translate ctx (va57 va) permW with
  | (s1, .error w) =>
    if s1.frontFatal.contains (ctx, va57 va / 4096) then (s1, some false) else (s1.frontFault 0 ctx (va57 va) w permW who, none)
  | (s1, .ok p) =>
    if s1.ownedBy p bs.length permW none then (s1, none)
    else match spaceOf p.pa with
      | .remote k =>
        if s1.pkg = some k ∨ s1.dead.contains k then let (s2, ok) := s1.writePhys p bs; (s2, some ok)
        else
          let r : Req := { act := .store bs.length, lanes := [LaneReq.mk 0 p.pa (toWords (ofBytes bs) (bs.length / 4)) []], place := p, tgt := .remote k
                           ret := .none, core := none, ctx := ctx, acq := false, rel := true, rem := false, scope := 5, num := 0, fill := false }
          (s1.send .request 0 (exitStop k) 0 (some k) (.access r), some true)
      | _ => let (s2, ok) := s1.writePhys p bs; (s2, some ok)

/-- Is a launch that completes now late (R393)? -/
def State.isLate (s : State) (l : Launch) : Bool := decide (l.deadline ≠ 0) && decide (s.clock > l.deadline)

/-- The completion record (R391). -/
def State.launchRecord (s : State) (l : Launch) : Nat :=
  l.status * 2 ^ 56 + (if s.isLate l then 2 ^ 55 else 0) + (if l.status = 0x10 then l.reason * 2 ^ 48 else 0) + l.retired % 2 ^ 48

/-- Successors of a task (R397). -/
def Launch.succ (l : Launch) : List Nat := ((List.range 4).map fun i => l.x (8 + 2 * i) 2).filter fun t => decide (t ≠ 0xFFFF)

/-- The completion word of a launch has been written, or could not be (R391, R393, R397, R455). -/
def State.endLaunch (s : State) (lid : Nat) (l : Launch) : State :=
  let s0 : State := { s with
    launches := mapDel lid s.launches, frontFatal := s.frontFatal.filter fun p => decide (p.1 ≠ l.ctx)
    cores := s.cores.map fun c => (c.1, { c.2 with rend := { c.2.rend with
      reserved := mapDel lid c.2.rend.reserved, fatal := if l.draw then c.2.rend.fatal.filter (fun p => decide (p.1 ≠ l.ctx)) else c.2.rend.fatal } }) }
  let u := s0.reg (ctxReg l.ctx 0x28)
  let s1 := if s.isLate l then s0.setReg (ctxReg l.ctx 0x28) (setBits u 63 32 (addW (bits u 63 32) 1)) else s0
  let q := s1.reg (ctxReg l.ctx 0x78)
  let s2 := if bit (l.f 0x2D 1) 4 && bit q 63 then raiseMsix s1 l.ctx (bits q 5 0) else s1
  if l.isTask ∧ l.reason = 0 then
    let s3 := l.succ.foldl (fun (s : State) t => s.decrement l.ctx t) s2
    (State.retryDue { s3 with tasks := removeFirst (fun (t : Task) => decide (t.ctx = l.ctx ∧ t.tid = l.tid)) s3.tasks }).startTasks
  else s2

/-- LAUNCH_COMPLETION (R353, R391, R396): a launch whose work is done discards its dead ranges, a line at a time, and then writes its
record and its word. A group gathered from continuation records has neither. -/
def execLaunchCompletion (launch : Nat) (s : State) : Out :=
  match mapGet? launch s.launches with
  | none => .next s
  | some l =>
    if s.launchOver launch l = false ∨ s.frontWaits (.completion launch) = true then .next s
    else if l.gathered then .next { s with launches := mapDel launch s.launches }
    else match (if l.reason = 0 then (l.lines 0xA0)[l.dropped]? else none) with
    | some va => .next (s.dropLine launch l va)
    | none =>
      let who : Faulter := .completion launch
      match s.frontWrite l.ctx (l.f 0x40 8 + 8) (toBytes (s.launchRecord l) 8) who with
      | (s1, none) => .next s1
      | (s1, some _) => match s1.frontWrite l.ctx (l.f 0x40 8) (toBytes (l.f 0x48 8) 8) who with
        | (s2, none) => .next s2
        | (s2, some _) => .next (s2.endLaunch launch l)

end Sys2Proof.Machine
end

