-- ==== Sys2Proof/Machine/Place.lean ====
section
/-! DEFINITION. Ranking, placement and pre-emption of clusters (R392 to R395), budgets (R393), contexts (R387), and gathering (R398 to
R400). -/

namespace Sys2Proof.Machine

open Sys2Proof

/-- The clusters of a launch, by CLUID. -/
def State.clustersOf (s : State) (lid : Nat) : List (Nat × Cluster) :=
  sortBy (fun a b => decide (a.2.cluid ≤ b.2.cluid)) (s.clusters.filter fun c => decide (c.2.launch = lid))

/-- Are clusters left that have never been placed? -/
def State.hasNew (s : State) (lid : Nat) (l : Launch) : Bool :=
  if l.gathered then decide (l.ended = 0) && (s.clustersOf lid).isEmpty else decide (l.nextClu < l.total)

/-- Has the launch an unplaced cluster (R392)? A cooperative grid counts only when none of its clusters is placed. -/
def State.unplaced (s : State) (lid : Nat) (l : Launch) : Bool :=
  let cs := s.clustersOf lid
  if l.coop then cs.all (fun c => c.2.saved) && (!cs.isEmpty || s.hasNew lid l)
  else s.hasNew lid l || cs.any fun c => c.2.saved

/-- Where the images of a new cluster lie in the save area of the context (R395); none where they find no room. -/
def State.saveFits (s : State) (l : Launch) : Option (List Nat) :=
  let n := l.f 0x20 1 * l.f 0x21 1
  let one (i : Nat) : Nat := saveSize (l.f 0x22 1) (8 * l.f 0x23 1) (l.f 0x24 4) (l.f 0x28 1) (l.f 0x2A 1) (l.f 0x2B 1) (if i = 0 then l.f 0x29 1 else 0)
  spansFor (s.reg (ctxReg l.ctx 0x40)) (s.saveSpans l.ctx) ((List.range n).map one)

/-- The team of a group gathered from continuation records (R399, R400). -/
def Launch.gatherTeam (l : Launch) (id cid core clock : Nat) : Team :=
  let word (i j : Nat) : Word := (l.recs.getD i []).getD j 0#32
  let n := l.recs.length
  let live := maskOf fun i => decide (i < n)
  let entry : Dword := word 0 1 ++ word 0 0
  let cfg := { l.cfg id with entry := entry }
  let v : Map Lanes := (List.range 13).map fun r => (r, (List.range 32).map fun i => (⟨if i < n then word i (3 + r) else 0#32, false⟩ : Elem))
  let sp := Special.fresh 0 0 l.nextClu (l.nextClu % 65536 + 65536 * (l.nextClu / 65536)) (l.f 0x38 8) l.nextClu
  { cfg := cfg, cluster := cid, tix := 0, core := some core, owner := none, image := 0, imageLost := [], groups := [(0, Group.fresh .compute 0 live entry sp v [] clock)]
    scratch := [], scratchPois := [], bars := List.replicate cfg.nbar BarWord.zero, mx := TeamMx.fresh cfg.macros }

/-- A new cluster on a rectangle (R19, R75, R173, R282, R283). -/
def State.newCluster (s : State) (lid : Nat) (l : Launch) (cs : List Nat) : State :=
  let cid := s.nextId
  let at_ := (s.saveFits l).getD []
  let team (k : Nat × Nat) : Team :=
    { (if l.gathered then l.gatherTeam lid cid k.1 s.clock else l.team lid cid l.nextClu k.2 k.1 s.clock) with image := at_.getD k.2 0 }
  let ids := (List.range cs.length).map fun i => cid + 1 + i
  let c : Cluster :=
    { launch := lid, cluid := l.nextClu, width := l.f 0x20 1, teams := ids
      bars := List.replicate (l.f 0x29 1) { BarWord.zero with valid := true, expect := cs.length }, since := s.clock, saved := false
      preempting := false, ripe := false }
  let s1 : State := { s with
    nextId := cid + 1 + cs.length
    clusters := mapSet cid c s.clusters
    teams := cs.zipIdx.foldl (fun m (k : Nat × Nat) => mapSet (cid + 1 + k.2) (team k) m) s.teams
    launches := mapSet lid (if l.gathered then l else { l with nextClu := l.nextClu + 1 }) s.launches }
  let s2 := cs.zipIdx.foldl (fun (s : State) (k : Nat × Nat) => s.giveSlots k.1 (cid + 1 + k.2)) s1
  cs.foldl (fun s k => s.reservePix k lid l) s2

/-- Place the next cluster that has never been placed; `pick` chooses among the rectangles that fit. -/
def State.placeNew (s : State) (pick lid : Nat) : Option State :=
  match mapGet? lid s.launches with
  | none => none
  | some l =>
    if (s.saveFits l).isNone then none
    else match s.placesFor lid l [] with
      | [] => none
      | p :: ps => some (s.newCluster lid l ((p :: ps).getD (pick % (ps.length + 1)) p))

/-- Place a saved cluster. -/
def State.placeSaved (s : State) (pick lid cid : Nat) : Option State :=
  match mapGet? lid s.launches, mapGet? cid s.clusters with
  | some l, some c => match s.placesFor lid l [] with
    | [] => none
    | p :: ps => s.resumeCluster cid c l ((p :: ps).getD (pick % (ps.length + 1)) p)
  | _, _ => none

/-- All clusters of a cooperative grid, one after the other, each on the first rectangle that fits: which cores they take is open under R20 (log
entry 34). -/
def State.placeAllNew (s : State) (lid : Nat) : Nat → Option State
  | 0 => some s
  | n + 1 => match s.placeNew 0 lid with
    | none => none
    | some s1 => s1.placeAllNew lid n
def State.placeAllSaved (s : State) (lid : Nat) : List Nat → Option State
  | [] => some s
  | c :: cs => match s.placeSaved 0 lid c with
    | none => none
    | some s1 => s1.placeAllSaved lid cs

/-- The picked launch places its saved clusters first, then its lowest unplaced CLUID; a cooperative grid all at once (R392), and after a
pre-emption only while all of it can be resident on the cores that are left (R20, R419). -/
def State.tryPlace (s : State) (pick lid : Nat) (l : Launch) : Option State :=
  let saved := (s.clustersOf lid).filter fun c => c.2.saved
  if l.coop then (if saved.isEmpty then s.placeAllNew lid l.total
    else if s.coopFits l then s.placeAllSaved lid (saved.map (·.1)) else none)
  else match saved with
    | c :: _ => s.placeSaved pick lid c.1
    | [] => s.placeNew pick lid

/-- The next context of a class's round robin (R392): its weight of placements in each round, contexts ascending. -/
def State.nextCtx (s : State) (c : Nat) (holders : List Nat) : Nat × Nat :=
  match mapGet? c s.robin with
  | some (t, n) =>
    if holders.contains t ∧ n < max 1 (bits (s.reg (ctxReg t 0)) 23 16) then (t, n + 1)
    else match holders.find? fun x => decide (x > t) with
      | some x => (x, 1)
      | none => (holders.headD 0, 1)
  | none => (holders.headD 0, 1)

/-- What R392 picks: the launch, and the round robin after its placement when that chose it. -/
def State.pickLaunch (s : State) (skip : List Nat) : Option (Nat × Launch × Option (Nat × Nat × Nat)) :=
  let ps := s.launches.filter fun x =>
    s.ctxOn x.2.ctx && decide (x.2.reason = 0 ∧ x.2.phase = 2) && s.unplaced x.1 x.2 && !skip.contains x.1
  let c := ps.foldl (fun a x => max a (s.classOf x.2)) 0
  let es := ps.filter fun x => decide (s.classOf x.2 = c)
  let dl := es.filter fun x => decide (s.deadlineOf x.2 ≠ 0)
  match dl with
  | x :: xs =>
    let b := xs.foldl (fun (b y : Nat × Launch) => if s.deadlineOf y.2 < s.deadlineOf b.2 then y else b) x
    some (b.1, b.2, none)
  | [] =>
    let holders := (List.range Config.contexts).filter fun t => es.any fun x => decide (x.2.ctx = t)
    let (t, n) := s.nextCtx c holders
    match es.find? fun x => decide (x.2.ctx = t) with
    | some x => some (x.1, x.2, some (c, t, n))
    | none => none

/-- PGUARD and MINRUN (R386). -/
def State.pguard (s : State) : Nat := s.reg 0x00B00008
def State.minrun (s : State) : Nat := s.reg 0x00B00010

/-- Does launch x outrank launch y for pre-emption (R394)? -/
def State.outranks (s : State) (x y : Launch) : Bool :=
  let (cx, cy, dx, dy) := (s.classOf x, s.classOf y, s.deadlineOf x, s.deadlineOf y)
  decide (cx > cy) || (decide (cx = cy ∧ dx ≠ 0) && (decide (dy = 0) || decide (dx + s.pguard < dy)))

/-- The state as if clusters had been saved: their teams stand on no core. -/
def State.without (s : State) (cids : List Nat) : State :=
  let s1 : State := { s with teams := s.teams.map fun t => if cids.contains t.2.with_ then (t.1, { t.2 with core := none }) else t }
  (s1.cores.map (·.1)).foldl State.dropQuiet s1

/-- The clusters eligible for pre-emption by a launch, in rank order (R394). -/
def State.eligible (s : State) (lid : Nat) (l : Launch) : List (Nat × Cluster) :=
  let key (c : Nat × Cluster) : Nat × Nat :=
    match mapGet? c.2.launch s.launches with
    | some y => (s.classOf y, if s.deadlineOf y = 0 then 2 ^ 64 else s.deadlineOf y)
    | none => (0, 0)
  let es := s.clusters.filter fun c => !c.2.saved && !c.2.preempting && c.2.ripe && decide (c.2.launch ≠ lid ∧ s.clock ≥ c.2.since + s.minrun) &&
    (match mapGet? c.2.launch s.launches with | some y => s.outranks l y | none => false)
  let le (a b : Nat × Cluster) : Bool :=
    let (ka, kb) := (key a, key b)
    decide (ka.1 < kb.1) || (decide (ka.1 = kb.1) && (decide (ka.2 > kb.2) || (decide (ka.2 = kb.2) &&
      (decide (a.2.since > b.2.since) || (decide (a.2.since = b.2.since) && decide (a.2.cluid ≥ b.2.cluid))))))
  sortBy le es

/-- The first list of n elements, in list order, that meets a test. -/
def firstSet (ok : List Nat → Bool) : List Nat → Nat → List Nat → Option (List Nat)
  | _, 0, acc => if ok acc then some acc else none
  | [], _ + 1, _ => none
  | x :: xs, n + 1, acc => match firstSet ok xs n (acc ++ [x]) with
    | some r => some r
    | none => firstSet ok xs (n + 1) acc

/-- A cooperative grid is pre-empted whole (R394). -/
def State.wholeGrids (s : State) (cids : List Nat) : Bool :=
  cids.all fun c => match mapGet? c s.clusters with
    | none => false
    | some x => match mapGet? x.launch s.launches with
      | none => false
      | some l => !l.coop || (s.clustersOf x.launch).all fun y => cids.contains y.1 || y.2.saved || y.2.preempting

/-- R394 for a launch that cannot be placed: the clusters to pre-empt; none when no set makes room. Clusters that are being
pre-empted already count as room to come. -/
def State.preemptSet (s : State) (pick lid : Nat) (l : Launch) : Option (List Nat) :=
  let going := (s.clusters.filter fun c => c.2.preempting).map (·.1)
  let fits (xs : List Nat) : Bool := ((s.without (going ++ xs)).tryPlace pick lid l).isSome
  let es := (s.eligible lid l).map (·.1)
  if fits [] then some []
  else if !fits es then none
  else (List.range es.length).findSome? fun n => firstSet (fun xs => fits xs && s.wholeGrids xs) es (n + 1) []

/-- The launches are picked in turn until one is placed, or waits for clusters that are being pre-empted for it (R392, R394). -/
def State.placeLoop (s : State) (pick : Nat) (skip : List Nat) : Nat → State
  | 0 => s
  | n + 1 => match s.pickLaunch skip with
    | none => s
    | some (lid, l, rr) => match s.tryPlace pick lid l with
      | some s1 => match rr with
        | some (c, t, k) => { s1 with robin := mapSet c (t, k) s1.robin }
        | none => s1
      | none => match s.preemptSet pick lid l with
        | some cids => cids.foldl State.startPreempt s
        | none => s.placeLoop pick (lid :: skip) n

/-- CLUSTER_PLACEMENT (R392 to R395). -/
def execClusterPlacement (pick : Nat) (s : State) : Out := .next (s.placeLoop pick [] s.launches.length)

/-- MINRUN_EXPIRY (R394): a cluster has been resident for MINRUN cycles. -/
def execMinrunExpiry (cluster : Nat) (s : State) : Out :=
  match mapGet? cluster s.clusters with
  | none => .next s
  | some c =>
    if !c.saved ∧ s.clock ≥ c.since + s.minrun then .next { s with clusters := mapSet cluster { c with ripe := true } s.clusters }
    else .next s

/-- USED of R393. -/
def State.used (s : State) (ctx : Nat) : Nat := bits (s.reg (ctxReg ctx 0x28)) 31 0
def State.setUsed (s : State) (ctx n : Nat) : State := s.setReg (ctxReg ctx 0x28) (setBits (s.reg (ctxReg ctx 0x28)) 31 0 n)
/-- PERIOD of R393. -/
def State.period (s : State) (ctx : Nat) : Nat := bits (s.reg (ctxReg ctx 0x20)) 63 32

/-- BUDGET_SPENT (R393). -/
def State.budgetCheck (s : State) (ctx : Nat) : State :=
  if s.budgetOver ctx ∧ s.spent.contains ctx = false then { s with spent := s.spent ++ [ctx] }
  else if s.budgetOver ctx = false ∧ s.spent.contains ctx = true then { s with spent := s.spent.filter fun t => decide (t ≠ ctx) }
  else s
def execBudgetSpent (ctx : Nat) (s : State) : Out := .next (if s.budgetOver ctx then s.budgetCheck ctx else s)

/-- BUDGET_PERIOD_RESET (R393): at a multiple of PERIOD, USED is cleared. -/
def State.budgetReset (s : State) (ctx : Nat) : State :=
  if s.period ctx ≠ 0 ∧ s.clock % s.period ctx = 0 then (s.setUsed ctx 0).budgetCheck ctx else s
def execBudgetPeriodReset (ctx : Nat) (s : State) : Out := .next (s.budgetReset ctx)

/-- A cycle of a context's account (R393): USED advances while a team of the context is resident. -/
def State.account (s : State) (ctx : Nat) : State :=
  let s1 := if s.teams.any fun t => decide (t.2.cfg.ctx = ctx) && t.2.core.isSome then s.setUsed ctx (addW (s.used ctx) 1) else s
  if s1.period ctx ≠ 0 then (s1.budgetCheck ctx).budgetReset ctx else s1

/-- The buckets of a context are free, and the commands they fired are dropped (R462). -/
def State.dropBuckets (s : State) (ctx : Nat) : State :=
  let gone := (s.buckets.filter fun b => decide (b.2.ctx = ctx)).map (·.1)
  let cmds := (s.cmds.filter fun c => match c.2.bucket with | some b => gone.contains b | none => false).map (·.1)
  if gone.isEmpty then s
  else State.disown { s with
    buckets := s.buckets.filter fun b => !gone.contains b.1
    counted := s.counted.filter fun b => !gone.contains b.1
    cmds := s.cmds.filter fun c => !cmds.contains c.1
    faults := s.faults.map fun d => (d.1, d.2.filter fun e => match e.who with | .engine c => !cmds.contains c | _ => true) } cmds

/-- TCTL_WRITE (R387): EN, WEIGHT and URG; clearing EN pre-empts the context's resident clusters (R395) and frees its buckets (R462). -/
def execTctlWrite (ctx : Nat) (value : Dword) (s : State) : Out :=
  let v := value.toNat
  let was := s.ctxOn ctx
  let s1 := s.setReg (ctxReg ctx 0) ((if bit v 63 then 2 ^ 63 else 0) + bits v 23 16 * 65536 + bits v 2 0)
  if was ∧ bit v 63 = false then
    let cs := s1.clusters.filter fun c => match mapGet? c.2.launch s1.launches with
      | some l => decide (l.ctx = ctx)
      | none => false
    .next ((cs.foldl (fun (s : State) (c : Nat × Cluster) => s.startPreempt c.1) s1).dropBuckets ctx)
  else .next s1

/-- A gather unit. -/
def State.gatherOf (s : State) (die : Nat) : Gather := mapGetD die ⟨[], []⟩ s.gathers
def State.setGather (s : State) (die : Nat) (g : Gather) : State := { s with gathers := mapSet die g s.gathers }

/-- Is a template sound (R398, R389)? -/
def Launch.templateOk (s : State) (l : Launch) : Bool :=
  decide (l.kind = 0 ∧ l.f 0x1C 2 = 1 ∧ l.f 0x1E 2 = 1 ∧ l.f 0x20 1 = 1 ∧ l.f 0x21 1 = 1 ∧ l.f 0x22 1 = 1 ∧ l.f 0x29 1 = 0)
    && !bit (l.f 0x2D 1) 0 && l.fieldsOk && l.slotsOk && decide (l.f 0x2F 1 = l.ctx ∧ l.f 0x58 8 = 0)
    && decide (l.f 0x2E 1 = 0xFF ∨ l.f 0x2E 1 ≤ bits (s.reg (ctxReg l.ctx 0)) 2 0)

/-- A bin makes a group (R398 to R400), from a template read now; the records of a template that is not sound are discarded. -/
def State.makeGroup (s : State) (die : Nat) (b : Bin) : State :=
  let va := bits (s.reg (ctxReg b.ctx 0x48)) 63 8 * 256 + 256 * b.tmpl
  let who : Faulter := .template die b.ctx b.tmpl
  if s.frontWaits who then s
  else match s.frontRead die b.ctx va 256 who with
  | (s1, .waits) => s1
  | (s1, r) =>
    let g := s1.gatherOf die
    let s2 := s1.setGather die { g with bins := removeFirst (fun x => decide (x = b)) g.bins }
    let rcd := match r with | .bytes bs => bs | _ => []
    let n := mapGetD (16 * b.ctx + b.tmpl) 0 g.made
    let l : Launch :=
      { ctx := b.ctx, rcd := rcd, args := [], ext := [], rstate := [], deadline := s.reg (ctxReg b.ctx 0x18), reason := 0
        nextClu := (4 * n + die) % 2 ^ 32, ended := 0, retired := 0, status := 0, fetched := 0, phase := 2, copies := [], gathered := true
        recs := b.recs, flushes := [], dropped := 0, hiz := [] }
    if rcd.isEmpty || !l.templateOk s then s2.countRefused b.ctx
    else
      let s3 := s2.setGather die { s2.gatherOf die with made := mapSet (16 * b.ctx + b.tmpl) (n + 1) g.made }
      { s3 with launches := mapSet s3.nextId l s3.launches, nextId := s3.nextId + 1 }

/-- The key of a record that EMITC sends: template and entry address (R383, R399). -/
def recordKey (r : List Word) : Nat × Nat := (((r.getD 2 0#32).toNat) % 16, (r.getD 0 0#32).toNat + 2 ^ 32 * (r.getD 1 0#32).toNat)

/-- The bin that a record joins or opens; none when no bin is free (R399). -/
def Gather.join (g : Gather) (ctx : Nat) (r : List Word) (clock : Nat) : Option (Gather × Bin) :=
  let (t, e) := recordKey r
  let same (b : Bin) : Bool := decide (b.ctx = ctx ∧ b.tmpl = t ∧ b.entry = e ∧ b.recs.length < 32)
  match g.bins.find? same with
  | some b => let b' := { b with recs := b.recs ++ [r] }; some ({ g with bins := updFirst same (fun _ => b') g.bins }, b')
  | none => if g.bins.length ≥ 64 then none
    else let b : Bin := ⟨ctx, t, e, clock, [r]⟩; some ({ g with bins := g.bins ++ [b] }, b)

/-- GATHER_RECORD_ARRIVAL (R399): the next record of an EMITC of the die joins its bin, which makes a group when it holds 32. Which EMITC
is next is a free value (log entry 13). -/
def execGatherRecordArrival (die : Nat) (s : State) : Out :=
  let g := s.gatherOf die
  let cs := s.cmds.filter fun x => decide (x.2.kind = .emitc ∧ x.2.die = die) && s.cmdSent x.2 && s.ctxOn x.2.ctx
    && (g.join x.2.ctx (x.2.desc.take 16) s.clock).isSome
  let id := pickOne s.fresh (cs.map (·.1))
  match cs.find? fun x => decide (x.1 = id) with
  | none => .next s
  | some (_, c) => match g.join c.ctx (c.desc.take 16) s.clock with
    | none => .next s
    | some (g', b) =>
      let s1 := State.setGather { s with fresh := s.fresh + 1 } die g'
      let rest := c.desc.drop 16
      let s2 : State := if rest.isEmpty then State.cmdTaken { s1 with cmds := mapDel id s1.cmds } c else s1.updCmd id fun c => { c with desc := rest }
      .next (if b.recs.length = 32 then s2.makeGroup die b else s2)

/-- A bin is due: full, or its oldest record has waited GDELAY (R399). -/
def State.binDue (s : State) (b : Bin) : Bool :=
  decide (b.recs.length = 32) || decide (s.clock ≥ b.oldest + bits (s.reg (ctxReg b.ctx 0x50)) 15 0)

/-- GATHER_DELAY_EXPIRY (R399). -/
def execGatherDelayExpiry (die : Nat) (s : State) : Out :=
  match (s.gatherOf die).bins.find? fun b => s.binDue b && s.ctxOn b.ctx && !s.frontWaits (.template die b.ctx b.tmpl) with
  | none => .next s
  | some b => .next (s.makeGroup die b)

end Sys2Proof.Machine
end

