-- ==== Sys2Proof/Machine/Faulting.lean ====
section
/-! DEFINITION. Fault records and their answers (R410 to R413), and the invalidation of translations (R409). -/

namespace Sys2Proof.Machine

open Sys2Proof

/-- Registers of R409, and of a die's fault buffer (R411). -/
def xinva : Nat := 0x00B20000
def xinvc : Nat := 0x00B20008

/-- The bytes of a fault record (R411). -/
def faultBytes (e : FaultEntry) (time : Nat) : List Byte :=
  toBytes e.va 8 ++ toBytes e.ctx 1 ++ toBytes e.cause 1 ++ toBytes e.access 1 ++ toBytes e.level 1 ++ toBytes e.stop 2 ++ toBytes 0 2
    ++ toBytes (if e.cause = 5 then 0 else e.pte) 8 ++ toBytes time 8

/-- FAULT_RECORD_POST (R411, R455): the oldest record that waits is posted, when the ring has room. -/
def execFaultRecordPost (die : Nat) (s : State) : Out :=
  let b := s.reg (dieReg die 0)
  let p := s.reg (dieReg die 8)
  let tail := bits p 63 32
  let size := 128 * 2 ^ bits b 3 0
  match (s.faultBuf die).find? FaultEntry.record with
  | none => .next s
  | some e =>
    if (tail + 2 ^ 32 - bits p 31 0) % 2 ^ 32 ≥ size then .next s
    else
      let pl : Place := ⟨bits b 51 12 * 4096 + 32 * (tail % size), bits b 63 52, false, 0, 0⟩
      let s1 := (s.writePhys pl (faultBytes e s.clock)).1
      let s2 : State := { s1 with faults := mapSet die (updFirst FaultEntry.record (fun e => { e with record := false }) (s1.faultBuf die)) s1.faults }
      let s3 := s2.setReg (dieReg die 8) (setBits p 63 32 (addW tail 1))
      let q := s3.reg irqcfg
      .next (if bit q 63 then raiseMsix s3 0 (bits q 5 0) else s3)

/-- The entries of a die that an answer names, and the others (R412). -/
def answered (value : Nat) (e : FaultEntry) : Bool := decide (e.ctx = bits value 5 0 ∧ e.va / 4096 % 2 ^ 45 = bits value 56 12)

/-- A part whose fault is answered walks again (R412). -/
def State.retryPart (s : State) (t g f p : Nat) : State :=
  match s.group? t g with
  | none => s
  | some (tm, gr) => match tm.core, (gr.flight? f).bind fun (fl : Flight) => fl.parts[p]? with
    | some c, some q => match s.resolvePart t g c f p q with
      | none => s.updGroup t g fun gr => gr.updPart f p fun q => { q with st := .faulted }
      | some (s1, q') => (s1.updGroup t g fun gr => gr.updPart f p fun _ => q').pump t g
    | _, _ => s

/-- One entry answered RETRY (R412): what was refused for want of room enters the buffer anew. -/
def State.retryEntry (s : State) (e : FaultEntry) : State :=
  match e.who with
  | .part t g f p => s.retryPart t g f p
  | .raster c _ => s.commitCore c
  | _ => s

/-- FRESP_RETRY (R412): the entries leave the buffer and walk again. -/
def execFrespRetry (die : Nat) (value : Dword) (s : State) : Out :=
  let es := (s.faultBuf die).filter (answered value.toNat)
  let s1 : State := { s with faults := mapSet die ((s.faultBuf die).filter fun e => !answered value.toNat e) s.faults }
  .next (if es.isEmpty then s else es.foldl State.retryEntry s1)

/-- Is an access one of a uniform instruction: SHLD or SHST (R128)? -/
def Act.uniform64 (a : Act) : Bool :=
  match a with
  | .load w _ => decide (w = 64)
  | .store w => decide (w = 64)
  | _ => false

/-- The lanes of an access that fault on a page, each with its address (R412). -/
def Flight.faultLanes (f : Flight) (page : Nat) : List (Nat × Nat) :=
  f.parts.flatMap fun q => if q.st = .faulted ∧ q.req.place.va / 4096 = page then
      q.req.lanes.map fun l => (l.lane, q.req.place.va / 128 * 128 + l.addr % 128)
    else []
/-- The address of the lowest lane. -/
def lowestLane (ls : List (Nat × Nat)) : Option Nat :=
  (ls.foldl (fun (b : Option (Nat × Nat)) l => match b with
    | some m => if l.1 < m.1 then some l else b
    | none => some l) none).map (·.2)

/-- A group's access ends with the translation trap (R412): it is not performed, its counter falls, and the fragment that issued it traps.
TRAPMASK and TRAPADDR are those of its lanes that fault on the page answered. -/
def State.fatalPart (s : State) (t g f p : Nat) : State :=
  match s.group? t g with
  | none => s
  | some (_, gr) => match gr.flight? f with
    | none => s
    | some fl => match fl.parts[p]? with
      | none => s
      | some q =>
        let hit := fl.faultLanes (q.req.place.va / 4096)
        let mask := if q.req.act.uniform64 then fl.mask else maskOf fun i => hit.any fun l => decide (l.1 = i)
        let s1 := s.updGroup t g fun gr => { gr with
          flights := gr.flights.filter fun x => decide (x.id ≠ f), cnt := listUpd fl.path (fun n => n - 1) gr.cnt }
        let s2 := s1.releaseFaults fun e => match e.who with
          | .part t' g' f' _ => decide (t' = t ∧ g' = g ∧ f' = f)
          | _ => false
        let s3 := if (mapGet? fl.entry gr.frags).isSome then
            takeTrap s2 ⟨t, g, fl.entry⟩ fl.pc fl.pc fl.mask
              { code := tcTranslation, mask := some mask, addr := BitVec.ofNat 64 ((lowestLane hit).getD q.req.place.va) }
          else s2
        (wakePaths s3 t g).pump t g

/-- A faulted access or fetch of an interrupted clause is answered FATAL (R412): the fragment, which stands at the CLAUSE, traps there. -/
def State.fatalMember (s : State) (t g entry : Nat) (clause : Dword) (mask : Mask) (addr : Nat) : State :=
  match s.group? t g with
  | none => s
  | some (_, gr) => match mapGet? entry gr.frags with
    | none => s
    | some f => takeTrap s ⟨t, g, entry⟩ clause clause f.emask
        { code := tcTranslation, mask := some mask, addr := BitVec.ofNat 64 addr, incl := true }

/-- A fatal fetch traps at the main word (R412). -/
def State.fatalFetch (s : State) (t g entry va : Nat) : State :=
  match s.group? t g with
  | none => s
  | some (_, gr) => match mapGet? entry gr.frags with
    | none => s
    | some f => takeTrap s ⟨t, g, entry⟩ f.pc f.pc f.emask { code := tcTranslation, addr := BitVec.ofNat 64 va }

/-- A fault of an engine's access answered FATAL (R412, R374): the command ends with STATUS 3; one whose completion word faults is gone. -/
def State.fatalCmd (s : State) (id : Nat) : State :=
  match mapGet? id s.cmds with
  | none => s
  | some c =>
    let s1 := s.disown [id]
    let c1 : Cmd := { c with status := max c.status 3, ended := true, busy := false, out := [] }
    match c.kind with
    | .encode => if c.accepted.isNone then s1.take id c1 else if c.ended then s1.endCmd id c else s1.updCmd id fun _ => c1
    | _ => if c.ended then s1.endCmd id c else s1.updCmd id fun _ => c1

/-- One entry answered FATAL (R412). -/
def State.fatalEntry (s : State) (e : FaultEntry) : State :=
  match e.who with
  | .part t g f p => s.fatalPart t g f p
  | .fetch t g entry => s.fatalFetch t g entry e.va
  | .member t g entry clause mask addr => s.fatalMember t g entry clause mask addr
  | .engine id => s.fatalCmd id
  | .frontEnd _ | .template _ _ _ => { s with frontFatal := s.frontFatal ++ [(e.ctx, e.va / 4096)] }
  | .completion l => match mapGet? l s.launches with
    | some x => s.endLaunch l x
    | none => s
  | .raster c l =>
    State.commitCore ((s.updCore c fun k => { k with rend := { k.rend with fatal := k.rend.fatal ++ [(e.ctx, e.va / 4096)] } }).launchFail l) c

/-- FRESP_FATAL (R412). -/
def execFrespFatal (die : Nat) (value : Dword) (s : State) : Out :=
  let es := (s.faultBuf die).filter (answered value.toNat)
  let s1 : State := { s with faults := mapSet die ((s.faultBuf die).filter fun e => !answered value.toNat e) s.faults }
  .next (if es.isEmpty then s else es.foldl State.fatalEntry s1)

/-- Does a cached translation of a context meet the range of an invalidation? -/
def TlbEntry.meets (e : TlbEntry) (ctx va npg : Nat) (all : Bool) : Bool :=
  decide (e.ctx = ctx) && (all || (decide (e.va < va + 4096 * npg) && decide (va < e.va + e.size)))

/-- XINVC_WRITE (R409): ignored while BUSY, and where it names nothing; else the invalidation begins. Until it completes a cached translation of
the range may still be used (R408). WBFAIL is cleared by writing 1. -/
def execXinvcWrite (value : Dword) (s : State) : Out :=
  let v := value.toNat
  let (ctx, npg, all) := (bits v 37 32, bits v 31 0, bit v 62)
  if s.inval.isSome ∨ (npg = 0 ∧ all = false) then .next s
  else
    let va := bits (s.reg xinva) 56 12 * 4096
    let old := s.reg xinvc
    let word := (if all then 2 ^ 62 else 0) + (if bit old 61 && !bit v 61 then 2 ^ 61 else 0) + ctx * 2 ^ 32 + npg
    .next (State.setReg { s with inval := some ⟨ctx, va, npg, all⟩ } xinvc word)

/-- The leaves that a context's tables map now, from a level down (R406, R407). -/
def State.leaves (s : State) (ctx tkey tbl lvl va : Nat) : Nat → List TlbEntry
  | 0 => []
  | n + 1 => (List.range 512).flatMap fun i =>
    match s.peekPhys ⟨tbl + 8 * i, tkey, false, ctx, va⟩ 8 with
    | none => []
    | some bs =>
      let pte := ofBytes (bs.map (·.1))
      let va' := va + i * 2 ^ (12 + 9 * lvl)
      if (bs.any (·.2)) || !bit pte 0 then []
      else if bit pte 1 then (if lvl = 0 then [] else s.leaves ctx tkey (bits pte 51 12 * 4096) (lvl - 1) va' n)
      else match leafSize (bits pte 11 9) with
        | none => []
        | some (lg, at_) => if at_ = lvl then [⟨ctx, va', 2 ^ lg, bits pte 51 12 * 4096, bits pte 63 52, bit pte 8, leafPerm pte⟩] else []
def State.allLeaves (s : State) (ctx : Nat) : List TlbEntry :=
  let r := s.reg (ctxReg ctx 0x60)
  if bit r 0 then s.leaves ctx (bits r 63 52) (bits r 51 12 * 4096) 4 0 5 else []

/-- Is an access under way that a dropped entry may have translated (R409)? -/
def State.invalBusy (s : State) (ctx : Nat) (ds : List TlbEntry) : Bool :=
  let hit (p : Place) : Bool := decide (p.ctx = ctx) && ds.any fun e => decide (e.va ≤ p.va ∧ p.va < e.va + e.size)
  (s.teams.any fun t => t.2.groups.any fun g => g.2.flights.any fun f => f.parts.any fun p =>
    decide (p.st = .todo ∨ p.st = .sent) && hit p.req.place)
  || (s.cmds.any fun c => c.2.out.any fun w => match w with | .mem p _ => hit p | _ => false)
  || (s.packets.any fun p => match p.2.body with | .access r => hit r.place | _ => false)

/-- A line of a page that a dropped entry maps (R409): update-only copies combined, written back if dirty, unpinned; false when the
write-back met poison or failed. -/
def State.invalLine (s : State) (ln key : Nat) : State × Bool :=
  let p : Place := ⟨128 * ln, key, false, 0, 0⟩
  let s1 := s.settleLine p
  (s1.slices.foldl (fun (a : State × Bool) (x : Nat × Slice) => match mapGet? ln x.2.tags with
    | some t =>
      if t.key = key then
        let c := x.2.content t
        let a1 := a.1.cleanLine x.1 ln
        (a1.updSlice x.1 fun sl => { sl with tags := mapUpd ln (fun t => { t with n := false }) sl.tags },
          a.2 && !(t.d && (decide (c.pois ≠ 0#32) || !s.keyOn key)))
      else a
    | none => a) (s1, true))

/-- The lines and keys within pages that the L2 or an L1 holds, or that a flush carries. -/
def State.heldLines (s : State) (ds : List TlbEntry) : List (Nat × Nat) :=
  let inside (ln key : Nat) : Bool := ds.any fun e => decide (e.key = key ∧ e.pa ≤ 128 * ln ∧ 128 * ln < e.pa + e.size)
  ((s.slices.flatMap fun sl => sl.2.tags.filterMap fun t => if inside t.1 t.2.key then some (t.1, t.2.key) else none)
    ++ (s.cores.flatMap fun c => c.2.l1.filterMap fun l => if inside l.1 l.2.place.key then some (l.1, l.2.place.key) else none)
    ++ s.packets.filterMap fun p => match p.2.body with
      | .flushed pl _ _ _ => if inside (lineNo pl.pa) pl.key then some (lineNo pl.pa, pl.key) else none
      | _ => none).eraseDups

/-- INVALIDATION_COMPLETE (R409): the range's cached translations are dropped, the accesses they translated are done, their lines
are settled; BUSY clears. -/
def execInvalidationComplete (s : State) : Out :=
  match s.inval with
  | none => .next s
  | some i =>
    let ds := s.tlb.filter fun e => e.meets i.ctx i.va i.npg i.all
    if s.invalBusy i.ctx ds then .next s
    else
      let pages := ds ++ (if i.all then s.allLeaves i.ctx else [])
      let (s1, ok) := (s.heldLines pages).foldl (fun (a : State × Bool) (l : Nat × Nat) =>
        let (s2, o) := a.1.invalLine l.1 l.2; (s2, a.2 && o)) (s, true)
      let r := s1.reg xinvc
      .next (State.setReg { s1 with inval := none, tlb := s1.tlb.filter fun e => !e.meets i.ctx i.va i.npg i.all } xinvc
        (setBits r 61 61 (if ok then 0 else 1)))

end Sys2Proof.Machine
end

