-- ==== Sys2Proof/Machine/Errors.lean ====
section
/-! DEFINITION. Uncorrectable errors (R179, R187, R244, R321, R330, R417), and health and retirement (R331, R418, R419). -/

namespace Sys2Proof.Machine

open Sys2Proof

/-- Units of the health checks: cores, slices with their banks, links of the torus by 4 × stop + output, fabric links. -/
def unitSlice (i : Nat) : Nat := 256 + i
def unitLink (stop dir : Nat) : Nat := 512 + 4 * stop + dir
def unitFabric (p : Nat) : Nat := 1536 + p

/-- An uncorrectable error counts against its unit in this health period (R418). -/
def State.countErr (s : State) (unit : Nat) : State := { s with errs := mapSet unit (mapGetD unit 0 s.errs + 1) s.errs }

/-- The register of a fabric link (R469), and its width. -/
def flnk (p : Nat) : Nat := 0x00C50100 + 8 * p
def State.linkUp (s : State) (p : Nat) : Bool := bit (s.reg (flnk p)) 0

/-- A corrected error (R179, R187, R321, R330, R478): counted in CERR, in SLERR or, for a retransmission on a fabric link, in RETRY, saturating, and
against its unit in this health period (R418); nothing else changes. -/
def State.correct (s : State) (unit : Nat) : State :=
  let s1 : State := { s with fixed := mapSet unit (mapGetD unit 0 s.fixed + 1) s.fixed }
  if unit < 256 then s1.updCore unit fun k => { k with corr := min 0xFFFFFFFF (k.corr + 1) }
  else if unit < 512 then s1.updSlice (unit - 256) fun sl => { sl with corr := min 0xFFFF (sl.corr + 1) }
  else if 1536 ≤ unit ∧ unit < 1552 then
    let r := s1.reg (flnk (unit - 1536))
    s1.setReg (flnk (unit - 1536)) (setBits r 63 48 (min 0xFFFF (bits r 63 48 + 1)))
  else s1

/-- CERR.UNCORR of a core (R417), saturating. -/
def State.coreErr (s : State) (c : Nat) : State := (s.updCore c fun k => { k with uncorr := min 0xFFFF (k.uncorr + 1) }).countErr c

/-- An error record of an array of a core, counted in CERR (R417). -/
def State.postCore (s : State) (c kind ctx addr : Nat) : State :=
  postError (s.coreErr c) { kind := kind, sev := 2, unit := coreStop c, ctx := ctx, addr := addr, detail := 0 }

/-- A poisoned element with free value bits (R71, log entry 3). -/
def badElem (s : State) : Elem := ⟨Config.poisonBits s.fresh 0, true⟩

/-- An error in the state of a team that stands on a core: the change, and its record. -/
def State.teamErr (s : State) (tid kind addr : Nat) (f : Team → Team) : State :=
  match mapGet? tid s.teams with
  | none => s
  | some t => match t.core with
    | none => s
    | some c => (State.updTeam { s with fresh := s.fresh + 1 } tid f).postCore c kind t.cfg.ctx addr

/-- Add a word to a set of words. -/
def addWord (w : Nat) (ws : List Nat) : List Nat := if ws.contains w then ws else w :: ws

/-- A cell of a tile becomes poisoned. -/
def Macro.poisonCell (m : Macro) (k n : Nat) : Macro :=
  { m with tile := listUpd n (fun col => listUpd k (fun c => c.map fun (v : FVal × Bool) => (v.1, true)) col) m.tile }

/-- An error in a line of an L1 (R187, R183): a V line is dropped and nothing is posted; the touched elements of a partial become poison. -/
def State.l1Err (s : State) (c ln : Nat) : State :=
  match mapGet? ln (s.core c).l1 with
  | none => s
  | some ⟨_, .v _⟩ => (s.updCore c fun k => { k with l1 := mapDel ln k.l1 }).coreErr c
  | some ⟨p, .uo q⟩ =>
    (s.updCore c fun k => { k with l1 := mapSet ln ⟨p, .uo { q with pois := q.pois ||| q.touched }⟩ k.l1 }).postCore c 0x04 0xFF p.pa

/-- An error in a data entry (R321): poison, out of the index, flag X on every tag that points at it. -/
def State.entryErr (s : State) (i e word : Nat) : State :=
  let sl := s.slice i
  match mapGet? e sl.entries with
  | none => s
  | some x =>
    let bad := { x with indexed := false, line := { x.line with pois := x.line.pois ||| BitVec.ofNat 32 (3 * 2 ^ (2 * (word % 16))) } }
    let s1 := s.setSlice i { sl with
      entries := mapSet e bad sl.entries
      tags := sl.tags.map fun t => if t.2.entry = some e then (t.1, { t.2 with x := true }) else t }
    postError (s1.countErr (unitSlice i)) { kind := 0x06, sev := 2, unit := i, ctx := 0xFF, addr := 0, detail := 0 }

/-- Room for one more entry: lines other than ln are evicted, as for a fill (R319). -/
def State.freeEntry (s : State) (i ln : Nat) : Nat → State
  | 0 => s
  | n + 1 =>
    if (s.slice i).entries.length < 24576 then s
    else match (s.slice i).victim fun k => decide (k ≠ ln) with
      | some v => (s.evict i v).freeEntry i ln n
      | none => s

/-- An error in a tag (R331): the line counts as poisoned until it is evicted, in an entry of its own. -/
def State.tagErr (s : State) (i ln : Nat) : State :=
  match mapGet? ln (s.slice i).tags with
  | none => s
  | some t =>
    let s0 := s.freeEntry i ln 49152
    let sl := s0.slice i
    let c : Line := { sl.content t with pois := BitVec.allOnes 32 }
    let (sl1, e) := (sl.release t.entry).ownEntry none c t.key false
    let s1 := s0.setSlice i { sl1 with tags := mapSet ln { t with entry := e, x := true, bad := true } sl1.tags }
    postError (s1.countErr (unitSlice i)) { kind := 0x07, sev := 2, unit := i, ctx := 0xFF, addr := 128 * ln, detail := 0 }

/-- An error in a barrier word (R181, R187): BROKEN, and every waiter takes the barrier-error trap. -/
def State.barErr (s : State) (tid b : Nat) : State :=
  match mapGet? tid s.teams with
  | none => s
  | some t =>
    if b < t.cfg.nbar then
      (s.teamErr tid 0x03 0 fun t => { t with bars := listUpd b (fun w => { w with broken := true }) t.bars }).updTeam tid fun t =>
        { t with groups := t.groups.map fun g => (g.1, g.2.trapWaits tcBarrier (waitsOn b)) }
    else s
def waitsOnCluster (b : Nat) (w : Wait) : Bool :=
  match w with
  | .cluster b' _ _ => decide (b' = b)
  | _ => false
def State.cbarErr (s : State) (cid b : Nat) : State :=
  match mapGet? cid s.clusters with
  | none => s
  | some c =>
    if b < c.bars.length ∧ c.saved = false then
      let s1 : State := { s with clusters := mapSet cid { c with bars := listUpd b (fun w => { w with broken := true }) c.bars } s.clusters }
      c.teams.foldl (fun s t => trapTeam s t tcBarrier (waitsOnCluster b)) (s1.teamErr (c.teams.headD 0) 0x03 0 id)
    else s

/-- A physical Granary word by its bank and its place there (R327). -/
def granWord (bank w : Nat) : Nat := (w / 128 * 262144 + bank * 1024) / 8 + w % 128

/-- Poison at a vector register element, a uniform register, a cell, an accumulator element, a word of the turning store (R179, R244). -/
def Group.errV (g : Group) (r l : Nat) (e : Elem) : Group := { g with v := mapSet r (listSet l e (mapGetD r Lanes.zero g.v)) g.v }
def Group.errS (g : Group) (r : Nat) (e : Elem) : Group := { g with s := mapSet r e g.s }
def Team.updGroup (t : Team) (gix : Nat) (f : Group → Group) : Team := { t with groups := mapUpd gix f t.groups }
def TeamMx.errCell (m : TeamMx) (i k n : Nat) : TeamMx := { m with macros := listUpd i (fun x => x.poisonCell k n) m.macros }
def errRow (row col : Nat) (e : Elem) (b : Map (List Elem)) : Map (List Elem) :=
  mapSet row (listSet col e (mapGetD row (List.replicate 128 Elem.zero) b)) b
def TeamMx.errBank (m : TeamMx) (b row col : Nat) (e : Elem) : TeamMx := { m with banks := listUpd b (errRow row col e) m.banks }
def TeamMx.errWord (m : TeamMx) (w : Nat) : TeamMx := { m with tsPois := addWord w m.tsPois }

/-- Every result of a row's pass is to be poisoned (R244). -/
def MxCmd.errRow (x : MxCmd) : MxCmd :=
  match x.op with
  | .pass fam fwd line m b row za _ => { x with op := .pass fam fwd line m b row za true }
  | _ => x
def MxCmd.isPass (x : MxCmd) : Bool := match x.op with | .pass _ _ _ _ _ _ _ _ => true | _ => false

/-- Does a team have the site? -/
def State.siteTeam (s : State) (t : Nat) (p : Team → Bool) : Bool := match mapGet? t s.teams with | some tm => p tm | none => false

/-- UNCORRECTABLE_ERROR (R179): what an error does where it is found, its record (R417) and its count. -/
def execUncorrectableError (site : ErrSite) (s : State) : Out :=
  let e := badElem s
  match site with
  | .scratchpad t w => .next (if s.siteTeam t (fun tm => decide (8 * w + 8 ≤ tm.cfg.scratch)) then
      s.teamErr t 0x01 (8 * w) fun tm => { tm with scratchPois := addWord w tm.scratchPois } else s)
  | .vreg t g r l => .next (if s.siteTeam t (fun tm => decide (r < tm.cfg.k ∧ l < 32) && (mapGet? g tm.groups).isSome) then
      s.teamErr t 0x02 0 fun tm => tm.updGroup g fun gr => gr.errV r l e else s)
  | .ureg t g r => .next (if s.siteTeam t (fun tm => decide (r < 128) && (mapGet? g tm.groups).isSome) then
      s.teamErr t 0x02 0 fun tm => tm.updGroup g fun gr => gr.errS r e else s)
  | .barrier t b => .next (s.barErr t b)
  | .clusterBarrier c b => .next (s.cbarErr c b)
  | .l1 c ln => .next (s.l1Err c ln)
  | .macroCell t m k n => .next (s.teamErr t 0x05 0 fun tm => { tm with mx := tm.mx.errCell m k n })
  | .bankElem t b row col => .next (if s.siteTeam t (fun tm => decide (b < tm.cfg.macros ∧ row < 32 ∧ col < 128)) then
      s.teamErr t 0x05 0 fun tm => { tm with mx := tm.mx.errBank b row col e } else s)
  | .turning t w => .next (if s.siteTeam t (fun tm => decide (w < 2048 * tm.cfg.tsq)) then
      s.teamErr t 0x05 (8 * w) fun tm => { tm with mx := tm.mx.errWord w } else s)
  | .rowBuffer c i => .next (if (((s.core c).mx.q[i]?).map MxCmd.isPass).getD false then
      State.postCore (s.updCore c fun k => { k with mx := { k.mx with q := listUpd i MxCmd.errRow k.mx.q } }) c 0x05 0xFF 0 else s)
  | .l2Data i en w => .next (s.entryErr i en w)
  | .l2Tag i ln => .next (s.tagErr i ln)
  | .hbm ln m => .next (if ln < 0x6000000000 / 128 then
      postError { s with fresh := s.fresh + 1, hbmErr := mapSet ln (mapGetD ln 0#32 s.hbmErr ||| m) s.hbmErr }
        { kind := 0x09, sev := 2, unit := 2 * (ln / 0x30000000) + Config.enginePick s.fresh % 2, ctx := 0xFF, addr := 128 * ln, detail := 0 }
      else s)
  | .granary b w => .next (if b < 256 ∧ w < 65536 then
      postError (State.countErr { s with granPois := addWord (granWord b w) s.granPois } (unitSlice b))
        { kind := 0x08, sev := 2, unit := b, ctx := 0xFF, addr := 8 * granWord b w, detail := 0 } else s)
  | .lantern => .next (postError { s with lantern := { s.lantern with works := false } }
      { kind := 0x0D, sev := 3, unit := s.lantern.at_, ctx := 0xFF, addr := 0, detail := 0 })

/-- ESTAT.REPL is set (R417, R418), with its interrupt. -/
def State.setRepl (s : State) : State := raiseErrIrq (s.setReg estat (s.reg estat ||| 1))

/-- The records of a retirement (R418). -/
def State.postRetired (s : State) (unit cls : Nat) : State :=
  (postError (postError s { kind := 0x0E, sev := 4, unit := unit, ctx := 0xFF, addr := 0, detail := cls })
    { kind := 0x0F, sev := 4, unit := unit, ctx := 0xFF, addr := 0, detail := cls }).setRepl

/-- Pre-empt a cluster; a cooperative grid whole (R394, R419). -/
def State.preemptWhole (s : State) (cid : Nat) : State :=
  match mapGet? cid s.clusters with
  | none => s
  | some c =>
    let coop := match mapGet? c.launch s.launches with | some l => l.coop | none => false
    if coop then (s.clustersOf c.launch).foldl (fun (s : State) (x : Nat × Cluster) => s.startPreempt x.1) s else s.startPreempt cid

/-- A core begins to retire (R187): no team is placed on it any more, and its resident teams are pre-empted. -/
def State.retireCore (s : State) (c : Nat) : State :=
  if s.coreRetired c then s
  else ((s.teamsOn c).map fun t => t.2.with_).eraseDups.foldl State.preemptWhole { s with retiring := s.retiring ++ [c] }

/-- A core whose teams have left is retired (R187, R418): RETC, and its records. -/
def State.coreLeft (s : State) (c : Nat) : State :=
  if (s.teamsOn c).isEmpty then
    let off := 0x00B40020 + 8 * (c / 64)
    State.postRetired (State.setReg { s with retiring := s.retiring.filter fun x => decide (x ≠ c) } off (s.reg off ||| 2 ^ (c % 64))) (coreStop c) 0
  else s
def State.coresLeft (s : State) : State := s.retiring.foldl State.coreLeft s

/-- The entries of a table that name a slice go to the remaining slices in turn (R331). -/
def reassign (slice : Nat) (left : List Nat) (tbl : Map Nat) (dflt : Nat → Nat) (idx : List Nat) : Map Nat :=
  if left.isEmpty then tbl
  else (idx.filter fun i => decide (mapGetD i (dflt i) tbl = slice)).zipIdx.foldl (fun m (x : Nat × Nat) =>
    mapSet x.1 (left.getD (x.2 % left.length) 0) m) tbl

/-- Requests that wait at, or travel to, a slice that is no home any more go to the new home of their line. -/
def State.rehome (s : State) (slice : Nat) : State :=
  { s with packets := s.packets.map fun q =>
      let dest? : Option Place := match q.2.body with
        | .access r => if r.tgt = .home ∧ q.2.body.line ≠ none then some r.place else none
        | .flushed p _ _ _ => some p
        | _ => none
      match dest? with
      | some p =>
        if q.2.dst = slice ∧ q.2.pkg = none then
          let d := s.homeOf p
          (q.1, { q.2 with dst := d, loc := if q.2.loc = .net ∧ q.2.here ≠ d then .net else if q.2.here = d then .arrived q.1 else .net })
        else q
      | none => q }

/-- A slice and its bank leave the home interleave (R331): its lines are written back, its pins dropped, its table entries reassigned. -/
def State.retireSlice (s : State) (i : Nat) : State :=
  if s.sliceRetired i then s
  else
    let off := 0x00B40040 + 8 * (i / 64)
    let s1 := s.setReg off (s.reg off ||| 2 ^ (i % 64))
    let lines := (s1.slice i).tags.map fun t => (t.1, t.2.key)
    let s2 := lines.foldl (fun (s : State) (l : Nat × Nat) =>
      ((s.settleLine ⟨128 * l.1, l.2, false, 0, 0⟩).dropV l.1 none).evict i l.1) s1
    let s3 := (s2.slice i).dirs.foldl (fun (s : State) (d : Nat × Dir) => s.dropV d.1 none) s2
    let s4 := s3.updSlice i fun sl => { sl with tags := [], entries := [], dirs := [], fills := [] }
    let left := (List.range 256).filter fun j => !s4.sliceRetired j
    let d := i / 64
    let s5 : State := { s4 with
      homeTbl := reassign i left s4.homeTbl id (List.range 256)
      dlTbl := reassign i (left.filter fun j => decide (j / 64 = d)) s4.dlTbl id ((List.range 64).map fun j => 64 * d + j) }
    (s5.rehome i).postRetired i 1

/-- A link of the torus narrows a step, in both directions (R331). -/
def State.narrowLink (s : State) (stop dir : Nat) : State :=
  let back := neighbour stop dir
  let rdir := match dir with | 0 => 1 | 1 => 0 | 2 => 3 | _ => 2
  let one (r : Router) (d : Nat) : Router := { r with lnkw := listUpd d narrow r.lnkw }
  let s1 := s.setRouter stop (one (s.router stop) dir)
  (s1.setRouter back (one (s1.router back) rdir)).postRetired (4 * stop + dir) 2

/-- A fabric link narrows a step; off, it is no longer trained (R478). -/
def State.narrowFabric (s : State) (p : Nat) : State :=
  let r := s.reg (flnk p)
  let n := narrow (mapGetD p 0 s.narrowed)
  let w := max n (bits r 3 2)
  let s1 := State.setReg { s with narrowed := mapSet p n s.narrowed } (flnk p) (setBits (setBits r 3 2 w) 0 0 (if w = 3 then 0 else bits r 0 0))
  let up := (List.range 16).any fun q => s1.linkUp q
  let s2 := if up then s1 else s1.setReg 0x00C50000 (setBits (s1.reg 0x00C50000) 63 63 0)
  s2.postRetired p 2

/-- What the failure of two consecutive checks does to a unit (R418). -/
def State.retireUnit (s : State) (u : Nat) : State :=
  if u < 256 then s.retireCore u
  else if u < 512 then s.retireSlice (u - 256)
  else if u < 1536 then (if s.linkOn ((u - 512) / 4) ((u - 512) % 4) then s.narrowLink ((u - 512) / 4) ((u - 512) % 4) else s)
  else if u < 1552 then (if mapGetD (u - 1536) 0 s.narrowed < 3 then s.narrowFabric (u - 1536) else s)
  else s

/-- HCTL of R417. -/
def hctl : Nat := 0x00B40018

/-- HEALTH_PERIOD_EXPIRY (R418): the units that failed a test, or whose errors in the period reached their thresholds, fail the check;
those that failed the last one too are retired. -/
def execHealthPeriodExpiry (failing : List Nat) (s : State) : Out :=
  let h := s.reg hctl
  if s.clock < s.healthAt + bits h 63 32 ∨ bits h 63 32 = 0 then .next s
  else
    let bad := (List.range 1552).filter fun u =>
      failing.contains u || decide (mapGetD u 0 s.errs ≥ bits h 15 8) || decide (mapGetD u 0 s.fixed ≥ bits h 31 16)
    let s1 : State := { s with failing := bad, errs := [], fixed := [], healthAt := s.clock }
    .next ((bad.filter fun u => s.failing.contains u).foldl State.retireUnit s1)

end Sys2Proof.Machine
end

