-- ==== Sys2Proof/Machine/Package.lean ====
section
/-! DEFINITION. The package: interrupts (R455), keys (R451), the host's windows (R453), communicators (R456), clocks (R465), reset and
attestation (R467, R468). -/

namespace Sys2Proof.Machine

open Sys2Proof

/-- The mask bit of a vector (R455). -/
def State.vecMasked (s : State) (fn vec : Nat) : Bool := bit (mapGetD (2 * vec + 1) 0#64 (s.msixOf fn).table).toNat 32

/-- A message that waited for its vector goes out once that is not masked (R455). -/
def State.sendPending (s : State) (fn vec : Nat) : State :=
  let m := s.msixOf fn
  if bit m.pend.toNat vec && !s.vecMasked fn vec then
    { s with
      msix := mapSet fn { m with pend := m.pend &&& ~~~BitVec.ofNat 64 (2 ^ vec) } s.msix
      sent := s.sent ++ [⟨fn, vec, s.fnPort fn⟩] }
  else s

/-- A write of the MSI-X table: word 2 × vector or 2 × vector + 1. -/
def State.writeMsix (s : State) (fn word : Nat) (value : Dword) : State :=
  let m := s.msixOf fn
  State.sendPending { s with msix := mapSet fn { m with table := mapSet word value m.table } s.msix } fn (word / 2)

/-- MSIX_UNMASK (R455): a vector's mask bit is cleared, and a pending message is sent. -/
def execMsixUnmask (fn vec : Nat) (s : State) : Out :=
  let w := mapGetD (2 * vec + 1) 0#64 (s.msixOf fn).table
  .next (if fn < 64 ∧ vec < 64 then s.writeMsix fn (2 * vec + 1) (w &&& ~~~BitVec.ofNat 64 (2 ^ 32)) else s)

/-- The registers of R451. -/
def kdata (i : Nat) : Nat := 0x00C20000 + 8 * i
def kcmd : Nat := 0x00C20040

/-- Every L2 line of a key ID: update-only copies combined, written back if dirty, and discarded (R451). -/
def State.flushKey (s : State) (key : Nat) : State :=
  let uo := s.cores.flatMap fun c => c.2.l1.filterMap fun l => match l.2.st with
    | .uo _ => if l.2.place.key = key then some l.1 else none
    | .v _ => none
  let going := s.packets.filterMap fun p => match p.2.body with
    | .flushed pl _ _ _ => if pl.key = key then some (lineNo pl.pa) else none
    | _ => none
  let s1 := (uo ++ going).foldl (fun (s : State) ln => s.settleLine ⟨128 * ln, key, false, 0, 0⟩) s
  let held := s1.slices.flatMap fun sl => sl.2.tags.filterMap fun t => if t.2.key = key then some (sl.1, t.1) else none
  held.foldl (fun (s : State) (l : Nat × Nat) => s.evict l.1 l.2) s1

/-- KDATA is zeroed after each command (R451). -/
def State.clearKdata (s : State) : State := (List.range 8).foldl (fun (s : State) i => s.setReg (kdata i) 0) s

/-- KCMD_LOAD (R451): the key material of KDATA is installed, and the entry enabled. Key ID 0 makes the command do nothing. -/
def execKcmdLoad (value : Dword) (s : State) : Out :=
  let k := bits value.toNat 11 0
  let s0 := s.setReg kcmd k
  if k = 0 then .next s0
  else
    let s1 := s0.flushKey k
    let mat := (List.range 8).map fun i => BitVec.ofNat 64 (s1.reg (kdata i))
    .next (State.clearKdata { s1 with keys := mapSet k mat s1.keys })

/-- KCMD_CLEAR (R451): the entry is disabled, its keys zeroed. -/
def execKcmdClear (value : Dword) (s : State) : Out :=
  let k := bits value.toNat 11 0
  let s0 := s.setReg kcmd k
  if k = 0 then .next s0
  else
    let s1 := s0.flushKey k
    .next (State.clearKdata { s1 with keys := mapDel k s1.keys })

/-- The place in HBM of a BAR2 access (R453): none beyond the window or beyond 384 GiB. -/
def State.bar2 (s : State) (fn off n : Nat) : Option Place :=
  let w := s.reg (ctxReg fn 0x70)
  let key := bits w 63 52
  let pa := if fn = 0 then off else bits w 51 30 * 2 ^ 30 + off
  let lim := if fn = 0 then 2 ^ 39 else min (bits w 6 0) 64 * 2 ^ 30
  if off + n ≤ lim ∧ pa + n ≤ 0x6000000000 then some ⟨pa, key, false, 0, 0⟩ else none

/-- The identity of a function as its port presents it (R452): vendor, device, revision, class and subsystem, each in little-endian
bytes, in an order of the model's (log entry 74); a function absent from the port reads all ones. -/
def State.identity (s : State) (port fn : Nat) : List Byte :=
  if fn < 64 ∧ s.fnPort fn = port then
    toBytes 0x1F3A 2 ++ toBytes (if fn = 0 then 0x5CA4 else 0x5CA5) 2 ++ toBytes (bits (s.reg 0) 39 32) 1 ++ toBytes 0x120000 3 ++ toBytes 0x0384 2
  else List.replicate 10 0xFF#8

/-- BAR2_HOST_ACCESS (R453, R354): a read or a write of the host, at the homes of its lines; poison reaches the host as free values (log
entry 3). It waits for a line that a command owns. An AtomicOp is answered with Completer Abort: nothing is done and no data come. -/
def execBar2HostAccess (access : HostAccess) (s : State) : Out :=
  match access with
  | .read fn off n => match s.bar2 fn off n with
    | none => .next { s with answer := List.replicate n 0xFF#8 }
    | some p =>
      if (linesOf p n).any fun (l : Place × Nat) => s.ownedBy l.1 l.2 permR none then .next s
      else
        let (s1, bs, _) := s.readPieces (linesOf p n)
        .next { s1 with fresh := s1.fresh + 1, answer := (freePois s1.fresh bs).map (·.1) }
  | .write fn off data => match s.bar2 fn off data.length with
    | none => .next s
    | some p =>
      if (linesOf p data.length).any fun (l : Place × Nat) => s.ownedBy l.1 l.2 permW none then .next s
      else .next (s.writePieces (linesOf p data.length) data).1
  | .atomicOp _ _ _ _ => .next { s with answer := [] }
  | .identity port fn => .next { s with answer := s.identity port fn }

/-- A command of a communicator ends with STATUS 2 (R456); one that still waits for its release ends when the Courier takes it. -/
def State.endColl (s : State) (id : Nat) (c : Cmd) : State :=
  if !s.cmdSent c then s.updCmd id fun c => { c with status := max c.status 2 } else
  let c1 : Cmd := { c with status := max c.status 2, ended := true, out := [], busy := false }
  let s1 := (s.disown [id]).dropFaults fun e => decide (e.who = .engine id)
  if c.accepted.isNone then s1.take id c1 else s1.updCmd id fun _ => c1

/-- COMM_CONFIG_WRITE (R456): while EN is set only a write of the first word that clears it takes effect, and it ends every
outstanding command of the communicator. -/
def execCommConfigWrite (comm word : Nat) (value : Dword) (s : State) : Out :=
  let v := value.toNat
  let was := bit (s.reg (commReg comm 0)) 63
  if comm ≥ 256 then .next s
  else if word = 0 then
    if was && bit v 63 then .next s
    else
      let s1 := s.setReg (commReg comm 0) (v &&& 0x80FF01FF01FF0000)
      let mine := s1.cmds.filter fun c => decide (c.2.kind = .coll) && decide (bits (dW c.2.desc 6) 7 0 = comm) && !c.2.ended
      .next (if was then mine.foldl (fun (s : State) (c : Nat × Cmd) => s.endColl c.1 c.2) s1 else s1)
  else if word = 1 ∧ was = false then .next (s.setReg (commReg comm 8) (v / 4096 * 4096))
  else .next s

/-- EXPORT_WINDOW_WRITE (R471): while EN is set only a write that clears it takes effect. -/
def execExportWindowWrite (window word : Nat) (value : Dword) (s : State) : Out :=
  let v := value.toNat
  let was := bit (s.reg (winReg window 0)) 63
  if window ≥ 64 ∨ word > 1 then .next s
  else if word = 0 then
    if was && bit v 63 then .next s else .next (s.setReg (winReg window 0) (v &&& 0xFFFFFFFFFFFFF000))
  else if was then .next s
  else .next (s.setReg (winReg window 8) (v &&& 0xFFC0000FFFFFF000))

/-- DVFS_PERIOD (R465): every 17,000 cycles a die sets its clock, from 900 MHz to 1.7 GHz in steps of 25 MHz; which, and its
watts, within what PCAP leaves beside the other dies, are free values (log entry 12). No value that a program computes changes. -/
def execDvfsPeriod (die : Nat) (s : State) : Out :=
  if die < 4 ∧ s.clock % 17000 = 0 then
    let mhz := 900 + 25 * ((Config.unstated s.fresh 0).toNat % 33)
    let rest := ([0, 1, 2, 3].filter fun d => decide (d ≠ die)).foldl (fun n d => n + bits (s.reg (0x00C40008 + 8 * d)) 15 0) 0
    let watts := (Config.unstated s.fresh 1).toNat % (bits (s.reg 0x00C40000) 15 0 - rest + 1)
    .next (State.setReg { s with fresh := s.fresh + 1 } (0x00C40008 + 8 * die) (mhz * 2 ^ 32 + watts))
  else .next s

/-- LINK_RECALIBRATION (R465): a pause; no value changes (R5). -/
def execLinkRecalibration (_link : LinkName) (s : State) : Out := .next s

/-- HOST_LINK_TRAINING (R452): a port trains at a width of 16, 8 or 4 lanes and at 64 GT/s or less. -/
def execHostLinkTraining (port width rate : Nat) (s : State) : Out :=
  if port < 2 ∧ (width = 16 ∨ width = 8 ∨ width = 4) ∧ 1 ≤ rate ∧ rate ≤ 64 then
    .next { s with hostLinks := mapSet port (width, rate) s.hostLinks }
  else .next s

/-- Cores in the pool, and fabric links trained, at a reset (R12): one that is off is not, nor one whose port differs from the majority's
(R469). -/
def State.poolSize (s : State) : Nat := ((List.range 256).filter fun c => !s.coreRetired c).length
def State.linkCount (s : State) : Nat := ((List.range 16).filter fun p =>
  decide (mapGetD p 0 s.narrowed < 3) && ((mapGet? p s.linkPort).isNone || s.linkUp p)).length

/-- PACKAGE_RESET (R12, R418, R467): the firmware is verified and measured, and everything stands at its reset value but what the package firmware
keeps, the retirements, and what is outside the package, the host's memory. -/
def execPackageReset (s0 : State) : Out :=
  let s := s0.retiring.foldl (fun (s : State) c => s.setReg (0x00B40020 + 8 * (c / 64)) (s.reg (0x00B40020 + 8 * (c / 64)) ||| 2 ^ (c % 64))) s0
  let keep := (List.range 8).map fun i => (0x00B40020 + 8 * i, BitVec.ofNat 64 (s.reg (0x00B40020 + 8 * i)))
  let ident := setBits (setBits Config.ident 23 12 s.poolSize) 11 4 s.linkCount
  let b := boot (Config.firmware (s.fresh + 1))
  .next (State.setReg { State.reset with
    mrs := b.1, inReset := !b.2, fresh := s.fresh + 1, nextId := s.nextId, schedule := s.schedule, hostMem := s.hostMem, hostBad := s.hostBad
    homeTbl := s.homeTbl, dlTbl := s.dlTbl, narrowed := s.narrowed
    routers := s.routers.map fun r => (r.1, { Router.reset with lnkw := r.2.lnkw }), regs := keep } 0 ident)

/-- ATTESTATION_REPORT (R468): the report and its signature; versions and signature are free values (log entry 7), and so are the 32 bytes that R468 reserves beyond RETC0 to RETC3 (log entry 12). -/
def execAttestationReport (nonce : List Byte) (s : State) : Out :=
  if nonce.length ≠ 64 then .next s
  else
    let free (k n : Nat) : List Byte := (List.range n).map fun i => Config.attestation k i
    let mr := (List.range 4).flatMap fun i => bytesBig (s.mrs.getD i 0#512).toNat 64
    let retc := (List.range 4).flatMap fun i => toBytes (s.reg (0x00B40020 + 8 * i)) 8
    let pad := (List.range 32).map fun i => (Config.unstated s.fresh i).setWidth 8
    .next { s with
      fresh := s.fresh + 1
      answer := toBytes (s.reg 0) 8 ++ free 0 12 ++ List.replicate 12 0#8 ++ nonce ++ mr ++ retc ++ pad ++ free (s.fresh + 1) 132 }

end Sys2Proof.Machine
end

