-- ==== Sys2Proof/Machine/Fabric.lean ====
section
/-! DEFINITION. The fabric between packages (R469 to R475, R478, R479). -/

namespace Sys2Proof.Machine

open Sys2Proof

def State.exitFlow (s : State) (f : Nat) : ExitFlow := mapGetD f ⟨0, [], [], s.clock, false⟩ s.exits
def State.setExit (s : State) (f : Nat) (x : ExitFlow) : State := { s with exits := mapSet f x s.exits }

/-- The port that the majority of the links that have reported name (R469); among equals the present number, then the lowest. -/
def State.majority (s : State) : Option Nat :=
  let ports := s.linkPort.map (·.2)
  let votes (p : Nat) : Nat := (ports.filter fun q => decide (q = p)).length
  let best := ports.foldl (fun a p => max a (votes p)) 0
  let tops := ascending (ports.filter fun p => decide (votes p = best))
  match s.pkg with
  | some p => if tops.contains p then some p else tops.head?
  | none => tops.head?

/-- A link's register once the majority is known: trained when its port agrees. -/
def State.trainLink (s : State) (m p peer : Nat) : State :=
  let w := mapGetD p 0 s.narrowed
  let up := decide (peer = m) && decide (w < 3)
  let r := s.reg (flnk p)
  s.setReg (flnk p) (bits r 63 48 * 2 ^ 48 + peer % 512 * 2 ^ 32 + (if up then w else 3) * 4 + (if up then 1 else 0))

/-- FABRIC_LINK_UP (R469): a link reports the switch port it is attached to; links that disagree with the majority stay untrained. -/
def execFabricLinkUp (link peer : Nat) (s : State) : Out :=
  if link ≥ 16 ∨ peer ≥ 288 then .next s
  else
    let s1 : State := { s with linkPort := mapSet link peer s.linkPort }
    match s1.majority with
    | none => .next s1
    | some m =>
      let s2 := s1.linkPort.foldl (fun (s : State) (l : Nat × Nat) => s.trainLink m l.1 l.2) s1
      let up := (List.range 16).any fun p => s2.linkUp p
      .next (s2.setReg 0x00C50000 ((if up then 2 ^ 63 else 0) + m))

/-- FABRIC_EXIT_SEND (R473, R474): the exit port numbers a packet, in the torus order of its source stop, and sends it to the port of a trained
plane. -/
def execFabricExitSend (packet plane : Nat) (s : State) : Out :=
  match mapGet? packet s.packets with
  | none => .next s
  | some p => match p.pkg with
    | none => .next s
    | some k =>
      let f := flowOf k p.cls.code
      let x := s.exitFlow f
      let first := !(s.packets.any fun q => decide (q.1 < packet ∧ q.2.src = p.src ∧ q.2.pkg = some k ∧ q.2.cls = p.cls))
      if p.loc = .exit ∧ first = true ∧ plane < 16 ∧ s.linkUp plane = true ∧ x.kept.length < 65536 then
        let asks : List Ret := match p.body with
          | .access r => if r.ret = .none then [] else [r.ret]
          | _ => []
        .next ((State.setExit { s with packets := mapDel packet s.packets } f
          { x with
            next := (x.next + 1) % 2 ^ 32, kept := x.kept ++ [(x.next, plane, p)], open_ := x.open_ ++ asks
            last := if x.kept.isEmpty then s.clock else x.last }).sendLeg f x.next plane p)
      else .next s

/-- FABRIC_ACK (R474): the entry port acknowledges a packet of the flow, which has left the package. -/
def execFabricAck (flow number : Nat) (s : State) : Out :=
  let x := s.exitFlow flow
  if (x.kept.any fun k => decide (k.1 = number)) = true ∧ s.legOut flow number = false then
    .next (s.setExit flow { x with kept := x.kept.filter (fun k => decide (k.1 ≠ number)), last := s.clock, reported := false })
  else .next s

/-- FABRIC_RESEND (R474): a packet that a dying link lost goes out again, under the same number, on another trained plane. -/
def execFabricResend (flow number plane : Nat) (s : State) : Out :=
  let x := s.exitFlow flow
  match x.kept.find? fun k => decide (k.1 = number) with
  | some (_, _, p) =>
    if plane < 16 ∧ s.linkUp plane = true ∧ s.legOut flow number = false then
      .next ((s.setExit flow { x with
        kept := x.kept.map fun k => if k.1 = number then (k.1, plane, k.2.2) else k }).sendLeg flow number plane p)
    else .next s
  | none => .next s

/-- The numbers released follow on. -/
def EntryFlow.advance (e : EntryFlow) : Nat → EntryFlow
  | 0 => e
  | n + 1 => if e.ahead.contains e.next then
      EntryFlow.advance { e with next := (e.next + 1) % 2 ^ 32, ahead := e.ahead.filter fun x => decide (x ≠ e.next) } n
    else e

/-- The stop of whoever waits for an answer. -/
def State.retStop (s : State) (ret : Ret) (dflt : Nat) : Nat :=
  match ret with
  | .part t _ _ _ => match mapGet? t s.teams with | some tm => coreStop (tm.core.getD dflt) | none => dflt
  | .flush c _ => coreStop c
  | .cmd id _ => match mapGet? id s.cmds with | some c => c.kind.stop c.die % 256 | none => dflt
  | _ => dflt

/-- What the entry port does with a released packet (R471 to R473): a request goes to the home of the window's line, or is refused;
an answer goes to whoever asked. -/
def State.releaseBody (s : State) (pkg : Nat) (body : Body) : State :=
  let stop := exitStop pkg
  match body with
  | .access r =>
    let ret : Ret := match r.ret with | .remote _ tok => .remote pkg tok | _ => .none
    let r1 : Req := { r with ret := ret, core := none, scope := 5, fill := false }
    match s.exported r1 pkg with
    | none => s.replyTo stop r1 [] 2 0 none 0
    | some r2 =>
      let h := s.homeOf r2.place
      let id := s.nextId
      let s1 := s.send .request stop h r2.place.key none (.access r2)
      if stop = h then s1.deliver id else s1
  | .reply ret words fail fl _ lines =>
    let drop (s : State) (c : Nat) : State :=
      let f := flowOf pkg c
      match mapGet? f s.exits with
      | some x => s.setExit f { x with open_ := removeFirst (fun o => decide (o = ret)) x.open_ }
      | none => s
    (drop (drop s 0) 3).reply .response stop (s.retStop ret stop) 0 (.reply ret words fail fl none lines)
  | _ => s

/-- FABRIC_ENTRY_RELEASE (R473): requests and bulk packets in flow order, answers as they arrive. -/
def execFabricEntryRelease (flow : Nat) (s : State) : Out :=
  let e := s.entryFlow flow
  let n? := if flow % 4 = 1 then (e.held.map (·.1)).head? else if (mapGet? e.next e.held).isSome then some e.next else none
  match n? with
  | none => .next s
  | some n => match mapGet? n e.held with
    | none => .next s
    | some p =>
      let e1 := EntryFlow.advance { e with held := mapDel n e.held, ahead := e.ahead ++ [n] } 65536
      .next (State.releaseBody { s with entries := mapSet flow e1 s.entries } (flow / 4) p.body)

/-- RTO_EXPIRY (R478): no packet of the flow has been acknowledged for RTO cycles. -/
def execRtoExpiry (flow : Nat) (s : State) : Out :=
  let x := s.exitFlow flow
  if x.kept ≠ [] ∧ x.reported = false ∧ s.clock ≥ x.last + bits (s.reg 0x00C50008) 31 0 then
    .next (postError (s.setExit flow { x with reported := true }) { kind := 0x0A, sev := 2, unit := 16, ctx := 0xFF, addr := 0, detail := flow / 4 })
  else .next s

/-- The accesses of a group that have not left for a dead package are lost (R479). -/
def Flight.loseTo (k : Nat) (f : Flight) : Flight :=
  { f with parts := f.parts.map fun p =>
      if p.req.tgt = .remote k ∧ p.st = .todo then { p with req := { p.req with tgt := .lost } } else p }
def Group.loseTo (k : Nat) (g : Group) : Group := { g with flights := g.flights.map (Flight.loseTo k) }

/-- FDEAD_DEAD (R479): every outstanding access to the package fails, and later ones do. -/
def execFdeadDead (package : Nat) (s : State) : Out :=
  if package ≥ 288 ∨ s.dead.contains package then .next s
  else
    let gone := s.packets.filter fun p => decide (p.2.bound = some package)
    let flows := (List.range 4).map fun c => flowOf package c
    let rets := (gone.filterMap fun p => match p.2.body with | .access r => some r.ret | _ => none)
      ++ flows.flatMap fun f => (s.exitFlow f).open_
    let s1 : State := { s with
      dead := s.dead ++ [package]
      packets := s.packets.filter fun p => decide (p.2.bound ≠ some package)
      exits := s.exits.filter fun x => !flows.contains x.1
      entries := s.entries.filter fun x => !flows.contains x.1
      teams := s.teams.map fun t => (t.1, { t.2 with groups := t.2.groups.map fun g => (g.1, g.2.loseTo package) }) }
    let s2 := rets.foldl (fun (s : State) r => s.answer_ r [] 1 0 none 0) s1
    .next ((s2.teams.filterMap fun t => t.2.core).eraseDups.foldl State.pumpCore s2)

/-- FDEAD_LIVE (R479): the declaration is revoked; its flows begin anew. -/
def execFdeadLive (package : Nat) (s : State) : Out :=
  .next { s with dead := s.dead.filter fun p => decide (p ≠ package) }

end Sys2Proof.Machine
end

