-- ==== Sys2Proof/Machine/Registers.lean ====
section
/-! DEFINITION. The register blocks of the functions: reads and writes (R6, R12, R213, R309, R326, R386, R387, R401, R405, R409, R411,
R417, R451 to R456, R465, R469, R471). -/

namespace Sys2Proof.Machine

open Sys2Proof

/-- The state after an event that always answers. -/
def outState (s : State) (o : Out) : State :=
  match o with
  | .next t => t
  | _ => s

/-- NETCTL of a stop (R326): the widths of the links, and TO. -/
def State.netctl (s : State) (i : Nat) : Nat :=
  let w (d : Nat) : Nat := (s.router i).lnkw.getD d 0
  (w 0 * 64 + w 1 * 16 + w 2 * 4 + w 3) * 2 ^ 16 + bits (s.reg (stopReg i 0x08)) 15 0

/-- SLTOT of a slice (R326). -/
def Slice.totals (sl : Slice) : Nat :=
  (sl.tags.filter fun t => t.2.n).length * 2 ^ 48 + (sl.tags.filter fun t => t.2.entry.isNone).length * 2 ^ 32
    + sl.entries.length * 2 ^ 16 + sl.tags.length

/-- A register of a stop's block (R326). -/
def State.readStop (s : State) (i off : Nat) : Nat :=
  let sl := s.slice i
  let r := s.router i
  if off = 0x00 then stopY i * 2 ^ 20 + stopX i * 2 ^ 16 + dieOf i * 2 ^ 8 + i
  else if off = 0x08 then s.netctl i
  else if off = 0x10 then r.fire * 2 ^ 32 + r.capt
  else if off = 0x18 then (if s.sliceRetired i then 0 else 4) + bits (s.reg (stopReg i 0x18)) 1 0
  else if off = 0x20 then sl.totals
  else if off = 0x28 then sl.hashmiss * 2 ^ 32 + sl.refuse
  else if off = 0x30 then sl.unshare * 2 ^ 32 + (sl.entries.filter fun e => decide (e.2.line.pois ≠ 0#32)).length * 2 ^ 16 + sl.corr
  else if off = 0x40 then sl.kcnt (bits (s.reg (stopReg i 0x38)) 11 0)
  else if off = 0x50 then mapGetD (64 * i + bits (s.reg (stopReg i 0x48)) 5 0) 0 s.granFlags
  else s.reg (stopReg i off)

/-- A register of a core's debug block (R213, R417). -/
def State.readCore (s : State) (c off : Nat) : Nat :=
  let k := s.core c
  if off = 0x00 then s.reg (coreReg c 0)
  else if off = 0x08 then
    (if s.teams.any fun t => decide (t.2.core = some c) && t.2.groups.any fun g => g.2.haltPending then 1 else 0)
  else if off = 0x18 then k.dbgData.toNat
  else if off = 0x20 then (if k.inovf then 2 ^ 16 else 0) + k.dbgIn.length * 2 ^ 8 + k.dbgOut.length
  else if off = 0x28 then k.uncorr * 2 ^ 32 + k.corr
  else 0

/-- A register of a queue (R401). -/
def State.readQueue (s : State) (q off : Nat) : Nat :=
  let k := s.queue q
  if off = 0x10 then k.rcnt * 2 ^ 32 + k.chip.length
  else if off = 0x18 then k.rtail * 2 ^ 32 + k.rhead
  else if off = 0x20 then k.pops * 2 ^ 32 + k.pushes
  else if off = 0x28 then k.spills * 2 ^ 32 + k.naks * 2 ^ 16 + (if k.err then 1 else 0)
  else s.reg (queueReg q off)

/-- Eight entries of a home table, the lowest in bits 7:0 (R309). -/
def tableWord (tbl : Map Nat) (base : Nat) : Nat :=
  ofBytes ((List.range 8).map fun i => BitVec.ofNat 8 (mapGetD (base + i) (base + i) tbl))

/-- A register of the physical function's block; DBGOUT apart, whose read is an event (R213). -/
def State.readPf (s : State) (off : Nat) : Nat :=
  if 0x00400000 ≤ off ∧ off < 0x00404000 then s.readCore ((off - 0x00400000) / 0x40) (off % 0x40)
  else if 0x00800000 ≤ off ∧ off < 0x00810000 then s.readStop ((off - 0x00800000) / 0x100) (off % 0x100)
  else if 0x00900000 ≤ off ∧ off < 0x00900100 then tableWord s.homeTbl (off - 0x00900000)
  else if 0x00900100 ≤ off ∧ off < 0x00900200 then tableWord s.dlTbl (off - 0x00900100)
  else if 0x00A00000 ≤ off ∧ off < 0x00A04000 then s.readQueue ((off - 0x00A00000) / 0x40) (off % 0x40)
  else if off = 0x00B00000 then s.clock % 2 ^ 64
  else if off = xinvc then (if s.inval.isSome then 2 ^ 63 else 0) + s.reg xinvc
  else if 0x00B30000 ≤ off ∧ off < 0x00B30100 ∧ off % 0x40 = 0x18 then s.faultsHeld ((off - 0x00B30000) / 0x40)
  else if 0x00C20000 ≤ off ∧ off < 0x00C20040 then 0
  else s.reg off

/-- The MSI-X table and the pending bits of a function (R455). -/
def State.readMsix (s : State) (fn off : Nat) : Nat :=
  if off = 0x2400 then (s.msixOf fn).pend.toNat
  else (mapGetD ((off - 0x2000) / 8) 0#64 (s.msixOf fn).table).toNat

/-- A register of a function's block (R12, R386, R387, R455). DESIGN CHOICE (log entry 66): an offset that is not a multiple of 8, or holds no
register, reads as 0. -/
def State.readReg (s : State) (fn off : Nat) : Nat :=
  if off % 8 ≠ 0 then 0
  else if off = 0 then s.reg 0
  else if 0x1000 ≤ off ∧ off < 0x1100 then s.reg (ctxReg fn (off - 0x1000))
  else if 0x2000 ≤ off ∧ off ≤ 0x2400 then s.readMsix fn off
  else if fn = 0 then s.readPf off
  else if off = 0x0800 then s.clock % 2 ^ 64
  else 0

/-- A write of a register of a core's block (R213, R417). -/
def State.writeCore (s : State) (c off : Nat) (value : Dword) : State :=
  let v := value.toNat
  if off = 0x00 then outState s (execDbgownWrite c value s)
  else if off = 0x08 then
    let s1 := if bit v 1 then outState s (execDbgctlClr c s) else s
    if bit v 0 then outState s1 (execDbgctlHalt c s1) else s1
  else if off = 0x18 then outState s (execDbginWrite c value s)
  else if off = 0x20 then (if bit v 16 then s.updCore c fun k => { k with inovf := false } else s)
  else if off = 0x28 then s.updCore c fun k => { k with uncorr := bits v 47 32, corr := bits v 31 0 }
  else s

/-- A write of a register of a stop's block (R326). -/
def State.writeStop (s : State) (i off : Nat) (value : Dword) : State :=
  let v := value.toNat
  if off = 0x08 then s.setReg (stopReg i 0x08) (max 64 (bits v 15 0))
  else if off = 0x10 then s.setRouter i { s.router i with fire := bits v 63 32, capt := bits v 31 0 }
  else if off = 0x18 then outState s (execDdmodeWrite i value s)
  else if off = 0x28 then s.updSlice i fun sl => { sl with hashmiss := bits v 63 32, refuse := bits v 31 0 }
  else if off = 0x30 then s.updSlice i fun sl => { sl with unshare := bits v 63 32, corr := bits v 15 0 }
  else if off = 0x38 then s.setReg (stopReg i 0x38) (bits v 11 0)
  else if off = 0x48 then s.setReg (stopReg i 0x48) (bits v 5 0)
  else if off = 0x50 then
    let k := 64 * i + bits (s.reg (stopReg i 0x48)) 5 0
    { s with granFlags := mapSet k ((mapGetD k 0 s.granFlags) &&& (0x3F - bits v 5 0)) s.granFlags }
  else s

/-- A write of a register of a queue (R401). -/
def State.writeQueue (s : State) (q off : Nat) (value : Dword) : State :=
  let v := value.toNat
  if off = 0x00 then outState s (execQcfgWrite q value s)
  else if off = 0x08 then (if s.queueOn q then s else s.setReg (queueReg q 8) (v / 4096 * 4096))
  else if off = 0x20 then s.updQueue q fun k => { k with pops := bits v 63 32, pushes := bits v 31 0 }
  else if off = 0x28 then s.updQueue q fun k => { k with spills := bits v 63 32, naks := bits v 31 16, err := k.err && !bit v 0 }
  else s

/-- A write of a context's block (R387, R405, R453, R455); through a virtual function the fields marked PF are not written. -/
def State.writeCtx (s : State) (t off : Nat) (value : Dword) (pf : Bool) : State :=
  let v := value.toNat
  let put (m : Nat) : State := s.setReg (ctxReg t off) (v &&& m)
  let old := s.reg (ctxReg t off)
  if off = 0x08 then put 0xFFFFFFFFFFFFF00F
  else if off = 0x10 then outState s (execTsubpTailWrite t value s)
  else if off = 0x18 then put 0xFFFFFFFFFFFFFFFF
  else if off = 0x28 then s.setReg (ctxReg t off) (setBits old 63 32 (bits v 63 32))
  else if off = 0x48 then put 0xFFFFFFFFFFFFFF00
  else if off = 0x50 then put 0xFFFF
  else if off = 0x58 then put 0xFFFFFFFFFFFFFFFF
  else if off = 0x78 then put 0x800000000000003F
  else if pf = false then s
  else if off = 0x00 then outState s (execTctlWrite t value s)
  else if off = 0x20 then (put 0xFFFFFFFFFFFFFFFF).budgetCheck t
  else if off = 0x30 then put 0x3FF01FF
  else if off = 0x38 then put 0xFFFFFFFFFFFFF
  else if off = 0x40 then put 0xFFFFFFFFFFFFFFFF
  else if off = 0x60 then put 0xFFFFFFFFFFFFF001
  else if off = 0x68 then put 0xFFF0FFF
  else if off = 0x70 then put 0xFFFFFFFFC000007F
  else s

/-- A write of a fault register of a die (R411, R412). -/
def State.writeDie (s : State) (d off : Nat) (value : Dword) : State :=
  let v := value.toNat
  if off = 0x00 then s.setReg (dieReg d 0) (v &&& 0xFFFFFFFFFFFFF00F)
  else if off = 0x08 then s.setReg (dieReg d 8) (setBits (s.reg (dieReg d 8)) 31 0 (bits v 31 0))
  else if off = 0x10 then
    (if bits v 63 62 = 1 then outState s (execFrespRetry d value s)
     else if bits v 63 62 = 2 then outState s (execFrespFatal d value s) else s)
  else s

/-- A write of FDEAD (R469). -/
def State.writeFdead (s : State) (v : Nat) : State :=
  let s1 := if bit v 63 then outState s (execFdeadDead (bits v 8 0) s) else s
  if bit v 62 then outState s1 (execFdeadLive (bits v 8 0) s1) else s1

/-- A write of KCMD (R451). -/
def State.writeKcmd (s : State) (value : Dword) : State :=
  if bits value.toNat 62 60 = 1 then outState s (execKcmdLoad value s)
  else if bits value.toNat 62 60 = 2 then outState s (execKcmdClear value s)
  else s.setReg kcmd (bits value.toNat 11 0)

/-- A write of the physical function's block; a register that is read-only, or not there, ignores it. DESIGN CHOICE (log entry 65): where a
register's description clamps its field to a range (PCAP, FCTL.RTO, NETCTL.TO), the field's bits are clamped and the reserved bits of the
written value are not looked at. -/
def State.writePf (s : State) (off : Nat) (value : Dword) : State :=
  let v := value.toNat
  if 0x00400000 ≤ off ∧ off < 0x00404000 then s.writeCore ((off - 0x00400000) / 0x40) (off % 0x40) value
  else if 0x00800000 ≤ off ∧ off < 0x00810000 then s.writeStop ((off - 0x00800000) / 0x100) (off % 0x100) value
  else if 0x00A00000 ≤ off ∧ off < 0x00A04000 then s.writeQueue ((off - 0x00A00000) / 0x40) (off % 0x40) value
  else if off = 0x00B00008 ∨ off = 0x00B00010 then s.setReg off (bits v 31 0)
  else if 0x00B10000 ≤ off ∧ off < 0x00B14000 then s.writeCtx ((off - 0x00B10000) / 0x100) (off % 0x100) value true
  else if off = xinva then s.setReg off (v &&& 0x1FFFFFFFFFFF000)
  else if off = xinvc then outState s (execXinvcWrite value s)
  else if 0x00B30000 ≤ off ∧ off < 0x00B30100 then s.writeDie ((off - 0x00B30000) / 0x40) (off % 0x40) value
  else if off = elogb then s.setReg off (v &&& 0xFFFFFFFFFFFFF00F)
  else if off = elogp then s.setReg off (setBits (s.reg off) 31 0 (bits v 31 0))
  else if off = estat then s.setReg off (s.reg off &&& (7 - bits v 2 0))
  else if off = hctl then s.setReg off (v &&& 0xFFFFFFFFFFFFFF00)
  else if 0x00C00000 ≤ off ∧ off < 0x00C01000 then outState s (execCommConfigWrite ((off - 0x00C00000) / 0x10) (off % 0x10 / 8) value s)
  else if 0x00C20000 ≤ off ∧ off < 0x00C20040 then s.setReg off v
  else if off = kcmd then s.writeKcmd value
  else if off = 0x00C30000 then s.setReg off v
  else if off = 0x00C40000 then s.setReg off (max 800 (min 1600 (bits v 15 0)))
  else if off = 0x00C50008 then s.setReg off (max 17000 (bits v 31 0))
  else if off = 0x00C50010 then s.writeFdead v
  else if 0x00C50100 ≤ off ∧ off < 0x00C50180 then s.setReg off (setBits (s.reg off) 63 48 (bits v 63 48))
  else if 0x00C51000 ≤ off ∧ off < 0x00C51400 then outState s (execExportWindowWrite ((off - 0x00C51000) / 0x10) (off % 0x10 / 8) value s)
  else if off = irqcfg then s.setReg off (v &&& 0xE0000000003F3F3F)
  else s

/-- A write of a function's block. -/
def State.writeReg (s : State) (fn off : Nat) (value : Dword) : State :=
  if off % 8 ≠ 0 ∨ fn ≥ 64 then s
  else if 0x1000 ≤ off ∧ off < 0x1100 then s.writeCtx fn (off - 0x1000) value (decide (fn = 0))
  else if 0x2000 ≤ off ∧ off < 0x2400 then s.writeMsix fn ((off - 0x2000) / 8) value
  else if fn = 0 then s.writePf off value
  else s

/-- REGISTER_WRITE (R6): software writes 64 bits of a register of a function's block. -/
def execRegisterWrite (fn offset : Nat) (value : Dword) (s : State) : Out := .next (s.writeReg fn offset value)

/-- A read by software: what it returns stands in `answer`; a read of DBGOUT removes a word (R213). -/
def State.hostRead (s : State) (fn off : Nat) : State :=
  if fn = 0 ∧ 0x00400000 ≤ off ∧ off < 0x00404000 ∧ off % 0x40 = 0x10 then
    outState s (execDbgoutRead ((off - 0x00400000) / 0x40) s)
  else { s with answer := toBytes (s.readReg fn off) 8 }

end Sys2Proof.Machine
end

