-- ==== Sys2Proof/Machine/Issue.lean ====
section
/-! DEFINITION. From a state to the next instruction or event: issue (R93, R174, R204), the selection of groups (R175), the passing of
clocks (R393), the environment's moves, and the order of events where the environment names none (log entry 14). `ex` stands for the
meaning of an instruction. -/

namespace Sys2Proof.Machine

open Sys2Proof

/-- What the issue of a group comes to. -/
inductive Prep where
  /-- The group does not issue. -/
  | no
  /-- A trap, or a fault that parks the group, before any instruction. -/
  | done (s : State)
  | run (i : Instr) (s : State)

/-- The lowest matching breakpoint (R204). -/
def Special.hit (sp : Special) (pc : Dword) : Option Nat :=
  (List.range 8).find? fun i =>
    let b := (sp.bpt.getD i 0#64).toNat
    bit b 0 && decide (bits b 56 2 = bits pc.toNat 56 2)

/-- active(F) of the instruction that a fetch delivered (R55). -/
def Fetched.active (d : Fetched) (g : Group) (f : Frag) : Mask :=
  match d with
  | .ok i _ => match i.split with
    | some (o, x) => if o.uniform then f.emask else guardV g x f.emask
    | none => f.emask
  | .bad _ _ gd => guardLanes g gd f.emask
  | _ => f.emask

/-- A trap that the group takes instead of an instruction. -/
def State.trapAt (s : State) (iss : Issuer) (pc : Dword) (act : Mask) (t : Trap) : State :=
  takeTrap { s with fresh := s.fresh + 1 } iss pc pc act t

/-- The next issue of a fragment that is ready: the debug-halt trap (R213), a trap that waits, the breakpoints (R204, R207), the fetch
(R93, R94, R410). -/
def State.prepFrag (s : State) (c : Nat) (iss : Issuer) (t : Team) (g : Group) (f : Frag) : Prep :=
  let put (s : State) (g : Group) : State := s.setGroup iss.team iss.gix g
  if g.haltPending then
    .done ((put s { g with haltPending := false }).trapAt iss f.pc f.emask { code := tcHalt })
  else match f.pendTrap with
  | some code =>
    .done ((put s (g.updFrag iss.entry fun f => { f with pendTrap := none })).trapAt iss f.pc f.emask { code := code })
  | none =>
    if badAddr f.pc then .done (s.trapAt iss f.pc f.emask { code := tcRange, addr := f.pc })
    else
      let (s1, d) := s.fetchInstr c t.cfg.ctx t.cfg.launch f.pc.toNat
      let bp := if g.handler.isSome || f.exempt then none else g.sp.hit f.pc
      match bp with
      | some i => .done (s.trapAt iss f.pc (d.active g f) { code := tcHwBreak, addr := BitVec.ofNat 64 i })
      | none => match d with
        | .wait => .no
        | .fault va w =>
          let die := dieOf (coreStop c)
          if s1.faultsFull die 1 then .no
          else
            let s2 := s1.updGroup iss.team iss.gix (Group.fetchFault f.pc)
            let s3 := s2.addFault die t.cfg.ctx va w 4 (coreStop c) (.fetch iss.team iss.gix iss.entry) 1
            .done (if g.inClause iss.entry then s3.interrupt iss.team iss.gix else s3)
        | .bad code barred gd =>
          .done (s1.trapAt iss f.pc (guardLanes g gd f.emask) { code := if barred && g.inClause iss.entry then tcIllegalInstr else code })
        | .ok i _ => .run i { s1 with cur := some iss }

/-- The issue of a group: its current fragment, after the end of its quantum (R67, R174). A group that is pre-empted, saved or parked
does not issue (R185, R410). -/
def State.prep (s : State) (tid gix : Nat) : Prep :=
  match s.group? tid gix with
  | none => .no
  | some (t, g0) => match t.core with
    | none => .no
    | some c =>
      if s.frozen t.with_ || s.parked tid gix then .no
      else
        let g1 := g0.settle s.clock
        let g := if g1.issued ≥ g1.quantum ∧ g1.clause.isNone then g1.rotate s.clock else g1
        let s0 := s.setGroup tid gix g
        match mapGet? g.cur g.frags with
        | none => .no
        | some f =>
          if !f.ready then .no
          else if f.pendTrap.isNone ∧ g.haltPending = false ∧ f.wait ≠ .none then .done (s0.goOn tid gix g.cur f)
          else s0.prepFrag c ⟨tid, gix, g.cur⟩ t g f

/-- The model's own marker of the issuer stands only while an instruction is executed. -/
def clearCur (o : Out) : Out :=
  match o with
  | .next s => .next { s with cur := none }
  | o => o

/-- The issue of a group. -/
def State.issue (ex : Instr → State → Out) (s : State) (tid gix : Nat) : Out :=
  match s.prep tid gix with
  | .no => .next s
  | .done s1 => .next s1
  | .run i s1 => clearCur (ex i s1)

/-- An attempt to issue: the pipe (true: vector), and the outcome; none where the instruction does not issue now (R105, R174, R184). -/
def State.attempt (ex : Instr → State → Out) (s : State) (tid gix : Nat) : Option (Bool × State) :=
  match s.prep tid gix with
  | .no => none
  | .done s1 => some (true, s1)
  | .run i s1 =>
    let lane := match i.split with | some (o, _) => !o.uniform | none => true
    match clearCur (ex i s1) with
    | .next s2 => if s2.fresh = s1.fresh then none else some (lane, s2)
    | _ => none

/-- A group of a port: team, group, its slot, the number of its clause if it is in one, starved, its class, its AGE. -/
structure Cand where
  team : Nat
  gix : Nat
  slot : Nat
  clause : Option Nat
  starved : Bool
  cls : Nat
  age : Nat

/-- Does group x go before group y on a pipe (R174, R175)? A clause goes first, and of two the one that began first. -/
def Cand.before (x y : Cand) : Bool :=
  let older := decide (x.age < y.age) || (decide (x.age = y.age) && decide (x.slot < y.slot))
  match x.clause, y.clause with
  | some a, some b => decide (a < b)
  | some _, none => true
  | none, some _ => false
  | none, none =>
    if x.starved != y.starved then x.starved
    else if x.starved then older
    else decide (x.cls > y.cls) || (decide (x.cls = y.cls) && older)

/-- The groups of a port of a core. -/
def State.portGroups (s : State) (c p : Nat) : List Cand :=
  (s.teamsOn c).flatMap fun t => t.2.groups.filterMap fun g =>
    if g.2.port = p then
      some ⟨t.1, g.1, g.2.slot, g.2.clause.map Clause.num, g.2.starved, bits (s.reg (ctxReg t.2.cfg.ctx 0)) 2 0, g.2.age⟩
    else none

/-- The pipe of the next member of a group's clause (true: vector), be it a candidate or not: bit 31 of its main word (R76). While a member
waits, the next one stands behind it. -/
def State.memberLane (s : State) (tid gix : Nat) : Option Bool :=
  match s.group? tid gix with
  | none => none
  | some (t, g) => match g.clause, t.core with
    | some cl, some c => match mapGet? cl.entry g.frags with
      | some f => match s.fetchWord c t.cfg.ctx t.cfg.launch (f.pc + BitVec.ofNat 64 f.wait.len).toNat with
        | (_, .ok w) => some (!bit w.toNat 31)
        | _ => none
      | none => none
    | _, _ => none

/-- Does a group take part in the selection of a pipe: in a clause when its next member is of the pipe's set, else when it is a candidate
(R174)? -/
def State.runsFor (ex : Instr → State → Out) (s : State) (lane : Bool) (x : Cand) : Bool :=
  if x.clause.isSome then s.memberLane x.team x.gix == some lane
  else match s.attempt ex x.team x.gix with
    | some (l, _) => l == lane
    | none => false

/-- The group that a port selects for a pipe (R174, R175). -/
def State.portPick (ex : Instr → State → Out) (s : State) (c p : Nat) (lane : Bool) : Option Cand :=
  match (s.portGroups c p).filter (s.runsFor ex lane) with
  | [] => none
  | x :: xs => some (xs.foldl (fun b y => if y.before b then y else b) x)

/-- A clock in which a group was a candidate for a pipe and was not selected, or was none (R175). -/
def Group.passed (lane cand : Bool) (g : Group) : Group :=
  let n := if cand then (if lane then g.unselected else g.unselectedU) + 1 else 0
  let g1 := { g with starved := g.starved || decide (n ≥ 4096) }
  if lane then { g1 with unselected := n } else { g1 with unselectedU := n }

/-- One clock of a pipe of a port (R174, R175): the group selected issues, if it can; the groups that were not have waited one clock more. -/
def State.portClock (ex : Instr → State → Out) (s : State) (c p : Nat) (lane : Bool) (skip : Option (Nat × Nat)) : State × Option (Nat × Nat) :=
  match s.portPick ex c p lane with
  | none => (s, none)
  | some best =>
    let issued : Option State :=
      if skip = some (best.team, best.gix) then none
      else match s.attempt ex best.team best.gix with
        | some (l, s1) => if l = lane then some s1 else none
        | none => none
    let cands := (s.portGroups c p).filter fun x => decide (x.team ≠ best.team ∨ x.gix ≠ best.gix)
    (cands.foldl (fun s1 x => s1.updGroup x.team x.gix (Group.passed lane (s.runsFor ex lane x))) (issued.getD s),
      issued.map fun _ => (best.team, best.gix))

/-- May the environment name a group for issue: does its port select it for its pipe (R174)? -/
def State.selected (ex : Instr → State → Out) (s : State) (tid gix : Nat) : Bool :=
  match s.group? tid gix with
  | none => false
  | some (t, g) => match t.core with
    | none => false
    | some c =>
      let others := (s.portGroups c g.port).filter fun x => decide (x.team ≠ tid ∨ x.gix ≠ gix)
      let self : Cand := ⟨tid, gix, g.slot, g.clause.map Clause.num, g.starved, bits (s.reg (ctxReg t.cfg.ctx 0)) 2 0, g.age⟩
      others.all fun x => !(x.before self && (match s.attempt ex tid gix with | some (l, _) => s.runsFor ex l x | none => false))

/-- One clock of a core: each port one instruction for each pipe, never both of one group (R174). -/
def State.coreClock (ex : Instr → State → Out) (s : State) (c : Nat) : State :=
  [0, 1, 2, 3].foldl (fun (s : State) p =>
    let (s1, g) := s.portClock ex c p true none
    (s1.portClock ex c p false g).1) s

/-- A clock passes (R5, R393); cores that retire leave the pool when their teams have left (R187). -/
def State.tick (s : State) : State :=
  (List.range Config.contexts).foldl State.account (State.coresLeft { s with clock := s.clock + 1 })
def State.ticks (s : State) : Nat → State
  | 0 => s
  | n + 1 => s.tick.ticks n

/-- A move of the environment (log entry 14). -/
def State.move (ex : Instr → State → Out) (s : State) (m : Move) : Out :=
  match m with
  | .event i => clearCur (ex i { s with cur := none })
  | .issue t g => if s.selected ex t g then s.issue ex t g else .next s
  | .corrected u => .next (s.correct u)
  | .tick n => .next (s.ticks n)
  | .hostStore pa bs => .next { s with hostMem := cellPuts pa bs s.hostMem }
  | .hostRefuse page => .next { s with hostBad := s.hostBad ++ [page] }
  | .fabricIn k cls n body plane => .next (s.fabricIn k cls n body plane)
  | .peer p => .next { s with peers := s.peers ++ [p] }
  | .readReg fn off => .next (s.hostRead fn off)

/-- The events of groups: returns, waits that end, arrivals, sequences, retirement. -/
def State.groupEvents (s : State) : List (State → Out) :=
  s.teams.flatMap fun t => t.2.groups.flatMap fun g =>
    ((List.range 7).map fun p => execAccessReturn t.1 g.1 p)
      ++ (g.2.frags.flatMap fun f => match f.2.wait with
        | .sleep _ _ => [execSleepExpiry t.1 g.1 f.1]
        | .arrive _ _ _ _ _ _ => [execBarrierArrival t.1 g.1 f.1]
        | .carrive _ _ _ _ _ _ => [execClusterBarrierArrival t.1 g.1 f.1]
        | .tile _ _ _ => [execMtileStep t.1 g.1]
        | _ => [])
      ++ [execGroupRetire t.1 g.1]

/-- The events of cores. -/
def State.coreEvents (s : State) : List (State → Out) :=
  s.cores.flatMap fun c =>
    [execScratchpadAccessServed c.1, execTurningStoreAccess c.1, execMatrixPass c.1, execMacroTileLoad c.1, execMwbWrite c.1
     , execTsldElementLand c.1 0, execBlendWalkerCopy c.1 0, execMeshGroupPlacement c.1, execPrimitiveSetup c.1, execPixelGroupCreate c.1
     , execRecall c.1]

/-- The events of the network, of the slices and of the banks. -/
def State.netEvents (s : State) : List (State → Out) :=
  (s.packets.flatMap fun p => match p.2.loc with
    | .net => (((s.outputs p.2).head?).map fun d => execPacketRoute p.1 d).toList ++ [execRouterTimeout p.1]
    | .arrived _ => [execHomeRequest p.2.dst, execRedPartialCombine p.2.dst, execGranaryBankOperation p.2.dst]
    | .exit => (((List.range 16).find? fun l => s.linkUp l).map fun l => execFabricExitSend p.1 l).toList
    | .lane => [execRecoveryPacketArrival])
    ++ (s.slices.flatMap fun sl => sl.2.fills.map fun f => execL2Fill sl.1 f.1)
    ++ (if s.lantern.carry.isNone && s.lantern.buf.isNone then [execLanternArrival ((s.lantern.at_ + 1) % 256)] else [])
    ++ (s.entries.map fun e => execFabricEntryRelease e.1) ++ s.exits.map fun e => execRtoExpiry e.1

/-- The events of the engines and of the front end. -/
def State.unitEvents (s : State) : List (State → Out) :=
  (s.cmds.flatMap fun c => [execEngineAccept c.1, execCopyExecute c.1, execEncodeFrame c.1, execCollectiveExecute c.1, execEngineCompletionWrite c.1])
    ++ ([0, 1, 2, 3].flatMap fun d =>
      [execSortPass d, execGatherRecordArrival d, execGatherDelayExpiry d, execFaultRecordPost d, execDvfsPeriod d])
    ++ (s.queues.map fun q => execQueueRefill q.1) ++ (s.counted.map fun b => execBucketCountedWrite b.1 b.2)
    ++ ((List.range Config.contexts).map fun t => execLaunchAccept t)
    ++ (s.launches.flatMap fun l => [execWorkingSetPrefetch l.1, execTaskInputCopiesDone l.1, execLaunchCompletion l.1])
    ++ (s.clusters.flatMap fun c => [execMinrunExpiry c.1, execPreemptCluster c.1])
    ++ (if (s.clock + 1) % 2 ^ 20 = 0 then s.slices.map fun sl => execDedupWindowExpiry sl.1 else [])
    ++ [execClusterPlacement 0, execInvalidationComplete, execHealthPeriodExpiry []]

/-- A cycle in which the environment names nothing (log entry 14): every event of the machine's own units that is enabled takes
place once, then each port issues, then a clock passes. -/
def State.cycle (ex : Instr → State → Out) (s : State) : State :=
  let evs := s.groupEvents ++ s.coreEvents ++ s.netEvents ++ s.unitEvents
  let s1 := evs.foldl (fun (s : State) e => outState s (e s)) s
  let s2 := (ascending (s1.teams.filterMap fun t => t.2.core).eraseDups).foldl (fun (s : State) c => s.coreClock ex c) s1
  s2.tick

/-- Is the move a reset? -/
def Move.resets (m : Move) : Bool := decide (m = .event .packageReset)

/-- One step: the next move of the environment, or a cycle. A package whose firmware was refused stays in reset until another (R467). -/
def State.stepWith (ex : Instr → State → Out) (s : State) : Out :=
  match s.schedule with
  | m :: ms => if s.inReset && !m.resets then .next { s with schedule := ms } else State.move ex { s with schedule := ms } m
  | [] => .next (if s.inReset then s else s.cycle ex)

/-- The first bytes of a line of HBM written as the host loads them, under key ID 0, with the copies of the line in the package gone. -/
def State.loadLine (s : State) (ln : Nat) (bs : List Byte) : State :=
  { s with
    hbm := cellPuts (128 * ln) bs s.hbm, hbmKey := mapSet ln [] s.hbmKey
    hbmPois := mapDel ln s.hbmPois, hbmErr := mapDel ln s.hbmErr
    slices := s.slices.map fun sl => (sl.1, { sl.2 with tags := mapDel ln sl.2.tags })
    cores := s.cores.map fun c => (c.1, { c.2 with l1 := mapDel ln c.2.l1 }) }

/-- The launch record of the loaded program: 240 registers, one group, 64 KiB of scratchpad, 63 barriers, 8 macros, 16 squares. -/
def loadRecord : List Byte :=
  toBytes 0x1000 8 ++ toBytes 0x2000 8 ++ toBytes 0 12 ++ toBytes 1 2 ++ toBytes 1 2 ++ toBytes 1 1 ++ toBytes 1 1 ++ toBytes 1 1 ++ toBytes 30 1
    ++ toBytes 65536 4 ++ toBytes 63 1 ++ toBytes 1 1 ++ toBytes 8 1 ++ toBytes 16 1 ++ toBytes 0 1 ++ toBytes 6 1 ++ toBytes 0xFF 1 ++ toBytes 0 1
    ++ toBytes 0x0706050403020100 8 ++ toBytes 0 200
def loadLaunch : Launch :=
  { ctx := 0, rcd := loadRecord, args := [], ext := [], rstate := [], deadline := 0, reason := 0, nextClu := 0, ended := 0, retired := 0
    status := 0, fetched := 0, phase := 2, copies := [], gathered := false, recs := [], flushes := [], dropped := 0, hiz := [] }

/-- The one-instruction program of `withFetchWord`: context 0 enabled, its page tables (a leaf of 4 GiB, identity, all permissions), the
bytes of the instruction at 0x1000, a launch of one group placed on core 0, and its issue as the next move (log entry 15). -/
def State.load (s : State) (code : List Byte) : State :=
  let lid := s.nextId
  let s1 := (((s.loadLine 0x240 (toBytes 0x871 8)).loadLine 0x220 (toBytes 0x12003 8)).loadLine 0x200 (toBytes 0x11003 8)).loadLine 0x20 code
  let s2 := ((s1.setReg (ctxReg 0 0) (2 ^ 63 + 0x10000)).setReg (ctxReg 0 0x60) 0x10001).setReg (ctxReg 0 0x68) 0x10000
  State.newCluster { s2 with
    inReset := false, tlb := [], faults := [], nextId := lid + 1, launches := mapSet lid loadLaunch s2.launches
    schedule := .issue (lid + 2) 0 :: s2.schedule } lid loadLaunch [0]

end Sys2Proof.Machine
end

