-- ==== Sys2Proof/Machine/LaneCross.lean ====
section
/-! DEFINITION. Meanings of the instructions across lanes (R162 to R169). -/

namespace Sys2Proof.Machine

open Sys2Proof

/-- The source lane of SHFL (R163): mode, segment size, lane, B. -/
def shflLane (mode size l b : Nat) : Nat :=
  let base := l - l % size
  match mode with
  | 0 => base + b % size
  | 1 => base + (l - base + size - b % size) % size
  | 2 => base + (l - base + b) % size
  | _ => l ^^^ (b % size)

/-- SHFL (R163). -/
def execShfl (x : Args) (s : State) : Out :=
  runG .shfl x s fun e =>
    let a := e.ia
    let b := e.ib
    let size := 32 >>> bits x.m 4 2
    let src (l : Nat) : Nat :=
      let j := shflLane (bits x.m 1 0) size l (laneAt b l).nat
      if inMask e.act j then j else l
    .ok (copyStep e (fun l => laneAt a (src l)) (fun l => (laneAt b l).pois), .seq)

/-- The lowest lane of a set, and the highest; 32 for none. -/
def lowLane (m : Mask) : Nat := (lanesOf m).headD 32
def highLane (m : Mask) : Nat := (lanesOf m).getLastD 32

/-- VOTE (R164). -/
def execVote (x : Args) (s : State) : Out :=
  runG .vote x s fun e =>
    let p := e.g.pred (fldIdx x.a)
    let set := p.val &&& e.act
    let cnt := popcount set.toNat 32
    let act := popcount e.act.toNat 32
    let v := match bits x.m 1 0 with
      | 0 => set.toNat
      | 1 => (if cnt ≠ 0 ∧ cnt ≠ act then 2 ^ 18 else 0) + (if cnt = act then 2 ^ 17 else 0)
          + (if cnt = 0 then 2 ^ 16 else 0) + act * 2 ^ 8 + cnt
      | 2 => lowLane set
      | _ => highLane set
    .ok (e.g.outU x.d (laneOut e 0 (decide (p.pois &&& e.act ≠ 0#32)) v), .seq)

/-- MATCH (R165). -/
def execMatchLanes (x : Args) (s : State) : Out :=
  runG .matchLanes x s fun e =>
    let w64 := bit x.m 1
    let lo := e.ia
    let hi := e.g.srcVHi .int x.a
    let v (l : Nat) : Nat := if w64 then pairNat (laneAt lo l) (laneAt hi l) else (laneAt lo l).nat
    let pois := (lanesOf e.act).any fun l => (laneAt lo l).pois || (w64 && (laneAt hi l).pois)
    let first := v (lowLane e.act)
    let same := maskOf fun l => inMask e.act l && decide (v l = first)
    let r := if e.act = 0#32 then 0#32
      else if bit x.m 0 then (if same = e.act then e.act else 0#32) else same
    .ok (e.g.outU x.d (laneOut e 0 pois r.toNat), .seq)

/-- The combining operations of R166: the value and the flags of one step. -/
def combine (op a b : Nat) : Nat × Nat :=
  match op with
  | 0 => ((a + b) % 2 ^ 32, 0)
  | 1 => fp32.add .rne 0 a b
  | 2 => (if sext a 32 ≤ sext b 32 then a else b, 0)
  | 3 => (if sext a 32 ≥ sext b 32 then a else b, 0)
  | 4 => (min a b, 0)
  | 5 => (max a b, 0)
  | 6 => fp32.minmax false a b
  | 7 => fp32.minmax true a b
  | 8 => (a &&& b, 0)
  | 9 => (a ||| b, 0)
  | 10 => (a ^^^ b, 0)
  | _ => (a, 0)

/-- The identities of R166. -/
def combineId (op : Nat) : Nat :=
  match op with
  | 1 => 0x80000000
  | 2 => 0x7FFFFFFF
  | 3 => 0x80000000
  | 4 => 0xFFFFFFFF
  | 6 => 0x7F800000
  | 7 => 0xFF800000
  | 8 => 0xFFFFFFFF
  | _ => 0

/-- A NaN among the floating results is delivered canonical (R166). -/
def canonOut (op v : Nat) : Nat :=
  if op = 1 ∨ op = 6 ∨ op = 7 then (match fp32.unpack v with | .nan _ => fp32.nan | _ => v) else v

/-- Two partial results combined: poison spreads, and a poisoned step sets no flag (R47, R166). -/
def combineR (op : Nat) (a b : LaneRes) : LaneRes :=
  let p := a.pois || b.pois
  let r := combine op a.val b.val
  ⟨if p then 0 else r.1, p, a.fl ||| b.fl ||| (if p then 0 else r.2)⟩

/-- The sequence of SCAN (R167): what each active lane receives, and the flags of the whole. -/
def scanSeq (op : Nat) (excl : Bool) (src : Nat → LaneRes) : List Nat → LaneRes → Map LaneRes × Nat
  | [], acc => ([], acc.fl)
  | l :: ls, acc =>
    let acc' := combineR op acc (src l)
    let (rest, fl) := scanSeq op excl src ls acc'
    ((l, if excl then acc else acc') :: rest, fl)

/-- SCAN (R167). -/
def execScan (x : Args) (s : State) : Out :=
  runG .scan x s fun e =>
    let op := bits x.m 3 0
    let a := if op = 1 ∨ op = 6 ∨ op = 7 then e.g.srcV .fp32 x.a else e.ia
    let src (l : Nat) : LaneRes := ⟨(laneAt a l).nat, (laneAt a l).pois, 0⟩
    let (rs, fl) := scanSeq op (bit x.m 4) src (lanesOf e.act) ⟨combineId op, false, 0⟩
    let out := lanesTab fun l => match mapGet? l rs with
      | some r => laneOut e l r.pois (canonOut op r.val)
      | none => Elem.zero
    .ok ((e.g.outV x.d e.act out).raise fl, .seq)

/-- The binary tree of R48 over 2^k positions from lo: an absent node passes its sibling up. -/
def tree (op : Nat) (src : Nat → Option LaneRes) : Nat → Nat → Option LaneRes
  | 0, lo => src lo
  | k + 1, lo =>
    match tree op src k lo, tree op src k (lo + 2 ^ k) with
    | some a, some b => some (combineR op a b)
    | some a, none => some a
    | none, b => b

/-- The first lane of the segment that lane l lies in (R168). -/
def segHead (heads : Mask) : Nat → Nat
  | 0 => 0
  | l + 1 => if inMask heads (l + 1) then l + 1 else segHead heads l

/-- SEGRED (R168). A poisoned head predicate poisons the segment of its lane and the one before it. -/
def execSegred (x : Args) (s : State) : Out :=
  runG .segred x s fun e =>
    let op := bits x.m 3 0
    let a := if op = 1 ∨ op = 6 ∨ op = 7 then e.g.srcV .fp32 x.a else e.ia
    let p := e.g.pred (fldIdx x.b)
    let heads := (p.val &&& e.act) ||| 1#32
    let hd : List Nat := (List.range 32).map (segHead heads)
    let headOf (l : Nat) : Nat := hd.getD l 0
    let bad (h : Nat) : Bool := (lanesOf (p.pois &&& e.act)).any fun l =>
      decide (headOf l = h) || decide (headOf (l - 1) = h)
    let segs : Map (Option LaneRes) := (lanesOf heads).map fun h =>
      (h, tree op (fun l => if inMask e.act l && decide (headOf l = h) then some ⟨(laneAt a l).nat, (laneAt a l).pois, 0⟩ else none) 5 0)
    let res (l : Nat) : LaneRes :=
      let h := headOf l
      let r := ((mapGet? h segs).getD none).getD ⟨0, false, 0⟩
      ⟨r.val, r.pois || bad h, r.fl⟩
    let fl := segs.foldl (fun f q => f ||| (match q.2 with | some r => if r.pois || bad q.1 then 0 else r.fl | none => 0)) 0
    let out := lanesTab fun l => if inMask e.act l then laneOut e l (res l).pois (canonOut op (res l).val) else Elem.zero
    .ok ((e.g.outV x.d e.act out).raise fl, .seq)

/-- VRD (R169). -/
def execVrd (x : Args) (s : State) : Out :=
  runG .vrd x s fun e =>
    let op := bits x.m 3 0
    let a := if op = 1 ∨ op = 6 ∨ op = 7 then e.g.srcV .fp32 x.a else e.ia
    if op = 11 then
      .ok (e.g.outU x.d (if e.act = 0#32 then Elem.zero else laneAt a (lowLane e.act)), .seq)
    else
      match tree op (fun l => if inMask e.act l then some ⟨(laneAt a l).nat, (laneAt a l).pois, 0⟩ else none) 5 0 with
      | none => .ok (e.g.outU x.d (elemOf (combineId op)), .seq)
      | some r => .ok ((e.g.outU x.d (laneOut e 0 r.pois (canonOut op r.val))).raise (if r.pois then 0 else r.fl), .seq)

end Sys2Proof.Machine
end

