-- ==== Sys2Proof/Machine/Dispatch.lean ====
section
/-! DEFINITION. One arm per constructor of Instr: the meaning of each instruction and of each step of the machine's units. -/

namespace Sys2Proof.Machine

open Sys2Proof

/-- What an instruction does in a state: one direct call of its meaning. -/
def exec (i : Instr) (s : State) : Host.Outcome State Fault Refusal :=
  match i with
  | .fadd x => Sys2Proof.Machine.execFadd x s
  | .fsub x => Sys2Proof.Machine.execFsub x s
  | .fmul x => Sys2Proof.Machine.execFmul x s
  | .ffma x => Sys2Proof.Machine.execFfma x s
  | .fmin x => Sys2Proof.Machine.execFmin x s
  | .fmax x => Sys2Proof.Machine.execFmax x s
  | .fcmp x => Sys2Proof.Machine.execFcmp x s
  | .frnd x => Sys2Proof.Machine.execFrnd x s
  | .ffrc x => Sys2Proof.Machine.execFfrc x s
  | .fclass x => Sys2Proof.Machine.execFclass x s
  | .frcp x => Sys2Proof.Machine.execFrcp x s
  | .frsq x => Sys2Proof.Machine.execFrsq x s
  | .fsqrt x => Sys2Proof.Machine.execFsqrt x s
  | .fexp2 x => Sys2Proof.Machine.execFexp2 x s
  | .flog2 x => Sys2Proof.Machine.execFlog2 x s
  | .fsin x => Sys2Proof.Machine.execFsin x s
  | .fcos x => Sys2Proof.Machine.execFcos x s
  | .fldexp x => Sys2Proof.Machine.execFldexp x s
  | .padd2 x => Sys2Proof.Machine.execPadd2 x s
  | .pmul2 x => Sys2Proof.Machine.execPmul2 x s
  | .pfma2 x => Sys2Proof.Machine.execPfma2 x s
  | .pmin2 x => Sys2Proof.Machine.execPmin2 x s
  | .pmax2 x => Sys2Proof.Machine.execPmax2 x s
  | .pdot2 x => Sys2Proof.Machine.execPdot2 x s
  | .iadd x => Sys2Proof.Machine.execIadd x s
  | .iaddc x => Sys2Proof.Machine.execIaddc x s
  | .isub x => Sys2Proof.Machine.execIsub x s
  | .isubb x => Sys2Proof.Machine.execIsubb x s
  | .imul x => Sys2Proof.Machine.execImul x s
  | .imulh x => Sys2Proof.Machine.execImulh x s
  | .imad x => Sys2Proof.Machine.execImad x s
  | .imin x => Sys2Proof.Machine.execImin x s
  | .imax x => Sys2Proof.Machine.execImax x s
  | .iabs x => Sys2Proof.Machine.execIabs x s
  | .and x => Sys2Proof.Machine.execAnd x s
  | .or x => Sys2Proof.Machine.execOr x s
  | .xor x => Sys2Proof.Machine.execXor x s
  | .not x => Sys2Proof.Machine.execNot x s
  | .shl x => Sys2Proof.Machine.execShl x s
  | .shr x => Sys2Proof.Machine.execShr x s
  | .sar x => Sys2Proof.Machine.execSar x s
  | .rotl x => Sys2Proof.Machine.execRotl x s
  | .bfe x => Sys2Proof.Machine.execBfe x s
  | .bfi x => Sys2Proof.Machine.execBfi x s
  | .popc x => Sys2Proof.Machine.execPopc x s
  | .clz x => Sys2Proof.Machine.execClz x s
  | .ctz x => Sys2Proof.Machine.execCtz x s
  | .brev x => Sys2Proof.Machine.execBrev x s
  | .icmp x => Sys2Proof.Machine.execIcmp x s
  | .sel x => Sys2Proof.Machine.execSel x s
  | .mov x => Sys2Proof.Machine.execMov x s
  | .prmt x => Sys2Proof.Machine.execPrmt x s
  | .cvt x => Sys2Proof.Machine.execCvt x s
  | .cvtpk x => Sys2Proof.Machine.execCvtpk x s
  | .sxpack x => Sys2Proof.Machine.execSxpack x s
  | .sxunpk x => Sys2Proof.Machine.execSxunpk x s
  | .plop x => Sys2Proof.Machine.execPlop x s
  | .shfl x => Sys2Proof.Machine.execShfl x s
  | .vote x => Sys2Proof.Machine.execVote x s
  | .matchLanes x => Sys2Proof.Machine.execMatchLanes x s
  | .scan x => Sys2Proof.Machine.execScan x s
  | .segred x => Sys2Proof.Machine.execSegred x s
  | .vrd x => Sys2Proof.Machine.execVrd x s
  | .pref x => Sys2Proof.Machine.execPref x s
  | .lds x => Sys2Proof.Machine.execLds x s
  | .sts x => Sys2Proof.Machine.execSts x s
  | .ats x => Sys2Proof.Machine.execAts x s
  | .tsrd x => Sys2Proof.Machine.execTsrd x s
  | .tswr x => Sys2Proof.Machine.execTswr x s
  | .mma x => Sys2Proof.Machine.execMma x s
  | .mmdual x => Sys2Proof.Machine.execMmdual x s
  | .macrd x => Sys2Proof.Machine.execMacrd x s
  | .mvert x => Sys2Proof.Machine.execMvert x s
  | .mprim x => Sys2Proof.Machine.execMprim x s
  | .sample x => Sys2Proof.Machine.execSample x s
  | .samplel x => Sys2Proof.Machine.execSamplel x s
  | .sampleg x => Sys2Proof.Machine.execSampleg x s
  | .txq x => Sys2Proof.Machine.execTxq x s
  | .pxout x => Sys2Proof.Machine.execPxout x s
  | .discard x => Sys2Proof.Machine.execDiscard x s
  | .depthw x => Sys2Proof.Machine.execDepthw x s
  | .splatkey x => Sys2Proof.Machine.execSplatkey x s
  | .conic x => Sys2Proof.Machine.execConic x s
  | .blend x => Sys2Proof.Machine.execBlend x s
  | .blendStage x => Sys2Proof.Machine.execBlendStage x s
  | .blendb x => Sys2Proof.Machine.execBlendb x s
  | .voxkey x => Sys2Proof.Machine.execVoxkey x s
  | .rigx x => Sys2Proof.Machine.execRigx x s
  | .ldc x => Sys2Proof.Machine.execLdc x s
  | .stc x => Sys2Proof.Machine.execStc x s
  | .atc x => Sys2Proof.Machine.execAtc x s
  | .stm x => Sys2Proof.Machine.execStm x s
  | .ld x => Sys2Proof.Machine.execLd x s
  | .st x => Sys2Proof.Machine.execSt x s
  | .atom x => Sys2Proof.Machine.execAtom x s
  | .red x => Sys2Proof.Machine.execRed x s
  | .gld x => Sys2Proof.Machine.execGld x s
  | .gst x => Sys2Proof.Machine.execGst x s
  | .gop x => Sys2Proof.Machine.execGop x s
  | .emitc x => Sys2Proof.Machine.execEmitc x s
  | .nop x => Sys2Proof.Machine.execNop x s
  | .bra x => Sys2Proof.Machine.execBra x s
  | .bru x => Sys2Proof.Machine.execBru x s
  | .brv x => Sys2Proof.Machine.execBrv x s
  | .brx x => Sys2Proof.Machine.execBrx x s
  | .call x => Sys2Proof.Machine.execCall x s
  | .callx x => Sys2Proof.Machine.execCallx x s
  | .ret x => Sys2Proof.Machine.execRet x s
  | .exit x => Sys2Proof.Machine.execExit x s
  | .yield x => Sys2Proof.Machine.execYield x s
  | .loop x => Sys2Proof.Machine.execLoop x s
  | .loopbrk x => Sys2Proof.Machine.execLoopbrk x s
  | .clause x => Sys2Proof.Machine.execClause x s
  | .uadd x => Sys2Proof.Machine.execUadd x s
  | .usub x => Sys2Proof.Machine.execUsub x s
  | .umul x => Sys2Proof.Machine.execUmul x s
  | .umulh x => Sys2Proof.Machine.execUmulh x s
  | .umad x => Sys2Proof.Machine.execUmad x s
  | .uand x => Sys2Proof.Machine.execUand x s
  | .uor x => Sys2Proof.Machine.execUor x s
  | .uxor x => Sys2Proof.Machine.execUxor x s
  | .ushl x => Sys2Proof.Machine.execUshl x s
  | .ushr x => Sys2Proof.Machine.execUshr x s
  | .usar x => Sys2Proof.Machine.execUsar x s
  | .umin x => Sys2Proof.Machine.execUmin x s
  | .umax x => Sys2Proof.Machine.execUmax x s
  | .ucmp x => Sys2Proof.Machine.execUcmp x s
  | .usel x => Sys2Proof.Machine.execUsel x s
  | .umov x => Sys2Proof.Machine.execUmov x s
  | .uli x => Sys2Proof.Machine.execUli x s
  | .upopc x => Sys2Proof.Machine.execUpopc x s
  | .uclz x => Sys2Proof.Machine.execUclz x s
  | .emr x => Sys2Proof.Machine.execEmr x s
  | .emw x => Sys2Proof.Machine.execEmw x s
  | .emand x => Sys2Proof.Machine.execEmand x s
  | .uldk x => Sys2Proof.Machine.execUldk x s
  | .srr x => Sys2Proof.Machine.execSrr x s
  | .srw x => Sys2Proof.Machine.execSrw x s
  | .trap x => Sys2Proof.Machine.execTrap x s
  | .rte x => Sys2Proof.Machine.execRte x s
  | .brk x => Sys2Proof.Machine.execBrk x s
  | .sleep x => Sys2Proof.Machine.execSleep x s
  | .flags x => Sys2Proof.Machine.execFlags x s
  | .waitc x => Sys2Proof.Machine.execWaitc x s
  | .shld x => Sys2Proof.Machine.execShld x s
  | .shst x => Sys2Proof.Machine.execShst x s
  | .shset x => Sys2Proof.Machine.execShset x s
  | .shget x => Sys2Proof.Machine.execShget x s
  | .fsq x => Sys2Proof.Machine.execFsq x s
  | .barInit x => Sys2Proof.Machine.execBarInit x s
  | .barArv x => Sys2Proof.Machine.execBarArv x s
  | .barWt x => Sys2Proof.Machine.execBarWt x s
  | .barTry x => Sys2Proof.Machine.execBarTry x s
  | .barInv x => Sys2Proof.Machine.execBarInv x s
  | .dbgmSend x => Sys2Proof.Machine.execDbgmSend x s
  | .dbgmRecv x => Sys2Proof.Machine.execDbgmRecv x s
  | .dbgmStat x => Sys2Proof.Machine.execDbgmStat x s
  | .dbgmFown x => Sys2Proof.Machine.execDbgmFown x s
  | .dbgmFmask x => Sys2Proof.Machine.execDbgmFmask x s
  | .dbgmFpc x => Sys2Proof.Machine.execDbgmFpc x s
  | .dbgmFinfo x => Sys2Proof.Machine.execDbgmFinfo x s
  | .dbgmJmask x => Sys2Proof.Machine.execDbgmJmask x s
  | .tsld x => Sys2Proof.Machine.execTsld x s
  | .mbld x => Sys2Proof.Machine.execMbld x s
  | .mbgth x => Sys2Proof.Machine.execMbgth x s
  | .mtile x => Sys2Proof.Machine.execMtile x s
  | .mwb x => Sys2Proof.Machine.execMwb x s
  | .temit x => Sys2Proof.Machine.execTemit x s
  | .msetup x => Sys2Proof.Machine.execMsetup x s
  | .mdone x => Sys2Proof.Machine.execMdone x s
  | .cbarArv x => Sys2Proof.Machine.execCbarArv x s
  | .cbarWt x => Sys2Proof.Machine.execCbarWt x s
  | .fence x => Sys2Proof.Machine.execFence x s
  | .cctlPin x => Sys2Proof.Machine.execCctlPin x s
  | .cctlUnpin x => Sys2Proof.Machine.execCctlUnpin x s
  | .cctlDiscard x => Sys2Proof.Machine.execCctlDiscard x s
  | .cctlClean x => Sys2Proof.Machine.execCctlClean x s
  | .cctlQuery x => Sys2Proof.Machine.execCctlQuery x s
  | .gupd x => Sys2Proof.Machine.execGupd x s
  | .copy x => Sys2Proof.Machine.execCopy x s
  | .sort x => Sys2Proof.Machine.execSort x s
  | .qpush x => Sys2Proof.Machine.execQpush x s
  | .qpop x => Sys2Proof.Machine.execQpop x s
  | .launch x => Sys2Proof.Machine.execLaunch x s
  | .encsub x => Sys2Proof.Machine.execEncsub x s
  | .coll x => Sys2Proof.Machine.execColl x s
  | .bkset x => Sys2Proof.Machine.execBkset x s
  | .bkq x => Sys2Proof.Machine.execBkq x s
  | .fragqQuantumExpiry team gix => Sys2Proof.Machine.execFragqQuantumExpiry team gix s
  | .starvationTimeout team gix => Sys2Proof.Machine.execStarvationTimeout team gix s
  | .sleepExpiry team gix entry => Sys2Proof.Machine.execSleepExpiry team gix entry s
  | .accessReturn team gix path => Sys2Proof.Machine.execAccessReturn team gix path s
  | .scratchpadAccessServed core => Sys2Proof.Machine.execScratchpadAccessServed core s
  | .barrierArrival team gix entry => Sys2Proof.Machine.execBarrierArrival team gix entry s
  | .clusterBarrierArrival team gix entry => Sys2Proof.Machine.execClusterBarrierArrival team gix entry s
  | .groupRetire team gix => Sys2Proof.Machine.execGroupRetire team gix s
  | .matrixPass core => Sys2Proof.Machine.execMatrixPass core s
  | .macroTileLoad core => Sys2Proof.Machine.execMacroTileLoad core s
  | .mwbWrite core => Sys2Proof.Machine.execMwbWrite core s
  | .tsldElementLand core pick => Sys2Proof.Machine.execTsldElementLand core pick s
  | .turningStoreAccess core => Sys2Proof.Machine.execTurningStoreAccess core s
  | .mtileStep team gix => Sys2Proof.Machine.execMtileStep team gix s
  | .meshGroupPlacement core => Sys2Proof.Machine.execMeshGroupPlacement core s
  | .primitiveSetup core => Sys2Proof.Machine.execPrimitiveSetup core s
  | .pixelGroupCreate core => Sys2Proof.Machine.execPixelGroupCreate core s
  | .blendWalkerCopy core pick => Sys2Proof.Machine.execBlendWalkerCopy core pick s
  | .engineAccept cmd => Sys2Proof.Machine.execEngineAccept cmd s
  | .copyExecute cmd => Sys2Proof.Machine.execCopyExecute cmd s
  | .sortPass die => Sys2Proof.Machine.execSortPass die s
  | .encodeFrame cmd => Sys2Proof.Machine.execEncodeFrame cmd s
  | .collectiveExecute cmd => Sys2Proof.Machine.execCollectiveExecute cmd s
  | .engineCompletionWrite cmd => Sys2Proof.Machine.execEngineCompletionWrite cmd s
  | .gatherRecordArrival die => Sys2Proof.Machine.execGatherRecordArrival die s
  | .gatherDelayExpiry die => Sys2Proof.Machine.execGatherDelayExpiry die s
  | .queueRefill queue => Sys2Proof.Machine.execQueueRefill queue s
  | .qcfgWrite queue value => Sys2Proof.Machine.execQcfgWrite queue value s
  | .tsubpTailWrite ctx value => Sys2Proof.Machine.execTsubpTailWrite ctx value s
  | .launchAccept ctx => Sys2Proof.Machine.execLaunchAccept ctx s
  | .workingSetPrefetch launch => Sys2Proof.Machine.execWorkingSetPrefetch launch s
  | .clusterPlacement pick => Sys2Proof.Machine.execClusterPlacement pick s
  | .preemptCluster cluster => Sys2Proof.Machine.execPreemptCluster cluster s
  | .budgetPeriodReset ctx => Sys2Proof.Machine.execBudgetPeriodReset ctx s
  | .launchCompletion launch => Sys2Proof.Machine.execLaunchCompletion launch s
  | .taskInputCopiesDone launch => Sys2Proof.Machine.execTaskInputCopiesDone launch s
  | .msixUnmask fn vec => Sys2Proof.Machine.execMsixUnmask fn vec s
  | .homeRequest slice => Sys2Proof.Machine.execHomeRequest slice s
  | .l2Fill slice line => Sys2Proof.Machine.execL2Fill slice line s
  | .recall core => Sys2Proof.Machine.execRecall core s
  | .redPartialCombine slice => Sys2Proof.Machine.execRedPartialCombine slice s
  | .granaryBankOperation bank => Sys2Proof.Machine.execGranaryBankOperation bank s
  | .packetRoute packet dir => Sys2Proof.Machine.execPacketRoute packet dir s
  | .routerTimeout packet => Sys2Proof.Machine.execRouterTimeout packet s
  | .lanternArrival stop => Sys2Proof.Machine.execLanternArrival stop s
  | .recoveryPacketArrival => Sys2Proof.Machine.execRecoveryPacketArrival s
  | .l2Scrub slice entry => Sys2Proof.Machine.execL2Scrub slice entry s
  | .dedupWindowExpiry slice => Sys2Proof.Machine.execDedupWindowExpiry slice s
  | .dvfsPeriod die => Sys2Proof.Machine.execDvfsPeriod die s
  | .faultRecordPost die => Sys2Proof.Machine.execFaultRecordPost die s
  | .frespRetry die value => Sys2Proof.Machine.execFrespRetry die value s
  | .frespFatal die value => Sys2Proof.Machine.execFrespFatal die value s
  | .xinvcWrite value => Sys2Proof.Machine.execXinvcWrite value s
  | .invalidationComplete => Sys2Proof.Machine.execInvalidationComplete s
  | .uncorrectableError site => Sys2Proof.Machine.execUncorrectableError site s
  | .healthPeriodExpiry failing => Sys2Proof.Machine.execHealthPeriodExpiry failing s
  | .linkFailure stop dir => Sys2Proof.Machine.execLinkFailure stop dir s
  | .kcmdLoad value => Sys2Proof.Machine.execKcmdLoad value s
  | .kcmdClear value => Sys2Proof.Machine.execKcmdClear value s
  | .bar2HostAccess access => Sys2Proof.Machine.execBar2HostAccess access s
  | .dbgownWrite core value => Sys2Proof.Machine.execDbgownWrite core value s
  | .dbgctlClr core => Sys2Proof.Machine.execDbgctlClr core s
  | .dbgctlHalt core => Sys2Proof.Machine.execDbgctlHalt core s
  | .dbgoutRead core => Sys2Proof.Machine.execDbgoutRead core s
  | .dbginWrite core value => Sys2Proof.Machine.execDbginWrite core value s
  | .tctlWrite ctx value => Sys2Proof.Machine.execTctlWrite ctx value s
  | .ddmodeWrite stop value => Sys2Proof.Machine.execDdmodeWrite stop value s
  | .commConfigWrite comm word value => Sys2Proof.Machine.execCommConfigWrite comm word value s
  | .exportWindowWrite window word value => Sys2Proof.Machine.execExportWindowWrite window word value s
  | .bucketCountedWrite bucket bytes => Sys2Proof.Machine.execBucketCountedWrite bucket bytes s
  | .fabricLinkUp link peer => Sys2Proof.Machine.execFabricLinkUp link peer s
  | .hostLinkTraining port width rate => Sys2Proof.Machine.execHostLinkTraining port width rate s
  | .fabricExitSend packet plane => Sys2Proof.Machine.execFabricExitSend packet plane s
  | .fabricEntryRelease flow => Sys2Proof.Machine.execFabricEntryRelease flow s
  | .fabricAck flow number => Sys2Proof.Machine.execFabricAck flow number s
  | .fabricResend flow number plane => Sys2Proof.Machine.execFabricResend flow number plane s
  | .rtoExpiry flow => Sys2Proof.Machine.execRtoExpiry flow s
  | .fdeadDead package => Sys2Proof.Machine.execFdeadDead package s
  | .fdeadLive package => Sys2Proof.Machine.execFdeadLive package s
  | .packageReset => Sys2Proof.Machine.execPackageReset s
  | .attestationReport nonce => Sys2Proof.Machine.execAttestationReport nonce s
  | .registerWrite fn offset value => Sys2Proof.Machine.execRegisterWrite fn offset value s
  | .minrunExpiry cluster => Sys2Proof.Machine.execMinrunExpiry cluster s
  | .budgetSpent ctx => Sys2Proof.Machine.execBudgetSpent ctx s
  | .linkRecalibration link => Sys2Proof.Machine.execLinkRecalibration link s

end Sys2Proof.Machine
end

