-- ==== Sys2Proof/Machine/Step.lean ====
section
/-! DEFINITION. One step of the machine. -/

namespace Sys2Proof.Machine

open Sys2Proof

/-- One step: the environment's next move, an instruction's issue among them, or a cycle when none is named (log entry 14). -/
def step (s : State) : Host.Outcome State Fault Refusal := s.stepWith exec

/-- The state with one instruction loaded as a program and its issue as the next move (log entry 15). -/
def State.withFetchWord (s : State) (nbits w : Nat) : State := s.load (toBytes (w % 2 ^ nbits) 12)

end Sys2Proof.Machine
end

