-- ==== Sys2Proof/Safety.lean ====
section
/-! DEFINITION. The terms in which claims about the machine are made: canonical memories, an instruction that issues, what it leaves
alone, and where its fragment goes. -/

namespace Sys2Proof.Machine

open Sys2Proof

/-- Every memory of a team is in its canonical form: scratchpad and turning store list no zero. -/
def Team.memWf (t : Team) : Bool := zeroWf t.scratch && zeroWf t.mx.ts

/-- Every memory of the machine is in its canonical form: HBM, host memory, the Granary, and the stores of every team. -/
def State.memWf (s : State) : Bool :=
  cellsWf s.hbm && cellsWf s.hostMem && cellsWf s.granary && s.teams.all fun t => t.2.memWf

/-- The fragment f of group g of team t is the one that `State.cur` names. -/
structure Issuing (s : State) (iss : Issuer) (t : Team) (g : Group) (f : Frag) : Prop where
  cur : s.cur = some iss
  team : mapGet? iss.team s.teams = some t
  group : mapGet? iss.gix t.groups = some g
  frag : mapGet? iss.entry g.frags = some f

/-- active(F) of R55 for an instruction of the fragment. -/
def activeOf (o : Op) (x : Args) (g : Group) (f : Frag) : Mask := if o.uniform then f.emask else guardV g x f.emask

/-- The instruction is of the uniform set, and a poisoned q bit guards it: its results are poisoned (R106). -/
def guardBad (o : Op) (x : Args) (g : Group) : Bool := o.uniform && (guardU g x).2

/-- The fragment issues the instruction: its team is on a core, the fragment is ready (R63), the operands are legal (R50, R57, R93), the
instruction may stand where it stands (R69), no register it names awaits a return (R105), its group is not parked by a fault (R410), and its guard
lets it act (R55, R106). -/
structure Issues (o : Op) (x : Args) (s : State) (iss : Issuer) (t : Team) (g : Group) (f : Frag) : Prop
    extends Issuing s iss t g f where
  placed : t.core.isSome = true
  ready : f.ready = true
  steady : f.wait = .none
  walked : s.parked iss.team iss.gix = false
  allowed : (g.inClause iss.entry && o.barred) = false
  legal : operandsLegal o x g t.cfg (g.inClause iss.entry) = true
  clauseEnd : clauseEndOk g f iss.entry f.pc = true
  clear : g.pending o x t.cfg.fs iss.entry = false
  guard : o.uniform = true → (guardU g x).1 = false
  branch : isBranch o = true → guardBad o x g = false

/-- The address after the instruction, and the address it leads to when it does not branch: the loop step of R62. -/
def nextOf (x : Args) (f : Frag) : Dword := f.pc + BitVec.ofNat 64 x.bytes
def afterOf (x : Args) (f : Frag) : Dword := (loopStep f f.pc (nextOf x f)).2

/-- What the meaning of an instruction is given when it issues. -/
def envOf (o : Op) (x : Args) (s : State) (iss : Issuer) (t : Team) (g : Group) (f : Frag) : Env :=
  ⟨iss, o, x, t.cfg, g, f.pc, nextOf x f, activeOf o x g f, guardBad o x g, s.fresh, s.clock⟩

/-- Only the group of the issuer differs, and the model's counter of free values: memory, cores, engines, the network and every other
group are as they were; the team keeps its scratchpad, barriers and matrix state. The group is h afterwards. -/
structure OnlyGroup (s s' : State) (iss : Issuer) (h : Group) : Prop where
  rest : s' = { s with teams := s'.teams, fresh := s'.fresh }
  teams : ∀ k, k ≠ iss.team → mapGet? k s'.teams = mapGet? k s.teams
  team : ∃ t t', mapGet? iss.team s.teams = some t ∧ mapGet? iss.team s'.teams = some t' ∧
    t' = { t with groups := t'.groups } ∧ (∀ k, k ≠ iss.gix → mapGet? k t'.groups = mapGet? k t.groups) ∧
    mapGet? iss.gix t'.groups = some h

/-- Parts of a group that an instruction leaves alone: lane registers and latches; uniform registers, latches and q; predicates; shape
registers; counters, accesses and the failure record; special registers. -/
structure SameLane (g h : Group) : Prop where
  v : h.v = g.v
  bl : h.bl = g.bl
structure SameUniform (g h : Group) : Prop where
  s : h.s = g.s
  sl : h.sl = g.sl
structure SameQ (g h : Group) : Prop where
  q : h.q = g.q
  qPois : h.qPois = g.qPois
structure SameAccesses (g h : Group) : Prop where
  cnt : h.cnt = g.cnt
  fail : h.fail = g.fail
  flights : h.flights.map (·.id) = g.flights.map (·.id)
  kind : h.kind = g.kind
  port : h.port = g.port

/-- The instruction completes in its group alone: `exec` answers a next state in which the group h has the property P, and, where the
fragment has no join, its program counter is `dest`. -/
def Completes (i : Instr) (s : State) (iss : Issuer) (f : Frag) (dest : Dword) (P : Group → Prop) : Prop :=
  ∃ s' h, exec i s = .next s' ∧ OnlyGroup s s' iss h ∧ P h ∧
    (f.jtop = none → ∃ f', mapGet? iss.entry h.frags = some f' ∧ f'.pc = dest)

/-- An element holds a value, or is poisoned where the value is none (R47, R71). -/
def Elem.holds (e : Elem) (r : Option Nat) : Prop :=
  match r with
  | some v => e = ⟨BitVec.ofNat 32 v, false⟩
  | none => e.pois = true

/-- A 32-bit lane result reaches D and the youngest latch (R56, R131): in the active lanes the result, in the others the old element of D
and zero in the latch. -/
structure LaneWrote (g h : Group) (d : Fld) (act : Mask) (r : Nat → Option Nat) : Prop where
  written : ∀ n, d = .v n → ∀ l, l < 32 →
    if inMask act l then (laneAt (h.vreg n.toNat) l).holds (r l) else laneAt (h.vreg n.toNat) l = laneAt (g.vreg n.toNat) l
  others : ∀ k, (∀ n, d = .v n → n.toNat ≠ k) → h.vreg k = g.vreg k
  latch : ∃ la, h.bl = some la :: g.bl.take 3 ∧ ∀ l, l < 32 →
    if inMask act l then (laneAt la.lo l).holds (r l) else laneAt la.lo l = Elem.zero

/-- A 64-bit lane result reaches the pair D and one latch (R56); `lo` and `hi` are its words. -/
structure LaneWrote2 (g h : Group) (d : Fld) (act : Mask) (lo hi : Nat → Option Nat) : Prop where
  written : ∀ n, d = .v n → ∀ l, l < 32 →
    if inMask act l then (laneAt (h.vreg n.toNat) l).holds (lo l) ∧ (laneAt (h.vreg (n.toNat + 1)) l).holds (hi l)
    else laneAt (h.vreg n.toNat) l = laneAt (g.vreg n.toNat) l ∧ laneAt (h.vreg (n.toNat + 1)) l = laneAt (g.vreg (n.toNat + 1)) l
  others : ∀ k, (∀ n, d = .v n → n.toNat ≠ k ∧ n.toNat + 1 ≠ k) → h.vreg k = g.vreg k
  latch : ∃ la, h.bl = some la :: g.bl.take 3 ∧ ∀ l, l < 32 →
    if inMask act l then (laneAt la.lo l).holds (lo l) ∧ (laneAt la.hi l).holds (hi l)
    else laneAt la.lo l = Elem.zero ∧ laneAt la.hi l = Elem.zero

/-- Predicate i takes a truth value in the active lanes, poisoned where it is none; the other lanes and predicates keep theirs (R53, R71). -/
def PredWrote (g h : Group) (i : Nat) (act : Mask) (r : Nat → Option Bool) : Prop :=
  ∃ q : Pred, h.p = listSet i q g.p ∧ ∀ l, l < 32 →
    if inMask act l then
      (match r l with
       | some b => inMask q.val l = b ∧ inMask q.pois l = false
       | none => inMask q.pois l = true)
    else inMask q.val l = inMask (g.pred i).val l ∧ inMask q.pois l = inMask (g.pred i).pois l

/-- What a lane instruction leaves alone beside its lane results and the flags: uniform registers, shape registers, q, counters. -/
structure LaneFrame (g h : Group) : Prop where
  uniform : SameUniform g h
  q : SameQ g h
  sh : h.sh = g.sh
  acc : SameAccesses g h

/-- What a uniform instruction leaves alone beside uniform registers and q: the lane state, predicates, shape registers, counters. -/
structure UniformFrame (g h : Group) : Prop where
  lane : SameLane g h
  p : h.p = g.p
  sh : h.sh = g.sh
  acc : SameAccesses g h

/-- Flags of the lanes of a set, together (R46). -/
def unionFlags (m : Mask) (fl : Nat → Nat) : Nat := (lanesOf m).foldl (fun a l => a ||| fl l) 0

/-- The special registers change in FLAGS, which gains bits, and in RNGSTATE, which takes 64 steps when the instruction drew (R40, R46). -/
def SpecialAfter (g h : Group) (fl : Nat) (drew : Bool) : Prop :=
  h.sp = { g.sp with
    flags := g.sp.flags ||| BitVec.ofNat 32 (fl % 64)
    rngstate := if drew then BitVec.ofNat 64 (lfsr g.sp.rngstate.toNat 64) else g.sp.rngstate }

/-- A uniform result of 32 bits reaches D and the youngest uniform latch (R56, R119). -/
structure UniformWrote (g h : Group) (d : Fld) (r : Option Nat) : Prop where
  written : ∀ n, d = .s n → (h.sreg n.toNat).holds r
  others : ∀ k, (∀ n, d = .s n → n.toNat ≠ k) → h.sreg k = g.sreg k
  latch : ∃ e, Elem.holds e r ∧ h.sl = some ⟨[e], [Elem.zero]⟩ :: g.sl.take 3

end Sys2Proof.Machine
end

