-- ==== Sys2Proof/Certificates/Slice0/Obligations.lean ====
section
/-! DEFINITION. The statements about the machine, with the tables of results in which they are written from the rules. -/

open Sys2Proof Sys2Proof.Machine

namespace Sys2Proof.Claims

/-- One or three sources poison a result (R47): the first n of A, B and C. -/
def srcPois (g : Group) (ta tb tc : CTy) (x : Args) (n l : Nat) : Bool :=
  (laneAt (g.srcV ta x.a) l).pois || (decide (2 ≤ n) && (laneAt (g.srcV tb x.b) l).pois) ||
    (decide (3 ≤ n) && (laneAt (g.srcV tc x.c) l).pois)

/-- A sum or difference with the clamp of R146. -/
def addSat (sat uns : Bool) (exact : Int) (plain : Word) : Word × Nat :=
  if sat then
    (if uns then (if exact < 0 then (0#32, flSATD) else if exact ≥ 2 ^ 32 then (0xFFFFFFFF#32, flSATD) else (plain, 0))
     else (if exact < -2 ^ 31 then (0x80000000#32, flSATD) else if exact ≥ 2 ^ 31 then (0x7FFFFFFF#32, flSATD) else (plain, 0)))
  else (plain, 0)

/-- Both readings of a source. -/
def ext (u : Bool) (a : Word) : Int := if u then (a.toNat : Int) else a.toInt

/-- The field of BFE and BFI in B (R151): shift and width, none where there is none. -/
def field (b : Word) : Option (Nat × Nat) :=
  let pos := (b.extractLsb' 0 8).toNat
  let w := (b.extractLsb' 8 8).toNat
  if 32 ≤ pos ∨ w = 0 then none else some (pos, min w (32 - pos))

/-- Integer and bit instructions of the lane set: number of sources, value and flags (R146, R148 to R152). -/
def laneInt (o : Op) (x : Args) : Option (Nat × (Word → Word → Word → Word × Nat)) :=
  match o with
  | .iadd => some (2, fun a b _ => addSat x.sat x.uns (ext x.uns a + ext x.uns b) (a + b))
  | .isub => some (2, fun a b _ => addSat x.sat x.uns (ext x.uns a - ext x.uns b) (a - b))
  | .imul => some (2, fun a b _ => (a * b, 0))
  | .imulh => some (2, fun a b _ => (if x.uns then (a.setWidth 64 * b.setWidth 64).extractLsb' 32 32
      else (a.signExtend 64 * b.signExtend 64).extractLsb' 32 32, 0))
  | .imin => some (2, fun a b _ => (if (if x.uns then a.ule b else a.sle b) then a else b, 0))
  | .imax => some (2, fun a b _ => (if (if x.uns then b.ule a else b.sle a) then a else b, 0))
  | .iabs => some (1, fun a _ _ => if a = 0x80000000#32 then (if x.sat then (0x7FFFFFFF#32, flSATD) else (a, 0))
      else (if a.msb then -a else a, 0))
  | .and => some (2, fun a b _ => (a &&& b, 0))
  | .or => some (2, fun a b _ => (a ||| b, 0))
  | .xor => some (2, fun a b _ => (a ^^^ b, 0))
  | .not => some (1, fun a _ _ => (~~~a, 0))
  | .shl => some (2, fun a b _ => (a <<< b.toNat, 0))
  | .shr => some (2, fun a b _ => (a >>> b.toNat, 0))
  | .sar => some (2, fun a b _ => (a.sshiftRight b.toNat, 0))
  | .rotl => some (2, fun a b _ => (a.rotateLeft (b.toNat % 32), 0))
  | .bfe => some (2, fun a b _ => match field b with
    | none => (0#32, 0)
    | some (pos, w) => (if x.uns then (a >>> pos) &&& BitVec.ofNat 32 (2 ^ w - 1) else ((a >>> pos) <<< (32 - w)).sshiftRight (32 - w), 0))
  | .bfi => some (3, fun a b c => match field b with
    | none => (c, 0)
    | some (pos, w) =>
      let m : Word := BitVec.ofNat 32 (2 ^ w - 1) <<< pos
      ((c &&& ~~~m) ||| ((a <<< pos) &&& m), 0))
  | .popc => some (1, fun a _ _ => (BitVec.ofNat 32 ((List.range 32).filter fun i => a.getLsbD i).length, 0))
  | .clz => some (1, fun a _ _ => (BitVec.ofNat 32 (((List.range 32).find? fun i => a.getLsbD (31 - i)).getD 32), 0))
  | .ctz => some (1, fun a _ _ => (BitVec.ofNat 32 (((List.range 32).find? fun i => a.getLsbD i).getD 32), 0))
  | .brev => some (1, fun a _ _ => (a.reverse, 0))
  | _ => none

end Sys2Proof.Claims

open Sys2Proof.Claims

/-- R131, R146, R148 to R152: the integer and bit instructions of the lane set deliver their result in each active lane, poisoned when a
source is, push it, raise SATD where a clamp acted, and leave everything else as it was. -/
def Obligations.LaneIntegerResults : Prop :=
  ∀ (i : Instr) (o : Op) (x : Args) (s : State) (iss : Issuer) (t : Team) (g : Group) (f : Frag) (n : Nat)
    (fn : Word → Word → Word → Word × Nat),
    i.split = some (o, x) → laneInt o x = some (n, fn) → Issues o x s iss t g f → g.stepping = none → badAddr (afterOf x f) = false →
    let a (l : Nat) : Word := (laneAt (g.srcV .int x.a) l).val
    let b (l : Nat) : Word := (laneAt (g.srcV .int x.b) l).val
    let c (l : Nat) : Word := (laneAt (g.srcV .int x.c) l).val
    let bad (l : Nat) : Bool := srcPois g .int .int .int x n l
    Completes i s iss f (afterOf x f) fun h =>
      LaneWrote g h x.d (activeOf o x g f) (fun l => if bad l then none else some (fn (a l) (b l) (c l)).1.toNat) ∧
      LaneFrame g h ∧ h.p = g.p ∧
      SpecialAfter g h (unionFlags (activeOf o x g f) fun l => if bad l then 0 else (fn (a l) (b l) (c l)).2) false

namespace Sys2Proof.Claims

/-- A FP32 source under the modifiers of R83: k is 0, 1, 2 for A, B, C. -/
def srcF (x : Args) (k : Nat) (a : Word) : Nat := srcMod (bit x.m (6 + 2 * k)) (bit x.m (7 + 2 * k)) 31 a.toNat

/-- FP32 instructions of the lane set: number of sources, and value and flags before SAT, from the draw and the sources as they stand in
their registers (R136, R137, R139 to R143). FSUB adds the negated source. -/
def laneFloat (o : Op) (x : Args) : Option (Nat × (Nat → Word → Word → Word → Nat × Nat)) :=
  let rn := rndOf x
  match o with
  | .fadd => some (2, fun d a b _ => fp32.add rn d (srcF x 0 a) (srcF x 1 b))
  | .fsub => some (2, fun d a b _ => fp32.add rn d (srcF x 0 a) (fp32.flip (srcF x 1 b)))
  | .fmul => some (2, fun d a b _ => fp32.mul rn d (srcF x 0 a) (srcF x 1 b))
  | .ffma => some (3, fun d a b c => fp32.fma rn d (srcF x 0 a) (srcF x 1 b) (srcF x 2 c))
  | .fmin => some (2, fun _ a b _ => fp32.minmax false (srcF x 0 a) (srcF x 1 b))
  | .fmax => some (2, fun _ a b _ => fp32.minmax true (srcF x 0 a) (srcF x 1 b))
  | .frnd => some (1, fun d a _ _ => fRnd rn d (srcF x 0 a))
  | .ffrc => some (1, fun _ a _ _ => fFrc (srcF x 0 a))
  | .fclass => some (1, fun _ a _ _ => (fClass (srcF x 0 a), 0))
  | .frcp => some (1, fun d a _ _ => fRcp rn d (srcF x 0 a))
  | .frsq => some (1, fun d a _ _ => fRsq rn d (srcF x 0 a))
  | .fsqrt => some (1, fun d a _ _ => fSqrt rn d (srcF x 0 a))
  | .fexp2 => some (1, fun d a _ _ => fExp2 rn d (srcF x 0 a))
  | .flog2 => some (1, fun d a _ _ => fLog2 rn d (srcF x 0 a))
  | .fsin => some (1, fun _ a _ _ => fTrig true (srcF x 0 a))
  | .fcos => some (1, fun _ a _ _ => fTrig false (srcF x 0 a))
  | .fldexp => some (2, fun d a b _ => fLdexp rn d (srcF x 0 a) b.toNat)
  | _ => none

/-- The instruction rounds under its mode, and so draws under SR (R40). -/
def drawsRng (o : Op) : Bool :=
  match o with
  | .fadd | .fsub | .fmul | .ffma | .frnd | .frcp | .frsq | .fsqrt | .fexp2 | .flog2 | .fldexp
  | .padd2 | .pmul2 | .pfma2 | .pdot2 => true
  | _ => false

/-- RNGSTATE steps when the instruction draws under SR in some lane (R40). -/
def stepsRng (o : Op) (x : Args) (act : Mask) : Bool := drawsRng o && decide (rndOf x = .sr) && decide (act ≠ 0#32)

/-- The FP32 value after SAT (R37). -/
def satF (x : Args) (v : Nat) : Nat := if x.sat then fp32.sat01 v else v

/-- Packed instructions but PDOT2: number of sources and the rule of one element (R145). -/
def packedOp (o : Op) : Option (Nat × (FSpec → Rnd → Nat → Nat → Nat → Nat → Nat × Nat)) :=
  match o with
  | .padd2 => some (2, fun sp r d a b _ => sp.add r d a b)
  | .pmul2 => some (2, fun sp r d a b _ => sp.mul r d a b)
  | .pfma2 => some (3, fun sp r d a b c => sp.fma r d a b c)
  | .pmin2 => some (2, fun sp _ _ a b _ => sp.minmax false a b)
  | .pmax2 => some (2, fun sp _ _ a b _ => sp.minmax true a b)
  | _ => none

/-- Element e of a packed source under its modifiers (R83, R144). -/
def srcH (x : Args) (k e : Nat) (a : Word) : Nat :=
  srcMod (bit x.m (6 + 2 * k)) (bit x.m (7 + 2 * k)) 15 (a.extractLsb' (16 * e) 16).toNat

/-- The format of the slot of a packed instruction (R144). -/
def packedFmt (fs : List Nat) (x : Args) : FSpec × CTy := if slotFmt fs x.fs.toNat = some .bf16 then (bf16, .packedB) else (fp16, .packed16)

end Sys2Proof.Claims

/-- R131, R136, R137, R139 to R143: the FP32 instructions of the lane set deliver their result in each active lane, after SAT, poisoned
when a source is; FLAGS gathers the flags of the lanes that are not poisoned, and nothing else changes. -/
def Sys2Proof.Claims.LaneFloatResultsHold : Prop :=
  ∀ (i : Instr) (o : Op) (x : Args) (s : State) (iss : Issuer) (t : Team) (g : Group) (f : Frag) (n : Nat)
    (fn : Nat → Word → Word → Word → Nat × Nat),
    i.split = some (o, x) → laneFloat o x = some (n, fn) → Issues o x s iss t g f → g.stepping = none → badAddr (afterOf x f) = false →
    let tb : CTy := if o = .fldexp then .int else .fp32
    let r (l : Nat) : Nat × Nat := fn (drawOf g.sp.rngstate.toNat l 0) (laneAt (g.srcV .fp32 x.a) l).val (laneAt (g.srcV tb x.b) l).val
      (laneAt (g.srcV .fp32 x.c) l).val
    let bad (l : Nat) : Bool := srcPois g .fp32 tb .fp32 x n l
    Completes i s iss f (afterOf x f) fun h =>
      LaneWrote g h x.d (activeOf o x g f) (fun l => if bad l then none else some (satF x (r l).1)) ∧
      LaneFrame g h ∧ h.p = g.p ∧
      SpecialAfter g h (unionFlags (activeOf o x g f) fun l => if bad l then 0 else (r l).2) (stepsRng o x (activeOf o x g f))

/-- R144, R145: the packed instructions apply the FP32 rules to each 16-bit element in the slot's format, with draw e for element e; PDOT2
rounds the exact sum of two products and an FP32 value once. A poisoned source poisons the whole result. -/
def Sys2Proof.Claims.LanePackedResultsHold : Prop :=
  ∀ (i : Instr) (o : Op) (x : Args) (s : State) (iss : Issuer) (t : Team) (g : Group) (f : Frag),
    i.split = some (o, x) → Issues o x s iss t g f → g.stepping = none → badAddr (afterOf x f) = false →
    let sp := (packedFmt t.cfg.fs x).1
    let ty := (packedFmt t.cfg.fs x).2
    let a (l : Nat) : Word := (laneAt (g.srcV ty x.a) l).val
    let b (l : Nat) : Word := (laneAt (g.srcV ty x.b) l).val
    let draw (l e : Nat) : Nat := drawOf g.sp.rngstate.toNat l e
    (∀ n fn, packedOp o = some (n, fn) →
      let c (l : Nat) : Word := (laneAt (g.srcV ty x.c) l).val
      let r (l e : Nat) : Nat × Nat := fn sp (rndOf x) (draw l e) (srcH x 0 e (a l)) (srcH x 1 e (b l)) (srcH x 2 e (c l))
      let sat (v : Nat) : Nat := if x.sat then sp.sat01 v else v
      let bad (l : Nat) : Bool := srcPois g ty ty ty x n l
      Completes i s iss f (afterOf x f) fun h =>
        LaneWrote g h x.d (activeOf o x g f) (fun l => if bad l then none else some (sat (r l 0).1 + 65536 * sat (r l 1).1)) ∧
        LaneFrame g h ∧ h.p = g.p ∧
        SpecialAfter g h (unionFlags (activeOf o x g f) fun l => if bad l then 0 else (r l 0).2 ||| (r l 1).2)
          (stepsRng o x (activeOf o x g f))) ∧
    (o = .pdot2 →
      let c (l : Nat) : Word := (laneAt (g.srcV .fp32 x.c) l).val
      let p (l e : Nat) : Term × Nat := mulTerm (sp.unpack (srcH x 0 e (a l))) (sp.unpack (srcH x 1 e (b l)))
      let r (l : Nat) : Nat × Nat := fp32.ofTerm (rndOf x) (draw l 0)
        (Term.add (rndOf x) (Term.add (rndOf x) (p l 0) (p l 1)) (fp32.unpack (srcF x 2 (c l))).term)
      let bad (l : Nat) : Bool := srcPois g ty ty .fp32 x 3 l
      Completes i s iss f (afterOf x f) fun h =>
        LaneWrote g h x.d (activeOf o x g f) (fun l => if bad l then none else some (satF x (r l).1)) ∧
        LaneFrame g h ∧ h.p = g.p ∧
        SpecialAfter g h (unionFlags (activeOf o x g f) fun l => if bad l then 0 else (r l).2) (stepsRng o x (activeOf o x g f)))

/-- R156 to R158, R160: CVT between 32-bit or narrower formats and to 64-bit ones, CVTPK and SXUNPK deliver the converted value in each
active lane. RNGSTATE steps under SR unless both formats are integers. -/
def Sys2Proof.Claims.LaneConversionResultsHold : Prop :=
  ∀ (x : Args) (s : State) (iss : Issuer) (t : Team) (g : Group) (f : Frag), g.stepping = none → badAddr (afterOf x f) = false →
    let act := guardV g x f.emask
    let draw (l j : Nat) : Nat := drawOf g.sp.rngstate.toNat l j
    (∀ src dst, Issues .cvt x s iss t g f → fieldFmt t.cfg.fs (fldIdx x.b) = some src → fieldFmt t.cfg.fs (fldIdx x.c) = some dst →
      let lo (l : Nat) : Elem := laneAt (g.srcV (cvtTy src) x.a) l
      let hi (l : Nat) : Elem := laneAt (g.srcVHi (cvtTy src) x.a) l
      let v (l : Nat) : Nat := if src.is64 then pairNat (lo l) (hi l) else (lo l).nat
      let r (l : Nat) : Nat × Nat := cvt src dst (rndOf x) (draw l 0) x.sat (cvtSrc src x.m (v l))
      let bad (l : Nat) : Bool := (lo l).pois || (src.is64 && (hi l).pois)
      let drew := (src.isFloat || dst.isFloat) && decide (rndOf x = .sr) && decide (act ≠ 0#32)
      Completes (.cvt x) s iss f (afterOf x f) fun h =>
        (if dst.is64 then LaneWrote2 g h x.d act (fun l => if bad l then none else some ((r l).1 % 2 ^ 32))
            (fun l => if bad l then none else some ((r l).1 / 2 ^ 32))
          else LaneWrote g h x.d act fun l => if bad l then none else some (r l).1) ∧
        LaneFrame g h ∧ h.p = g.p ∧ SpecialAfter g h (unionFlags act fun l => if bad l then 0 else (r l).2) drew) ∧
    (∀ dst, Issues .cvtpk x s iss t g f → fieldFmt t.cfg.fs (fldIdx x.c) = some dst →
      let src : Fmt := if dst.isFloat then .fp32 else .int32
      let w : Nat := if dst.isFloat then (fspecOf dst).width else intWidth dst
      let v (k l : Nat) (e : Elem) : Nat × Nat := cvt src dst (rndOf x) (draw l k) x.sat (if dst.isFloat then srcF x k e.val else e.nat)
      let ty : CTy := if dst.isFloat then .fp32 else .int
      let r0 (l : Nat) : Nat × Nat := v 0 l (laneAt (g.srcV ty x.a) l)
      let r1 (l : Nat) : Nat × Nat := v 1 l (laneAt (g.srcV ty x.b) l)
      let bad (l : Nat) : Bool := srcPois g ty ty ty x 2 l
      Completes (.cvtpk x) s iss f (afterOf x f) fun h =>
        LaneWrote g h x.d act (fun l => if bad l then none else some ((r0 l).1 % 2 ^ w + (r1 l).1 % 2 ^ w * 2 ^ w)) ∧
        LaneFrame g h ∧ h.p = g.p ∧
        SpecialAfter g h (unionFlags act fun l => if bad l then 0 else (r0 l).2 ||| (r1 l).2)
          (dst.isFloat && decide (rndOf x = .sr) && decide (act ≠ 0#32))) ∧
    (∀ b, Issues .sxunpk x s iss t g f → fieldFmt t.cfg.fs (fldIdx x.b) = some b →
      let a (l : Nat) : Elem := laneAt (g.srcV .int x.a) l
      let r (l : Nat) : Nat × Nat := sxUnpack (sxN b) (a l).nat
      Completes (.sxunpk x) s iss f (afterOf x f) fun h =>
        LaneWrote g h x.d act (fun l => if (a l).pois then none else some (r l).1) ∧ LaneFrame g h ∧ h.p = g.p ∧
        SpecialAfter g h (unionFlags act fun l => if (a l).pois then 0 else (r l).2) false)

/-- R159: SXPACK encodes a block for each half of the group from the active lanes of the half, an absent element counting as +0; a
poisoned source poisons every present lane of its half. -/
def Sys2Proof.Claims.SxpackEncodesABlockForEachHalfHold : Prop :=
  ∀ (x : Args) (s : State) (iss : Issuer) (t : Team) (g : Group) (f : Frag) (b : Fmt), Issues .sxpack x s iss t g f →
    g.stepping = none → badAddr (afterOf x f) = false → fieldFmt t.cfg.fs (fldIdx x.b) = some b →
    let act := guardV g x f.emask
    let a (l : Nat) : Elem := laneAt (g.srcV .fp32 x.a) l
    let block (h : Nat) : SxBlock × List Nat :=
      sxEncode ((List.range 16).map fun i => if inMask act (16 * h + i) then fp32.unpack (srcF x 0 (a (16 * h + i)).val) else .fin false 0 0)
        (sxN b) (rndOf x) (fun i => drawOf g.sp.rngstate.toNat (16 * h + i) i) x.sat
    let bad (l : Nat) : Bool := (List.range 16).any fun i => inMask act (16 * (l / 16) + i) && (a (16 * (l / 16) + i)).pois
    Completes (.sxpack x) s iss f (afterOf x f) fun h =>
      LaneWrote g h x.d act (fun l => if bad l then none else some (sxWord (block (l / 16)).1 (sxN b) (l % 16))) ∧
      LaneFrame g h ∧ h.p = g.p ∧
      SpecialAfter g h (unionFlags act fun l => if bad l then 0 else (block (l / 16)).2.getD (l % 16) 0)
        (decide (rndOf x = .sr) && decide (act ≠ 0#32))

/-- R147: IADDC and ISUBB add and subtract with the carry that the predicate C holds, and leave the next carry in it; the carry is poisoned
with the result. -/
def Sys2Proof.Claims.CarryChainResultsHold : Prop :=
  ∀ (i : Instr) (o : Op) (x : Args) (s : State) (iss : Issuer) (t : Team) (g : Group) (f : Frag) (k : BitVec 3),
    i = .iaddc x ∧ o = .iaddc ∨ i = .isubb x ∧ o = .isubb → x.c = .p k → Issues o x s iss t g f → g.stepping = none →
    badAddr (afterOf x f) = false →
    let act := guardV g x f.emask
    let p := g.pred k.toNat
    let a (l : Nat) : Elem := laneAt (g.srcV .int x.a) l
    let b (l : Nat) : Elem := laneAt (g.srcV .int x.b) l
    let carry (l : Nat) : Word := if inMask p.val l then 1#32 else 0#32
    let bad (l : Nat) : Bool := (a l).pois || (b l).pois || inMask p.pois l
    let sum (l : Nat) : Int := if o = .iaddc then ((a l).nat : Int) + (b l).nat + (carry l).toNat else ((a l).nat : Int) - (b l).nat - (carry l).toNat
    Completes i s iss f (afterOf x f) fun h =>
      LaneWrote g h x.d act (fun l => if bad l then none else
        some (if o = .iaddc then (a l).val + (b l).val + carry l else (a l).val - (b l).val - carry l).toNat) ∧
      PredWrote g h k.toNat act (fun l => if bad l then none else some (decide (sum l < 0 ∨ 2 ^ 32 ≤ sum l))) ∧
      LaneFrame g h ∧ h.sp = g.sp

/-- R148: IMAD delivers ext(a) × ext(b) + c modulo 2^64 in the pair D and in one latch. -/
def Sys2Proof.Claims.ImadDeliversThe64BitSumHold : Prop :=
  ∀ (x : Args) (s : State) (iss : Issuer) (t : Team) (g : Group) (f : Frag), Issues .imad x s iss t g f → g.stepping = none →
    badAddr (afterOf x f) = false →
    let act := guardV g x f.emask
    let a (l : Nat) : Elem := laneAt (g.srcV .int x.a) l
    let b (l : Nat) : Elem := laneAt (g.srcV .int x.b) l
    let c (l : Nat) : Elem := laneAt (g.srcV .int x.c) l
    let d (l : Nat) : Elem := laneAt (g.srcVHi .int x.c) l
    let wide (e : Elem) : BitVec 64 := if x.uns then e.val.setWidth 64 else e.val.signExtend 64
    let r (l : Nat) : BitVec 64 := wide (a l) * wide (b l) + ((d l).val ++ (c l).val)
    let bad (l : Nat) : Bool := (a l).pois || (b l).pois || (c l).pois || (d l).pois
    Completes (.imad x) s iss f (afterOf x f) fun h =>
      LaneWrote2 g h x.d act (fun l => if bad l then none else some ((r l).extractLsb' 0 32).toNat)
        (fun l => if bad l then none else some ((r l).extractLsb' 32 32).toNat) ∧
      LaneFrame g h ∧ h.p = g.p ∧ h.sp = g.sp

namespace Sys2Proof.Claims

/-- The integer conditions of R120. -/
def intCond (c : Nat) (a b : Word) : Bool :=
  match c with
  | 0 => a == b
  | 1 => a != b
  | 2 => a.slt b
  | 3 => a.sle b
  | 4 => b.slt a
  | 5 => b.sle a
  | 6 => a.ult b
  | 7 => a.ule b
  | 8 => b.ult a
  | _ => b.ule a

end Sys2Proof.Claims

/-- R138, R153, R161: ICMP, FCMP and PLOP write the predicate D in the active lanes and leave every register as it was. -/
def Obligations.LanePredicateResults : Prop :=
  ∀ (x : Args) (s : State) (iss : Issuer) (t : Team) (g : Group) (f : Frag) (k : BitVec 3), x.d = .p k → g.stepping = none →
    badAddr (afterOf x f) = false →
    let act := guardV g x f.emask
    let frame (h : Group) : Prop := SameLane g h ∧ SameUniform g h ∧ SameQ g h ∧ h.sh = g.sh ∧ SameAccesses g h
    (Issues .icmp x s iss t g f → x.cond.toNat < 10 →
      let a (l : Nat) : Elem := laneAt (g.srcV .int x.a) l
      let b (l : Nat) : Elem := laneAt (g.srcV .int x.b) l
      Completes (.icmp x) s iss f (afterOf x f) fun h =>
        PredWrote g h k.toNat act (fun l => if (a l).pois || (b l).pois then none else some (intCond x.cond.toNat (a l).val (b l).val)) ∧
        frame h ∧ h.sp = g.sp) ∧
    (Issues .fcmp x s iss t g f → x.sat = false →
      let a (l : Nat) : Elem := laneAt (g.srcV .fp32 x.a) l
      let b (l : Nat) : Elem := laneAt (g.srcV .fp32 x.b) l
      let r (l : Nat) : Bool × Nat := fcmp x.cond.toNat (srcF x 0 (a l).val) (srcF x 1 (b l).val)
      Completes (.fcmp x) s iss f (afterOf x f) fun h =>
        PredWrote g h k.toNat act (fun l => if (a l).pois || (b l).pois then none else some (r l).1) ∧ frame h ∧
        SpecialAfter g h (unionFlags act fun l => if (a l).pois || (b l).pois then 0 else (r l).2) false) ∧
    (∀ ka kb kc : BitVec 3, Issues .plop x s iss t g f → x.a = .p ka → x.b = .p kb → x.c = .p kc →
      let p (j : BitVec 3) (l : Nat) : Bool := inMask (g.pred j.toNat).val l
      let q (j : BitVec 3) (l : Nat) : Bool := inMask (g.pred j.toNat).pois l
      Completes (.plop x) s iss f (afterOf x f) fun h =>
        PredWrote g h k.toNat act (fun l => if q ka l || q kb l || q kc l then none else
          some (x.mod.getLsbD (4 * (p ka l).toNat + 2 * (p kb l).toNat + (p kc l).toNat))) ∧
        frame h ∧ h.sp = g.sp)

namespace Sys2Proof.Claims

/-- A lane result whose elements are copied with their poison: D and the latch take the element itself (R71, R154). -/
def LaneCopied (g h : Group) (d : Fld) (act : Mask) (r : Nat → Option Elem) : Prop :=
  (∀ n, d = .v n → ∀ l, l < 32 →
    if inMask act l then (match r l with | some e => laneAt (h.vreg n.toNat) l = e | none => (laneAt (h.vreg n.toNat) l).pois = true)
    else laneAt (h.vreg n.toNat) l = laneAt (g.vreg n.toNat) l) ∧
  (∀ k, (∀ n, d = .v n → n.toNat ≠ k) → h.vreg k = g.vreg k) ∧
  ∃ la, h.bl = some la :: g.bl.take 3 ∧ ∀ l, l < 32 →
    if inMask act l then (match r l with | some e => laneAt la.lo l = e | none => (laneAt la.lo l).pois = true) else laneAt la.lo l = Elem.zero

/-- The source lane of SHFL by the modes of R163: IDX, UP, DOWN, XOR within a segment. -/
def shflFrom (mode seg l b : Nat) : Nat :=
  let base := l / seg * seg
  let at_ := l % seg
  match mode with
  | 0 => base + b % seg
  | 1 => base + (at_ + (seg - b % seg)) % seg
  | 2 => base + (at_ + b) % seg
  | _ => base + (at_ ^^^ (b % seg))

/-- A byte that a selector of PRMT picks from the eight bytes of b:a, and what its mode makes of it (R155). -/
def prmtPick (a b : Word) (sel : BitVec 8) : BitVec 8 :=
  let v := ((b ++ a).extractLsb' (8 * (sel.extractLsb' 0 3).toNat) 8 : BitVec 8)
  match (sel.extractLsb' 3 2).toNat with
  | 0 => v
  | 1 => 0#8
  | 2 => if v.msb then 0xFF#8 else 0#8
  | _ => v.reverse

end Sys2Proof.Claims

/-- R154, R163: MOV, SEL and SHFL copy elements with their poison; a poisoned predicate, or lane number, poisons the result. SHFL reads
its own lane where the source lane is not active. -/
def Sys2Proof.Claims.LaneCopyResultsHold : Prop :=
  ∀ (x : Args) (s : State) (iss : Issuer) (t : Team) (g : Group) (f : Frag), g.stepping = none → badAddr (afterOf x f) = false →
    let act := guardV g x f.emask
    let a (l : Nat) : Elem := laneAt (g.srcV .int x.a) l
    let b (l : Nat) : Elem := laneAt (g.srcV .int x.b) l
    let rest (h : Group) : Prop := LaneFrame g h ∧ h.p = g.p ∧ h.sp = g.sp
    (Issues .mov x s iss t g f →
      Completes (.mov x) s iss f (afterOf x f) fun h => LaneCopied g h x.d act (fun l => some (a l)) ∧ rest h) ∧
    (∀ k : BitVec 3, Issues .sel x s iss t g f → x.c = .p k →
      Completes (.sel x) s iss f (afterOf x f) fun h =>
        LaneCopied g h x.d act (fun l => if inMask (g.pred k.toNat).pois l then none else
          some (if inMask (g.pred k.toNat).val l then a l else b l)) ∧ rest h) ∧
    (Issues .shfl x s iss t g f →
      let src (l : Nat) : Nat := shflFrom (x.m % 4) (32 / 2 ^ (x.m / 4 % 8)) l (b l).nat
      x.m / 4 % 8 ≤ 4 →
      Completes (.shfl x) s iss f (afterOf x f) fun h =>
        LaneCopied g h x.d act (fun l => if (b l).pois then none else some (a (if inMask act (src l) then src l else l))) ∧ rest h)

/-- R155: each selector byte of PRMT picks one of the eight bytes of A and B and copies, clears, sign-fills or reverses it; the result is
poisoned by C, and by a source of which a byte is read. -/
def Sys2Proof.Claims.PrmtPicksBytesHold : Prop :=
  ∀ (x : Args) (s : State) (iss : Issuer) (t : Team) (g : Group) (f : Frag), Issues .prmt x s iss t g f → g.stepping = none →
    badAddr (afterOf x f) = false →
    let act := guardV g x f.emask
    let a (l : Nat) : Elem := laneAt (g.srcV .int x.a) l
    let b (l : Nat) : Elem := laneAt (g.srcV .int x.b) l
    let c (l : Nat) : Elem := laneAt (g.srcV .int x.c) l
    let sel (l k : Nat) : BitVec 8 := (c l).val.extractLsb' (8 * k) 8
    let byte (l k : Nat) : BitVec 8 := prmtPick (a l).val (b l).val (sel l k)
    let reads (l k : Nat) : Bool := decide ((sel l k).extractLsb' 3 2 ≠ 1#2) && (if (sel l k).getLsbD 2 then (b l).pois else (a l).pois)
    let bad (l : Nat) : Bool := (c l).pois || reads l 0 || reads l 1 || reads l 2 || reads l 3
    Completes (.prmt x) s iss f (afterOf x f) fun h =>
      LaneWrote g h x.d act (fun l => if bad l then none else some (byte l 3 ++ byte l 2 ++ byte l 1 ++ byte l 0 : BitVec 32).toNat) ∧
      LaneFrame g h ∧ h.p = g.p ∧ h.sp = g.sp

namespace Sys2Proof.Claims

/-- The number of lanes of a set, its lowest and its highest; 32 for none. -/
def laneCount (m : Mask) : Nat := ((List.range 32).filter fun l => inMask m l).length
def lowest (m : Mask) : Nat := ((List.range 32).find? fun l => inMask m l).getD 32
def highest (m : Mask) : Nat := ((List.range 32).reverse.find? fun l => inMask m l).getD 32

/-- VOTE by its modes (R164): MASK, SUM, LOW, HIGH of the active lanes whose predicate is 1. -/
def voteWord (mode : Nat) (set act : Mask) : Nat :=
  match mode with
  | 0 => set.toNat
  | 1 => laneCount set + 256 * laneCount act + (if set = 0#32 then 65536 else 0) + (if set = act then 131072 else 0)
      + (if set ≠ 0#32 ∧ set ≠ act then 262144 else 0)
  | 2 => lowest set
  | _ => highest set

/-- One step of a combination (R166): value and flags. -/
def comb (op a b : Nat) : Nat × Nat :=
  let x := BitVec.ofNat 32 a
  let y := BitVec.ofNat 32 b
  match op with
  | 0 => ((x + y).toNat, 0)
  | 1 => fp32.add .rne 0 a b
  | 2 => (if x.sle y then a else b, 0)
  | 3 => (if y.sle x then a else b, 0)
  | 4 => (if a ≤ b then a else b, 0)
  | 5 => (if b ≤ a then a else b, 0)
  | 6 => fp32.minmax false a b
  | 7 => fp32.minmax true a b
  | 8 => ((x &&& y).toNat, 0)
  | 9 => ((x ||| y).toNat, 0)
  | 10 => ((x ^^^ y).toNat, 0)
  | _ => (a, 0)

/-- The identities of R166. -/
def identity (op : Nat) : Nat := [0, 0x80000000, 0x7FFFFFFF, 0x80000000, 0xFFFFFFFF, 0, 0x7F800000, 0xFF800000, 0xFFFFFFFF, 0, 0, 0].getD op 0

/-- A partial result: its value, none when it is poisoned, and the flags of the steps that made it (R47, R166). -/
abbrev Sum := Option Nat × Nat
def combS (op : Nat) (a b : Sum) : Sum :=
  match a.1, b.1 with
  | some x, some y => (some (comb op x y).1, a.2 ||| b.2 ||| (comb op x y).2)
  | _, _ => (none, a.2 ||| b.2)
def leaf (e : Elem) : Sum := (if e.pois then none else some e.nat, 0)

/-- A floating result that is a NaN is delivered canonical (R166). -/
def deliver (op : Nat) (r : Option Nat) : Option Nat :=
  r.map fun v => if op = 1 ∨ op = 6 ∨ op = 7 then (match fp32.unpack v with | .nan _ => fp32.nan | _ => v) else v

/-- The type in which A is read: FP32 for FADD, FMIN and FMAX. -/
def combTy (op : Nat) : CTy := if op = 1 ∨ op = 6 ∨ op = 7 then .fp32 else .int

/-- The partial result after the lanes of a set that come before lane k, lowest first (R167). -/
def scanTo (op : Nat) (m : Mask) (a : Nat → Elem) (k : Nat) : Sum :=
  ((List.range k).filter fun l => inMask m l).foldl (fun r l => combS op r (leaf (a l))) (some (identity op), 0)

/-- One level of the tree of R48: neighbours combine; a node with one present child passes it up. -/
def treeLevel (op : Nat) : List (Option Sum) → List (Option Sum)
  | a :: b :: xs => (match a, b with | some x, some y => some (combS op x y) | some x, none => some x | none, y => y) :: treeLevel op xs
  | xs => xs
def treeRoot (op : Nat) (p : Nat → Option Sum) : Option Sum :=
  ((treeLevel op (treeLevel op (treeLevel op (treeLevel op (treeLevel op ((List.range 32).map p)))))).head?).getD none

/-- The head of the segment that lane l lies in (R168). -/
def headOf (heads : Mask) (l : Nat) : Nat := (((List.range (l + 1)).reverse.find? fun k => k = 0 || inMask heads k)).getD 0

end Sys2Proof.Claims

/-- R164, R165, R166, R169: VOTE, MATCH and VRD write one uniform register and push it; VRD forms the tree of R48, and FIRST delivers the
lowest active lane with its poison; with no active lane it delivers the identity. -/
def Sys2Proof.Claims.CrossLaneUniformResultsHold : Prop :=
  ∀ (x : Args) (s : State) (iss : Issuer) (t : Team) (g : Group) (f : Frag), g.stepping = none → badAddr (afterOf x f) = false →
    let act := guardV g x f.emask
    let rest (h : Group) : Prop := UniformFrame g h ∧ SameQ g h
    (∀ k : BitVec 3, Issues .vote x s iss t g f → x.a = .p k →
      let p := g.pred k.toNat
      Completes (.vote x) s iss f (afterOf x f) fun h =>
        UniformWrote g h x.d (if p.pois &&& act ≠ 0#32 then none else some (voteWord (x.m % 4) (p.val &&& act) act)) ∧ rest h ∧ h.sp = g.sp) ∧
    (Issues .matchLanes x s iss t g f →
      let w64 := x.mod.getLsbD 1
      let lo (l : Nat) : Elem := laneAt (g.srcV .int x.a) l
      let hi (l : Nat) : Elem := laneAt (g.srcVHi .int x.a) l
      let same (l k : Nat) : Bool := decide ((lo l).val = (lo k).val) && (!w64 || decide ((hi l).val = (hi k).val))
      let lead := maskOf fun l => inMask act l && same l (lowest act)
      let bad := (List.range 32).any fun l => inMask act l && ((lo l).pois || (w64 && (hi l).pois))
      Completes (.matchLanes x) s iss f (afterOf x f) fun h =>
        UniformWrote g h x.d (if bad then none else some (if x.mod.getLsbD 0 ∧ lead ≠ act then 0 else lead.toNat)) ∧ rest h ∧ h.sp = g.sp) ∧
    (Issues .vrd x s iss t g f →
      let op := x.m % 16
      let a (l : Nat) : Elem := laneAt (g.srcV (combTy op) x.a) l
      let root := treeRoot op fun l => if inMask act l then some (leaf (a l)) else none
      let r : Option Nat :=
        if act = 0#32 then some (identity op)
        else if op = 11 then (if (a (lowest act)).pois then none else some (a (lowest act)).nat)
        else deliver op (root.getD (none, 0)).1
      let fl : Nat := if act = 0#32 ∨ op = 11 then 0 else (match root with | some (some _, k) => k | _ => 0)
      Completes (.vrd x) s iss f (afterOf x f) fun h => UniformWrote g h x.d r ∧ rest h ∧ SpecialAfter g h fl false)

/-- R166 to R168: SCAN combines the active lanes in ascending order, and under EXCL a lane receives what came before it; SEGRED forms the
tree of R48 in each segment; a poisoned segment sets no flag (R47). A poisoned head predicate poisons the segments on both sides of it (DEDUCED,
log entry 54). -/
def Sys2Proof.Claims.ScanAndSegredResultsHold : Prop :=
  ∀ (x : Args) (s : State) (iss : Issuer) (t : Team) (g : Group) (f : Frag), g.stepping = none → badAddr (afterOf x f) = false →
    let act := guardV g x f.emask
    let op := x.m % 16
    let a (l : Nat) : Elem := laneAt (g.srcV (combTy op) x.a) l
    (Issues .scan x s iss t g f →
      let r (l : Nat) : Option Nat := deliver op (scanTo op act a (if x.mod.getLsbD 4 then l else l + 1)).1
      Completes (.scan x) s iss f (afterOf x f) fun h =>
        LaneWrote g h x.d act r ∧ LaneFrame g h ∧ h.p = g.p ∧ SpecialAfter g h (scanTo op act a 32).2 false) ∧
    (∀ k : BitVec 3, Issues .segred x s iss t g f → x.b = .p k →
      let p := g.pred k.toNat
      let heads := p.val &&& act
      let seg (q : Nat) : Option Sum := treeRoot op fun l => if inMask act l && decide (headOf heads l = q) then some (leaf (a l)) else none
      let bad (q : Nat) : Bool := (List.range 32).any fun l => inMask (p.pois &&& act) l && (decide (headOf heads l = q) || decide (headOf heads (l - 1) = q))
      let r (l : Nat) : Option Nat := if bad (headOf heads l) then none else deliver op ((seg (headOf heads l)).getD (none, 0)).1
      Completes (.segred x) s iss f (afterOf x f) fun h =>
        LaneWrote g h x.d act r ∧ LaneFrame g h ∧ h.p = g.p ∧
        SpecialAfter g h ((List.range 32).foldl (fun fl q => fl ||| (if bad q then 0 else match seg q with | some (some _, k) => k | _ => 0)) 0) false)

namespace Sys2Proof.Claims

/-- Results of n registers from r in the active lanes, with no push (R56). -/
structure QuadWrote (g h : Group) (r n : Nat) (act : Mask) (res : Nat → Nat → Option Nat) : Prop where
  written : ∀ j, j < n → ∀ l, l < 32 →
    if inMask act l then (laneAt (h.vreg (r + j)) l).holds (res l j) else laneAt (h.vreg (r + j)) l = laneAt (g.vreg (r + j)) l
  others : ∀ k, (k < r ∨ r + n ≤ k) → h.vreg k = g.vreg k
  latch : h.bl = g.bl

end Sys2Proof.Claims

/-- R262, R263, R268: CONIC and VOXKEY write quads, and SPLATKEY a count or a 64-bit key, in each active lane: the value of the rule's
expressions, poisoned by the sources that it reads. -/
def Obligations.PointInstructionResults : Prop :=
  ∀ (x : Args) (s : State) (iss : Issuer) (t : Team) (g : Group) (f : Frag), g.stepping = none → badAddr (afterOf x f) = false →
    let act := guardV g x f.emask
    let a (i l : Nat) : Elem := match x.a with | .v r => laneAt (g.vreg (r.toNat + i)) l | _ => Elem.zero
    let b (l : Nat) : Elem := laneAt (g.srcV .int x.b) l
    let rest (h : Group) : Prop := LaneFrame g h ∧ h.p = g.p
    (∀ d : BitVec 8, Issues .conic x s iss t g f → x.d = .v d →
      let bad (l : Nat) : Bool := (a 0 l).pois || (a 1 l).pois || (a 2 l).pois || (a 3 l).pois
      let r (l : Nat) : List Nat × Nat := conicLane (a 0 l).nat (a 1 l).nat (a 2 l).nat (a 3 l).nat
      Completes (.conic x) s iss f (afterOf x f) fun h =>
        QuadWrote g h d.toNat 4 act (fun l j => if bad l then none else some ((r l).1.getD j 0)) ∧ rest h ∧
        SpecialAfter g h (unionFlags act fun l => if bad l then 0 else (r l).2) false) ∧
    (Issues .splatkey x s iss t g f →
      let c := g.srcU x.c
      let mean (l : Nat) : Bool := (a 0 l).pois || (a 1 l).pois || (a 2 l).pois || c.pois
      (x.mod.getLsbD 0 = true → Completes (.splatkey x) s iss f (afterOf x f) fun h =>
        LaneWrote g h x.d act (fun l => if mean l then none else some (splatRect (a 0 l).nat (a 1 l).nat (a 2 l).nat c.nat).2.2.2) ∧
        rest h ∧ h.sp = g.sp) ∧
      (x.mod.getLsbD 0 = false →
        let bad (l : Nat) : Bool := mean l || (a 3 l).pois || (b l).pois
        let key (l : Nat) : Nat := splatKey (a 0 l).nat (a 1 l).nat (a 2 l).nat (a 3 l).nat c.nat (b l).nat
        Completes (.splatkey x) s iss f (afterOf x f) fun h =>
          LaneWrote2 g h x.d act (fun l => if bad l then none else some (key l % 2 ^ 32)) (fun l => if bad l then none else some (key l / 2 ^ 32)) ∧
          rest h ∧ h.sp = g.sp)) ∧
    (∀ (d : BitVec 8) (q : BitVec 7), Issues .voxkey x s iss t g f → x.d = .v d → x.c = .s q →
      let c (i : Nat) : Elem := g.sreg (q.toNat + i)
      let point (l : Nat) : Bool := (c 0).pois || (c 1).pois || (c 2).pois || (c 3).pois || (a 0 l).pois || (a 1 l).pois || (a 2 l).pois
      let r (l : Nat) : List Nat × Nat := voxLane (x.m % 32) [(a 0 l).nat, (a 1 l).nat, (a 2 l).nat] [(c 0).nat, (c 1).nat, (c 2).nat, (c 3).nat]
        (c 3).nat (b l).nat
      Completes (.voxkey x) s iss f (afterOf x f) fun h =>
        QuadWrote g h d.toNat 4 act (fun l j => if point l || (decide (j = 0) && (b l).pois) then none else some ((r l).1.getD j 0)) ∧ rest h ∧
        SpecialAfter g h (unionFlags act fun l => if point l then 0 else (r l).2) false)

namespace Sys2Proof.Claims

/-- The uniform integer instructions of 32 bits: number of sources, value and flags (R119). -/
def uniformInt (o : Op) (x : Args) : Option (Nat × (Word → Word → Word × Nat)) :=
  match o with
  | .uadd => some (2, fun a b => addSat x.sat false (a.toInt + b.toInt) (a + b))
  | .usub => some (2, fun a b => addSat x.sat false (a.toInt - b.toInt) (a - b))
  | .umul => some (2, fun a b => (a * b, 0))
  | .umulh => some (2, fun a b => ((a.setWidth 64 * b.setWidth 64).extractLsb' 32 32, 0))
  | .uand => some (2, fun a b => (a &&& b, 0))
  | .uor => some (2, fun a b => (a ||| b, 0))
  | .uxor => some (2, fun a b => (a ^^^ b, 0))
  | .ushl => some (2, fun a b => (a <<< b.toNat, 0))
  | .ushr => some (2, fun a b => (a >>> b.toNat, 0))
  | .usar => some (2, fun a b => (a.sshiftRight b.toNat, 0))
  | .umin => some (2, fun a b => (if a.sle b then a else b, 0))
  | .umax => some (2, fun a b => (if b.sle a then a else b, 0))
  | .upopc => some (1, fun a _ => (BitVec.ofNat 32 ((List.range 32).filter fun i => a.getLsbD i).length, 0))
  | .uclz => some (1, fun a _ => (BitVec.ofNat 32 (((List.range 32).find? fun i => a.getLsbD (31 - i)).getD 32), 0))
  | _ => none

/-- A 64-bit uniform result: the pair D and one latch (R56). -/
structure UniformWrote2 (g h : Group) (d : Fld) (lo hi : Option Nat) : Prop where
  written : ∀ n, d = .s n → (h.sreg n.toNat).holds lo ∧ (h.sreg (n.toNat + 1)).holds hi
  others : ∀ k, (∀ n, d = .s n → n.toNat ≠ k ∧ n.toNat + 1 ≠ k) → h.sreg k = g.sreg k
  latch : ∃ a b, Elem.holds a lo ∧ Elem.holds b hi ∧ h.sl = some ⟨[a], [b]⟩ :: g.sl.take 3

/-- The frame of an instruction that writes no register: registers, latches, predicates, q, shape registers, counters. -/
structure RegisterFrame (g h : Group) : Prop where
  lane : SameLane g h
  uniform : SameUniform g h
  q : SameQ g h
  p : h.p = g.p
  sh : h.sh = g.sh
  acc : SameAccesses g h

end Sys2Proof.Claims

/-- R106, R119: the uniform integer instructions write D and push it; a poisoned source, or a poisoned guard, poisons the result; SATD is
raised where a clamp acted and the result is not poisoned (R47); nothing else changes. -/
def Obligations.UniformIntegerResults : Prop :=
  ∀ (i : Instr) (o : Op) (x : Args) (s : State) (iss : Issuer) (t : Team) (g : Group) (f : Frag) (n : Nat) (fn : Word → Word → Word × Nat),
    i.split = some (o, x) → uniformInt o x = some (n, fn) → Issues o x s iss t g f → g.stepping = none → badAddr (afterOf x f) = false →
    let a := g.srcU x.a
    let b := g.srcU x.b
    let bad : Bool := a.pois || (decide (n = 2) && b.pois)
    Completes i s iss f (afterOf x f) fun h =>
      UniformWrote g h x.d (if bad || guardBad o x g then none else some (fn a.val b.val).1.toNat) ∧ UniformFrame g h ∧ SameQ g h ∧
      SpecialAfter g h (if bad || guardBad o x g then 0 else (fn a.val b.val).2) false

/-- R119, R120: UMAD writes the 64-bit sum to the pair D; USEL and UMOV carry the chosen source's poison, ULI the sign-extended immediate;
UCMP writes the bit qD alone. -/
def Obligations.UniformMoveAndCompareResults : Prop :=
  ∀ (x : Args) (s : State) (iss : Issuer) (t : Team) (g : Group) (f : Frag), g.stepping = none → badAddr (afterOf x f) = false →
    let a := g.srcU x.a
    let b := g.srcU x.b
    let put (o : Op) (i : Instr) (r : Option Nat) : Prop := Issues o x s iss t g f →
      Completes i s iss f (afterOf x f) fun h => UniformWrote g h x.d (if guardBad o x g then none else r) ∧ UniformFrame g h ∧ SameQ g h ∧ h.sp = g.sp
    (Issues .umad x s iss t g f →
      let c := g.srcU x.c
      let d := g.srcUHi x.c
      let r : BitVec 64 := a.val.signExtend 64 * b.val.signExtend 64 + (d.val ++ c.val)
      let bad := a.pois || b.pois || c.pois || d.pois || guardBad .umad x g
      Completes (.umad x) s iss f (afterOf x f) fun h =>
        UniformWrote2 g h x.d (if bad then none else some (r.extractLsb' 0 32).toNat) (if bad then none else some (r.extractLsb' 32 32).toNat) ∧
        UniformFrame g h ∧ SameQ g h ∧ h.sp = g.sp) ∧
    put .umov (.umov x) (if a.pois then none else some a.nat) ∧
    put .uli (.uli x) (some ((x.imm.extractLsb' 0 16).signExtend 32).toNat) ∧
    (∀ k : BitVec 3, x.c = .p k →
      put .usel (.usel x) (if g.qPois.getLsbD k.toNat then none else
        if g.q.getLsbD k.toNat then (if a.pois then none else some a.nat) else (if b.pois then none else some b.nat))) ∧
    (∀ k : BitVec 3, Issues .ucmp x s iss t g f → x.d = .p k → x.cond.toNat < 10 →
      Completes (.ucmp x) s iss f (afterOf x f) fun h =>
        h.q.getLsbD k.toNat = intCond x.cond.toNat a.val b.val ∧
        h.qPois.getLsbD k.toNat = (a.pois || b.pois || guardBad .ucmp x g) ∧
        (∀ j, j < 8 → j ≠ k.toNat → h.q.getLsbD j = g.q.getLsbD j ∧ h.qPois.getLsbD j = g.qPois.getLsbD j) ∧
        SameLane g h ∧ SameUniform g h ∧ h.p = g.p ∧ h.sh = g.sh ∧ SameAccesses g h ∧ h.sp = g.sp)

namespace Sys2Proof.Claims

/-- The special registers with their numbers and widths, LANE apart (R72). -/
def specialAt (sp : Special) (n : Nat) : Option (Nat × Bool) :=
  match n with
  | 1 => some (sp.groupid.toNat, false)
  | 2 => some (sp.teamid.toNat, false)
  | 3 => some (sp.cluid.toNat, false)
  | 4 => some (sp.gridpos.toNat, false)
  | 5 => some (sp.fragq.toNat, false)
  | 6 => some (sp.flags.toNat, false)
  | 7 => some (sp.trapcause.toNat, false)
  | 8 => some (sp.trappc.toNat, true)
  | 9 => some (sp.trapaddr.toNat, true)
  | 10 => some (sp.trapmask.toNat, false)
  | 11 => some (sp.seqstate.toNat, true)
  | 12 => some (sp.rngstate.toNat, true)
  | 13 => some (sp.step.toNat, false)
  | 0x10 | 0x11 | 0x12 | 0x13 => some ((sp.wpt.getD (n - 0x10) 0#64).toNat, true)
  | 0x18 | 0x19 | 0x1A | 0x1B | 0x1C | 0x1D | 0x1E | 0x1F => some ((sp.bpt.getD (n - 0x18) 0#64).toNat, true)
  | _ => none

/-- A special register with a value stored in its writable bits (R7, R42, R72, R205). -/
def specialPut (sp : Special) (n v : Nat) : Special :=
  let w (m : Nat) : Word := BitVec.ofNat 32 v &&& BitVec.ofNat 32 m
  let d : Dword := BitVec.ofNat 64 v
  match n with
  | 5 => { sp with fragq := BitVec.ofNat 32 v }
  | 6 => { sp with flags := w 0x3F }
  | 7 => { sp with trapcause := w 0xFF03FF }
  | 8 => { sp with trappc := d }
  | 9 => { sp with trapaddr := d }
  | 10 => { sp with trapmask := BitVec.ofNat 32 v }
  | 11 => { sp with seqstate := d &&& 0x9FF0003FFFFFFFFF#64 }
  | 12 => { sp with rngstate := if d = 0#64 then 1#64 else d }
  | 13 => { sp with step := w 0x1F01 }
  | _ => if n < 0x18 then { sp with wpt := listSet (n - 0x10) d sp.wpt }
    else { sp with bpt := listSet (n - 0x18) (d &&& 0x01FFFFFFFFFFFFFD#64) sp.bpt }

end Sys2Proof.Claims

/-- R72, R121, R123: SRR reads a special register, unpoisoned, into D; LANE is the lowest lane of EMASK. EMR reads EMASK. Both push. -/
def Sys2Proof.Claims.SpecialRegisterReadsHold : Prop :=
  ∀ (x : Args) (s : State) (iss : Issuer) (t : Team) (g : Group) (f : Frag), g.stepping = none → badAddr (afterOf x f) = false →
    let bad (o : Op) : Bool := guardBad o x g
    let rest (h : Group) : Prop := UniformFrame g h ∧ SameQ g h ∧ h.sp = g.sp
    (∀ v, Issues .srr x s iss t g f → specialAt g.sp (fldIdx x.a) = some (v, false) →
      Completes (.srr x) s iss f (afterOf x f) fun h => UniformWrote g h x.d (if bad .srr then none else some v) ∧ rest h) ∧
    (∀ v, Issues .srr x s iss t g f → specialAt g.sp (fldIdx x.a) = some (v, true) →
      Completes (.srr x) s iss f (afterOf x f) fun h =>
        UniformWrote2 g h x.d (if bad .srr then none else some (v % 2 ^ 32)) (if bad .srr then none else some (v / 2 ^ 32)) ∧ rest h) ∧
    (Issues .srr x s iss t g f → fldIdx x.a = 0 →
      Completes (.srr x) s iss f (afterOf x f) fun h => UniformWrote g h x.d (if bad .srr then none else some (lowest f.emask)) ∧ rest h) ∧
    (Issues .emr x s iss t g f →
      Completes (.emr x) s iss f (afterOf x f) fun h => UniformWrote g h x.d (if bad .emr then none else some f.emask.toNat) ∧ rest h)

/-- R7, R42, R67, R72, R123, R205, R240: SRW stores the writable bits of A in the special register D and changes no other; FRAGQ takes 1 to 255,
a watchpoint no reserved space, and RNGSTATE no zero. A value that FRAGQ or the watchpoint does not take is an illegal operand. While a step of the
group's tile sequence is being performed, one of SEQSTATE waits. -/
def Sys2Proof.Claims.SpecialRegisterWritesHold : Prop :=
  ∀ (x : Args) (s : State) (iss : Issuer) (t : Team) (g : Group) (f : Frag), Issues .srw x s iss t g f →
    let n := fldIdx x.d
    let wide := decide (n = 8 ∨ n = 9 ∨ n = 11 ∨ n = 12 ∨ 0x10 ≤ n)
    let v : Nat := (g.srcU x.a).nat + (if wide then 2 ^ 32 * (g.srcUHi x.a).nat else 0)
    let bad : Bool := decide (n = 5 ∧ ¬(1 ≤ v ∧ v ≤ 255)) || (decide (0x10 ≤ n ∧ n ≤ 0x13) && v.testBit 63 && decide (v / 2 ^ 59 % 4 = 3))
    5 ≤ n → (specialAt g.sp n).isSome →
    let waits : Bool := decide (n = 11) && g.frags.any fun k => match k.2.wait with | .tile _ (some _) _ => true | _ => false
    (bad = false → waits = false → g.stepping = none → badAddr (afterOf x f) = false →
      Completes (.srw x) s iss f (afterOf x f) fun h => h.sp = specialPut g.sp n v ∧ RegisterFrame g h) ∧
    (waits = true → exec (.srw x) s = .next s) ∧
    (bad = true → exec (.srw x) s =
      .next (takeTrap (countIssue s iss) iss f.pc (nextOf x f) (activeOf .srw x g f) { code := tcIllegalOperand }))

/-- R124: FLAGS delivers the old flags and leaves (old and not A) or B, of their bits 5:0; a poisoned operand leaves those bits open. -/
def Sys2Proof.Claims.FlagsReadsAndUpdatesHold : Prop :=
  ∀ (x : Args) (s : State) (iss : Issuer) (t : Team) (g : Group) (f : Frag), Issues .flags x s iss t g f → g.stepping = none →
    badAddr (afterOf x f) = false →
    let a := g.srcU x.a
    let b := g.srcU x.b
    Completes (.flags x) s iss f (afterOf x f) fun h =>
      UniformWrote g h x.d (if guardBad .flags x g then none else some g.sp.flags.toNat) ∧ UniformFrame g h ∧ SameQ g h ∧
      h.sp = { g.sp with flags := h.sp.flags } ∧
      (a.pois = false → b.pois = false → ∀ k, k < 32 → h.sp.flags.getLsbD k =
        if k < 6 then ((g.sp.flags.getLsbD k && !a.val.getLsbD k) || b.val.getLsbD k) else g.sp.flags.getLsbD k)

/-- R54, R121: EMW and EMAND leave EMASK the given lanes of OWN; with none left, the fragment parks at its join, or traps and keeps its
mask. -/
def Sys2Proof.Claims.MaskWritesHold : Prop :=
  ∀ (i : Instr) (o : Op) (x : Args) (s : State) (iss : Issuer) (t : Team) (g : Group) (f : Frag),
    i = .emw x ∧ o = .emw ∨ i = .emand x ∧ o = .emand → Issues o x s iss t g f → g.stepping = none → badAddr (afterOf x f) = false →
    let a := (g.srcU x.a).val
    let m : Mask := (if o = .emw then a else f.emask &&& a) &&& f.own
    (m ≠ 0#32 → Completes i s iss f (afterOf x f) fun h =>
      RegisterFrame g h ∧ h.sp = g.sp ∧ (f.jtop = none → ∃ f', mapGet? iss.entry h.frags = some f' ∧ f'.emask = m ∧ f'.own = f.own)) ∧
    (m = 0#32 → f.jtop = none → exec i s =
      .next (takeTrap (countIssue s iss) iss f.pc (nextOf x f) (activeOf o x g f) { code := tcProgram })) ∧
    (∀ j jn, m = 0#32 → f.jtop = some j → mapGet? j g.joins = some jn → g.inClause iss.entry = false → jn.jmask &&& ~~~(jn.arrived ||| f.own) ≠ 0#32 →
      Completes i s iss f (afterOf x f) fun h => RegisterFrame g h ∧ h.sp = g.sp ∧
        ∃ f', mapGet? iss.entry h.frags = some f' ∧ f'.parked = true ∧ f'.emask = 0#32 ∧ f'.pc = jn.rcv)

/-- R59, R106, R122, R129, R130: SHSET writes one word of a shape register with its poison, SHGET reads one, FSQ the format of a slot, and
ULDK words of the launch record or of the arguments, little-endian. -/
def Obligations.ShapeSlotAndLaunchReads : Prop :=
  ∀ (x : Args) (s : State) (iss : Issuer) (t : Team) (g : Group) (f : Frag), g.stepping = none → badAddr (afterOf x f) = false →
    let rest (h : Group) : Prop := UniformFrame g h ∧ SameQ g h ∧ h.sp = g.sp
    (∀ (d : BitVec 4) (w : Nat), Issues .shset x s iss t g f → x.d = .h d → w = fldIdx x.a →
      Completes (.shset x) s iss f (afterOf x f) fun h =>
        h.shape d.toNat = listSet w ⟨(g.srcU x.b).val, (g.srcU x.b).pois || guardBad .shset x g⟩ (g.shape d.toNat) ∧
        (∀ i, i ≠ d.toNat → h.shape i = g.shape i) ∧
        SameLane g h ∧ SameUniform g h ∧ SameQ g h ∧ h.p = g.p ∧ SameAccesses g h ∧ h.sp = g.sp) ∧
    (∀ a : BitVec 4, Issues .shget x s iss t g f → x.a = .h a →
      let y := (g.shape a.toNat).getD (fldIdx x.b) Elem.zero
      Completes (.shget x) s iss f (afterOf x f) fun h =>
        UniformWrote g h x.d (if guardBad .shget x g || y.pois then none else some y.nat) ∧ rest h) ∧
    (Issues .fsq x s iss t g f →
      Completes (.fsq x) s iss f (afterOf x f) fun h =>
        UniformWrote g h x.d (if guardBad .fsq x g then none else some (t.cfg.fs.getD x.fs.toNat 0)) ∧ rest h) ∧
    ((Instr.fsq x).wellFormed = true → x.long = false → x.fs = 0#3) ∧
    (∀ (d : BitVec 7) (l : Launch), Issues .uldk x s iss t g f → x.d = .s d → mapGet? t.cfg.launch s.launches = some l →
      let bs := if fldIdx x.a = 0 then l.rcd else l.args
      let n := fldIdx x.b
      x.m + 4 * n ≤ bs.length → x.m + 4 * n ≤ 4096 →
      Completes (.uldk x) s iss f (afterOf x f) fun h =>
        (∀ k, k < n → (h.sreg (d.toNat + k)).holds (if guardBad .uldk x g then none else
          some ((bs.getD (x.m + 4 * k) 0#8).toNat + 2 ^ 8 * (bs.getD (x.m + 4 * k + 1) 0#8).toNat + 2 ^ 16 * (bs.getD (x.m + 4 * k + 2) 0#8).toNat
            + 2 ^ 24 * (bs.getD (x.m + 4 * k + 3) 0#8).toNat))) ∧
        (∀ k, (k < d.toNat ∨ d.toNat + n ≤ k) → h.sreg k = g.sreg k) ∧ h.sl = g.sl ∧ rest h)

namespace Sys2Proof.Claims

/-- The target of the OFF24 layout: words from the instruction's own address (R79). -/
def targetOf (x : Args) (f : Frag) : Dword := f.pc + BitVec.ofInt 64 (4 * x.imm.toInt)

/-- The uniform registers that a call writes: s126:s127 and one latch hold the address after it (R112). -/
def LinkWrote (o : Op) (x : Args) (g h : Group) (f : Frag) : Prop :=
  let n := (nextOf x f).toNat
  UniformWrote2 g h (.s 126#7) (if guardBad o x g then none else some (n % 2 ^ 32)) (if guardBad o x g then none else some (n / 2 ^ 32))

end Sys2Proof.Claims

/-- R79, R108, R109, R111, R112: where a branch, a call and a return lead, with no loop step at the target (R62), and what a call links. -/
def Sys2Proof.Claims.BranchesReachTheirTargetsHold : Prop :=
  ∀ (x : Args) (s : State) (iss : Issuer) (t : Team) (g : Group) (f : Frag), g.stepping = none →
    let keep (h : Group) : Prop := RegisterFrame g h ∧ h.sp = g.sp
    let a := (g.srcUHi x.a).val ++ (g.srcU x.a).val
    let clean := (g.srcU x.a).pois = false ∧ (g.srcUHi x.a).pois = false
    let ok (p : Dword) : Prop := badAddr p = false ∧ p.extractLsb' 0 2 = 0#2
    (Issues .bra x s iss t g f → badAddr (targetOf x f) = false → Completes (.bra x) s iss f (targetOf x f) keep) ∧
    (∀ k : BitVec 3, Issues .bru x s iss t g f → x.c = .p k → (g.pred k.toNat).pois &&& f.emask = 0#32 →
      let set := (g.pred k.toNat).val &&& f.emask
      (set = f.emask → badAddr (targetOf x f) = false → Completes (.bru x) s iss f (targetOf x f) keep) ∧
      (set = 0#32 → badAddr (afterOf x f) = false → Completes (.bru x) s iss f (afterOf x f) keep) ∧
      (set ≠ 0#32 → set ≠ f.emask → exec (.bru x) s =
        .next (takeTrap (countIssue s iss) iss f.pc (nextOf x f) f.emask { code := tcProgram }))) ∧
    (Issues .brx x s iss t g f → clean → ok a → Completes (.brx x) s iss f a keep) ∧
    (Issues .call x s iss t g f → badAddr (targetOf x f) = false →
      Completes (.call x) s iss f (targetOf x f) fun h => LinkWrote .call x g h f ∧ UniformFrame g h ∧ SameQ g h ∧ h.sp = g.sp) ∧
    (Issues .callx x s iss t g f → clean → ok a →
      Completes (.callx x) s iss f a fun h => LinkWrote .callx x g h f ∧ UniformFrame g h ∧ SameQ g h ∧ h.sp = g.sp) ∧
    (Issues .ret x s iss t g f → (g.sreg 126).pois = false → (g.sreg 127).pois = false → ok ((g.sreg 127).val ++ (g.sreg 126).val) →
      Completes (.ret x) s iss f ((g.sreg 127).val ++ (g.sreg 126).val) keep)

/-- R64, R110: BRV whose lanes all take it, or none, moves the whole fragment; otherwise the taken lanes keep the entry and the others take
the lowest free one, at the next address, under a new join at X. -/
def Sys2Proof.Claims.BrvSplitsTheFragmentHold : Prop :=
  ∀ (x : Args) (s : State) (iss : Issuer) (t : Team) (g : Group) (f : Frag) (k : BitVec 3), Issues .brv x s iss t g f → g.stepping = none →
    x.c = .p k → (g.pred k.toNat).pois &&& f.emask = 0#32 →
    let set := (g.pred k.toNat).val &&& f.emask
    let join : Dword := f.pc + BitVec.ofNat 64 (4 * x.m)
    (set = 0#32 → badAddr (afterOf x f) = false → Completes (.brv x) s iss f (afterOf x f) fun h => RegisterFrame g h ∧ h.sp = g.sp) ∧
    (set ≠ 0#32 → f.own &&& ~~~set = 0#32 → badAddr (targetOf x f) = false →
      Completes (.brv x) s iss f (targetOf x f) fun h => RegisterFrame g h ∧ h.sp = g.sp) ∧
    (∀ j e, set ≠ 0#32 → f.emask &&& ~~~set ≠ 0#32 → f.own &&& ~~~set ≠ 0#32 → badAddr (targetOf x f) = false → badAddr (nextOf x f) = false →
      join ≠ targetOf x f → join ≠ nextOf x f → mapFree g.joins 0 32 = some j → mapFree g.frags 0 32 = some e →
      ∃ s' h fa fb, exec (.brv x) s = .next s' ∧ OnlyGroup s s' iss h ∧ RegisterFrame g h ∧ h.sp = g.sp ∧
        mapGet? iss.entry h.frags = some fa ∧ fa.own = set ∧ fa.emask = set ∧ fa.pc = targetOf x f ∧ fa.jtop = some j ∧ fa.parked = false ∧
        mapGet? e h.frags = some fb ∧ fb.own = f.own &&& ~~~set ∧ fb.emask = f.emask &&& ~~~set ∧ fb.pc = nextOf x f ∧ fb.jtop = some j ∧
        fb.parked = false ∧ fb.loop0 = f.loop0 ∧ fb.loop1 = f.loop1 ∧ mapGet? j h.joins = some ⟨join, f.own, 0#32, f.jtop⟩ ∧
        (∀ q, q ≠ iss.entry → q ≠ e → (mapGet? q h.frags).map (fun y => (y.own, y.emask, y.pc, y.parked, y.jtop)) =
          (mapGet? q g.frags).map fun y => (y.own, y.emask, y.pc, y.parked, y.jtop)))

/-- R66, R114: after EXIT no fragment and no join holds a lane of EMASK; the lanes of OWN that were masked off go on, active again, and a
fragment without a lane is freed. -/
def Obligations.ExitRemovesTheActiveLanes : Prop :=
  ∀ (x : Args) (s : State) (iss : Issuer) (t : Team) (g : Group) (f : Frag), Issues .exit x s iss t g f → g.stepping = none →
    badAddr (afterOf x f) = false → (s.core (t.core.getD 0)).openSlot iss.team iss.gix = none →
    let left := f.own &&& ~~~f.emask
    ∃ s' h, exec (.exit x) s = .next s' ∧ OnlyGroup s s' iss h ∧ RegisterFrame g h ∧ h.sp = g.sp ∧
      (∀ q ∈ h.frags, q.2.own &&& f.emask = 0#32) ∧ (∀ q ∈ h.joins, q.2.jmask &&& f.emask = 0#32) ∧
      (g.joins = [] → f.jtop = none → left ≠ 0#32 → ∃ f', mapGet? iss.entry h.frags = some f' ∧ f'.own = left ∧ f'.emask = left ∧
        f'.pc = afterOf x f) ∧
      (g.joins = [] → left = 0#32 → h.frags.map (fun q => (q.1, q.2.own)) =
        (g.frags.map fun q => (q.1, q.2.own &&& ~~~f.emask)).filter fun q => decide (q.2 ≠ 0#32))

/-- R62, R116, R117: LOOP with a count other than zero opens the lowest inactive level with the count, the next address and the target; with
a count of zero it goes to the address after the instruction at the target; LOOPBRK closes the innermost level; each traps where its rule
says. LOOP and LOOPBRK go to the next address but where they stand themselves at the end address of a level: there the loop step is made
with the levels they leave, which is the model's choice (log entry 53). -/
def Sys2Proof.Claims.LoopLevelsOpenAndCloseHold : Prop :=
  ∀ (x : Args) (s : State) (iss : Issuer) (t : Team) (g : Group) (f : Frag), g.stepping = none →
    let le := targetOf x f
    let opened (n : Word) : Frag := if f.loop0.active then { f with loop1 := ⟨true, n, nextOf x f, le⟩ } else { f with loop0 := ⟨true, n, nextOf x f, le⟩ }
    let closed : Frag := if f.loop1.active then { f with loop1 := Loop.off } else { f with loop0 := Loop.off }
    let atEnd (k : Frag) : Prop := k.loop0.active = true ∧ f.pc = k.loop0.le ∨ k.loop1.active = true ∧ f.pc = k.loop1.le
    let loopsOf (k : Frag) (h : Group) : Prop := f.jtop = none → ∃ f', mapGet? iss.entry h.frags = some f' ∧ f'.loop0 = k.loop0 ∧ f'.loop1 = k.loop1
    let c := g.srcU x.c
    let keep (h : Group) : Prop := RegisterFrame g h ∧ h.sp = g.sp
    let trap (o : Op) (i : Instr) : Prop := exec i s = .next (takeTrap (countIssue s iss) iss f.pc (nextOf x f) (activeOf o x g f) { code := tcProgram })
    (Issues .loop x s iss t g f → c.pois = false → badAddr le = false →
      ((le.toNat < (nextOf x f).toNat ∨ f.loop0.active = true ∧ f.loop1.active = true) → trap .loop (.loop x)) ∧
      ((nextOf x f).toNat ≤ le.toNat → (f.loop0.active && f.loop1.active) = false → c.nat ≠ 0 → badAddr (afterOf x f) = false →
        let k := loopStep (opened c.val) f.pc (nextOf x f)
        Completes (.loop x) s iss f k.2 (fun h => keep h ∧ loopsOf k.1 h) ∧ (¬atEnd f → k = (opened c.val, nextOf x f))) ∧
      (∀ i n, (nextOf x f).toNat ≤ le.toNat → c.nat = 0 → (f.loop0.active && f.loop1.active) = false →
        ((countIssue s iss).fetchInstr (t.core.getD 0) t.cfg.ctx t.cfg.launch le.toNat).2 = .ok i n →
        (match i.split with | some (o, y) => operandsLegal o y g t.cfg false | none => true) = true →
        badAddr (le + BitVec.ofNat 64 (4 * n)) = false →
        ∃ s' tm h, exec (.loop x) s = .next s' ∧ s'.group? iss.team iss.gix = some (tm, h) ∧ keep h ∧ loopsOf f h ∧
          (f.jtop = none → ∃ f', mapGet? iss.entry h.frags = some f' ∧ f'.pc = le + BitVec.ofNat 64 (4 * n)))) ∧
    (Issues .loopbrk x s iss t g f →
      (f.loop0.active = false → f.loop1.active = false → trap .loopbrk (.loopbrk x)) ∧
      ((f.loop0.active || f.loop1.active) = true →
        let k := loopStep closed f.pc (nextOf x f)
        badAddr k.2 = false →
        Completes (.loopbrk x) s iss f k.2 (fun h => keep h ∧ loopsOf k.1 h) ∧ (¬atEnd closed → k = (closed, nextOf x f))))

/-- R62: what a completing instruction at the end address of the loops does to them, the inner level first. -/
def Sys2Proof.Claims.LoopStepRuleHold : Prop :=
  ∀ (f : Frag) (a n : Dword),
    let end1 : Prop := f.loop1.active = true ∧ a = f.loop1.le
    let end0 : Prop := f.loop0.active = true ∧ a = f.loop0.le
    (end1 → f.loop1.lc ≠ 1#32 →
      loopStep f a n = ({ f with loop1 := { f.loop1 with lc := f.loop1.lc - 1#32 } }, f.loop1.ls)) ∧
    (end1 → f.loop1.lc = 1#32 → ¬end0 → loopStep f a n = ({ f with loop1 := Loop.off }, n)) ∧
    (end1 → f.loop1.lc = 1#32 → end0 → f.loop0.lc ≠ 1#32 →
      loopStep f a n = ({ f with loop1 := Loop.off, loop0 := { f.loop0 with lc := f.loop0.lc - 1#32 } }, f.loop0.ls)) ∧
    (¬end1 → end0 → f.loop0.lc ≠ 1#32 →
      loopStep f a n = ({ f with loop0 := { f.loop0 with lc := f.loop0.lc - 1#32 } }, f.loop0.ls)) ∧
    (¬end1 → end0 → f.loop0.lc = 1#32 → loopStep f a n = ({ f with loop0 := f.loop1, loop1 := Loop.off }, n)) ∧
    (end1 → f.loop1.lc = 1#32 → end0 → f.loop0.lc = 1#32 → loopStep f a n = ({ f with loop0 := Loop.off, loop1 := Loop.off }, n)) ∧
    (¬end1 → ¬end0 → loopStep f a n = (f, n))

/-- R57, R69, R70, R115, R118, R126, R127: CLAUSE records its checkpoint and empties every latch; NOP only advances; YIELD and SLEEP 0 end
the quantum; SLEEP waits until its clock, WAITC until its counter is at or below the threshold. -/
def Obligations.ClausesQuantaAndWaits : Prop :=
  ∀ (x : Args) (s : State) (iss : Issuer) (t : Team) (g : Group) (f : Frag), g.stepping = none → badAddr (afterOf x f) = false → f.jtop = none →
    let keep (h : Group) : Prop := RegisterFrame g h ∧ h.sp = g.sp
    let waits (w : Wait) (h : Group) : Prop := keep h ∧ ∃ f', mapGet? iss.entry h.frags = some f' ∧ f'.wait = w
    let yields (h : Group) : Prop := keep h ∧ ∀ e, g.nextReady g.cur = some e → h.cur = e ∧ h.issued = 0 ∧ h.quantum = g.sp.fragq.toNat
    (Issues .clause x s iss t g f → Completes (.clause x) s iss f (afterOf x f) fun h =>
      (∃ k, h.clause = some ⟨k, iss.entry, f.pc, fldIdx x.b, g.sp.flags, g.sp.rngstate⟩) ∧ h.bl = List.replicate 4 none ∧ h.sl = List.replicate 4 none ∧
      h.v = g.v ∧ h.s = g.s ∧ h.p = g.p ∧ SameQ g h ∧ h.sh = g.sh ∧ SameAccesses g h ∧ h.sp = g.sp) ∧
    (Issues .nop x s iss t g f → Completes (.nop x) s iss f (afterOf x f) keep) ∧
    (Issues .yield x s iss t g f → Completes (.yield x) s iss f (afterOf x f) yields) ∧
    (Issues .sleep x s iss t g f →
      ((g.srcU x.a).nat = 0 → Completes (.sleep x) s iss f (afterOf x f) yields) ∧
      ((g.srcU x.a).nat ≠ 0 → Completes (.sleep x) s iss f f.pc (waits (.sleep (s.clock + (g.srcU x.a).nat) x.bytes)))) ∧
    (Issues .waitc x s iss t g f →
      let p := fldIdx x.a
      let n := (g.srcU x.b).nat
      (63 ≤ n ∨ g.cnt.getD p 0 ≤ n → Completes (.waitc x) s iss f (afterOf x f) keep) ∧
      (n < 63 → n < g.cnt.getD p 0 → Completes (.waitc x) s iss f f.pc (waits (.path p n x.bytes))))

namespace Sys2Proof.Claims

/-- What taking a trap leaves of a group (R73, R74): the trap registers, the vector, every other fragment halted, but one in a clause, which
completes the clause first, and registers as they were. -/
structure TrapTaken (g h : Group) (iss : Issuer) (vector : Dword) (sp : Special) : Prop where
  special : h.sp = sp
  handler : h.handler = some iss.entry
  clause : h.clause = if g.inClause iss.entry then none else g.clause
  taker : ∃ f, mapGet? iss.entry h.frags = some f ∧ f.pc = vector ∧ f.halted = false ∧ f.wait = .none
  others : ∀ k f, k ≠ iss.entry → mapGet? k h.frags = some f → f.halted = true ∨ g.inClause iss.entry = false ∧ g.inClause k = true
  masks : h.frags.map (fun q => (q.1, q.2.own, q.2.emask)) = g.frags.map fun q => (q.1, q.2.own, q.2.emask)
  lane : SameLane g h
  uniform : SameUniform g h
  q : SameQ g h
  p : h.p = g.p
  sh : h.sh = g.sh

end Sys2Proof.Claims

/-- R70, R73, R74: taking a trap outside a handler, in a launch that has a vector. Outside a clause TRAPPC is the address given; in a clause
it is the CLAUSE, FLAGS and RNGSTATE are those of the checkpoint, and INCL is set, as it is for a fault that interrupted a clause. -/
def Sys2Proof.Claims.TrapEntryHold : Prop :=
  ∀ (s : State) (iss : Issuer) (t : Team) (g : Group) (f : Frag) (pc next : Dword) (act : Mask) (tr : Trap), Issuing s iss t g f →
    g.handler = none → t.cfg.trapv ≠ BitVec.allOnes 64 →
    let cause (incl : Bool) : Word := BitVec.ofNat 32 (tr.code + (if tr.pois then 2 ^ 8 else 0) + (if incl then 2 ^ 9 else 0) + 2 ^ 16 * iss.entry)
    (g.inClause iss.entry = false → ∃ h, OnlyGroup s (takeTrap s iss pc next act tr) iss h ∧ h.cnt = g.cnt ∧ h.flights = g.flights ∧
      TrapTaken g h iss t.cfg.trapv { g.sp with
        trapcause := cause tr.incl, trappc := if tr.pcNext then next else pc, trapaddr := tr.addr, trapmask := tr.mask.getD act }) ∧
    (∀ c, g.clause = some c → c.entry = iss.entry → ∃ h, OnlyGroup s (takeTrap s iss pc next act tr) iss h ∧
      TrapTaken g h iss t.cfg.trapv { g.sp with
        flags := c.flags, rngstate := c.rng
        trapcause := cause true, trappc := c.addr, trapaddr := tr.addr, trapmask := tr.mask.getD act })

/-- R74, R415: a trap in a handler, or in a launch without a vector, stops the group: every lane counts as exited. -/
def Sys2Proof.Claims.DoubleTrapStopsTheGroupHold : Prop :=
  ∀ (s : State) (iss : Issuer) (t : Team) (g : Group) (f : Frag) (pc next : Dword) (act : Mask) (tr : Trap), Issuing s iss t g f →
    g.handler.isSome ∨ t.cfg.trapv = BitVec.allOnes 64 →
    ∃ tm h, (takeTrap s iss pc next act tr).group? iss.team iss.gix = some (tm, h) ∧ h.stopped = true ∧ h.frags = [] ∧ h.joins = [] ∧
      SameLane g h ∧ SameUniform g h ∧ SameQ g h ∧ h.p = g.p ∧ h.sh = g.sh ∧ h.cnt = g.cnt ∧ h.sp = g.sp

/-- R125: TRAP and BRK trap with TRAPPC at the next address, TRAPMASK the active lanes, and TRAPADDR the operand of TRAP or zero. RTE
resumes the trapping fragment at TRAPPC and releases the halted ones; with single step (R208) only the stepped fragment may go on; outside a
handler RTE is a program error. -/
def Obligations.SoftwareTrapsAndReturn : Prop :=
  ∀ (x : Args) (s : State) (iss : Issuer) (t : Team) (g : Group) (f : Frag),
    let sp (code addr : Nat) : Special := { g.sp with
      trapcause := BitVec.ofNat 32 (code + 2 ^ 16 * iss.entry), trappc := nextOf x f, trapaddr := BitVec.ofNat 64 addr, trapmask := f.emask }
    let traps (i : Instr) (code addr : Nat) : Prop := g.handler = none → t.cfg.trapv ≠ BitVec.allOnes 64 → g.inClause iss.entry = false →
      ∃ s' h, exec i s = .next s' ∧ OnlyGroup s s' iss h ∧ TrapTaken g h iss t.cfg.trapv (sp code addr)
    (Issues .trap x s iss t g f → traps (.trap x) 4 (fldIdx x.b)) ∧
    (Issues .brk x s iss t g f → traps (.brk x) 5 0) ∧
    (Issues .rte x s iss t g f → g.handler = none → exec (.rte x) s =
      .next (takeTrap (countIssue s iss) iss f.pc (nextOf x f) (activeOf .rte x g f) { code := tcProgram })) ∧
    (Issues .rte x s iss t g f → g.handler = some iss.entry → f.jtop = none → g.clause = none → badAddr g.sp.trappc = false →
      g.sp.trappc.extractLsb' 0 2 = 0#2 → g.sp.step.getLsbD 0 = false →
      Completes (.rte x) s iss f g.sp.trappc fun h => RegisterFrame g h ∧ h.sp = g.sp ∧ h.handler = none ∧
        (∃ f', mapGet? iss.entry h.frags = some f' ∧ f'.exempt = true) ∧ (∀ q ∈ h.frags, q.2.halted = false)) ∧
    (∀ fs, Issues .rte x s iss t g f → g.handler = some iss.entry → f.jtop = none → g.clause = none → badAddr g.sp.trappc = false →
      g.sp.trappc.extractLsb' 0 2 = 0#2 → g.sp.step.getLsbD 0 = true →
      let en := (g.sp.step.extractLsb' 8 5).toNat
      mapGet? en g.frags = some fs → fs.parked = false →
      Completes (.rte x) s iss f g.sp.trappc fun h => RegisterFrame g h ∧ h.sp = g.sp ∧ h.handler = none ∧ h.stepping = some en ∧
        (∀ q ∈ h.frags, q.2.halted = decide (q.1 ≠ en)))

/-- R55, R69, R93, R105, R106: what the front of every instruction does when it does not reach its meaning: the traps of decoding in their
order, the interlock that holds an instruction whose register awaits a return, and a uniform instruction that its guard suppresses. -/
def Sys2Proof.Claims.IssueChecksHold : Prop :=
  ∀ (i : Instr) (o : Op) (x : Args) (s : State) (iss : Issuer) (t : Team) (g : Group) (f : Frag), i.split = some (o, x) →
    Issuing s iss t g f → t.core.isSome = true → f.ready = true → f.wait = .none →
    let traps (tr : Trap) : Prop := exec i s = .next (takeTrap (countIssue s iss) iss f.pc (nextOf x f) (activeOf o x g f) tr)
    let inC := g.inClause iss.entry
    (inC = true → o.barred = true → traps { code := 0x01 }) ∧
    ((inC && o.barred) = false → operandsLegal o x g t.cfg inC = false → traps { code := 0x02 }) ∧
    ((inC && o.barred) = false → operandsLegal o x g t.cfg inC = true → clauseEndOk g f iss.entry f.pc = false → traps { code := 0x03 }) ∧
    ((inC && o.barred) = false → operandsLegal o x g t.cfg inC = true → clauseEndOk g f iss.entry f.pc = true →
      (g.pending o x t.cfg.fs iss.entry = true → exec i s = .next s) ∧
      (g.pending o x t.cfg.fs iss.entry = false → guardBad o x g = true → isBranch o = true → traps { code := 0x18, pois := true }) ∧
      (g.pending o x t.cfg.fs iss.entry = false → o.uniform = true → (guardU g x).1 = true → (guardBad o x g && isBranch o) = false → g.stepping = none →
        badAddr (afterOf x f) = false → Completes i s iss f (afterOf x f) fun h => RegisterFrame g h ∧ h.sp = g.sp))

/-- R74, R94: an instruction that would go on at an address with a bit of 63:57 set takes a range trap instead, with TRAPADDR that address,
and does nothing else. -/
def Sys2Proof.Claims.NextAddressRangeTrapHold : Prop :=
  ∀ (i : Instr) (o : Op) (x : Args) (s : State) (iss : Issuer) (t : Team) (g : Group) (f : Frag),
    i.split = some (o, x) → laneInt o x ≠ none ∨ laneFloat o x ≠ none ∨ uniformInt o x ≠ none ∨ o = .nop → Issues o x s iss t g f →
    badAddr (afterOf x f) = true →
    exec i s = .next (takeTrap (countIssue s iss) iss f.pc (nextOf x f) (activeOf o x g f) { code := 0x16, addr := afterOf x f })

namespace Sys2Proof.Claims

/-- A team apart from its groups, a group apart from its accesses in flight. -/
def teamStill (t : Team) : Team := { t with groups := [] }
def groupStill (g : Group) : Group := { g with flights := [] }

/-- No fragment of the group waits. -/
def noneWaits (g : Group) : Bool := g.frags.all fun f => decide (f.2.wait = .none)

/-- Nothing holds back the issue of the group's accesses of a path: its counter is below 63 (R60), and no acquire through the windows is out
(R291). -/
def mayIssue (g : Group) (path : Nat) : Prop :=
  g.cnt.getD path 0 < 63 ∧ ∀ y ∈ g.flights, y.path = 3 → y.acq = false

/-- No watchpoint of the group is enabled (R205). -/
def unwatched (g : Group) : Bool := g.sp.wpt.all fun r => !r.getLsbD 63

/-- What issuing an access may touch: accesses in flight, the L1s and the queues of the cores, packets, what homes know of copies, cached
translations and fault buffers. Memory, the content of every slice, every other group's registers and every other unit stay; the group of
the issuer is h, with the property P, and its fragment, where it has no join, goes to `dest`. -/
structure Sends (s s' : State) (iss : Issuer) (f : Frag) (dest : Dword) (P : Group → Prop) : Prop where
  rest : s' = { s with
    teams := s'.teams, cores := s'.cores, slices := s'.slices, packets := s'.packets, seqs := s'.seqs, tlb := s'.tlb, faults := s'.faults
    nextId := s'.nextId, fresh := s'.fresh }
  slices : ∀ i, (s'.slice i).tags = (s.slice i).tags ∧ (s'.slice i).entries = (s.slice i).entries
  teams : ∀ k, (mapGet? k s'.teams).map teamStill = (mapGet? k s.teams).map teamStill
  groups : ∀ k j, (k ≠ iss.team ∨ j ≠ iss.gix) →
    (s'.group? k j).map (fun p => groupStill p.2) = (s.group? k j).map fun p => groupStill p.2
  own : ∃ tm h, s'.group? iss.team iss.gix = some (tm, h) ∧ P h ∧
    (f.jtop = none → ∃ f', mapGet? iss.entry h.frags = some f' ∧ f'.pc = dest)

/-- The registers of the group are as they were. -/
structure SameRegisters (g h : Group) : Prop where
  lane : SameLane g h
  uniform : SameUniform g h
  q : SameQ g h
  p : h.p = g.p
  sh : h.sh = g.sh
  sp : h.sp = g.sp

/-- One access more is counted on the path and stands in flight, with the destination, the lanes and the order of its instruction, and the
parts given: what each does, for which lanes, and where (R60). -/
structure Counted (g h : Group) (id path : Nat) (x : Args) (act : Mask) (dst : Dst) (parts : List (Act × List LaneReq × Target)) : Prop where
  regs : SameRegisters g h
  cnt : h.cnt = listUpd path (fun n => n + 1) g.cnt
  access : ∃ y ∈ h.flights, y.id = id ∧ y.path = path ∧ y.dst = dst ∧ y.mask = act ∧ y.acq = (mOrder x.m).testBit 0 ∧
    y.rel = (mOrder x.m).testBit 1 ∧ y.scope = mScope x.m ∧ y.parts.map (fun p => (p.req.act, p.req.lanes, p.req.tgt)) = parts

/-- A lane access by its instruction: width in bytes, what is done, whether B is an addend, the data operand with its registers, whether C
holds new values, the registers of D, and the column of R87 for an inline constant of the data. -/
structure Form where
  w : Nat
  act : Act
  addend : Bool
  data : Fld
  n : Nat
  new : Bool
  dst : Nat
  ty : CTy

/-- The forms of loads, stores and atomics (R189, R190, R286, R360): the code of the width in OPX, or the operation with W64. -/
def loadForm (c : Nat) : Form := ⟨(widthOf c).1, .load (widthOf c).1 (widthOf c).2, true, .none, 0, false, regsOfWidth c, .int⟩
def storeForm (x : Args) (c : Nat) : Form := ⟨(widthOf c).1, .store (widthOf c).1, true, x.c, regsOfWidth c, false, 0, .int⟩
def atomForm (x : Args) : Form :=
  let o := mOpx x.m
  ⟨4 * regsOfAtom o, .atom (o % 16) (o.testBit 4), false, x.b, regsOfAtom o, isCas o, regsOfAtom o, if o % 16 = 1 then .fp32 else .int⟩

/-- The scratchpad and window forms, with their paths; `mirror` for STM. -/
def nearForm (o : Op) (x : Args) : Option (Form × Nat × Bool) :=
  match o with
  | .lds => some (loadForm (mOpx x.m), 0, false)
  | .sts => some (storeForm x (mOpx x.m), 0, false)
  | .ats => some (atomForm x, 0, false)
  | .ldc => some (loadForm (mOpx x.m), 3, false)
  | .stc => some (storeForm x (mOpx x.m), 3, false)
  | .atc => some (atomForm x, 3, false)
  | .stm => some (storeForm x (mOpx x.m), 3, true)
  | _ => none

/-- The global and Granary forms, with their paths. -/
def farForm (o : Op) (x : Args) : Option (Form × Nat) :=
  match o with
  | .ld => some (loadForm (mOpx x.m % 8), 1)
  | .st => some (storeForm x (mOpx x.m % 8), 2)
  | .atom => some (atomForm x, 2)
  | .red => some ({ atomForm x with act := .red (mOpx x.m % 16) ((mOpx x.m).testBit 4), addend := true, data := x.c, new := false, dst := 0 }, 2)
  | .gld => some (loadForm (mOpx x.m % 8), 4)
  | .gst => some (storeForm x (mOpx x.m % 8), 4)
  | .gop => some ({ atomForm x with dst := if (mOpx x.m).testBit 5 then 0 else regsOfAtom (mOpx x.m) }, 4)
  | _ => none

/-- The elements of a data operand of n registers in a lane (R52, R87, R88). -/
def dataAt (g : Group) (ty : CTy) (f : Fld) (n l : Nat) : List Elem :=
  match n with
  | 0 => []
  | 1 => [laneAt (g.srcV ty f) l]
  | 2 => [laneAt (g.srcV ty f) l, laneAt (g.srcVHi ty f) l]
  | n => (List.range n).map fun j => match f with | .v r => laneAt (g.vreg (r.toNat + j)) l | _ => Elem.zero

/-- The address of a lane: 32 bits, or 64 with the addend sign-extended (R192, R363). -/
def near (g : Group) (x : Args) (fm : Form) (l : Nat) : Nat :=
  ((laneAt (g.srcV .int x.a) l).val + (if fm.addend then (laneAt (g.srcV .int x.b) l).val else 0#32)).toNat
def far (g : Group) (x : Args) (fm : Form) (l : Nat) : Nat :=
  (((laneAt (g.srcVHi .int x.a) l).val ++ (laneAt (g.srcV .int x.a) l).val) +
    (if fm.addend then (laneAt (g.srcV .int x.b) l).val.signExtend 64 else 0#64) : BitVec 64).toNat

/-- No address operand and no data of a lane is poisoned (R192, R363); `wide` where the base is a pair. -/
def cleanLane (g : Group) (x : Args) (fm : Form) (wide : Bool) (l : Nat) : Bool :=
  !(laneAt (g.srcV .int x.a) l).pois && !(wide && (laneAt (g.srcVHi .int x.a) l).pois) && !(fm.addend && (laneAt (g.srcV .int x.b) l).pois) &&
    (dataAt g fm.ty fm.data fm.n l ++ (if fm.new then dataAt g .int x.c fm.n l else [])).all fun e => !e.pois

/-- What each lane of a set brings to its access, lanes ascending. -/
def bring (g : Group) (x : Args) (fm : Form) (m : Mask) (addr : Nat → Nat) : List LaneReq :=
  (lanesOf m).map fun l => ⟨l, addr l, (dataAt g fm.ty fm.data fm.n l).map Elem.val, if fm.new then (dataAt g .int x.c fm.n l).map Elem.val else []⟩

/-- The first occurrence of each number of a list. -/
def firsts : List Nat → List Nat
  | [] => []
  | b :: bs => b :: (firsts bs).filter fun c => decide (c ≠ b)

/-- Where returning data goes. -/
def dstOf (x : Args) (n : Nat) : Dst := match x.d with | .v r => if n = 0 then .none else .v r.toNat n | _ => .none

end Sys2Proof.Claims

/-- R60, R189, R190, R192, R284 to R289: LDS, STS, ATS and the accesses through the windows of a cluster. With no active lane nothing is
counted; otherwise one access is, with a part for the scratchpad or for each member that it reaches, and no byte changes yet. -/
def Sys2Proof.Claims.ScratchpadAndWindowAccessesIssueHold : Prop :=
  ∀ (i : Instr) (o : Op) (x : Args) (s : State) (iss : Issuer) (t : Team) (g : Group) (f : Frag) (fm : Form) (path : Nat) (mirror : Bool),
    i.split = some (o, x) → nearForm o x = some (fm, path, mirror) → Issues o x s iss t g f → g.stepping = none →
    badAddr (afterOf x f) = false → noneWaits g = true →
    let act := guardV g x f.emask
    let ms := (envOf o x s iss t g f).members (countIssue s iss)
    let size := if path = 0 ∨ mirror then t.cfg.scratch else ms.length * t.cfg.scratch
    (act = 0#32 → Completes i s iss f (afterOf x f) fun h => RegisterFrame g h ∧ h.sp = g.sp) ∧
    (act ≠ 0#32 → mayIssue g path → unwatched g = true → (∀ l, l < 32 → inMask act l = true → cleanLane g x fm false l = true ∧
        near g x fm l % fm.w = 0 ∧ near g x fm l + fm.w ≤ size) →
      ∃ s', exec i s = .next s' ∧ Sends s s' iss f (afterOf x f) fun h =>
        Counted g h s.nextId path x act (dstOf x fm.dst)
          (if path = 0 then [(fm.act, bring g x fm act (near g x fm), .scratch iss.team)]
           else if mirror then ms.map fun m => (fm.act, bring g x fm act (near g x fm), .window m)
           else (List.range ms.length).filterMap fun j =>
             let m := maskOf fun l => inMask act l && decide (near g x fm l / 128 % ms.length = j)
             if m = 0#32 then none
             else some (fm.act, bring g x fm m fun l => 128 * (near g x fm l / (128 * ms.length)) + near g x fm l % 128, .window (ms.getD j 0))))

/-- R60, R363, R364: LD, ST, ATOM and RED. With no active lane nothing is counted; otherwise one access is, with the part for each line
that translation leaves (a part whose walk failed waits in the fault buffer, and stays counted; in a clause it interrupts the clause instead, R70). -/
def Obligations.GlobalAccessesIssue : Prop :=
  ∀ (i : Instr) (o : Op) (x : Args) (s : State) (iss : Issuer) (t : Team) (g : Group) (f : Frag) (fm : Form) (path : Nat),
    i.split = some (o, x) → farForm o x = some (fm, path) → path ≠ 4 → Issues o x s iss t g f → g.stepping = none →
    badAddr (afterOf x f) = false → noneWaits g = true →
    let act := guardV g x f.emask
    let s1 := countIssue s iss
    let e := envOf o x s iss t g f
    let acc : LaneAcc := ⟨fm.w, fm.act, far g x fm, fun _ => false,
      (List.range fm.n).map fun j => lanesTab fun l => (dataAt g fm.ty fm.data fm.n l).getD j Elem.zero,
      if fm.new then (List.range fm.n).map fun j => lanesTab fun l => (dataAt g .int x.c fm.n l).getD j Elem.zero else []⟩
    (act = 0#32 → Completes i s iss f (afterOf x f) fun h => RegisterFrame g h ∧ h.sp = g.sp) ∧
    (∀ s2 ps, act ≠ 0#32 → mayIssue g path → unwatched g = true → (∀ l, l < 32 → inMask act l = true → cleanLane g x fm true l = true ∧
        far g x fm l < 2 ^ 57 ∧ far g x fm l % fm.w = 0) →
      s1.resolveParts iss.team iss.gix (t.core.getD 0) s1.nextId (e.lineParts s1 acc (o = .ld && decide (mOpx x.m / 8 % 4 ≠ 1))) = some (s2, ps) →
      (g.inClause iss.entry && s2.parked iss.team iss.gix) = false →
      ∃ s', exec i s = .next s' ∧ Sends s s' iss f (afterOf x f) fun h =>
        Counted g h s.nextId path x act (dstOf x fm.dst) (ps.map fun p => (p.req.act, p.req.lanes, p.req.tgt)))

/-- R327, R363 to R365: GLD, GST and GOP. One access is counted, with a part for each bank that its lanes reach, at the physical address
of the tenant's window, and a refused part for the lanes beyond GSIZE. -/
def Sys2Proof.Claims.GranaryAccessesIssueHold : Prop :=
  ∀ (i : Instr) (o : Op) (x : Args) (s : State) (iss : Issuer) (t : Team) (g : Group) (f : Frag) (fm : Form),
    i.split = some (o, x) → farForm o x = some (fm, 4) → Issues o x s iss t g f → g.stepping = none →
    badAddr (afterOf x f) = false → noneWaits g = true →
    let act := guardV g x f.emask
    let base := s.granBase t.cfg.ctx
    let size := s.granSize t.cfg.ctx
    let inside := maskOf fun l => inMask act l && decide (near g x fm l + fm.w ≤ size)
    let outside := maskOf fun l => inMask act l && decide (size < near g x fm l + fm.w)
    let at_ (l : Nat) : Nat := (base + near g x fm l) % 2 ^ 27
    let bank (l : Nat) : Nat := at_ l / 1024 % 256
    (act = 0#32 → Completes i s iss f (afterOf x f) fun h => RegisterFrame g h ∧ h.sp = g.sp) ∧
    (act ≠ 0#32 → mayIssue g 4 → unwatched g = true → (∀ l, l < 32 → inMask act l = true → cleanLane g x fm false l = true ∧
        near g x fm l % fm.w = 0) →
      ∃ s', exec i s = .next s' ∧ Sends s s' iss f (afterOf x f) fun h =>
        Counted g h s.nextId 4 x act (dstOf x fm.dst)
          (((firsts ((lanesOf inside).map bank)).map fun b => (fm.act, bring g x fm (maskOf fun l => inMask inside l && decide (bank l = b)) at_, Target.bank b)) ++
           if outside = 0#32 then [] else [(fm.act, bring g x fm outside (near g x fm), .refused)]))

/-- R128, R371: SHLD and SHST make one access of 64 bytes at the base plus the sign-extended addend, SHST of the words as they stand; GUPD
one with a part for each bank of its range, in the order of its elements, and a refused part where the range passes GSIZE. -/
def Obligations.ShapeAndRangeAccessesIssue : Prop :=
  ∀ (x : Args) (s : State) (iss : Issuer) (t : Team) (g : Group) (f : Frag), g.stepping = none → badAddr (afterOf x f) = false →
    noneWaits g = true → unwatched g = true →
    let s1 := countIssue s iss
    let a : BitVec 64 := ((g.srcUHi x.a).val ++ (g.srcU x.a).val) + (g.srcU x.b).val.signExtend 64
    let clean := (g.srcU x.a).pois = false ∧ (g.srcUHi x.a).pois = false ∧ (g.srcU x.b).pois = false
    let one (o : Op) (act : Act) (data : List Word) : State × List Part → Prop := fun r =>
      s1.resolveParts iss.team iss.gix (t.core.getD 0) s1.nextId
        [((envOf o x s iss t g f).part s1 0 act [⟨0, a.toNat, data, []⟩] ⟨0, 0, false, t.cfg.ctx, a.toNat / 128 * 128⟩ .unit (o = .shld), 0)] = some r
    let parts (ps : List Part) : List (Act × List LaneReq × Target) := ps.map fun p => (p.req.act, p.req.lanes, p.req.tgt)
    (∀ (d : BitVec 4) s2 ps, Issues .shld x s iss t g f → x.d = .h d → clean → badAddr a = false → a.toNat % 64 = 0 → mayIssue g 1 →
      one .shld (.load 64 false) [] (s2, ps) → (g.inClause iss.entry && s2.parked iss.team iss.gix) = false →
      ∃ s', exec (.shld x) s = .next s' ∧ Sends s s' iss f (afterOf x f) fun h => Counted g h s.nextId 1 x f.emask (.sh d.toNat) (parts ps)) ∧
    (∀ (d : BitVec 4) s2 ps, Issues .shst x s iss t g f → x.d = .h d → clean → (g.shape d.toNat).all (fun e => !e.pois) = true →
      badAddr a = false → a.toNat % 64 = 0 → mayIssue g 2 → one .shst (.store 64) ((g.shape d.toNat).map Elem.val) (s2, ps) →
      (g.inClause iss.entry && s2.parked iss.team iss.gix) = false →
      ∃ s', exec (.shst x) s = .next s' ∧ Sends s s' iss f (afterOf x f) fun h => Counted g h s.nextId 2 x f.emask .none (parts ps)) ∧
    (∀ fmt, Issues .gupd x s iss t g f → slotFmt t.cfg.fs x.fs.toNat = some fmt →
      let op := x.m % 16
      let par := g.sregs x.c 16
      let word (i : Nat) : Nat := (par.getD i Elem.zero).nat
      let w := if op = 3 then 4 else fmtBytes fmt
      let n := (g.srcU x.b).nat
      let base := (g.srcU x.a).nat
      let size := s.granSize t.cfg.ctx
      let act : Act := .gupd op (x.m / 16 % 4) fmt.code n (par.map Elem.val) base
      (g.srcU x.a).pois = false → (g.srcU x.b).pois = false → (par.take (gupdWords op fmt)).all (fun e => !e.pois) = true → 1 ≤ n → n ≤ 2 ^ 24 →
      base % w = 0 → (op = 2 → word 1 % fmtBytes fmt = 0) → (op = 3 → word 0 % 4 = 0 ∧ word 1 % 4 = 0 ∧ word 2 % fmtBytes fmt = 0) → mayIssue g 4 →
      ∃ s', exec (.gupd x) s = .next s' ∧ Sends s s' iss f (afterOf x f) fun h => SameRegisters g h ∧
        h.cnt = listUpd 4 (fun n => n + 1) g.cnt ∧ ∃ y ∈ h.flights, y.id = s.nextId ∧ y.path = 4 ∧
          y.dst = (if op < 4 then .none else .s (fldIdx x.d) (if w = 8 then 2 else 1)) ∧
          y.parts.map (fun p => (p.req.act, p.req.tgt)) =
            ((bankOrder (s.granBase t.cfg.ctx) size base (w * n)).map fun b => (act, Target.bank b)) ++
              if size < base + w * n then [(act, .refused)] else [])

/-- R347, R368 to R370: PREF is not counted; CCTL counts one access on path 2, with a part for each line of its range, or for the slice that
QUERY asks; FENCE below cluster scope, with nothing in flight, writes its status, PENDING where a RED of the group has not reached its home, and clears
the failure record. -/
def Obligations.PrefetchCacheControlAndFence : Prop :=
  ∀ (x : Args) (s : State) (iss : Issuer) (t : Team) (g : Group) (f : Frag), g.stepping = none → badAddr (afterOf x f) = false →
    noneWaits g = true →
    let act := guardV g x f.emask
    let s1 := countIssue s iss
    let a : BitVec 64 := (g.srcUHi x.a).val ++ (g.srcU x.a).val
    let b := (g.srcU x.b).nat
    let clean := (g.srcU x.a).pois = false ∧ (g.srcUHi x.a).pois = false ∧ (g.srcU x.b).pois = false
    (Issues .pref x s iss t g f → (∀ l, l < 32 → inMask act l = true → (laneAt (g.srcV .int x.a) l).pois = false ∧
        (laneAt (g.srcVHi .int x.a) l).pois = false ∧ (laneAt (g.srcV .int x.b) l).pois = false) →
      ∃ s', exec (.pref x) s = .next s' ∧ Sends s s' iss f (afterOf x f) fun h => RegisterFrame g h ∧ h.sp = g.sp ∧ h.flights = g.flights) ∧
    (∀ i o op s2 ps, (i, o, op) ∈ [(Instr.cctlPin x, Op.cctlPin, 0), (.cctlUnpin x, .cctlUnpin, 1), (.cctlDiscard x, .cctlDiscard, 2), (.cctlClean x, .cctlClean, 3)] →
      Issues o x s iss t g f → clean → a.toNat % 128 = 0 → b % 128 = 0 → 128 ≤ b → b ≤ 2 ^ 31 → a.toNat + b ≤ 2 ^ 57 → mayIssue g 2 →
      (envOf o x s iss t g f).pages s1 (if op = 2 then permW else permR) a.toNat b = (s2, some (.ok ps)) →
      ∃ s', exec i s = .next s' ∧ Sends s s' iss f (afterOf x f) fun h => SameRegisters g h ∧ h.cnt = listUpd 2 (fun n => n + 1) g.cnt ∧
        ∃ y ∈ h.flights, y.id = s2.nextId ∧ y.path = 2 ∧ y.dst = .s (fldIdx x.d) 1 ∧
          y.parts.map (fun p => (p.req.act, p.req.place, p.req.tgt)) =
            (ps.flatMap fun p => linesOf p.1 p.2).map fun q => (.cctl op, (s2.target (.cctl op) q.1).1, (s2.target (.cctl op) q.1).2)) ∧
    (∀ s2 ps, Issues .cctlQuery x s iss t g f → clean → a.toNat % 128 = 0 → b ≤ 255 → a.toNat < 2 ^ 57 → mayIssue g 2 →
      (envOf .cctlQuery x s iss t g f).pages s1 permR a.toNat 1 = (s2, some (.ok ps)) →
      ∃ s', exec (.cctlQuery x) s = .next s' ∧ Sends s s' iss f (afterOf x f) fun h => SameRegisters g h ∧
        h.cnt = listUpd 2 (fun n => n + 1) g.cnt ∧ ∃ y ∈ h.flights, y.id = s2.nextId ∧ y.path = 2 ∧ y.dst = .s (fldIdx x.d) 2 ∧
          y.parts.map (fun p => p.req.act) = [.query ((ps.map fun p => p.1.key).headD 0)]) ∧
    (Issues .fence x s iss t g f → g.flights = [] → mScope x.m < 2 →
      ∃ s', exec (.fence x) s = .next s' ∧ Sends s s' iss f (afterOf x f) fun h => SameLane g h ∧ h.sl = g.sl ∧ SameQ g h ∧ h.p = g.p ∧
        h.sh = g.sh ∧ h.sp = g.sp ∧ h.cnt = g.cnt ∧ h.flights = [] ∧ h.fail = ⟨false, false, 0⟩ ∧
        (h.sreg (fldIdx x.d)).holds (if guardBad .fence x g then none else some ((if g.fail.lost || g.fail.refused then 2 ^ 31 else 0) +
          (if g.fail.lost then 2 ^ 30 else 0) + (if g.fail.refused then 2 ^ 29 else 0) +
          (if s.redsOut (t.core.getD 0) iss.team iss.gix then 2 ^ 28 else 0) + g.fail.count)) ∧
        (∀ k, k ≠ fldIdx x.d → h.sreg k = g.sreg k))

namespace Sys2Proof.Claims

/-- The byte that a store of w bytes leaves at an offset: of the highest lane that reaches it (R194). -/
def storedByte (lanes : List LaneReq) (w a : Nat) : Option Byte :=
  lanes.foldl (fun r q => if q.addr ≤ a ∧ a < q.addr + w then some (BitVec.ofNat 8 (ofWords q.data / 2 ^ (8 * (a - q.addr)))) else r) none

/-- A byte of a team's scratchpad: zero where nothing was written (R177). -/
def scratchByte (t : Team) (a : Nat) : Byte := (cellGet a t.scratch).getD 0#8
def scratchValue (t : Team) (a w : Nat) : Nat := ofBytes ((List.range w).map fun i => scratchByte t (a + i))

/-- A part of an access of a group has been performed: the words that came back for each lane given. -/
def Performed (s' : State) (tid gix fid pi : Nat) (words : Nat → Option (List Elem)) : Prop :=
  ∃ tm g y p, s'.group? tid gix = some (tm, g) ∧ g.flight? fid = some y ∧ y.parts[pi]? = some p ∧ p.st = .done ∧
    ∀ l ws, words l = some ws → mapGet? l y.got = some ws

/-- An access that a queue serves is part pi of access fid of a group, which has been sent whole. -/
def ServesPart (s : State) (r : Req) (tid gix fid pi : Nat) : Prop :=
  r.ret = .part tid gix fid pi ∧ ∃ tm g y p, s.group? tid gix = some (tm, g) ∧ g.flight? fid = some y ∧ y.path < 8 ∧ y.parts[pi]? = some p ∧
    ∀ q ∈ y.parts, q.st ≠ .todo

end Sys2Proof.Claims

/-- R177, R178, R193, R194: the oldest access of a core's scratchpad is performed: a load delivers the bytes, little-endian, and changes
none; of a store the highest lane's byte stands, and every other byte stays; an atomic takes its lanes as its rule combines them. -/
def Sys2Proof.Claims.ScratchpadServesTheOldestAccessHold : Prop :=
  ∀ (core tid gix fid pi : Nat) (op : ScrOp) (rest : List ScrOp) (s : State) (t : Team), (s.core core).scrQ = op :: rest →
    op.req.tgt = .scratch op.team → ServesPart s op.req tid gix fid pi → mapGet? op.team s.teams = some t → zeroWf t.scratch = true →
    t.scratchPois = [] → (op.req.lanes.map (·.lane)).Nodup →
    ∃ s' t', exec (.scratchpadAccessServed core) s = .next s' ∧ mapGet? op.team s'.teams = some t' ∧
      s'.hbm = s.hbm ∧ s'.hostMem = s.hostMem ∧ s'.granary = s.granary ∧
      (∀ k, k ≠ op.team → (mapGet? k s'.teams).map teamStill = (mapGet? k s.teams).map teamStill) ∧
      (∀ w sg, op.req.act = .load w sg → (∀ a, scratchByte t' a = scratchByte t a) ∧
        Performed s' tid gix fid pi fun l => (op.req.lanes.find? fun q => decide (q.lane = l)).map fun q =>
          (loadWords w sg (scratchValue t q.addr w)).map fun v => ⟨v, false⟩) ∧
      (∀ w, op.req.act = .store w → (∀ a, scratchByte t' a = (storedByte op.req.lanes w a).getD (scratchByte t a)) ∧
        Performed s' tid gix fid pi fun _ => none) ∧
      (∀ o w64 q, op.req.act = .atom o w64 → op.req.lanes = [q] →
        let w := if w64 then 8 else 4
        let old := scratchValue t q.addr w
        let new := (atomNew o w64 old (ofWords (q.data.take (w / 4))) (ofWords (q.new.take (w / 4)))).1
        (∀ a, scratchByte t' a = if q.addr ≤ a ∧ a < q.addr + w then BitVec.ofNat 8 (new / 2 ^ (8 * (a - q.addr))) else scratchByte t a) ∧
        Performed s' tid gix fid pi fun l => if l = q.lane then some ((toWords old (w / 4)).map fun v => ⟨v, false⟩) else none)

/-- R190: the atomic operations, in the two widths; FADD on 32 bits alone. -/
def Sys2Proof.Claims.AtomicOperationsHold : Prop :=
  ∀ (n : Nat) (old b c : Nat), n = 32 ∨ n = 64 → old < 2 ^ n → b < 2 ^ n → c < 2 ^ n →
    let w64 := decide (n = 64)
    let x := BitVec.ofNat n old
    let y := BitVec.ofNat n b
    let new (op : Nat) : Nat := (atomNew op w64 old b c).1
    new 0 = (x + y).toNat ∧
    (n = 32 → atomNew 1 w64 old b c = fp32.add .rne 0 old b) ∧
    new 2 = (if y.slt x then y else x).toNat ∧ new 3 = (if x.slt y then y else x).toNat ∧
    new 4 = (if y.ult x then y else x).toNat ∧ new 5 = (if x.ult y then y else x).toNat ∧
    new 6 = (x &&& y).toNat ∧ new 7 = (x ||| y).toNat ∧ new 8 = (x ^^^ y).toNat ∧ new 9 = b ∧
    new 10 = (if old = b then c else old) ∧ new 11 = (if b ≤ old then 0 else old + 1) ∧
    new 12 = (if old = 0 ∨ b < old then b else old - 1)

/-- R60, R105, R356: the oldest access of a path, once every part has been performed, writes its destination in its lanes, a missing
element as poison, lowers its counter and leaves; an access that is not done holds the path. -/
def Obligations.AccessReturnWritesTheDestination : Prop :=
  ∀ (tid gix path : Nat) (s : State) (t : Team) (g : Group) (y : Flight), s.group? tid gix = some (t, g) →
    g.flights.find? (fun f => decide (f.path = path)) = some y → path < 8 →
    (y.open_ = true → exec (.accessReturn tid gix path) s = .next s) ∧
    (y.open_ = false → noneWaits g = true →
      (∀ p ∈ y.parts, match p.req.act with | .load _ _ | .store _ | .atom _ _ | .red _ _ => True | _ => False) →
      let word (l j : Nat) : Option Nat := match (mapGet? l y.got).bind fun ws => ws[j]? with
        | some e => if e.pois then none else some e.nat
        | none => none
      ∃ s' tm h, exec (.accessReturn tid gix path) s = .next s' ∧ s'.group? tid gix = some (tm, h) ∧ teamStill tm = teamStill t ∧
        s'.hbm = s.hbm ∧ s'.hostMem = s.hostMem ∧ s'.granary = s.granary ∧
        h.cnt = listUpd path (fun n => n - 1) g.cnt ∧ h.p = g.p ∧ SameQ g h ∧ h.bl = g.bl ∧ h.sl = g.sl ∧
        h.sp = { g.sp with flags := g.sp.flags ||| BitVec.ofNat 32 (y.flags % 64) } ∧
        (h.flights.filter fun f => decide (f.path < 8)).map (·.id) =
          (removeFirst (fun f : Flight => decide (f.id = y.id)) g.flights |>.filter fun f => decide (f.path < 8)).map (·.id) ∧
        (∀ r n, y.dst = .v r n → QuadWrote g h r n y.mask word ∧ h.s = g.s ∧ h.sh = g.sh) ∧
        (∀ r n, y.dst = .s r n → h.v = g.v ∧ h.sh = g.sh ∧ (∀ j, j < n → (h.sreg (r + j)).holds (if y.gp then none else word 0 j)) ∧
          ∀ k, (k < r ∨ r + n ≤ k) → h.sreg k = g.sreg k) ∧
        (∀ i, y.dst = .sh i → h.v = g.v ∧ h.s = g.s ∧ (∀ j, j < 16 → Elem.holds ((h.shape i).getD j Elem.zero) (if y.gp then none else word 0 j)) ∧
          ∀ k, k ≠ i → h.shape k = g.shape k) ∧
        (y.dst = .none → h.v = g.v ∧ h.s = g.s ∧ h.sh = g.sh))

namespace Sys2Proof.Claims

/-- The instruction acts on a barrier word of its team: nothing else of the machine changes but its group and the words. -/
structure BarsOnly (s s' : State) (iss : Issuer) (t : Team) (bars : List BarWord) (h : Group) : Prop where
  rest : s' = { s with teams := s'.teams, fresh := s'.fresh }
  teams : ∀ k, k ≠ iss.team → mapGet? k s'.teams = mapGet? k s.teams
  team : ∃ gs, mapGet? iss.team s'.teams = some { t with groups := gs, bars := bars } ∧
    (∀ k, k ≠ iss.gix → mapGet? k gs = mapGet? k t.groups) ∧ mapGet? iss.gix gs = some h

/-- No fragment of a team waits. -/
def teamRests (t : Team) : Bool := t.groups.all fun g => noneWaits g.2

end Sys2Proof.Claims

/-- R181, R197, R198, R201, R202: the named barriers. INIT gives the word its count and keeps its phase, INV invalidates it, WT waits while
the phase is the one named, TRY tests the same; a number beyond NBAR or a word that is not valid is a program error, a broken word the
barrier-error trap. -/
def Obligations.NamedBarrierInstructions : Prop :=
  ∀ (x : Args) (s : State) (iss : Issuer) (t : Team) (g : Group) (f : Frag), g.stepping = none → badAddr (afterOf x f) = false → f.jtop = none →
    let b := (g.srcU x.a).nat
    let v := (g.srcU x.b).nat
    let w := t.bars.getD b BarWord.zero
    let clean := (g.srcU x.a).pois = false ∧ (g.srcU x.b).pois = false
    let keep (h : Group) : Prop := RegisterFrame g h ∧ h.sp = g.sp
    let usable := w.valid = true ∧ w.broken = false
    let traps (o : Op) (i : Instr) (code : Nat) : Prop :=
      exec i s = .next (takeTrap (countIssue s iss) iss f.pc (nextOf x f) (activeOf o x g f) { code := code })
    let word (i : Instr) (w' : BarWord) : Prop := ∃ s' h f', exec i s = .next s' ∧ BarsOnly s s' iss t (listSet b w' t.bars) h ∧ keep h ∧
      mapGet? iss.entry h.frags = some f' ∧ f'.pc = afterOf x f
    (Issues .barInit x s iss t g f → clean →
      (b < t.cfg.nbar → 1 ≤ v → v ≤ 32 → teamRests t = true →
        word (.barInit x) { w with valid := true, broken := false, expect := v, arrived := 0#32 }) ∧
      (t.cfg.nbar ≤ b ∨ v = 0 ∨ 32 < v → traps .barInit (.barInit x) 0x03)) ∧
    (Issues .barInv x s iss t g f → (g.srcU x.a).pois = false →
      (b < t.cfg.nbar → usable → teamRests t = true → word (.barInv x) { w with valid := false }) ∧
      (t.cfg.nbar ≤ b ∨ (w.valid = false ∧ w.broken = false) → traps .barInv (.barInv x) 0x03) ∧
      (b < t.cfg.nbar → w.broken = true → traps .barInv (.barInv x) 0x19)) ∧
    (Issues .barWt x s iss t g f → clean → b < t.cfg.nbar →
      (usable → w.phase ≠ v % 65536 → Completes (.barWt x) s iss f (afterOf x f) keep) ∧
      (usable → w.phase = v % 65536 → Completes (.barWt x) s iss f f.pc fun h => keep h ∧
        ∃ f', mapGet? iss.entry h.frags = some f' ∧ f'.wait = .barrier b w.phase x.bytes) ∧
      (w.broken = true → traps .barWt (.barWt x) 0x19)) ∧
    (∀ k : BitVec 3, Issues .barTry x s iss t g f → x.d = .p k → clean → b < t.cfg.nbar →
      (usable → Completes (.barTry x) s iss f (afterOf x f) fun h =>
        h.q.getLsbD k.toNat = decide (w.phase ≠ v % 65536) ∧ h.qPois.getLsbD k.toNat = guardBad .barTry x g ∧
        (∀ j, j < 8 → j ≠ k.toNat → h.q.getLsbD j = g.q.getLsbD j ∧ h.qPois.getLsbD j = g.qPois.getLsbD j) ∧
        SameLane g h ∧ SameUniform g h ∧ h.p = g.p ∧ h.sh = g.sh ∧ SameAccesses g h ∧ h.sp = g.sp) ∧
      (w.broken = true → traps .barTry (.barTry x) 0x19))

/-- R200, R293 to R295: an arrival makes its fragment wait until it is applied, and a wait on a cluster barrier waits while the phase is the
one named; the issue changes no word, and no memory. -/
def Sys2Proof.Claims.ArrivalsAndClusterBarriersIssueHold : Prop :=
  ∀ (x : Args) (s : State) (iss : Issuer) (t : Team) (g : Group) (f : Frag) (c : Cluster), g.stepping = none → badAddr (afterOf x f) = false →
    f.jtop = none → mapGet? t.cluster s.clusters = some c → noneWaits g = true →
    let b := (g.srcU x.a).nat
    let v := (g.srcU x.b).nat
    let w := t.bars.getD b BarWord.zero
    let cw := c.bars.getD b BarWord.zero
    let arrives (o : Op) (i : Instr) (wait : Wait) : Prop := ∃ s', exec i s = .next s' ∧ Sends s s' iss f f.pc fun h =>
      SameRegisters g h ∧ h.cnt = g.cnt ∧ (∃ f', mapGet? iss.entry h.frags = some f' ∧ f'.wait = wait) ∧
        (h.flights.filter fun y => decide (y.path < 8)).map (·.id) = (g.flights.filter fun y => decide (y.path < 8)).map (·.id) ∧
        (∃ y ∈ h.flights, y.path = 8 ∧ y.entry = iss.entry ∧ y.id = s.nextId ∧ y.parts = [] ∧ y.lines = 0) ∧ o.uniform = true
    (Issues .barArv x s iss t g f → (g.srcU x.a).pois = false → b < t.cfg.nbar → w.valid = true → w.broken = false →
      arrives .barArv (.barArv x) (.arrive b (fldIdx x.d) (mOrder x.m) (mScope x.m) x.bytes (guardBad .barArv x g))) ∧
    (Issues .cbarArv x s iss t g f → (g.srcU x.a).pois = false → b < c.bars.length → cw.broken = false →
      arrives .cbarArv (.cbarArv x) (.carrive b (fldIdx x.d) (mOrder x.m) (mScope x.m) x.bytes (guardBad .cbarArv x g))) ∧
    (Issues .cbarWt x s iss t g f → (g.srcU x.a).pois = false → (g.srcU x.b).pois = false → b < c.bars.length → cw.broken = false →
      (cw.phase ≠ v % 65536 → Completes (.cbarWt x) s iss f (afterOf x f) fun h => RegisterFrame g h ∧ h.sp = g.sp) ∧
      (cw.phase = v % 65536 → Completes (.cbarWt x) s iss f f.pc fun h => RegisterFrame g h ∧ h.sp = g.sp ∧
        ∃ f', mapGet? iss.entry h.frags = some f' ∧ f'.wait = .cluster b cw.phase x.bytes)) ∧
    (∀ o i, (o, i) ∈ [(Op.cbarArv, Instr.cbarArv x), (.cbarWt, .cbarWt x)] → Issues o x s iss t g f → (g.srcU x.a).pois = false → c.bars.length ≤ b →
      exec i s = .next (takeTrap (countIssue s iss) iss f.pc (nextOf x f) (activeOf o x g f) { code := 0x03 }))

namespace Sys2Proof.Claims

/-- A word after an arrival of member i is counted (R181): the phase completes when EXPECT have arrived. -/
def arrived (w : BarWord) (i : Nat) : BarWord :=
  let a := w.arrived ||| BitVec.ofNat 32 (2 ^ i)
  if laneCount a = w.expect then { w with phase := (w.phase + 1) % 65536, arrived := 0#32 } else { w with arrived := a }

/-- The fragment that waited for its arrival has its status and goes on. -/
def Arrived (s' : State) (tid gix entry : Nat) (f : Frag) (g : Group) (d len : Nat) (gp : Bool) (status : Nat) : Prop :=
  ∃ tm h f', s'.group? tid gix = some (tm, h) ∧ (h.sreg d).holds (if gp then none else some status) ∧ (∀ k, k ≠ d → h.sreg k = g.sreg k) ∧
    h.v = g.v ∧ h.p = g.p ∧ SameQ g h ∧ h.bl = g.bl ∧ h.sl = g.sl ∧ h.sh = g.sh ∧ h.cnt = g.cnt ∧ h.sp = g.sp ∧
    mapGet? entry h.frags = some f' ∧ f'.wait = .none ∧ f'.pc = (loopStep f f.pc (f.pc + BitVec.ofNat 64 len)).2

end Sys2Proof.Claims

/-- R181, R199, R200, R293, R294: an arrival that may be applied is counted, or refused where its group (for a cluster barrier, its member)
has arrived in this phase; the status is the phase, with REFUSED in bit 31. A word that is broken or not valid traps the fragment. -/
def Sys2Proof.Claims.ArrivalEventsHold : Prop :=
  ∀ (tid gix entry b d order scope len : Nat) (gp : Bool) (s : State) (t : Team) (g : Group) (f : Frag) (y : Flight),
    s.group? tid gix = some (t, g) → t.core.isSome = true → g.frags = [(entry, f)] → f.jtop = none → f.halted = false → len ≠ 0 → g.stepping = none →
    (f.wait = .arrive b d order scope len gp → arrivalReady s (t.core.getD 0) g entry order scope false = some y →
      (t.groups.all fun q => q.2.frags.all fun z => !waitsOn b z.2.wait) = true →
      let w := t.bars.getD b BarWord.zero
      (w.valid = true → w.broken = false → ∃ s' tm, exec (.barrierArrival tid gix entry) s = .next s' ∧ mapGet? tid s'.teams = some tm ∧
        tm.bars = (if inMask w.arrived gix then t.bars else listSet b (arrived w gix) t.bars) ∧
        Arrived s' tid gix entry f g d len gp (if inMask w.arrived gix then 2 ^ 31 + w.phase else w.phase)) ∧
      (w.valid = false ∨ w.broken = true → ∃ s' tm h, exec (.barrierArrival tid gix entry) s = .next s' ∧ s'.group? tid gix = some (tm, h) ∧
        tm.bars = t.bars ∧ h.frags = [(entry, { f with wait := .none, pendTrap := some (if w.broken then 0x19 else 0x03) })])) ∧
    (∀ c, f.wait = .carrive b d order scope len gp → arrivalReady s (t.core.getD 0) g entry order scope true = some y →
      mapGet? t.cluster s.clusters = some c →
      (c.teams.all fun k => match mapGet? k s.teams with
        | some u => u.groups.all fun q => q.2.frags.all fun z => match z.2.wait with | .cluster b' _ _ => decide (b' ≠ b) | _ => true
        | none => true) = true →
      let w := c.bars.getD b BarWord.zero
      (w.broken = false → ∃ s' c', exec (.clusterBarrierArrival tid gix entry) s = .next s' ∧ mapGet? t.cluster s'.clusters = some c' ∧
        c'.bars = (if inMask w.arrived t.tix then c.bars else listSet b (arrived w t.tix) c.bars) ∧
        Arrived s' tid gix entry f g d len gp (if inMask w.arrived t.tix then 2 ^ 31 + w.phase else w.phase)))

/-- R211, R212: the debug unit. SEND and RECV move words of the core's mailboxes for the owner; a full mailbox holds SEND; STAT, and the
split-table modes, deliver what the table holds, zero for an entry that is not valid; no result is pushed. -/
def Sys2Proof.Claims.DebugUnitInstructionsHold : Prop :=
  ∀ (x : Args) (s : State) (iss : Issuer) (t : Team) (g : Group) (f : Frag) (d : BitVec 7), g.stepping = none → badAddr (afterOf x f) = false →
    let c := t.core.getD 0
    let r := s.reg (0x00400000 + 0x40 * c)
    let owns := r.testBit 63 && decide (r % 64 = t.cfg.ctx)
    let a := g.srcU x.a
    let frame (h : Group) : Prop := SameLane g h ∧ h.sl = g.sl ∧ SameQ g h ∧ h.p = g.p ∧ h.sh = g.sh ∧ SameAccesses g h ∧ h.sp = g.sp
    let delivers (o : Op) (i : Instr) (v : Nat) : Prop := Issues o x s iss t g f → x.d = .s d → Completes i s iss f (afterOf x f) fun h =>
      (h.sreg d.toNat).holds (if guardBad o x g then none else some v) ∧ (∀ k, k ≠ d.toNat → h.sreg k = g.sreg k) ∧ frame h
    let part (v : Frag → Nat) : Nat := match mapGet? a.nat g.frags with | some q => v q | none => 0
    let mail (s' : State) (mo mi : List Word) (h : Group) : Prop :=
      s' = { s with teams := s'.teams, cores := s'.cores, fresh := s'.fresh } ∧
      s'.core c = { s.core c with dbgOut := mo, dbgIn := mi } ∧ (∀ k, k ≠ c → s'.core k = s.core k) ∧
      (∃ tm, s'.group? iss.team iss.gix = some (tm, h)) ∧ (f.jtop = none → ∃ f', mapGet? iss.entry h.frags = some f' ∧ f'.pc = afterOf x f)
    (Issues .dbgmSend x s iss t g f → owns = true → a.pois = false →
      ((s.core c).dbgOut.length < 16 → ∃ s' h, exec (.dbgmSend x) s = .next s' ∧
        mail s' ((s.core c).dbgOut ++ [a.val]) (s.core c).dbgIn h ∧ RegisterFrame g h ∧ h.sp = g.sp) ∧
      (16 ≤ (s.core c).dbgOut.length → exec (.dbgmSend x) s = .next s)) ∧
    (Issues .dbgmRecv x s iss t g f → owns = true → x.d = .s d → ∃ s' h, exec (.dbgmRecv x) s = .next s' ∧
      mail s' (s.core c).dbgOut ((s.core c).dbgIn.drop 1) h ∧
      (h.sreg d.toNat).holds (if guardBad .dbgmRecv x g then none else some (((s.core c).dbgIn.headD 0#32).toNat)) ∧
      (∀ k, k ≠ d.toNat → h.sreg k = g.sreg k) ∧ frame h) ∧
    (∀ o i, (o, i) ∈ [(Op.dbgmSend, Instr.dbgmSend x), (.dbgmRecv, .dbgmRecv x)] → Issues o x s iss t g f → owns = false →
      exec i s = .next (takeTrap (countIssue s iss) iss f.pc (nextOf x f) (activeOf o x g f) { code := 0x03 })) ∧
    delivers .dbgmStat (.dbgmStat x) (if owns then 2 ^ 16 + 2 ^ 8 * (s.core c).dbgIn.length + (s.core c).dbgOut.length else 0) ∧
    (a.pois = false → a.nat < 32 →
      delivers .dbgmFown (.dbgmFown x) (part fun q => q.own.toNat) ∧
      delivers .dbgmFmask (.dbgmFmask x) (part fun q => q.emask.toNat) ∧
      delivers .dbgmFinfo (.dbgmFinfo x) (part fun q => 2 ^ 16 + (match q.jtop with | some j => 2 ^ 8 * j | none => 2 ^ 15) +
        (if q.parked then 1 else if s.parked iss.team iss.gix then 2 else if q.wait ≠ .none then 4 else if q.halted then 3 else 0)) ∧
      delivers .dbgmJmask (.dbgmJmask x) (match mapGet? a.nat g.joins with | some j => j.jmask.toNat | none => 0) ∧
      (Issues .dbgmFpc x s iss t g f → x.d = .s d → Completes (.dbgmFpc x) s iss f (afterOf x f) fun h =>
        (h.sreg d.toNat).holds (if guardBad .dbgmFpc x g then none else some (part (fun q => q.pc.toNat) % 2 ^ 32)) ∧
        (h.sreg (d.toNat + 1)).holds (if guardBad .dbgmFpc x g then none else some (part (fun q => q.pc.toNat) / 2 ^ 32)) ∧
        (∀ k, k ≠ d.toNat → k ≠ d.toNat + 1 → h.sreg k = g.sreg k) ∧ frame h))

/-- R211, R213, R214: the registers of the debug unit. DBGOWN and CLR empty both mailboxes, DBGOUT removes and delivers the oldest outbound
word, DBGIN appends one or sets INOVF and reads as the last value written, HALT marks the groups of the owner on the core, whose sequences stop. -/
def Sys2Proof.Claims.DebugRegisterEventsHold : Prop :=
  ∀ (c : Nat) (v : Dword) (s : State),
    let k := s.core c
    (∃ s', exec (.dbgownWrite c v) s = .next s' ∧ s' = { s with cores := s'.cores, regs := s'.regs } ∧
      s'.core c = { k with dbgOut := [], dbgIn := [] } ∧ (∀ i, i ≠ c → s'.core i = s.core i) ∧
      s'.reg (0x00400000 + 0x40 * c) = (v &&& 0x800000000000003F#64).toNat) ∧
    (∃ s', exec (.dbgctlClr c) s = .next s' ∧ s' = { s with cores := s'.cores } ∧ s'.core c = { k with dbgOut := [], dbgIn := [] } ∧
      ∀ i, i ≠ c → s'.core i = s.core i) ∧
    (∃ s', exec (.dbgoutRead c) s = .next s' ∧ s' = { s with cores := s'.cores, answer := s'.answer } ∧
      s'.core c = { k with dbgOut := k.dbgOut.drop 1 } ∧ (∀ i, i ≠ c → s'.core i = s.core i) ∧
      s'.answer = toBytes (match k.dbgOut with | [] => 0 | w :: _ => 2 ^ 32 + w.toNat) 8) ∧
    (∃ s', exec (.dbginWrite c v) s = .next s' ∧ s' = { s with cores := s'.cores } ∧ (∀ i, i ≠ c → s'.core i = s.core i) ∧
      s'.core c = (if 16 ≤ k.dbgIn.length then { k with inovf := true, dbgData := v.extractLsb' 0 32 }
        else { k with dbgIn := k.dbgIn ++ [v.extractLsb' 0 32], dbgData := v.extractLsb' 0 32 })) ∧
    (∃ s', exec (.dbgctlHalt c) s = .next s' ∧ s' = { s with teams := s'.teams } ∧
      ∀ i t, mapGet? i s.teams = some t →
        let mine := t.core = some c ∧ (s.reg (0x00400000 + 0x40 * c)).testBit 63 = true ∧ t.cfg.ctx = s.reg (0x00400000 + 0x40 * c) % 64
        ∃ t', mapGet? i s'.teams = some t' ∧ teamStill t' = teamStill t ∧ ∀ j g, mapGet? j t.groups = some g →
          ∃ h, mapGet? j t'.groups = some h ∧ (¬mine → h = g) ∧
            (mine → h = { g with
              haltPending := !g.frags.isEmpty
              frags := g.frags.map fun q => (q.1, match q.2.wait with | .tile _ _ _ => { q.2 with wait := .none } | _ => q.2) }))

/-- R62, R63, R67, R75, R126, R175: the events of a group: its quantum runs out and the port moves on; it has starved; a sleep ends; its last
lane has exited and its paths are drained, and it leaves its slot. -/
def Obligations.GroupTimingEvents : Prop :=
  ∀ (tid gix entry : Nat) (s : State) (t : Team) (g : Group), s.group? tid gix = some (t, g) →
    let iss : Issuer := ⟨tid, gix, entry⟩
    (∀ e, g.quantum ≤ g.issued → g.clause = none → g.nextReady g.cur = some e → ∃ s', exec (.fragqQuantumExpiry tid gix) s = .next s' ∧
      OnlyGroup s s' iss { g with cur := e, issued := 0, quantum := g.sp.fragq.toNat, age := s.clock }) ∧
    (g.issued < g.quantum ∨ g.clause.isSome = true → exec (.fragqQuantumExpiry tid gix) s = .next s) ∧
    (∃ s', exec (.starvationTimeout tid gix) s = .next s' ∧ OnlyGroup s s' iss { g with
      starved := g.starved || decide (4096 ≤ g.unselected) || decide (4096 ≤ g.unselectedU) }) ∧
    (∀ f till len, mapGet? entry g.frags = some f → f.wait = .sleep till len → till ≤ s.clock → f.jtop = none → f.halted = false → len ≠ 0 → g.stepping = none →
      ∃ s' h, exec (.sleepExpiry tid gix entry) s = .next s' ∧ OnlyGroup s s' iss h ∧ RegisterFrame g h ∧ h.sp = g.sp ∧
        ∃ f', mapGet? entry h.frags = some f' ∧ f'.wait = .none ∧ f'.pc = (loopStep f f.pc (f.pc + BitVec.ofNat 64 len)).2) ∧
    (∀ f till len, mapGet? entry g.frags = some f → f.wait = .sleep till len → s.clock < till → exec (.sleepExpiry tid gix entry) s = .next s) ∧
    (∀ l, g.frags = [] → g.flights = [] → (∀ p, p < 7 → g.cnt.getD p 0 = 0) → g.kind = .compute → t.core.isSome = true →
      g.stopped = true ∨ g.holdsPoison t.cfg.k = false → mapGet? t.cfg.launch s.launches = some l → mapSorted t.groups = true →
      mapSorted s.teams = true →
      ∃ s', exec (.groupRetire tid gix) s = .next s' ∧ s'.group? tid gix = none ∧ s'.hbm = s.hbm ∧ s'.regs = s.regs ∧
        ∃ l', mapGet? t.cfg.launch s'.launches = some l' ∧ l'.retired = l.retired + 1)

namespace Sys2Proof.Claims

/-- The registers of a group that work counted on a path leaves as they were, the flags it raises at issue, and whether it drew (R40). -/
structure Worked (g h : Group) (id path fl : Nat) (drew : Bool) : Prop where
  lane : SameLane g h
  uniform : SameUniform g h
  q : SameQ g h
  p : h.p = g.p
  sh : h.sh = g.sh
  sp : SpecialAfter g h fl drew
  cnt : h.cnt = listUpd path (fun n => n + 1) g.cnt
  access : ∃ y ∈ h.flights, y.id = id ∧ y.path = path

/-- The state with another matrix state of a team. -/
def withMx (s : State) (tid : Nat) (mx : TeamMx) : State := s.updTeam tid fun t => { t with mx := mx }

/-- Work of the matrix engine is counted on path 6, and takes its place at the end of the core's queue, one command for each element of
`ops`, in their order (R184, R224, R227). The matrix state that the issue leaves is mx. -/
structure Queues (s s' : State) (iss : Issuer) (t : Team) (g : Group) (f : Frag) (x : Args) (mx : TeamMx) (ops : List MxOp) (fl : Nat)
    (drew : Bool) : Prop where
  sends : Sends (withMx s iss.team mx) s' iss f (afterOf x f) fun h => Worked g h s.nextId 6 fl drew
  queue : (s'.core (t.core.getD 0)).mx.q = (s.core (t.core.getD 0)).mx.q ++ ops.zipIdx.map fun o => ⟨iss.team, iss.gix, s.nextId, o.2, o.1⟩

/-- The group's earlier accesses of its team's spaces, and everything that arrived there before, have been performed (R178, R233). -/
def spacesRest (s : State) (iss : Issuer) (t : Team) (g : Group) : Bool :=
  ((s.core (t.core.getD 0)).scrQ.all fun o => decide (o.team ≠ iss.team)) && ((s.core (t.core.getD 0)).tsQ.all fun o => decide (o.team ≠ iss.team)) &&
    g.flights.all fun y => y.parts.all fun p => !p.held || (match p.req.tgt with | .scratch _ => false | .turning => false | _ => true)

/-- No command of the team in the core's queue names the bank. -/
def bankRests (s : State) (iss : Issuer) (t : Team) (b : Nat) : Bool :=
  (s.core (t.core.getD 0)).mx.q.all fun c => decide (c.team ≠ iss.team) || !c.op.names.contains (true, b)

/-- Passes that stand in the row buffer of 32 rows (R216). -/
def rowsUsed (s : State) (t : Team) : Nat :=
  ((s.core (t.core.getD 0)).mx.q.filter fun k => match k.op with | .pass _ _ _ _ _ _ _ _ => true | _ => false).length

/-- The flags of a list of lines, together. -/
def lineFlags (ls : List LineRead) : Nat := ls.foldl (fun a r => a ||| r.fl) 0

end Sys2Proof.Claims

/-- R218 to R220, R223 to R227, R234 to R236: the commands of the matrix engine. MMA and MMDUAL read the lines of their active lanes and
queue their passes, lanes ascending; MBLD reads N lines, sets FORMAT at once and queues the tile; MWB queues its rows. Each is counted on
path 6. MACRD delivers elements of a bank once no queued command names it, uncounted. -/
def Sys2Proof.Claims.MatrixCommandsIssueHold : Prop :=
  ∀ (x : Args) (s : State) (iss : Issuer) (t : Team) (g : Group) (f : Frag) (fmt : Fmt), g.stepping = none → badAddr (afterOf x f) = false →
    noneWaits g = true → slotFmt t.cfg.fs x.fs.toNat = some fmt → mayIssue g 6 →
    let act := guardV g x f.emask
    let e8 := fmt == .e4m3 || fmt == .e5m2
    let colFmt := e8 || fmt == .int8 || fmt == .bf16 || fmt == .fp16
    let mode := Rnd.ofCode (x.m % 8)
    let drew := decide (mode = .sr) && e8
    let d := fldIdx x.d
    let bank := d % 8
    let m := d / 16 % 8
    let rbank := fldIdx x.c
    let spa := x.m.testBit 6
    let cola := x.m.testBit 4
    let oa (l : Nat) : Elem := laneAt (g.srcV .int x.a) l
    let ob (l : Nat) : Elem := laneAt (g.srcV .int x.b) l
    let fam := famOf fmt
    let fits (y : LineAt) : Bool := !y.mis && !y.out t
    let draws (l j : Nat) : Nat := drawOf g.sp.rngstate.toNat l j
    let lineA (l : Nat) : LineAt := ⟨spa, cola, fmt, (oa l).nat, 128⟩
    let lineB (l : Nat) : LineAt := ⟨x.m.testBit 5, x.m.testBit 3, fmt, (ob l).nat, famN fam⟩
    let readA (l : Nat) : LineRead := t.readLine (lineA l) mode (draws l)
    let readB (l : Nat) : LineRead := t.readLine (lineB l) mode fun j => draws l (128 + j)
    let resident := (t.mx.macros[m]?).map Macro.fam = some fam ∧ fam ≠ .none
    let okA := (cola = true → spa = false ∧ colFmt = true) ∧ ∀ l, l < 32 → inMask act l = true → (oa l).pois = false ∧ fits (lineA l) = true ∧ (readA l).bad = false
    let okB := (x.m.testBit 3 = true → x.m.testBit 5 = false ∧ colFmt = true) ∧
      ∀ l, l < 32 → inMask act l = true → (ob l).pois = false ∧ fits (lineB l) = true ∧ (readB l).bad = false
    let za := x.m.testBit 7
    let keep (h : Group) : Prop := RegisterFrame g h ∧ h.sp = g.sp
    (Issues .mma x s iss t g f → resident → okA →
      (act = 0#32 → Completes (.mma x) s iss f (afterOf x f) keep) ∧
      (act ≠ 0#32 → spacesRest s iss t g = true → (rowsUsed s t = 0 ∨ rowsUsed s t + (lanesOf act).length ≤ 32) → ∃ s', exec (.mma x) s = .next s' ∧
        Queues s s' iss t g f x t.mx ((lanesOf act).map fun l => .pass fam true (readA l).el m bank l za false)
          (lineFlags ((lanesOf act).map readA)) drew) ∧
      (act ≠ 0#32 → spacesRest s iss t g = true → 32 < rowsUsed s t + (lanesOf act).length → rowsUsed s t ≠ 0 → exec (.mma x) s = .next s)) ∧
    (Issues .mmdual x s iss t g f → resident → okA → okB →
      (act = 0#32 → Completes (.mmdual x) s iss f (afterOf x f) keep) ∧
      (act ≠ 0#32 → spacesRest s iss t g = true → (rowsUsed s t = 0 ∨ rowsUsed s t + 2 * (lanesOf act).length ≤ 32) → ∃ s', exec (.mmdual x) s = .next s' ∧
        Queues s s' iss t g f x t.mx ((lanesOf act).flatMap fun l => [.pass fam true (readA l).el m bank l za false, .pass fam false (readB l).el m rbank l za false])
          (lineFlags ((lanesOf act).flatMap fun l => [readA l, readB l])) drew)) ∧
    (∀ o i, (o, i) ∈ [(Op.mma, Instr.mma x), (.mmdual, .mmdual x)] → Issues o x s iss t g f → (cola = true → spa = false ∧ colFmt = true) →
      (o = .mmdual → x.m.testBit 3 = true → x.m.testBit 5 = false ∧ colFmt = true) → (t.mx.macros[m]?).map Macro.fam ≠ some fam →
      exec i s = .next (takeTrap (countIssue s iss) iss f.pc (nextOf x f) (activeOf o x g f) { code := 0x03 })) ∧
    (Issues .mbld x s iss t g f →
      let sp := x.m.testBit 3
      let col := x.m.testBit 4
      let a := g.srcU x.a
      let b := g.srcU x.b
      let lines := (List.range (famN fam)).map fun n => (⟨sp, col, fmt, a.nat + n * (if col then elemW fmt else b.nat), 128⟩ : LineAt)
      let reads := lines.zipIdx.map fun p => t.readLine p.1 mode fun k => draws (p.2 % 32) (128 * (p.2 / 32) + k)
      a.pois = false → b.pois = false → (col = true → sp = false ∧ colFmt = true ∧ a.nat % 16384 = 0) → lines.all fits = true →
      reads.all (fun r => !r.bad) = true → spacesRest s iss t g = true → ∃ s', exec (.mbld x) s = .next s' ∧
        Queues s s' iss t g f x (t.mx.setFam d fam) [.load d (reads.map fun r => r.el.map some)] (lineFlags reads) drew) ∧
    (Issues .mwb x s iss t g f →
      let a := g.srcU x.a
      let c := (g.srcU x.c).val
      let cols := if c.getLsbD 14 then 64 else 128
      let n := (c.extractLsb' 5 6).toNat
      let row0 := (c.extractLsb' 0 5).toNat
      let sp := c.getLsbD 12
      let step := 8 * (c.extractLsb' 16 16).toNat
      let size := if sp then t.cfg.scratch else 16384 * t.cfg.tsq
      let nan := (g.srcUHi x.b).val.extractLsb' 23 8 = 255#8 ∧ (g.srcUHi x.b).val.extractLsb' 0 23 ≠ 0#23
      a.pois = false → (g.srcU x.b).pois = false → (g.srcUHi x.b).pois = false → (g.srcU x.c).pois = false → bankRests s iss t d = true →
      (c.getLsbD 15 = false → c.getLsbD 11 = false → 1 ≤ n → row0 + n ≤ 32 → (x.m.testBit 5 = true → ¬nan) → a.nat % 8 = 0 →
        (∀ r, r < n → a.nat + step * r + rowBytes fmt cols ≤ size ∧ ∀ j, j < cols → ((t.mx.row d (row0 + r)).getD j Elem.zero).pois = false) →
        ∃ s', exec (.mwb x) s = .next s' ∧
          Queues s s' iss t g f x t.mx [.wb d fmt.code x.m c.toNat (g.srcU x.b).val (g.srcUHi x.b).val a.nat g.sp.rngstate 0] 0 (decide (mode = .sr))) ∧
      (c.getLsbD 15 = true ∨ c.getLsbD 11 = true ∨ n = 0 ∨ 32 < row0 + n ∨ (x.m.testBit 5 = true ∧ nan) →
        exec (.mwb x) s = .next (takeTrap (countIssue s iss) iss f.pc (nextOf x f) f.emask { code := 0x03 }))) ∧
    (Issues .macrd x s iss t g f → (∀ l, l < 32 → inMask act l = true → (oa l).pois = false) → bankRests s iss t (fldIdx x.b) = true →
      Completes (.macrd x) s iss f (afterOf x f) fun h =>
        LaneWrote g h x.d act (fun l =>
          let e := (t.mx.row (fldIdx x.b) ((oa l).nat % 32)).getD ((oa l).nat / 256 % 128) Elem.zero
          if e.pois then none else some e.nat) ∧ LaneFrame g h ∧ h.p = g.p ∧ h.sp = g.sp)

/-- R228, R229: MBGTH sets FORMAT at once and queues a tile whose column n holds the entries of CSR row ROW0 + n: the last entry of a column
index k below 128 in cell k, the other cells absent; a column at or beyond NROWS holds FILL in every cell. Stated for INT8, BF16 and FP16. -/
def Sys2Proof.Claims.GatheredTilesIssueHold : Prop :=
  ∀ (x : Args) (s : State) (iss : Issuer) (t : Team) (g : Group) (f : Frag) (fmt : Fmt), g.stepping = none → badAddr (afterOf x f) = false →
    noneWaits g = true → mayIssue g 6 → Issues .mbgth x s iss t g f →
    let w (k : Nat) : Nat := ((g.shape (fldIdx x.a)).getD k Elem.zero).nat
    let sp := (w 0).testBit 16
    let ew := if fmt = .int8 then 1 else 2
    let size := if sp then t.cfg.scratch else 16384 * t.cfg.tsq
    let byte (o : Nat) : Byte × Bool := t.arrByte sp o
    let value (o n : Nat) : Nat := ofBytes ((List.range n).map fun i => (byte (o + i)).1)
    let sound (o n : Nat) : Prop := o + n ≤ size ∧ ∀ i, i < n → (byte (o + i)).2 = false
    let lo (n : Nat) : Nat := value (w 1 + 4 * (w 4 + n)) 4
    let hi (n : Nat) : Nat := value (w 1 + 4 * (w 4 + n + 1)) 4
    let index (e : Nat) : Nat := ((BitVec.ofNat 32 (value (w 2 + 4 * e) 4)) - BitVec.ofNat 32 (w 5)).toNat
    let decode (v : Nat) : FVal := if fmt = .int8 then (int8Elem v).1 else (fspecOf fmt).unpack v
    let last (n k : Nat) : Option Nat := ((List.range (hi n - lo n)).filter fun i => decide (index (lo n + i) = k)).getLast?.map (lo n + ·)
    let cell (n k : Nat) : Option (FVal × Bool) :=
      if w 6 ≤ w 4 + n then some (decode (w 15 % 2 ^ (8 * ew)), false)
      else (last n k).map fun e => (decode (value (w 3 + e * ew) ew), false)
    fmt = .int8 ∨ fmt = .bf16 ∨ fmt = .fp16 → x.m = 0 → (g.shape (fldIdx x.a)).all (fun e => !e.pois) = true → w 0 % 256 = 6 →
    w 0 / 256 % 256 = fmt.code → w 1 % 4 = 0 → w 2 % 4 = 0 → w 3 % ew = 0 → spacesRest s iss t g = true →
    (∀ n, n < famN (famOf fmt) → w 4 + n < w 6 → sound (w 1 + 4 * (w 4 + n)) 8 ∧ lo n ≤ hi n ∧ hi n - lo n ≤ 2 ^ 18 ∧
      ∀ e, lo n ≤ e → e < hi n → sound (w 2 + 4 * e) 4 ∧ (index e < 128 → sound (w 3 + e * ew) ew)) →
    ∃ s' fl, exec (.mbgth x) s = .next s' ∧
      Queues s s' iss t g f x (t.mx.setFam (fldIdx x.d) (famOf fmt))
        [.load (fldIdx x.d) ((List.range (famN (famOf fmt))).map fun n => (List.range 128).map fun k => cell n k)] fl false ∧ (fl = 0 ∨ fl = flSATD)

/-- R230 to R232: TSRD, TSWR and TSLD are counted on path 6. TSRD and TSWR make one access of the turning store; TSLD one with a part for
each source line of its window, and a copy of FILL for each element that is out of bounds. -/
def Sys2Proof.Claims.TurningStoreAccessesIssueHold : Prop :=
  ∀ (x : Args) (s : State) (iss : Issuer) (t : Team) (g : Group) (f : Frag), g.stepping = none → badAddr (afterOf x f) = false →
    noneWaits g = true → mayIssue g 6 → unwatched g = true →
    let act := guardV g x f.emask
    let keep (h : Group) : Prop := RegisterFrame g h ∧ h.sp = g.sp
    (∀ o i (fm : Form), (o, i, fm) ∈ [(Op.tsrd, Instr.tsrd x, loadForm (x.m % 8)), (.tswr, .tswr x, storeForm x (x.m % 8))] →
      Issues o x s iss t g f → (∀ l, l < 32 → inMask act l = true → cleanLane g x fm false l = true ∧
        near g x fm l % fm.w = 0 ∧ near g x fm l + fm.w ≤ 16384 * t.cfg.tsq) →
      (act = 0#32 → Completes i s iss f (afterOf x f) keep) ∧
      (act ≠ 0#32 → ∃ s', exec i s = .next s' ∧ Sends s s' iss f (afterOf x f) fun h => Worked g h s.nextId 6 0 false ∧
        ∃ y ∈ h.flights, y.id = s.nextId ∧ y.path = 6 ∧ y.dst = dstOf x fm.dst ∧ y.mask = act ∧
          y.parts.map (fun p => (p.req.act, p.req.lanes, p.req.tgt)) = [(fm.act, bring g x fm act (near g x fm), .turning)])) ∧
    (∀ (fmt : Fmt) s2 ps, Issues .tsld x s iss t g f → (g.shape (fldIdx x.d)).all (fun e => !e.pois) = true →
      let w (k : Nat) : BitVec 32 := ((g.shape (fldIdx x.d)).getD k Elem.zero).val
      let n := fmtBytes fmt
      let base := (w 2 ++ w 1).toNat
      let rstr := (w 6 ++ w 5).toNat
      let ext0 := ((w 9).extractLsb' 0 16).toNat
      let ext1 := ((w 9).extractLsb' 16 16).toNat
      let dst (r k : Nat) : Nat := (w 10).toNat + r * (w 11).toNat + k * n
      let px (k : Nat) : Int := (w 7).toInt + k
      let py (r : Nat) : Int := (w 8).toInt + r
      let inside (r k : Nat) : Bool := decide (0 ≤ px k ∧ px k < (w 3).toNat ∧ 0 ≤ py r ∧ py r < (w 4).toNat)
      let src (r k : Nat) : Nat := (base + (py r).toNat * rstr + (px k).toNat * n) % 2 ^ 64
      let window := (List.range ext1).flatMap fun r => (List.range ext0).map fun k => (r, k)
      let found := (window.filter fun p => inside p.1 p.2).map fun p => (dst p.1 p.2, src p.1 p.2)
      (w 0).extractLsb' 0 8 = 2#8 → ((w 0).extractLsb' 8 8).toNat = fmt.code →
      fmt ∈ [Fmt.fp32, .fp16, .bf16, .e4m3, .e5m2, .int8, .uint8, .int16, .uint16, .int32, .uint32] → base % n = 0 → base < 2 ^ 57 →
      1 ≤ (w 3).toNat → 1 ≤ (w 4).toNat → rstr % n = 0 → 1 ≤ ext0 → ext0 * n ≤ 16384 → 1 ≤ ext1 → ext1 ≤ 2048 → (w 10).toNat % n = 0 →
      (w 11).toNat % n = 0 → (ext1 = 1 ∨ ext0 * n ≤ (w 11).toNat) → (found.all fun p => decide (p.2 < 2 ^ 57)) = true →
      (∀ r k, r < ext1 → k < ext0 → dst r k + n ≤ 16384 * t.cfg.tsq) →
      (countIssue s iss).resolveParts iss.team iss.gix (t.core.getD 0) s.nextId
        ((envOf .tsld x s iss t g f).tileParts (countIssue s iss) n (byLine found)) = some (s2, ps) →
      (g.inClause iss.entry && s2.parked iss.team iss.gix) = false →
      ∃ s', exec (.tsld x) s = .next s' ∧ Sends s s' iss f (afterOf x f) fun h => Worked g h s.nextId 6 0 false ∧
        ∃ y ∈ h.flights, y.id = s.nextId ∧ y.path = 6 ∧ y.dst = .none ∧
          y.parts.map (fun p => (p.req.act, p.req.lanes, p.req.tgt)) =
            ps.map (fun p => (p.req.act, p.req.lanes, p.req.tgt)) ++ [(.load n false, [], .unit)] ∧
          ∀ r k, r < ext1 → k < ext0 → inside r k = false → mapGet? (dst r k) y.got = some [elemOf ((w 15).toNat % 2 ^ (8 * n))])

namespace Sys2Proof.Claims

/-- A part of an access has been performed, if the access still counts it. -/
def partIsDone (h : Group) (fid pi : Nat) : Prop := ∀ y, h.flight? fid = some y → ∀ p, y.parts[pi]? = some p → p.st = .done

/-- A unit of a core acts for one group: the group's registers stay, but for FLAGS, which gains bits; the other groups, the other teams, memory
and every other unit are as they were; the team, apart from its groups, is u afterwards. -/
structure ActsFor (s s' : State) (core tid gix fl : Nat) (t u : Team) : Prop where
  rest : s' = { s with teams := s'.teams, cores := s'.cores, fresh := s'.fresh }
  cores : ∀ c, c ≠ core → s'.core c = s.core c
  others : ∀ k, k ≠ tid → mapGet? k s'.teams = mapGet? k s.teams
  team : ∃ t', mapGet? tid s'.teams = some t' ∧ teamStill t' = teamStill u ∧ (∀ j, j ≠ gix → mapGet? j t'.groups = mapGet? j t.groups) ∧
    ∀ g, mapGet? gix t.groups = some g → ∃ h, mapGet? gix t'.groups = some h ∧ SameLane g h ∧ SameUniform g h ∧ SameQ g h ∧ h.p = g.p ∧
      h.sh = g.sh ∧ h.cnt = g.cnt ∧ h.frags = g.frags ∧ SpecialAfter g h fl false ∧ h.flights.map (·.id) = g.flights.map (·.id)

/-- A command may be performed next among those of its kind (R226): nothing before it in the queue names its macro or its bank for its team,
and every earlier command of the kind is held by one before that. -/
def mayGo (kind : MxOp → Bool) (pre : List MxCmd) (c : MxCmd) : Prop :=
  kind c.op = true ∧ (∀ b ∈ pre, b.conflicts c = false) ∧
    ∀ i b, pre[i]? = some b → kind b.op = true → ∃ a ∈ pre.take i, a.conflicts b = true

/-- The command has been performed: it has left the queue, and its part is done. -/
def performedMx (s' : State) (core : Nat) (c : MxCmd) (pre post : List MxCmd) : Prop :=
  (s'.core core).mx.q = pre ++ post ∧ ∀ tm h, s'.group? c.team c.gix = some (tm, h) → partIsDone h c.fl c.pt

/-- The sum of the products of a pass on INT8, old element included (R221). -/
def intSum (fs : List ((FVal × Bool) × (FVal × Bool))) (old : Int) : Int :=
  fs.foldl (fun a f => a + f.1.1.int * f.2.1.int) old

end Sys2Proof.Claims

/-- R221, R226, R227, R236: the matrix engine performs the first pass, the first tile load, the first row of a write-back that no earlier
command of its macro or bank holds. A pass changes the first N (reverse: 128) elements of its row, poisoned where a factor or the old element
is, and all of them where its row of the row buffer has been lost (R244); a load replaces the tile; a row of a write-back writes its bytes, and zeroes what it read where ZERO is set. -/
def Sys2Proof.Claims.MatrixEngineEventsHold : Prop :=
  ∀ (core : Nat) (s : State) (pre post : List MxCmd) (c : MxCmd) (t : Team), (s.core core).mx.q = pre ++ c :: post →
    mapGet? c.team s.teams = some t →
    (∀ fam fwd line m b row za lost, c.op = .pass fam fwd line m b row za lost →
      mayGo (fun o => match o with | .pass _ _ _ _ _ _ _ _ => true | _ => false) pre c →
      let tile := match t.mx.macros[m]? with | some k => k.tile | none => []
      let cellAt (j i : Nat) : Option (FVal × Bool) := if fwd then (tile.getD j []).getD i none else (tile.getD i []).getD j none
      let factors (j : Nat) : List ((FVal × Bool) × (FVal × Bool)) :=
        (List.range (min line.length (if fwd then (tile.getD j []).length else tile.length))).filterMap fun i =>
          ((line)[i]?).bind fun a => (cellAt j i).map fun b => (a, b)
      let n := if fwd && (fam == .bf16 || fam == .fp16) then 64 else 128
      let old (j : Nat) : Elem := (t.mx.row b row).getD j Elem.zero
      ∃ s' mx fl, exec (.matrixPass core) s = .next s' ∧ ActsFor s s' core c.team c.gix fl t { t with mx := mx } ∧ performedMx s' core c pre post ∧
        mx.macros = t.mx.macros ∧ mx.ts = t.mx.ts ∧ mx.tsPois = t.mx.tsPois ∧ (∀ b' r, (b' ≠ b ∨ r ≠ row) → mx.row b' r = t.mx.row b' r) ∧
        (b < t.mx.banks.length → ∀ j, j < 128 →
          let e := (mx.row b row).getD j Elem.zero
          let bad := lost || (factors j).any (fun q => q.1.2 || q.2.2) || (!za && (old j).pois)
          (n ≤ j → e = old j) ∧ (j < n → (e.pois = true ↔ bad = true)) ∧
          (j < n → bad = false → fam = .int8 → e.val = BitVec.ofInt 32 (intSum (factors j) (if za then 0 else (old j).val.toInt))) ∧
          (j < n → bad = false → fam ≠ .int8 → e = (passElem fam za false (factors j) (old j) fun _ => 0#32).1))) ∧
    (∀ m tile, c.op = .load m tile → mayGo (fun o => match o with | .load _ _ => true | _ => false) pre c →
      ∃ s', exec (.macroTileLoad core) s = .next s' ∧ ActsFor s s' core c.team c.gix 0 t { t with mx := t.mx.setTile m tile } ∧
        performedMx s' core c pre post) ∧
    (∀ b code mod ctl scale clip dst rng next fmt, c.op = .wb b code mod ctl scale clip dst rng next → Fmt.ofCode code = some fmt →
      mayGo (fun o => match o with | .wb _ _ _ _ _ _ _ _ _ => true | _ => false) pre c → t.memWf = true →
      let row := ctl % 32 + next
      let cols := if ctl.testBit 14 then 64 else 128
      let es := t.mx.row b row
      let out := wbRow fmt (Rnd.ofCode (mod % 8)) (mod.testBit 3) (drawOf rng.toNat row)
        (wbVals (es.take cols) (mod.testBit 4) (mod.testBit 5) (fp32.unpack scale.toNat) (fp32.unpack clip.toNat))
      let sp := ctl.testBit 12
      let at_ := dst + 8 * (ctl / 65536 % 65536) * next
      ∃ s' u, exec (.mwbWrite core) s = .next s' ∧ ActsFor s s' core c.team c.gix out.2 t u ∧
        u = { t with scratch := u.scratch, scratchPois := u.scratchPois, mx := u.mx } ∧ u.mx.macros = t.mx.macros ∧
        (∀ a, (u.arrByte sp a).1 = if at_ ≤ a ∧ a < at_ + out.1.length then out.1.getD (a - at_) 0#8 else (t.arrByte sp a).1) ∧
        (∀ a, u.arrByte (!sp) a = t.arrByte (!sp) a) ∧ (∀ b' r, (b' ≠ b ∨ r ≠ row) → u.mx.row b' r = t.mx.row b' r) ∧
        (b < t.mx.banks.length → u.mx.row b row = if ctl.testBit 13 then List.replicate cols Elem.zero ++ es.drop cols else es) ∧
        (ctl / 32 % 64 ≤ next + 1 → performedMx s' core c pre post) ∧
        (next + 1 < ctl / 32 % 64 →
          (s'.core core).mx.q = pre ++ { c with op := .wb b code mod ctl scale clip dst rng (next + 1) } :: post))

/-- R178, R193, R194, R231 to R233: the oldest access of a core's turning store is performed; an element of TSLD lands. Of a store the highest
lane's byte stands, and every other byte of the team's store stays. -/
def Sys2Proof.Claims.TurningStoreEventsHold : Prop :=
  (∀ (core : Nat) (op : ScrOp) (rest : List ScrOp) (tid gix fid pi : Nat) (s : State) (t : Team), (s.core core).tsQ = op :: rest →
    ServesPart s op.req tid gix fid pi → mapGet? op.team s.teams = some t → t.memWf = true → t.mx.tsPois = [] → (op.req.lanes.map (·.lane)).Nodup →
    let old (a : Nat) : Byte := (cellGet a t.mx.ts).getD 0#8
    ∃ s' t', exec (.turningStoreAccess core) s = .next s' ∧ mapGet? op.team s'.teams = some t' ∧ s'.hbm = s.hbm ∧ s'.hostMem = s.hostMem ∧
      s'.granary = s.granary ∧ t'.scratch = t.scratch ∧ t'.mx.macros = t.mx.macros ∧ t'.mx.banks = t.mx.banks ∧ (s'.core core).tsQ = rest ∧
      (∀ k, k ≠ op.team → (mapGet? k s'.teams).map teamStill = (mapGet? k s.teams).map teamStill) ∧
      (∀ w sg, op.req.act = .load w sg → (∀ a, (cellGet a t'.mx.ts).getD 0#8 = old a) ∧
        Performed s' tid gix fid pi fun l => (op.req.lanes.find? fun q => decide (q.lane = l)).map fun q =>
          (loadWords w sg (ofBytes ((List.range w).map fun i => old (q.addr + i)))).map fun v => ⟨v, false⟩) ∧
      (∀ w, op.req.act = .store w → (∀ a, (cellGet a t'.mx.ts).getD 0#8 = (storedByte op.req.lanes w a).getD (old a)) ∧
        Performed s' tid gix fid pi fun _ => none)) ∧
  (∀ (core pick tid gix fid key : Nat) (s : State) (t : Team) (g : Group) (y : Flight) (es : List Elem) (w : Nat) (sg : Bool),
    (s.copiesOf core 6)[pick]? = some (tid, gix, fid, key) → s.group? tid gix = some (t, g) → g.flight? fid = some y →
    mapGet? key y.got = some es → (y.parts.map (·.req.act)).head? = some (.load w sg) → t.memWf = true →
    ∃ s' t', exec (.tsldElementLand core pick) s = .next s' ∧ mapGet? tid s'.teams = some t' ∧ s'.hbm = s.hbm ∧ t'.scratch = t.scratch ∧
      t'.mx.macros = t.mx.macros ∧ t'.mx.banks = t.mx.banks ∧
      (es.any Elem.pois = false → ∀ a, (cellGet a t'.mx.ts).getD 0#8 =
        if key ≤ a ∧ a < key + w then BitVec.ofNat 8 (ofWords (es.map Elem.val) / 2 ^ (8 * (a - key))) else (cellGet a t.mx.ts).getD 0#8) ∧
      (es.any Elem.pois = true → t'.mx.ts = t.mx.ts ∧ (key / 8) ∈ t'.mx.tsPois) ∧
      (noneWaits g = true → ∃ tm h, s'.group? tid gix = some (tm, h) ∧ SameRegisters g h ∧ h.cnt = g.cnt))

/-- R218, R237 to R241: MTILE opens its sequence, or resumes the one of its own that is open, and waits; each MTILE_STEP is one load, or one pass
of a batch, with SEQSTATE ahead of the next; the lines of a batch are read at its start; after the last step the fragment goes on and SEQSTATE is
0. A batch on a macro of another family is a program error. -/
def Sys2Proof.Claims.TileSequencesHold : Prop :=
  (∀ (x : Args) (s : State) (iss : Issuer) (t : Team) (g : Group) (f : Frag) (q : TileSeq), Issues .mtile x s iss t g f → g.stepping = none →
    badAddr (afterOf x f) = false →
    let sh := fldIdx x.a
    let word (row step : Nat) : Dword := BitVec.ofNat 64 (2 ^ 63 + iss.entry * 2 ^ 56 + sh * 2 ^ 52 + row * 2 ^ 32 + step)
    let waits (w : Dword) : Prop := ∃ s' h f', exec (.mtile x) s = .next s' ∧ OnlyGroup s s' iss h ∧ RegisterFrame g h ∧
      h.sp = { g.sp with seqstate := w } ∧ mapGet? iss.entry h.frags = some f' ∧ f' = { f with wait := .tile false none x.bytes }
    g.tileSeq t.cfg.macros sh = .ok q →
    (g.sp.seqstate.getLsbD 63 = false → waits (word 0 0)) ∧
    (∀ row step, iss.entry < 32 → sh < 16 → g.sp.seqstate = word row step → row < 32 → step < q.kt * (q.nt + q.mt * q.nt) →
      (row = 0 ∨ q.nt ≤ step % (q.nt + q.mt * q.nt)) → waits g.sp.seqstate)) ∧
  (∀ (tid gix en len c : Nat) (started : Bool) (now : Option TileStep) (s : State) (t : Team) (g : Group) (f : Frag),
    s.group? tid gix = some (t, g) → g.frags = [(en, f)] → f.wait = .tile started now len → f.jtop = none → f.halted = false → len ≠ 0 →
    g.stepping = none → t.core = some c →
    let rng := g.sp.rngstate
    let goes (mx : TeamMx) (fl : Nat) (word : Dword) (drew : Bool) (rest : Option TileStep) (over_ : Bool) : Prop :=
      ∃ s' t' h f', exec (.mtileStep tid gix) s = .next s' ∧ s' = { s with teams := s'.teams, fresh := s'.fresh } ∧
        mapGet? tid s'.teams = some t' ∧ teamStill t' = { teamStill t with mx := mx } ∧ mapGet? gix t'.groups = some h ∧ SameLane g h ∧
        SameUniform g h ∧ SameQ g h ∧ h.p = g.p ∧ h.sh = g.sh ∧ h.cnt = g.cnt ∧
        h.sp = { g.sp with
          flags := g.sp.flags ||| BitVec.ofNat 32 (fl % 64), rngstate := if drew then BitVec.ofNat 64 (lfsr rng.toNat 64) else rng
          seqstate := if over_ then 0#64 else word } ∧
        mapGet? en h.frags = some f' ∧
        (if over_ then f'.wait = .none ∧ f'.pc = (loopStep f f.pc (f.pc + BitVec.ofNat 64 len)).2
         else f' = { f with wait := .tile true rest len })
    let word (sh row step : Nat) : Dword := BitVec.ofNat 64 (2 ^ 63 + en * 2 ^ 56 + sh * 2 ^ 52 + row * 2 ^ 32 + step)
    ∀ sh row step, en < 32 → sh < 16 → row < 32 → step < 2 ^ 31 → g.sp.seqstate = word sh row step →
    (∀ b r line fl rest, now = some b → b.rows = (r, line, fl) :: rest →
      let out := t.mx.pass b.fam true line b.mac b.bank r b.za false s.fresh
      goes out.1 (fl ||| out.2) (if rest = [] then word sh 0 (step + 1) else word sh (row + 1) step) (decide (rest = []) && b.drew)
        (if rest = [] then none else some { b with rows := rest }) (decide (rest = []) && b.last)) ∧
    (∀ q, now = none → step < q.kt * q.period → g.tileSeq t.cfg.macros sh = .ok q →
      (started = true ∨ (s.core c).mx.q.all (fun k => decide (k.team ≠ tid)) = true) → spacesRest s ⟨tid, gix, en⟩ t g = true →
      let kt := step / q.period
      let j := step % q.period
      let e8 (y : Machine.Layout) : Bool := decide (q.rnd = .sr) && (y.fmt == .e4m3 || y.fmt == .e5m2)
      let atLast := decide (q.kt * q.period ≤ step + 1)
      let fits (y : LineAt) : Bool := !y.mis && !y.out t
      (j < q.nt →
        let n := famN (famOf q.b.fmt)
        let at_ (i : Nat) : LineAt := ⟨q.b.sp, q.b.col, q.b.fmt, (q.b.base + (j * n + i) * q.b.lstr + kt * q.b.kstr) % 2 ^ 32, 128⟩
        let read (i : Nat) : LineRead := if j * n + i < q.b.nlines
          then t.readLine (at_ i) q.rnd fun k => drawOf rng.toNat (i % 32) (128 * (i / 32) + k) else q.b.filled
        (∀ i, i < n → j * n + i < q.b.nlines → fits (at_ i) = true) → (∀ i, i < n → (read i).bad = false) →
        goes ((t.mx.setFam (q.mac0 + j) (famOf q.b.fmt)).setTile (q.mac0 + j) ((List.range n).map fun i => (read i).el.map some))
          (lineFlags ((List.range n).map read)) (word sh 0 (step + 1)) (e8 q.b && decide (j * n < q.b.nlines)) none atLast) ∧
      (q.nt ≤ j →
        let i := j - q.nt
        let mt := i / q.nt
        let mac := q.mac0 + i % q.nt
        let fam := famOf q.a.fmt
        let at_ (r : Nat) : LineAt := ⟨q.a.sp, q.a.col, q.a.fmt, (q.a.base + (32 * mt + r) * q.a.lstr + kt * q.a.kstr) % 2 ^ 32, 128⟩
        let read (r : Nat) : LineRead := if 32 * mt + r < q.a.nlines then t.readLine (at_ r) q.rnd (drawOf rng.toNat r) else q.a.filled
        let later := (List.range 32).filter fun r => decide (row < r ∧ 32 * mt + r < q.mrows)
        let drew := e8 q.a && decide (32 * mt < q.a.nlines)
        let rest : TileStep := ⟨fam, mac, q.bank0 + i, q.za && decide (kt = 0), drew, later.map fun r => (r, (read r).el, (read r).fl), atLast⟩
        (t.mx.macros[mac]?).map Macro.fam = some fam → fam ≠ .none → 32 * mt + row < q.mrows →
        (∀ r, row ≤ r → r < 32 → 32 * mt + r < q.mrows → (32 * mt + r < q.a.nlines → fits (at_ r) = true) ∧ (read r).bad = false) →
        let out := t.mx.pass fam true (read row).el mac (q.bank0 + i) row (q.za && decide (kt = 0)) false s.fresh
        goes out.1 ((read row).fl ||| out.2) (if later = [] then word sh 0 (step + 1) else word sh (row + 1) step) (decide (later = []) && drew)
          (if later = [] then none else some rest) (decide (later = []) && atLast)) ∧
      (q.nt ≤ j → (t.mx.macros[q.mac0 + (j - q.nt) % q.nt]?).map Macro.fam ≠ some (famOf q.a.fmt) →
        exec (.mtileStep tid gix) s = .next (takeTrap s ⟨tid, gix, en⟩ f.pc (f.pc + BitVec.ofNat 64 len) f.emask { code := 0x03 }))))

namespace Sys2Proof.Claims

/-- The words of a texture access that have come back for the lanes of a set. -/
def gotIs (y : Flight) (m : Mask) (w : Nat → List Elem) : Prop := ∀ l, l < 32 → inMask m l = true → mapGet? l y.got = some (w l)

/-- The number of registers of D of a texture instruction. -/
def texN (o : Op) : Nat := if o = .txq then 2 else 4

/-- The poison of the operands of a texture instruction in a lane, C apart (R260). -/
def texPois (o : Op) (g : Group) (x : Args) (l : Nat) : Bool :=
  match o with
  | .txq => (laneAt (g.srcV .int x.a) l).pois
  | .samplel => (laneAt (g.srcV .fp32 x.a) l).pois || (laneAt (g.srcVHi .fp32 x.a) l).pois || (laneAt (g.srcV .fp32 x.b) l).pois
  | .sampleg => (laneAt (g.srcV .fp32 x.a) l).pois || (laneAt (g.srcVHi .fp32 x.a) l).pois || (laneData (g.vregs x.b 4) l).any Elem.pois
  | _ => (laneAt (g.srcV .fp32 x.a) l).pois || (laneAt (g.srcVHi .fp32 x.a) l).pois

end Sys2Proof.Claims

/-- R257 to R260: the texture instructions. With no active lane nothing is counted; otherwise one access is, on path 5. A descriptor that is
not aligned, or breaks R257, gives the canonical NaN in every element, and one that cannot be read poison; TXQ gives the sizes of a level, SAMPLE,
SAMPLEL and SAMPLEG read the texels of their taps, a part for each line. Beyond the read of the descriptor only the access is issued. -/
def Obligations.TextureInstructionsIssue : Prop :=
  ∀ (i : Instr) (o : Op) (x : Args) (s : State) (iss : Issuer) (t : Team) (g : Group) (f : Frag),
    (i, o) ∈ [(Instr.sample x, Op.sample), (.samplel x, .samplel), (.sampleg x, .sampleg), (.txq x, .txq)] → Issues o x s iss t g f →
    g.stepping = none → badAddr (afterOf x f) = false → noneWaits g = true → unwatched g = true →
    let act := guardV g x f.emask
    let c : BitVec 64 := (g.srcUHi x.c).val ++ (g.srcU x.c).val
    let s1 := countIssue s iss
    let e := envOf o x s iss t g f
    let nan : Elem := ⟨0x7FC00000#32, false⟩
    let all (e : Elem) (_ : Nat) : List Elem := List.replicate (texN o) e
    let clean := (g.srcU x.c).pois = false ∧ (g.srcUHi x.c).pois = false ∧ ∀ l, l < 32 → inMask act l = true → texPois o g x l = false
    let counts (s2 : State) (P : Flight → Prop) : Prop := ∃ s', exec i s = .next s' ∧ Sends s2 s' iss f (afterOf x f) fun h =>
      Worked g h s2.nextId 5 0 false ∧ ∃ y ∈ h.flights, y.id = s2.nextId ∧ y.path = 5 ∧ y.dst = dstOf x (texN o) ∧ y.mask = act ∧ P y
    (act = 0#32 → Completes i s iss f (afterOf x f) fun h => RegisterFrame g h ∧ h.sp = g.sp) ∧
    (act ≠ 0#32 → clean → mayIssue g 5 → badAddr c = false →
      (c.toNat % 64 ≠ 0 → counts s fun y => y.open_ = false ∧ gotIs y act (all nan)) ∧
      (∀ s2 ws bad, c.toNat % 64 = 0 → e.readDesc s1 c.toNat = (s2, .ok ws bad) →
        (bad = true → counts s2 fun y => y.open_ = false ∧ ∀ l, l < 32 → inMask act l = true → ∃ ws, mapGet? l y.got = some ws ∧ ws.all Elem.pois = true) ∧
        (bad = false → texDesc ws = none → counts s2 fun y => y.open_ = false ∧ gotIs y act (all nan)) ∧
        (∀ d, bad = false → texDesc ws = some d → o = .txq → counts s2 fun y => y.open_ = false ∧ gotIs y act fun l =>
          let k := (laneAt (g.srcV .int x.a) l).nat
          if d.levels ≤ k then [Elem.zero, Elem.zero] else [elemOf (max 1 (d.w / 2 ^ k)), elemOf (max 1 (d.h / 2 ^ k))]) ∧
        (∀ d s3 ps, bad = false → texDesc ws = some d → o ≠ .txq →
          let u (l : Nat) : Nat := (laneAt (g.srcV .fp32 x.a) l).nat
          let v (l : Nat) : Nat := (laneAt (g.srcVHi .fp32 x.a) l).nat
          let plan := e.lanePlan o d u v
          let taps := (lanesOf act).flatMap fun l => (plan l).2.zipIdx.filterMap fun p => p.1.map fun a => (16 * l + p.2, a)
          (∀ p ∈ taps, p.2 < 2 ^ 57) →
          s2.resolveParts iss.team iss.gix (t.core.getD 0) s2.nextId (e.textureParts s2 0 ws plan d.bytes).2 = some (s3, ps) →
          (g.inClause iss.entry && s3.parked iss.team iss.gix) = false →
          ∃ s', exec i s = .next s' ∧ Sends s2 s' iss f (afterOf x f) fun h => Worked g h s2.nextId 5 0 false ∧
            ∃ y ∈ h.flights, y.id = s2.nextId ∧ y.path = 5 ∧ y.dst = dstOf x 4 ∧ y.mask = act ∧
              y.parts.map (fun p => (p.req.act, p.req.lanes)) =
                (.texture 0 ws, (lanesOf act).map fun l => ⟨l, 0, (plan l).1, []⟩) :: (byLine taps).map fun q => (.load d.bytes false, q.2))))

/-- R264 to R269: BLEND, BLENDB and RIGX make one access on path 0 that reads N records in the scratchpad for each active lane, with their
operands as they stand; BLEND.STAGE one that loads 64 bytes for each lane and copies them to the lane's slot. -/
def Sys2Proof.Claims.SplatInstructionsIssueHold : Prop :=
  ∀ (x : Args) (s : State) (iss : Issuer) (t : Team) (g : Group) (f : Frag), g.stepping = none → badAddr (afterOf x f) = false →
    noneWaits g = true → unwatched g = true →
    let act := guardV g x f.emask
    let quad (fl : Fld) (n l : Nat) : List Elem := laneData (g.vregs fl n) l
    let bval (l : Nat) : Elem := laneAt (g.srcV .int x.b) l
    let one (ty : CTy) (fl : Fld) (l : Nat) : Elem := laneAt (g.srcV ty fl) l
    let two (fl : Fld) (l : Nat) : List Elem := [laneAt (g.srcV .fp32 fl) l, laneAt (g.srcVHi .fp32 fl) l]
    let keep (h : Group) : Prop := RegisterFrame g h ∧ h.sp = g.sp
    (∀ i o op n th (ops : Nat → List Elem) dst, (i, o, op, n, th, ops, dst) ∈
        [(Instr.blend x, Op.blend, 0, x.m % 64 + 1, x.m / 64 % 16, fun l => quad x.d 4 l ++ two x.a l ++ [one .int x.c l], Dst.v2 (fldIdx x.d) 4 (fldIdx x.c) 1),
         (.blendb x, .blendb, 1, 1, 0, fun l => quad x.a 8 l ++ two x.c l, .v2 (fldIdx x.d) 8 (fldIdx x.a) 8),
         (.rigx x, .rigx, 2, x.m % 256 + 1, 0, fun l => quad x.a 4 l, .v (fldIdx x.d) 4)] →
      Issues o x s iss t g f → (∀ l, l < 32 → inMask act l = true → (bval l).pois = false ∧ (bval l).nat % 64 = 0 ∧ (bval l).nat + 64 * n ≤ t.cfg.scratch) →
      (act = 0#32 → Completes i s iss f (afterOf x f) keep) ∧
      (act ≠ 0#32 → mayIssue g 0 → ∃ s', exec i s = .next s' ∧ Sends s s' iss f (afterOf x f) fun h => Worked g h s.nextId 0 0 false ∧
        ∃ y ∈ h.flights, y.id = s.nextId ∧ y.path = 0 ∧ y.dst = dst ∧ y.mask = act ∧
          y.parts.map (fun p => (p.req.act, p.req.tgt, p.req.lanes.map fun q => (q.lane, q.addr, q.data.take (ops q.lane).length))) =
            [(.record op n th, .scratch iss.team, (lanesOf act).map fun l => (l, (bval l).nat, (ops l).map Elem.val))])) ∧
    (Issues .blendStage x s iss t g f →
      let c : BitVec 64 := (g.srcUHi x.c).val ++ (g.srcU x.c).val
      let src (l : Nat) : Nat := (c.toNat + 64 * (one .int x.a l).nat) % 2 ^ 64
      (g.srcU x.c).pois = false → (g.srcUHi x.c).pois = false → c.toNat % 64 = 0 →
      (∀ l, l < 32 → inMask act l = true → (one .int x.a l).pois = false ∧ (bval l).pois = false ∧ (bval l).nat % 64 = 0 ∧
        (bval l).nat + 64 ≤ t.cfg.scratch ∧ src l < 2 ^ 57) →
      (act = 0#32 → Completes (.blendStage x) s iss f (afterOf x f) keep) ∧
      (∀ s2 ps, act ≠ 0#32 → mayIssue g 0 →
        let lines := firsts ((lanesOf act).map fun l => src l / 128)
        let share (ln : Nat) : List LaneReq := ((lanesOf act).filter fun l => decide (src l / 128 = ln)).map fun l => ⟨l, src l, [(bval l).val], []⟩
        (countIssue s iss).resolveParts iss.team iss.gix (t.core.getD 0) s.nextId
          (lines.zipIdx.map fun q => (((envOf .blendStage x s iss t g f).part (countIssue s iss) q.2 (.load 64 false) (share q.1)
            ⟨0, 0, false, t.cfg.ctx, q.1 * 128⟩ .unit true).relaxed, q.2)) = some (s2, ps) →
        (g.inClause iss.entry && s2.parked iss.team iss.gix) = false →
        ∃ s', exec (.blendStage x) s = .next s' ∧ Sends s s' iss f (afterOf x f) fun h => Worked g h s.nextId 0 0 false ∧
          ∃ y ∈ h.flights, y.id = s.nextId ∧ y.path = 0 ∧ y.dst = .none ∧
            y.parts.map (fun p => (p.req.act, p.req.lanes)) = lines.map (fun ln => (.load 64 false, share ln)) ++ [(.load 64 false, [])]))

/-- R178, R264: once the scratchpad has served what has arrived, the blend walker copies one record: its 64 bytes to the lane's slot, unless a higher lane writes the same slot; a poisoned or refused
record leaves the words of its slot with an uncorrectable error. -/
def Sys2Proof.Claims.BlendWalkerCopiesARecordHold : Prop :=
  ∀ (core pick tid gix fid l : Nat) (s : State) (t : Team) (g : Group) (y : Flight) (es : List Elem) (q : LaneReq),
    (s.copiesOf core 0)[pick]? = some (tid, gix, fid, l) → s.group? tid gix = some (t, g) → g.flight? fid = some y →
    mapGet? l y.got = some es → (y.parts.flatMap fun p => p.req.lanes).find? (fun r => decide (r.lane = l)) = some q → zeroWf t.scratch = true →
    (∃ c, t.core = some c ∧ (s.core c).scrQ = []) →
    let slot := (q.data.headD 0#32).toNat
    let higher := (y.parts.flatMap fun p => p.req.lanes).any fun r => decide (l < r.lane ∧ r.data = q.data)
    ∃ s' t', exec (.blendWalkerCopy core pick) s = .next s' ∧ mapGet? tid s'.teams = some t' ∧ s'.hbm = s.hbm ∧ t'.mx = t.mx ∧ t'.bars = t.bars ∧
      (higher = true → t'.scratch = t.scratch ∧ t'.scratchPois = t.scratchPois) ∧
      (higher = false → es.any Elem.pois = false → ∀ a, scratchByte t' a =
        if slot ≤ a ∧ a < slot + 64 then BitVec.ofNat 8 (ofWords (es.map Elem.val) / 2 ^ (8 * (a - slot))) else scratchByte t a) ∧
      (higher = false → es.any Elem.pois = true → t'.scratch = t.scratch ∧ ∀ k, k < 8 → ((slot + 8 * k) / 8) ∈ t'.scratchPois) ∧
      (noneWaits g = true → ∃ tm h, s'.group? tid gix = some (tm, h) ∧ SameRegisters g h ∧ h.cnt = g.cnt)

namespace Sys2Proof.Claims

/-- Only the group of the issuer and the rendering units of its core differ; the units are r afterwards (R245). -/
structure RendersOnly (s s' : State) (iss : Issuer) (f : Frag) (dest : Dword) (cn : Nat) (r : Render) (P : Group → Prop) : Prop where
  rest : s' = { s with teams := s'.teams, cores := s'.cores, fresh := s'.fresh }
  units : s'.core cn = { s.core cn with rend := r }
  cores : ∀ c, c ≠ cn → s'.core c = s.core c
  teams : ∀ k, (mapGet? k s'.teams).map teamStill = (mapGet? k s.teams).map teamStill
  groups : ∀ k j, (k ≠ iss.team ∨ j ≠ iss.gix) → (s'.group? k j).map Prod.snd = (s.group? k j).map Prod.snd
  own : ∃ tm h, s'.group? iss.team iss.gix = some (tm, h) ∧ P h ∧ (f.jtop = none → ∃ f', mapGet? iss.entry h.frags = some f' ∧ f'.pc = dest)

/-- The pixels of a group after a change of those of a set of lanes that are not helpers. -/
def pixelsAfter (team : Nat) (m : Mask) (fn : Pixel → Pixel) (gs : List PixGroup) : List PixGroup :=
  gs.map fun p => if p.team = team then { p with pixels := p.pixels.map fun q => if inMask m q.lane && !q.helper then fn q else q } else p

/-- FP32 clamped to 0 to 1, NaN to 0 (R255). -/
def unit01 (v : Nat) : Nat :=
  match fp32.unpack v with
  | .nan _ => 0
  | .inf n => if n then 0 else 0x3F800000
  | .fin n m _ => if n || decide (m = 0) then 0 else if 0x3F800000 ≤ v then 0x3F800000 else v

end Sys2Proof.Claims

/-- R245, R247 to R250, R255, R256: the instructions of task, mesh and pixel groups, each in its own kind of group; in another it is a program
error. TEMIT queues mesh groups and waits while four slots are taken; MSETUP opens a slot, or waits for one; MVERT and MPRIM write its entries,
lanes ascending; MDONE publishes it; DISCARD, DEPTHW and PXOUT note their pixels until the commit. -/
def Obligations.GraphicsInstructions : Prop :=
  ∀ (x : Args) (s : State) (iss : Issuer) (t : Team) (g : Group) (f : Frag) (lch : Launch), g.stepping = none → badAddr (afterOf x f) = false →
    mapGet? t.cfg.launch s.launches = some lch →
    let core := t.core.getD 0
    let r := (s.core core).rend
    let act := guardV g x f.emask
    let dest := afterOf x f
    let keep (h : Group) : Prop := RegisterFrame g h ∧ h.sp = g.sp
    let a := g.srcU x.a
    let b := g.srcU x.b
    let lb (l : Nat) : Elem := laneAt (g.srcV .int x.b) l
    let la (l : Nat) : Elem := laneAt (g.srcV .fp32 x.a) l
    let quad (l : Nat) : List Elem := laneData (g.vregs x.a 4) l
    let goes (i : Instr) (r' : Render) : Prop := ∃ s', exec i s = .next s' ∧ RendersOnly s s' iss f dest core r' keep
    let stopped (o : Op) (i : Instr) : Prop :=
      exec i s = .next (takeTrap (countIssue s iss) iss f.pc (nextOf x f) (activeOf o x g f) { code := 0x03 })
    let mine := r.slots.find? fun q => decide (q.2.team = iss.team ∧ q.2.gix = iss.gix) && q.2.pub.isNone
    let upd (n : Nat) (fn : Slot → Slot) : Render := { r with slots := mapUpd n fn r.slots }
    let sel := x.m % 16
    (Issues .temit x s iss t g f → g.kind = .task →
      (4 ≤ r.slots.length → exec (.temit x) s = .next s) ∧
      (r.slots.length < 4 → a.pois = false → a.nat = 0 → Completes (.temit x) s iss f dest keep) ∧
      (r.slots.length < 4 → a.pois = false → 1 ≤ a.nat → a.nat ≤ 64 → goes (.temit x)
        { r with meshQ := r.meshQ ++ [⟨t.cfg.launch, (t.cluster, t.tix), (List.range 16).map fun k => g.sreg (fldIdx x.b + k), 0, a.nat⟩] }) ∧
      (r.slots.length < 4 → a.pois = false → 64 < a.nat → stopped .temit (.temit x))) ∧
    (Issues .msetup x s iss t g f → g.kind = .mesh → a.pois = false → b.pois = false →
      (1 ≤ a.nat → a.nat ≤ 256 → 1 ≤ b.nat → b.nat ≤ 256 → sel = lch.na → mine = none →
        (∀ n, mapFree r.slots 0 4 = some n → goes (.msetup x)
          { r with slots := mapSet n ⟨iss.team, iss.gix, lowest f.emask, t.cfg.launch, f.pc, a.nat, b.nat, sel, [], [], none, 0⟩ r.slots }) ∧
        (mapFree r.slots 0 4 = none → Completes (.msetup x) s iss f f.pc fun h => keep h ∧
          ∃ f', mapGet? iss.entry h.frags = some f' ∧ f'.wait = .slot x.bytes)) ∧
      (a.nat = 0 ∨ 256 < a.nat ∨ b.nat = 0 ∨ 256 < b.nat ∨ sel ≠ lch.na ∨ mine.isSome = true → stopped .msetup (.msetup x))) ∧
    (∀ n sl, mine = some (n, sl) → g.kind = .mesh →
      (Issues .mvert x s iss t g f → (∀ l, l < 32 → inMask act l = true → (lb l).pois = false ∧ (lb l).nat < sl.nv ∧ (sel = 0 ∨ sel ≤ sl.na)) →
        goes (.mvert x) (upd n fun y => { y with verts := (lanesOf act).foldl (fun m l => mapSet (16 * (lb l).nat + sel) (quad l) m) y.verts })) ∧
      (Issues .mprim x s iss t g f → (∀ l, l < 32 → inMask act l = true → (lb l).pois = false ∧ (lb l).nat < sl.np) →
        goes (.mprim x) (upd n fun y => { y with prims := (lanesOf act).foldl (fun m l => mapSet (lb l).nat (laneAt (g.srcV .int x.a) l) m) y.prims })) ∧
      (Issues .mdone x s iss t g f → goes (.mdone x) { upd n (fun y => { y with pub := some r.published }) with published := r.published + 1 })) ∧
    (mine = none → g.kind = .mesh → ∀ o i, (o, i) ∈ [(Op.mvert, Instr.mvert x), (.mprim, .mprim x), (.mdone, .mdone x)] → Issues o x s iss t g f → stopped o i) ∧
    (g.kind = .pixel →
      (Issues .discard x s iss t g f → lch.nodisc = false →
        goes (.discard x) { r with pix := pixelsAfter iss.team act (fun p => { p with discarded := true }) r.pix }) ∧
      (Issues .depthw x s iss t g f → lch.nodepthw = false → (∀ l, l < 32 → inMask act l = true → (la l).pois = true → (r.pix.any fun p => decide (p.team = iss.team) &&
          p.pixels.any fun q => decide (q.lane = l) && !q.helper && !q.discarded) = false) →
        goes (.depthw x) { r with pix := pixelsAfter iss.team act (fun p => { p with depth := BitVec.ofNat 32 (unit01 (la p.lane).nat) }) r.pix }) ∧
      (Issues .pxout x s iss t g f → fldIdx x.b < lch.ntgt → (∀ l, l < 32 → inMask act l = true → (quad l).all (fun e => !e.pois) = true) →
        goes (.pxout x) { r with pix := pixelsAfter iss.team act (fun p => { p with out := mapSet (fldIdx x.b) ((quad p.lane).map Elem.val) p.out }) r.pix })) ∧
    (∀ o i k, (o, i, k) ∈ [(Op.temit, Instr.temit x, GroupKind.task), (.msetup, .msetup x, .mesh), (.mvert, .mvert x, .mesh), (.mprim, .mprim x, .mesh),
        (.mdone, .mdone x, .mesh), (.discard, .discard x, .pixel), (.depthw, .depthw x, .pixel), (.pxout, .pxout x, .pixel)] →
      Issues o x s iss t g f → g.kind ≠ k → stopped o i)

/-- R247, R250, R253: the events of the rendering units. The first mesh group that TEMIT queued is placed where a port has room, with its number
in v0 and the payload in its uniform registers; the next primitive of the oldest published slot becomes quads, none of a primitive that is
dropped, when a slot for a pixel group is free; up to eight quads of the primitive whose turn it is become a pixel group with four live lanes for each. -/
def Obligations.RenderEvents : Prop :=
  ∀ (core : Nat) (s : State),
    let r := (s.core core).rend
    (∀ q l p, s.savedMesh core = none → s.nextMesh core = some q → mapGet? q.launch s.launches = some l → s.portFor core (8 * l.x 0x18 1) = some p →
      ∃ s' t g, exec (.meshGroupPlacement core) s = .next s' ∧ s' = { s with teams := s'.teams, cores := s'.cores, nextId := s.nextId + 1 } ∧
        (∀ k, k ≠ s.nextId → mapGet? k s'.teams = mapGet? k s.teams) ∧ mapGet? s.nextId s'.teams = some t ∧ t.core = some core ∧
        t.groups = [(0, g)] ∧ g.kind = .mesh ∧ g.port = p ∧ t.cfg.k = 8 * l.x 0x18 1 ∧
        g.frags.map (fun f => (f.1, f.2.own, f.2.pc)) = [(0, BitVec.allOnes 32, BitVec.ofNat 64 (l.x 0 8))] ∧
        (∀ ln, ln < 32 → laneAt (g.vreg 0) ln = elemOf q.next) ∧ (∀ j e, q.payload[j]? = some e → q.payload.length ≤ 16 → g.sreg j = e) ∧
        (s'.core core).rend.slots = r.slots ∧ (∀ pre post, r.meshQ = pre ++ q :: post → q ∉ pre →
          (s'.core core).rend.meshQ = pre ++ (if q.count ≤ q.next + 1 then [] else [{ q with next := q.next + 1 }]) ++ post)) ∧
    (∀ n sl l, s.rendWaits core = false → r.work = [] → r.nextSlot = some (n, sl) → mapGet? sl.launch s.launches = some l → l.early = false →
      (s.pixPort core sl.launch (8 * l.x 0x19 1)).isSome = true →
      let late := s.lateQuads core sl.launch l (sl.quads l sl.next)
      let qs := late.2
      qs.Sublist (sl.quads l sl.next) ∧ (l.ztest = false → qs = sl.quads l sl.next) ∧
      ∃ s', exec (.primitiveSetup core) s = .next s' ∧ s' = { s with teams := s'.teams, cores := s'.cores, launches := late.1.launches } ∧
        (s'.core core).rend.work = r.work ++ (if qs = [] then [] else [⟨sl.launch, qs⟩]) ∧
        (s'.core core).rend.slots = (if sl.np ≤ sl.next + 1 then mapDel n r.slots else mapUpd n (fun y => { y with next := y.next + 1 }) r.slots) ∧
        (sl.next + 1 < sl.np → s'.teams = s.teams) ∧
        (∀ e, mapGet? sl.next sl.prims = some e → (e.pois = true ∨ e.val.getLsbD 31 = true ∨ sl.nv ≤ e.nat % 256 ∨ sl.nv ≤ e.nat / 256 % 256 ∨
          sl.nv ≤ e.nat / 65536 % 256) → qs = []) ∧
        (mapGet? sl.next sl.prims = none → qs = [])) ∧
    (∀ w rest l p, r.work = w :: rest → mapGet? w.launch s.launches = some l → s.pixPort core w.launch (8 * l.x 0x19 1) = some p →
      let qs := w.quads.take 8
      ∃ s' t g, exec (.pixelGroupCreate core) s = .next s' ∧ s' = { s with teams := s'.teams, cores := s'.cores, nextId := s.nextId + 1 } ∧
        (∀ k, k ≠ s.nextId → mapGet? k s'.teams = mapGet? k s.teams) ∧ mapGet? s.nextId s'.teams = some t ∧ t.core = some core ∧
        t.groups = [(0, g)] ∧ g.kind = .pixel ∧ g.port = p ∧ t.cfg.k = 8 * l.x 0x19 1 ∧
        g.frags.map (fun f => (f.1, f.2.own, f.2.pc)) = [(0, maskOf fun i => decide (i / 4 < qs.length), BitVec.ofNat 64 (l.x 8 8))] ∧
        (∀ j k n v, (qs[j]?.bind fun q => q[k]?.bind fun y => y.regs[n]?) = some v → k < 4 → j < 8 → laneAt (g.vreg n) (4 * j + k) = ⟨v, false⟩) ∧
        (s'.core core).rend.work = (if w.quads.drop 8 = [] then rest else { w with quads := w.quads.drop 8 } :: rest) ∧
        ∃ pg, (s'.core core).rend.pix = r.pix ++ [pg] ∧ pg.launch = w.launch ∧ pg.team = s.nextId ∧ pg.retired = false ∧ pg.pixels = groupPixels qs)

namespace Sys2Proof.Claims

/-- The two words of a pair operand, and whether one is poisoned. -/
def pairAt (g : Group) (fl : Fld) : BitVec 64 := (g.srcUHi fl).val ++ (g.srcU fl).val
def pairBad (g : Group) (fl : Fld) : Bool := (g.srcU fl).pois || (g.srcUHi fl).pois

/-- The command that an instruction gives to a unit of a die (R350, R374, R403): of the tenant, of the class of its launch, with the descriptor,
the completion word and the sequence value, counted by the access that the instruction makes. -/
def commandOf (s : State) (iss : Issuer) (t : Team) (k : CmdKind) (die : Nat) (desc : List Word) (w seq : Nat) : Cmd :=
  { Cmd.fresh k die t.cfg.ctx (match mapGet? t.cfg.launch s.launches with | some l => s.classOf l | none => 0) desc w seq with
    issuer := some (iss.team, iss.gix, s.nextId), entry := iss.entry }

end Sys2Proof.Claims

/-- R350, R374 to R384, R457, R458, R461: COPY, SORT, ENCSUB, COLL, BKSET, EMITC and LAUNCH. A command whose checks hold is given to its unit with
what its descriptor says, and is counted on path 7; no byte changes yet. A descriptor beyond its limits raises the illegal-operand trap, a
completion word, block or record that is not aligned, and a communicator or counter that may not be used, the program-error trap. -/
def Obligations.EngineCommandsIssue : Prop :=
  ∀ (x : Args) (s : State) (iss : Issuer) (t : Team) (g : Group) (f : Frag), g.stepping = none → badAddr (afterOf x f) = false →
    noneWaits g = true → mayIssue g 7 →
    let ws := (g.shape (fldIdx x.d)).map Elem.val
    let clean (ps : List Fld) : Prop := (g.shape (fldIdx x.d)).any Elem.pois = false ∧ ∀ p ∈ ps, pairBad g p = false
    let die := t.core.getD 0 / 64
    let a := (pairAt g x.a).toNat
    let b := (pairAt g x.b).toNat
    let c := (pairAt g x.c).toNat
    let queued (i : Instr) (act : Mask) (cmd : Cmd) : Prop := ∃ s', exec i s = .next s' ∧
      Sends { s with cmds := mapSet s.nextId cmd s.cmds } s' iss f (afterOf x f) fun h =>
        Counted g h s.nextId 7 x act .none [(.prefetch, [], .unit)]
    let stops (i : Instr) (o : Op) (code : Nat) : Prop :=
      exec i s = .next (takeTrap (countIssue s iss) iss f.pc (nextOf x f) (activeOf o x g f) { code := code })
    (Issues .copy x s iss t g f → clean [x.a, x.b] →
      (copyDesc? ws = none → stops (.copy x) .copy tcIllegalOperand) ∧
      (∀ d, copyDesc? ws = some d → a % 16 ≠ 0 → stops (.copy x) .copy tcProgram) ∧
      (∀ d, copyDesc? ws = some d → a % 16 = 0 → d.scratchOk t.cfg.scratch = false → stops (.copy x) .copy tcRangeScratch) ∧
      (∀ d, copyDesc? ws = some d → a % 16 = 0 → d.scratchOk t.cfg.scratch = true →
        queued (.copy x) f.emask { commandOf s iss t .copy die ws a b with team := if d.ssp = 1 ∨ d.dsp = 1 then some iss.team else none })) ∧
    (Issues .sort x s iss t g f → clean [x.a, x.b] →
      (sortDesc? ws = none → stops (.sort x) .sort tcIllegalOperand) ∧
      (∀ d, sortDesc? ws = some d → a % 16 ≠ 0 → stops (.sort x) .sort tcProgram) ∧
      (∀ d, sortDesc? ws = some d → a % 16 = 0 → queued (.sort x) f.emask (commandOf s iss t .sort die ws a b))) ∧
    (Issues .encsub x s iss t g f → pairBad g x.a = false → pairBad g x.b = false → pairBad g x.c = false →
      (a % 128 ≠ 0 ∨ b % 16 ≠ 0 → stops (.encsub x) .encsub tcProgram) ∧
      (a % 128 = 0 → b % 16 = 0 → queued (.encsub x) f.emask { commandOf s iss t .encode die [] b c with at_ := a })) ∧
    (Issues .coll x s iss t g f → clean [x.a, x.b] →
      (collDesc? s ws = none → stops (.coll x) .coll tcIllegalOperand) ∧
      (∀ d, collDesc? s ws = some d →
        let k := s.comm d.comm
        (k.en = false ∨ k.tenant ≠ t.cfg.ctx ∨ a % 16 ≠ 0 → stops (.coll x) .coll tcProgram) ∧
        (k.en = true → k.tenant = t.cfg.ctx → a % 16 = 0 → queued (.coll x) f.emask (commandOf s iss t .coll k.die ws a b)))) ∧
    (Issues .bkset x s iss t g f → clean [x.b, x.c] → (g.srcU x.a).pois = false →
      (collDesc? s ws = none → stops (.bkset x) .bkset tcIllegalOperand) ∧
      (∀ d, collDesc? s ws = some d →
        let k := s.comm d.comm
        let n := (g.srcU x.a).nat
        (k.en = false ∨ k.tenant ≠ t.cfg.ctx ∨ b % 16 ≠ 0 ∨ 255 < n ∨ (mapGet? n s.buckets).isSome = true → stops (.bkset x) .bkset tcProgram) ∧
        (∀ s2 p m ps lf, k.en = true → k.tenant = t.cfg.ctx → b % 16 = 0 → n ≤ 255 → mapGet? n s.buckets = none →
          (envOf .bkset x s iss t g f).pages (countIssue s iss) permR (va57 d.src) 1 = (s2, some (.ok ((p, m) :: ps))) →
          s2.leafOf t.cfg.ctx (va57 d.src) = some lf → va57 d.src + d.srcBytes k.nrank ≤ lf.va + lf.size →
          queued (.bkset x) f.emask { commandOf s iss t (.arm n) (n / 64) ws b c with range := some (p, d.srcBytes k.nrank) }))) ∧
    (Issues .emitc x s iss t g f → pairBad g x.b = false → (g.srcU x.c).pois = false →
      let act := guardV g x f.emask
      let rec_ (l : Nat) : List Word := [(g.srcU x.b).val, (g.srcUHi x.b).val, (g.srcU x.c).val] ++ (laneData (g.vregs x.a 13) l).map Elem.val
      (∀ l, l < 32 → inMask act l = true → (laneData (g.vregs x.a 13) l).any Elem.pois = false) →
      (b % 4 ≠ 0 ∨ 15 < (g.srcU x.c).nat → stops (.emitc x) .emitc tcProgram) ∧
      (b % 4 = 0 → (g.srcU x.c).nat ≤ 15 → act = 0#32 → Completes (.emitc x) s iss f (afterOf x f) fun h => RegisterFrame g h ∧ h.sp = g.sp) ∧
      (b % 4 = 0 → (g.srcU x.c).nat ≤ 15 → act ≠ 0#32 → queued (.emitc x) act (commandOf s iss t .emitc die ((lanesOf act).flatMap rec_) 0 0))) ∧
    (Issues .launch x s iss t g f → pairBad g x.a = false →
      (a % 256 ≠ 0 → stops (.launch x) .launch tcProgram) ∧
      (a % 256 = 0 → queued (.launch x) f.emask { commandOf s iss t .launch die [] 0 0 with at_ := a }))

/-- R382, R461 to R463: QPUSH and QPOP go to the queue that A names, with the block of QPUSH as it stands at issue, and the fragment waits for
the answer; they are not counted on a path of R60. A queue beyond 255, or of another tenant, raises the program-error trap. BKQ gives the state of a
counter, and its count where the tenant owns it. -/
def Obligations.QueueAndBucketInstructions : Prop :=
  ∀ (x : Args) (s : State) (iss : Issuer) (t : Team) (g : Group) (f : Frag), g.stepping = none → badAddr (afterOf x f) = false →
    noneWaits g = true → (g.srcU x.a).pois = false →
    let n := (g.srcU x.a).nat
    let block := (List.range 16).map fun i => g.sreg (fldIdx x.d + i)
    let gp (o : Op) := guardBad o x g
    let asks (i : Instr) (o : Op) (cmd : Cmd) : Prop := ∃ s', exec i s = .next s' ∧
      Sends { s with cmds := mapSet s.nextId cmd s.cmds } s' iss f f.pc fun h => SameRegisters g h ∧ (∀ k, k ≤ 8 → h.cnt.getD k 0 = g.cnt.getD k 0) ∧
        ∃ f', mapGet? iss.entry h.frags = some f' ∧ f' = { f with wait := .queue x.bytes (gp o) }
    let stops (i : Instr) (o : Op) : Prop :=
      exec i s = .next (takeTrap (countIssue s iss) iss f.pc (nextOf x f) (activeOf o x g f) { code := tcProgram })
    (∀ i o, (i, o) ∈ [(Instr.qpush x, Op.qpush), (.qpop x, .qpop)] → Issues o x s iss t g f → g.cnt.length ≤ 8 → mayIssue g 9 →
      (255 < n ∨ s.queueTenant n ≠ t.cfg.ctx → stops i o) ∧
      (n ≤ 255 → s.queueTenant n = t.cfg.ctx → (o = .qpush → block.any Elem.pois = false) →
        asks i o (if o = .qpush then { commandOf s iss t (.push n) (n / 64) [] 0 0 with blk := block, dst := fldIdx x.d, pred := fldIdx x.c }
          else { commandOf s iss t (.pop n) (n / 64) [] 0 0 with dst := fldIdx x.d, pred := fldIdx x.c }))) ∧
    (Issues .bkq x s iss t g f →
      (255 < n → stops (.bkq x) .bkq) ∧
      (n ≤ 255 → Completes (.bkq x) s iss f (afterOf x f) fun h => UniformFrame g h ∧ SameQ g h ∧ h.sp = g.sp ∧
        let v (w : Nat) : Option Nat := if guardBad .bkq x g then none else some w
        let put (st count excess : Nat) : Prop := UniformWrote2 g h x.d (v (count % 2 ^ 32)) (v (st * 2 ^ 30 + excess * 2 ^ 29 + count / 2 ^ 32 % 2 ^ 16))
        match mapGet? n s.buckets with
        | none => put 0 0 0
        | some k =>
          let st := match k.st with | .free => 0 | .armed => 1 | .fired => 2
          if k.ctx = t.cfg.ctx then put st k.count (if k.excess then 1 else 0) else put st 0 0))

namespace Sys2Proof.Claims

/-- The access that counts a command has returned (R60): its counter is lower by one, and the group's registers stay. Stated of a group none of
whose fragments waits, where it is the one access of path 7. -/
def Released (s s' : State) (c : Cmd) : Prop :=
  match c.issuer with
  | none => s'.teams = s.teams
  | some (tid, gix, fid) => ∀ tm g y, s.group? tid gix = some (tm, g) → noneWaits g = true → g.flight? fid = some y →
      (g.flights.filter fun z => decide (z.path = 7)) = [y] → y.dst = .none → y.flags = 0 → y.parts.map (·.req.act) = [.prefetch] →
      ∃ tm' h, s'.group? tid gix = some (tm', h) ∧ teamStill tm' = teamStill tm ∧ SameRegisters g h ∧ h.cnt = listUpd 7 (fun n => n - 1) g.cnt

/-- No memory differs: HBM, host memory, the Granary, the content of every slice. -/
structure MemoryRests (s s' : State) : Prop where
  hbm : s'.hbm = s.hbm
  host : s'.hostMem = s.hostMem
  gran : s'.granary = s.granary
  slices : ∀ i, (s'.slice i).tags = (s.slice i).tags ∧ (s'.slice i).entries = (s.slice i).entries

/-- A command is c afterwards, and nothing else differs but the counter of free values. -/
structure Becomes (s s' : State) (id : Nat) (c : Cmd) : Prop where
  rest : s' = { s with cmds := s'.cmds, fresh := s'.fresh }
  cmd : mapGet? id s'.cmds = some c
  others : ∀ k, k ≠ id → mapGet? k s'.cmds = mapGet? k s.cmds

/-- The line of a place stands at its home with the content l, alone in its slice and held by no core; no write waits for it. -/
def Alone (s : State) (q : Place) (l : Line) : Prop :=
  s.keyOn q.key = true ∧ s.partialsOf (lineNo q.pa) q.key = [] ∧ l.bytes.length = 128 ∧ (∀ w ∈ s.late, lineNo w.1.pa ≠ lineNo q.pa) ∧
    ∃ e d n w px ix, (s.slice (s.homeOf q)).tags = [(lineNo q.pa, ⟨q.key, some e, d, n, w, px, false⟩)] ∧
      (s.slice (s.homeOf q)).entries = [(e, ⟨l, 1, q.key, ix⟩)]

/-- What the write does for which a command holds the ownership (R324, R351, R377): the bytes it gives, each with its poison, at their offsets in
the line or at their addresses; every other byte stays. A write to a scratchpad waits for the accesses that have arrived there before it (R178).
`n` is the count of the command's record afterwards. -/
def PerformsWrite (i : Instr) (s : State) (id : Nat) (c : Cmd) (n : Nat → Nat) : Prop :=
  (c.out = [.refused] → ∃ s', exec i s = .next s' ∧ Becomes s s' id { c with out := [], status := max c.status 2, count := n c.count }) ∧
  (∀ t bs, c.out = [.scratch t bs] → s.scratchIdle t = false → ∃ s', exec i s = .next s' ∧ Becomes s s' id { c with count := n c.count }) ∧
  (∀ t bs tm, c.out = [.scratch t bs] → s.scratchIdle t = true → mapGet? t s.teams = some tm → zeroWf tm.scratch = true → mapSorted bs = true →
    ∃ s' tm', exec i s = .next s' ∧ mapGet? t s'.teams = some tm' ∧ MemoryRests s s' ∧
      mapGet? id s'.cmds = some { c with out := [], count := n (c.count + bs.length) } ∧
      tm' = { tm with scratch := tm'.scratch, scratchPois := tm'.scratchPois } ∧
      (∀ a, scratchByte tm' a = match mapGet? a bs with | some b => b.1 | none => scratchByte tm a) ∧
      (∀ a b, mapGet? a bs = some b → b.2 = true → a / 8 ∈ tm'.scratchPois)) ∧
  (∀ bs, c.out = [.gran bs] → cellsWf s.granary = true → mapSorted bs = true →
    ∃ s', exec i s = .next s' ∧ s'.hbm = s.hbm ∧ s'.hostMem = s.hostMem ∧ s'.teams = s.teams ∧
      mapGet? id s'.cmds = some { c with out := [], count := n (c.count + bs.length) } ∧
      (∀ a, s'.granByte a = match mapGet? a bs with | some b => b.1 | none => s.granByte a) ∧
      (∀ a b, mapGet? a bs = some b → b.2 = true → a / 8 ∈ s'.granPois)) ∧
  (∀ p q bs l, c.out = [.mem p bs] → s.resolve p 128 2 = some q → Alone s q l →
    ∃ s', exec i s = .next s' ∧ s'.hbm = s.hbm ∧ s'.hostMem = s.hostMem ∧ s'.granary = s.granary ∧
      mapGet? id s'.cmds = some { c with out := [], count := n (c.count + bs.length) } ∧ s'.peekLine q = putCells bs l)

/-- The next line of what a command reads is read (R351): its bytes with their poison, and the worst status met. -/
def ReadsNext (i : Instr) (s : State) (id : Nat) (c : Cmd) : Prop :=
  let b := pickOne s.fresh c.left
  ∀ s2 bs st, State.engineRead { s with fresh := s.fresh + 1 } id c (128 * b) 128 = (s2, some (bs, st)) →
    ∃ s', exec i s = .next s' ∧ s'.hbm = s2.hbm ∧ s'.hostMem = s.hostMem ∧ s'.granary = s.granary ∧
      mapGet? id s'.cmds = some { c with got := mapSet b bs c.got, left := c.left.filter (fun x => decide (x ≠ b)), status := max c.status st }

/-- The last stage of a command whose result stands: the next line is owned, the write for which it is owned is made, and with none left the
command has ended (R324, R351, R352). -/
def WritesNext (i : Instr) (s : State) (id : Nat) (c : Cmd) (n : Nat → Nat) : Prop :=
  (c.out = [] → c.left = [] → ∃ s', exec i s = .next s' ∧ Becomes s s' id { c with ended := true, busy := false, count := n c.count }) ∧
  (c.out = [] → c.left ≠ [] →
    let b := pickOne s.fresh c.left
    ∀ s2 w, State.ownLine { s with fresh := s.fresh + 1 } id c b (inBlock 128 b c.result) = (s2, some w) →
      ∃ s', exec i s = .next s' ∧ s'.hbm = s2.hbm ∧ s'.hostMem = s.hostMem ∧ s'.granary = s.granary ∧
        mapGet? id s'.cmds = some { c with out := [w], left := c.left.filter (fun x => decide (x ≠ b)), count := n c.count }) ∧
  PerformsWrite i s id c n

end Sys2Proof.Claims

/-- R350, R374, R403, R459, R461: a command that has left its group, and whose fault does not wait, is taken by its engine, which ends its count
on path 7: COPY by a channel of the Porter, SORT while the engine holds fewer than 32, ENCSUB when its block is read (one that breaks its limits ends
with status 5), COLL with its number among its communicator's commands (one whose rank map is not sound ends with status 5, one whose rank map is
refused with status 2), BKSET when its counter is free, which it arms. No byte of memory differs. -/
def Obligations.EngineAcceptance : Prop :=
  ∀ (cmd : Nat) (s : State) (c : Cmd), mapGet? cmd s.cmds = some c → s.cmdSent c = true → s.cmdFaulted cmd = false →
    let taken (s1 : State) (c' : Cmd) : Prop := ∃ s', exec (.engineAccept cmd) s = .next s' ∧ mapGet? cmd s'.cmds = some { c' with accepted := some s.acceptedCmds } ∧
      s'.acceptedCmds = s.acceptedCmds + 1 ∧ MemoryRests s1 s' ∧ Released s1 s' c
    (c.kind = .copy → c.accepted = none → ∃ ch, ch < 8 ∧ taken s { c with chan := ch }) ∧
    (c.kind = .sort → c.accepted = none → s.held (fun x => decide (x.kind = .sort ∧ x.die = c.die)) < 32 → taken s c) ∧
    (∀ s1 bs st, c.kind = .encode → c.accepted = none → s.engineRead cmd c c.at_ 128 = (s1, some (bs, st)) →
      let raw := bs.map (·.1)
      let desc := (List.range 32).map fun i => BitVec.ofNat 32 (blockField raw (4 * i) 4)
      ((st ≠ 0 ∨ encDesc? raw = none) → taken s1 { c with desc := desc, ended := true, status := max st 5 }) ∧
      (∀ d, st = 0 → encDesc? raw = some d → ∃ e, (d.enc ≤ 3 → e = d.enc) ∧ e ≤ 3 ∧ taken s1 { c with desc := desc, chan := e })) ∧
    (∀ s1 rs, c.kind = .coll → c.accepted = none →
      let n := bits (dW c.desc 6) 7 0
      s.rankMap n = (s1, some rs) →
      (ranksOk rs (s1.comm n).myrank (bits (s1.reg 0x00C50000) 8 0) = true → taken s1 { c with nth := mapGetD n 0 s.commNth, ranks := rs.map (·.1) }) ∧
      (ranksOk rs (s1.comm n).myrank (bits (s1.reg 0x00C50000) 8 0) = false → taken s1 { c with ended := true, status := max c.status 5 })) ∧
    (∀ s1, c.kind = .coll → c.accepted = none → s.rankMap (bits (dW c.desc 6) 7 0) = (s1, none) →
      taken s1 { c with ended := true, status := max c.status 2 }) ∧
    (∀ b p n, c.kind = .arm b → mapGet? b s.buckets = none → c.range = some (p, n) → mapSorted s.cmds = true →
      ∃ s', exec (.engineAccept cmd) s = .next s' ∧ mapGet? cmd s'.cmds = none ∧ MemoryRests s s' ∧ Released s s' c ∧
        ∀ k, mapGet? k s'.buckets = if k = b then some ⟨.armed, c.ctx, 0, false, n, p, c.desc, c.w, c.seq⟩ else mapGet? k s.buckets)

/-- R377 to R381, R459, R460: a command under way goes a step further: the lines it reads are read one by one, its result is formed, and each
destination line is owned and written in one step. A sort's pass is stable and orders by the next 16 bits of the key; a collective waits for every
rank, and forms the result in rank order or in the order of its table. -/
def Sys2Proof.Claims.EngineWorkHold : Prop :=
  (∀ (cmd : Nat) (s : State) (c : Cmd) (d : CopyDesc), mapGet? cmd s.cmds = some c → c.kind = .copy → s.cmdReady cmd c = true →
    s.cmdBehind c (fun x => decide (x.kind = .copy ∧ x.chan = c.chan)) = false → copyDesc? c.desc = some d →
    let i : Instr := .copyExecute cmd
    let b := pickOne s.fresh c.left
    let us := d.units.filter fun (u : Nat × Nat) => (d.dstPieces u.1 u.2).any fun (p : Nat × Nat) =>
      (List.range p.2).any fun j => decide (d.block (p.1 + j) = b)
    (c.stage = 0 → ∃ s', exec i s = .next s' ∧ Becomes s s' cmd { c with stage := 1, left := d.blocks }) ∧
    (c.stage ≠ 0 → c.out = [] → c.left = [] → ∃ s', exec i s = .next s' ∧ Becomes s s' cmd { c with ended := true }) ∧
    (∀ s1 bs fl st, c.stage ≠ 0 → c.out = [] → c.left ≠ [] →
      State.copyUnits { s with fresh := s.fresh + 1 } cmd c d us = (s1, some (bs, fl, st)) →
      let here := toResult ((bs.filter fun (x : Nat × (Byte × Bool)) => decide (d.block x.1 = b)).map fun (x : Nat × (Byte × Bool)) => (x.1, x.2))
      let holds (w : EngWrite) : Prop := ∃ s', exec i s = .next s' ∧ s'.hostMem = s.hostMem ∧ s'.granary = s.granary ∧ mapGet? cmd s'.cmds =
        some { c with out := [w], left := c.left.filter fun x => decide (x ≠ b), flags := c.flags ||| fl, status := max c.status st }
      (d.dsp = 1 → holds (.scratch (c.team.getD 0) here)) ∧
      (d.dsp = 2 → (∀ x ∈ here, x.1 < s1.granSize c.ctx ∧ s1.sliceRetired (bankOf ((s1.granBase c.ctx + x.1) % 2 ^ 27)) = false) →
        holds (.gran (here.map fun (x : Nat × (Byte × Bool)) => ((s1.granBase c.ctx + x.1) % 2 ^ 27, x.2)))) ∧
      (∀ s2 w, d.dsp = 0 → s1.ownLine cmd c b (here.map fun (x : Nat × (Byte × Bool)) => (x.1 % 128, x.2)) = (s2, some w) → holds w)) ∧
    (c.stage ≠ 0 → PerformsWrite i s cmd c id)) ∧
  (∀ (die id : Nat) (s : State) (c : Cmd) (d : SortDesc), s.sortNext die = some (id, c) → mapGet? id s.cmds = some c → s.cmdFaulted id = false →
    sortDesc? c.desc = some d →
    let i : Instr := .sortPass die
    let digit (x : SortItem) : Nat := bits x.key (min (d.kbits - 1) (16 * c.passes + 15)) (16 * c.passes)
    let passed (xs : List SortItem) : Prop := ∃ s' ys, exec i s = .next s' ∧ ys.Perm xs ∧ ys.Pairwise (fun a b => digit a ≤ digit b) ∧
      (∀ v, ys.filter (fun a => decide (digit a = v)) = xs.filter fun a => decide (digit a = v)) ∧
      (c.passes + 1 < d.passes → Becomes s s' id { c with got := if c.stage = 1 then [] else c.got, work := ys, passes := c.passes + 1, stage := 2, busy := false }) ∧
      (d.passes ≤ c.passes + 1 → ∃ c', Becomes s s' id c' ∧ c'.result = d.output ys ∧ c'.stage = 3 ∧ c'.count = d.n ∧ c'.status = c.status)
    (c.stage = 0 → ∃ s', exec i s = .next s' ∧
      Becomes s s' id { c with stage := 1, busy := true, left := linesTouched ((d.ranges.take 2).map fun (r : Nat × Nat) => (va57 r.1, r.2)) }) ∧
    (c.stage = 1 → c.left ≠ [] → ReadsNext i s id c) ∧ (c.stage = 1 → c.left = [] → passed (d.items c)) ∧ (c.stage = 2 → passed c.work) ∧
    (c.stage = 3 → WritesNext i s id c fun _ => d.n)) ∧
  (∀ (cmd : Nat) (s : State) (c : Cmd) (d : EncDesc), mapGet? cmd s.cmds = some c → c.kind = .encode → s.cmdReady cmd c = true →
    s.cmdBehind c (fun x => decide (x.kind = .encode ∧ x.chan = c.chan)) = false → encDesc? (c.desc.flatMap fun w => toBytes w.toNat 4) = some d →
    let i : Instr := .encodeFrame cmd
    let n := Config.encodedSize s.fresh
    (c.stage = 0 → ∃ s', exec i s = .next s' ∧ Becomes s s' cmd { c with stage := 1, left := d.lines }) ∧
    (c.stage = 1 → c.left ≠ [] → ReadsNext i s cmd c) ∧
    (c.stage = 1 → c.left = [] → d.outsz < n → ∃ s', exec i s = .next s' ∧ Becomes s s' cmd { c with ended := true, status := max c.status 4, count := n }) ∧
    (c.stage = 1 → c.left = [] → n ≤ d.outsz → ∃ s' c', exec i s = .next s' ∧ Becomes s s' cmd c' ∧ c'.stage = 3 ∧ c'.nth = n ∧ c'.status = c.status ∧
      c'.result = d.output s.fresh n (decide (c.status ≠ 0))) ∧
    (c.stage = 3 → WritesNext i s cmd c fun _ => c.nth)) ∧
  (∀ (cmd : Nat) (s : State) (c : Cmd) (d : CollDesc), mapGet? cmd s.cmds = some c → c.kind = .coll → s.cmdReady cmd c = true →
    let cm := bits (dW c.desc 6) 7 0
    let k := s.comm cm
    let i : Instr := .collectiveExecute cmd
    let ps := s.peers.filter fun p => decide (p.comm = cm ∧ p.nth = c.nth)
    let others := (List.range k.nrank).filter fun r => decide (r ≠ k.myrank)
    let ord := c.ordBytes d k.nrank
    s.cmdBehind c (fun x => decide (x.kind = .coll ∧ bits (dW x.desc 6) 7 0 = cm)) = false → collDesc? s c.desc = some d →
    ((c.ranks.any fun r => s.dead.contains r) = true →
      ∃ s', exec i s = .next s' ∧ s' = { s with cmds := s'.cmds, slices := s'.slices } ∧
        mapGet? cmd s'.cmds = some { c with ended := true, status := max c.status 2, out := [], busy := false } ∧
        ∀ j, (s'.slice j).entries = (s.slice j).entries ∧
          ∀ ln, mapGet? ln (s'.slice j).tags = (mapGet? ln (s.slice j).tags).map fun (tg : Tag) => if tg.w = some cmd then { tg with w := none } else tg) ∧
    ((c.ranks.any fun r => s.dead.contains r) = false →
      (c.stage = 0 → ∃ s', exec i s = .next s' ∧ Becomes s s' cmd { c with stage := 1, left := d.sourceLines k.nrank }) ∧
      (c.stage = 1 → c.left ≠ [] → ReadsNext i s cmd c) ∧
      (c.stage = 1 → c.left = [] → (∃ r ∈ others, ∀ p ∈ ps, p.rank ≠ r) → exec i s = .next s) ∧
      (c.stage = 1 → c.left = [] → (∀ r ∈ others, ∃ p ∈ ps, p.rank = r) →
        ∃ s' c', exec i s = .next s' ∧ mapGet? cmd s'.cmds = some c' ∧
          s' = { s with cmds := s'.cmds, fresh := s'.fresh, peers := s.peers.filter fun p => !decide (p.comm = cm ∧ p.nth = c.nth) } ∧
          ((∃ p ∈ ps, p.agrees c.desc ord = false) → c' = { c with ended := true, status := max c.status 5 }) ∧
          ((∀ p ∈ ps, p.agrees c.desc ord = true) → d.op ≠ 3 → c' = c.formed d ps k.nrank k.myrank) ∧
          ((∀ p ∈ ps, p.agrees c.desc ord = true) → d.op = 3 →
            (∀ t, t < d.count → ∀ r, r < k.nrank → r ∈ collOrder ord k.nrank t) → c' = c.formed d ps k.nrank k.myrank))) ∧
    (c.stage = 3 → WritesNext i s cmd c id))

/-- R352, R374: a command of which every access has been performed writes its record to W + 8, its status in bits 63:56, flags in 55:50, count in
47:0; then the sequence value to W, after which it is gone, and its bucket counter is free. A task's input copy has no word (R397). -/
def Sys2Proof.Claims.EngineCompletionHold : Prop :=
  ∀ (cmd : Nat) (s : State) (c : Cmd), mapGet? cmd s.cmds = some c → c.ended = true → c.wait = 0 → c.out = [] → s.cmdFaulted cmd = false →
    mapSorted s.cmds = true → mapSorted s.buckets = true →
    (∀ ln, c.input = some ln → ∃ s', exec (.engineCompletionWrite cmd) s = .next s' ∧ MemoryRests s s' ∧ mapGet? cmd s'.cmds = none ∧
      ∀ x, mapGet? ln s.launches = some x → ∃ x', mapGet? ln s'.launches = some x' ∧ x'.copies = x.copies.filter (fun j => decide (j ≠ cmd))) ∧
    (∀ s1 p n ps q l, c.input = none → s.enginePieces c.die c.ctx (if c.recorded then c.w else c.w + 8) 8 permW (c.kind.stop c.die) (.engine cmd) (some cmd) = (s1, some ((p, n) :: ps)) →
      s1.resolve { p with pa := p.pa / 128 * 128 } 128 2 = some q → Alone s1 q l →
      let x := if c.recorded then c.seq else c.status * 2 ^ 56 + c.flags % 64 * 2 ^ 50 + c.count % 2 ^ 48
      ∃ s', exec (.engineCompletionWrite cmd) s = .next s' ∧ s'.hbm = s.hbm ∧ s'.granary = s.granary ∧
        s'.peekLine q = putCells ((toBytes x 8).zipIdx.map fun (b : Byte × Nat) => (p.pa % 128 + b.2, (b.1, false))) l ∧
        (c.recorded = false → ∃ c', mapGet? cmd s'.cmds = some c' ∧ c'.recorded = true ∧ c'.w = c.w ∧ c'.seq = c.seq) ∧
        (c.recorded = true → mapGet? cmd s'.cmds = none ∧ ∀ b, c.bucket = some b → mapGet? b s'.buckets = none))

namespace Sys2Proof.Claims

/-- A queue answers an operation (R382): the operation is gone, no memory differs, q[C] takes the answer, a QPOP that took an entry delivers its 16
words, and the fragment goes on after its instruction. A poisoned guard poisons what is delivered. Stated of a group whose one fragment waits and is
not halted. -/
def Answered (s s' : State) (cmd : Nat) (c : Cmd) (ok : Bool) (block : Option (List Elem)) : Prop :=
  mapGet? cmd s'.cmds = none ∧ MemoryRests s s' ∧
  ∀ tid gix fid tm g fr len gp, c.issuer = some (tid, gix, fid) → s.group? tid gix = some (tm, g) → g.frags = [(c.entry, fr)] →
    fr.wait = .queue len gp → len ≠ 0 → fr.halted = false → fr.jtop = none → g.stepping = none → c.pred < 8 →
    ∃ tm' h fr', s'.group? tid gix = some (tm', h) ∧ teamStill tm' = teamStill tm ∧ SameLane g h ∧ h.p = g.p ∧ h.sh = g.sh ∧ h.sp = g.sp ∧
      h.cnt = g.cnt ∧ h.sl = g.sl ∧ mapGet? c.entry h.frags = some fr' ∧ fr'.wait = .none ∧
      fr'.pc = (loopStep fr fr.pc (fr.pc + BitVec.ofNat 64 len)).2 ∧
      (∀ i, i < 8 → h.q.getLsbD i = (if i = c.pred then ok else g.q.getLsbD i) ∧ h.qPois.getLsbD i = (if i = c.pred then gp else g.qPois.getLsbD i)) ∧
      match block with
      | none => ∀ k, h.sreg k = g.sreg k
      | some b => (∀ j e, b[j]? = some e → if gp then (h.sreg (c.dst + j)).pois = true else h.sreg (c.dst + j) = e) ∧
        ∀ k, (k < c.dst ∨ c.dst + b.length ≤ k) → h.sreg k = g.sreg k

end Sys2Proof.Claims

/-- R382, R401, R402: a QPUSH puts its block behind the entries on chip while nothing is spilled and fewer than 32 are there, else into the ring of
the tenant, and answers 0 where both are full; a QPOP takes the oldest entry, waits where only the ring holds one, and answers 0 where nothing is
held; a queue that is not enabled answers 0. A refill brings the oldest ring entry on chip. QCFG clears or starts a queue as EN changes. -/
def Obligations.HardwareQueues : Prop :=
  (∀ (cmd q : Nat) (s : State) (c : Cmd), mapGet? cmd s.cmds = some c → s.cmdSent c = true → s.cmdFaulted cmd = false → s.queueTurn cmd c q = true →
    c.stage = 0 → c.wait = 0 → c.status = 0 → mapSorted s.cmds = true →
    let k := s.queue q
    let n := s.ringSize q
    let answers (ok : Bool) (block : Option (List Elem)) (k' : HwQueue) : Prop :=
      ∃ s', exec (.engineAccept cmd) s = .next s' ∧ Answered s s' cmd c ok block ∧ s'.queue q = k' ∧ ∀ j, j ≠ q → s'.queue j = s.queue j
    let refused : Prop := answers false none { k with naks := (k.naks + 1) % 65536 }
    (c.kind = .push q →
      (s.queueOn q = false → refused) ∧
      (s.queueOn q = true → k.rcnt = 0 → k.chip.length < 32 → answers true none { k with chip := k.chip ++ [c.blk], pushes := addW k.pushes 1 }) ∧
      (s.queueOn q = true → (k.rcnt ≠ 0 ∨ 32 ≤ k.chip.length) → n ≤ k.rcnt → refused) ∧
      (∀ s1 p x l, s.queueOn q = true → (k.rcnt ≠ 0 ∨ 32 ≤ k.chip.length) → k.rcnt < n →
        (∀ i tm gr, c.issuer = some i → s.group? i.1 i.2.1 = some (tm, gr) → ∀ y ∈ gr.flights, y.id = i.2.2) →
        s.ringPlace q k.rtail permW (some cmd) = (s1, some (.ok p)) → s1.resolve { p with pa := p.pa / 128 * 128 } 128 2 = some x → Alone s1 x l →
        ∃ s', exec (.engineAccept cmd) s = .next s' ∧ mapGet? cmd s'.cmds = none ∧ s'.hbm = s.hbm ∧
          s'.peekLine x = putCells ((blockWords c.blk).zipIdx.map fun b => (p.pa % 128 + b.2, b.1)) l ∧
          s'.queue q = { k with rtail := addW k.rtail 1, rcnt := k.rcnt + 1, spills := addW k.spills 1, pushes := addW k.pushes 1 })) ∧
    (c.kind = .pop q →
      (s.queueOn q = false → refused) ∧
      (∀ b rest, s.queueOn q = true → k.chip = b :: rest → answers true (some b) { k with chip := rest, pops := addW k.pops 1 }) ∧
      (s.queueOn q = true → k.chip = [] → k.rcnt = 0 → refused) ∧
      (s.queueOn q = true → k.chip = [] → k.rcnt ≠ 0 →
        ∃ s', exec (.engineAccept cmd) s = .next s' ∧ Becomes s s' cmd { c with accepted := some 0 }))) ∧
  (∀ (q : Nat) (s s1 s2 : State) (p : Place) (bs : List (Byte × Bool)) (refused : Bool),
    let k := s.queue q
    s.queueOn q = true → k.rcnt ≠ 0 → k.chip.length < 32 → s.ringSize q ≠ 0 → s.ringPlace q k.rhead permR none = (s1, some (.ok p)) →
    s1.readPieces [(p, 64)] = (s2, bs, refused) → bs.length = 64 →
    ∃ s' es, exec (.queueRefill q) s = .next s' ∧ s'.hbm = s2.hbm ∧ s'.granary = s.granary ∧ s'.teams = s2.teams ∧ es.length = 16 ∧
      s'.queue q = { k with chip := k.chip ++ [es], rhead := addW k.rhead 1, rcnt := k.rcnt - 1, err := k.err || refused } ∧
      ∀ j, j < 16 →
        let four := (bs.drop (4 * j)).take 4
        if refused || four.any (·.2) then (es.getD j Elem.zero).pois = true
        else es.getD j Elem.zero = ⟨BitVec.ofNat 32 (ofBytes (four.map (·.1))), false⟩) ∧
  (∀ (q : Nat) (value : Dword) (s : State),
    let k := s.queue q
    let en := value.getLsbD 63
    ∃ s', exec (.qcfgWrite q value) s = .next s' ∧ s' = { s with queues := s'.queues, regs := s'.regs } ∧ (∀ j, j ≠ q → s'.queue j = s.queue j) ∧
      (s.queueOn q = true → en = true → s' = s) ∧
      (s.queueOn q = false ∨ en = false → s'.queueOn q = en ∧ s'.queueTenant q = value.toNat / 256 % 64) ∧
      (s.queueOn q = true → en = false → s'.queue q = { k with chip := [], rcnt := 0, rhead := k.rtail }) ∧
      (s.queueOn q = false → en = true → s'.queue q = { k with chip := [], rcnt := 0, rhead := 0, rtail := 0 }) ∧
      (s.queueOn q = false → en = false → s'.queue q = k))

/-- R399, R400, R462: the gather unit puts the next record of an EMITC into the bin of its context, template and entry, or into a new one while
fewer than 64 are in use; a bin whose oldest record has waited GDELAY makes a group from a sound template, with its records, numbered by its
template, and its records are discarded where the template is not sound. A counted write adds its bytes to its bucket counter, which fires
its collective when it is full. -/
def Obligations.GatherAndBucketEvents : Prop :=
  (∀ (die id : Nat) (s : State) (c : Cmd),
    let g := s.gatherOf die
    let r := c.desc.take 16
    let t := (r.getD 2 0#32).toNat % 16
    let e := (r.getD 0 0#32).toNat + 2 ^ 32 * (r.getD 1 0#32).toNat
    let same (b : Bin) : Bool := decide (b.ctx = c.ctx ∧ b.tmpl = t ∧ b.entry = e ∧ b.recs.length < 32)
    (s.cmds.filter fun x => decide (x.2.kind = .emitc ∧ x.2.die = die)) = [(id, c)] → s.cmdSent c = true → s.ctxOn c.ctx = true → mapSorted s.cmds = true →
    let goes (bins : List Bin) : Prop := ∃ s', exec (.gatherRecordArrival die) s = .next s' ∧ s'.gatherOf die = { g with bins := bins } ∧
      s'.hbm = s.hbm ∧ s'.launches = s.launches ∧ mapGet? id s'.cmds = (if c.desc.length ≤ 16 then none else some { c with desc := c.desc.drop 16 }) ∧
      (c.desc.length ≤ 16 → Released s s' c)
    (∀ pre b post, g.bins = pre ++ b :: post → (∀ x ∈ pre, same x = false) → same b = true → b.recs.length < 31 →
      goes (pre ++ { b with recs := b.recs ++ [r] } :: post)) ∧
    ((∀ x ∈ g.bins, same x = false) → g.bins.length < 64 → goes (g.bins ++ [⟨c.ctx, t, e, s.clock, [r]⟩])) ∧
    ((∀ x ∈ g.bins, same x = false) → 64 ≤ g.bins.length → exec (.gatherRecordArrival die) s = .next s)) ∧
  (∀ (die : Nat) (s s1 : State) (b : Bin) (rcd : List Byte),
    let g := s.gatherOf die
    let due (x : Bin) : Bool := decide (x.recs.length = 32) || decide (x.oldest + bits (s.reg (ctxReg x.ctx 0x50)) 15 0 ≤ s.clock)
    (g.bins.find? fun x => due x && s.ctxOn x.ctx && !s.frontWaits (.template die x.ctx x.tmpl)) = some b →
    s.frontRead die b.ctx (bits (s.reg (ctxReg b.ctx 0x48)) 63 8 * 256 + 256 * b.tmpl) 256 (.template die b.ctx b.tmpl) = (s1, .bytes rcd) →
    let n := mapGetD (16 * b.ctx + b.tmpl) 0 g.made
    let l : Launch :=
      { ctx := b.ctx, rcd := rcd, args := [], ext := [], rstate := [], deadline := s.reg (ctxReg b.ctx 0x18), reason := 0, nextClu := (4 * n + die) % 2 ^ 32
        ended := 0, retired := 0, status := 0, fetched := 0, phase := 2, copies := [], gathered := true, recs := b.recs, flushes := [], dropped := 0, hiz := [] }
    ∃ s', exec (.gatherDelayExpiry die) s = .next s' ∧ (s'.gatherOf die).bins = removeFirst (fun x => decide (x = b)) g.bins ∧ s'.hbm = s1.hbm ∧
      (rcd ≠ [] → l.templateOk s = true → (∀ k, mapGet? k s'.launches = if k = s1.nextId then some l else mapGet? k s.launches) ∧
        mapGet? (16 * b.ctx + b.tmpl) (s'.gatherOf die).made = some (n + 1)) ∧
      (rcd = [] ∨ l.templateOk s = false → s'.launches = s.launches ∧ (s'.gatherOf die).made = g.made)) ∧
  (∀ (b n : Nat) (s : State) (k : Bucket), (b, n) ∈ s.counted → mapGet? b s.buckets = some k →
    let after (k' : Bucket) (s' : State) : Prop := s'.counted = removeFirst (fun x => decide (x = (b, n))) s.counted ∧
      ∀ j, mapGet? j s'.buckets = if j = b then some k' else mapGet? j s.buckets
    ∃ s', exec (.bucketCountedWrite b n) s = .next s' ∧ s' = { s with counted := s'.counted, buckets := s'.buckets, cmds := s'.cmds, nextId := s'.nextId } ∧
      (k.st = .armed → k.count + n < k.total → after { k with count := k.count + n } s' ∧ s'.cmds = s.cmds) ∧
      (k.st = .armed → k.total ≤ k.count + n → after { k with count := k.count + n, st := .fired } s' ∧ mapGet? s.nextId s'.cmds =
        some { Cmd.fresh .coll (s.comm (bits (dW k.desc 6) 7 0)).die k.ctx 0 k.desc k.w k.seq with bucket := some b }) ∧
      (k.st = .fired → after { k with count := k.count + n, excess := true } s' ∧ s'.cmds = s.cmds))

/-- R388 to R391, R396, R397: TAIL moves unless the ring would overflow; nothing is accepted while a decrement of the context waits; a record is accepted when it, its blocks and its arguments have been read:
one without a completion word that is aligned or of another tenant is dropped, every other becomes a launch, refused with its reason or admitted; working sets are filled into the L2; a task is
placed after its input copies; a launch whose work is over discards its dead ranges and then writes its record and word. -/
def Obligations.FrontEndEvents : Prop :=
  (∀ (ctx : Nat) (value : Dword) (s : State),
    let p := s.reg (ctxReg ctx 0x10)
    let size := 16 * 2 ^ bits (s.reg (ctxReg ctx 0x08)) 3 0
    let tail := value.toNat / 2 ^ 32
    ((tail + 2 ^ 32 - p % 2 ^ 32) % 2 ^ 32 > size → exec (.tsubpTailWrite ctx value) s = .next s) ∧
    ((tail + 2 ^ 32 - p % 2 ^ 32) % 2 ^ 32 ≤ size → ∃ s', exec (.tsubpTailWrite ctx value) s = .next s' ∧ s' = { s with regs := s'.regs } ∧
      s'.reg (ctxReg ctx 0x10) = tail * 2 ^ 32 + p % 2 ^ 32 ∧ ∀ r, r ≠ ctxReg ctx 0x10 → s'.reg r = s.reg r)) ∧
  (∀ (ctx : Nat) (s : State), (∃ d ∈ s.tasksDue, d.1 = ctx) → exec (.launchAccept ctx) s = .next s) ∧
  (∀ (ctx : Nat) (s s1 : State) (rcd : List Byte), s.ctxOn ctx = true → s.frontWaits (.frontEnd ctx) = false → (∀ d ∈ s.tasksDue, d.1 ≠ ctx) →
    mapGet? ctx s.accepting = none →
    mapSorted s.accepting = true → mapSorted s.launches = true →
    let p := s.reg (ctxReg ctx 0x10)
    let b := s.reg (ctxReg ctx 0x08)
    let a : Accept := ⟨none, some rcd, none, none, none, none, false⟩
    bits p 63 32 ≠ bits p 31 0 → (∀ x ∈ s.cmds, x.2.kind = .launch → x.2.ctx ≠ ctx) →
    State.frontRead { s with fresh := s.fresh + 1, accepting := mapSet ctx ⟨none, none, none, none, none, none, false⟩ s.accepting } 0 ctx
      (bits b 63 12 * 4096 + 256 * (bits p 31 0 % (16 * 2 ^ bits b 3 0))) 256 (.frontEnd ctx) = (s1, .bytes rcd) →
    let gone (s' : State) : Prop := exec (.launchAccept ctx) s = .next s' ∧ mapGet? ctx s'.accepting = none ∧
      s'.reg (ctxReg ctx 0x10) = setBits p 31 0 (addW (bits p 31 0) 1)
    let refused := bits (s.reg (ctxReg ctx 0x58)) 31 0
    (blockField rcd 0x40 8 % 16 ≠ 0 ∨ blockField rcd 0x2F 1 ≠ ctx →
      ∃ s', gone s' ∧ s'.launches = s.launches ∧ bits (s'.reg (ctxReg ctx 0x58)) 31 0 = addW refused 1) ∧
    (∀ s2 a2, blockField rcd 0x40 8 % 16 = 0 → blockField rcd 0x2F 1 = ctx → s1.readRest ctx a = (s2, a2, true) →
      let l := a2.launch ctx
      let r := s2.refusal l a2.kdesc a2.bad
      let dl := if l.f 0x50 8 ≠ 0 then (s.clock + l.f 0x50 8) % 2 ^ 64 else s.reg (ctxReg ctx 0x18)
      (r ≠ 0 → ∃ s', gone s' ∧ bits (s'.reg (ctxReg ctx 0x58)) 31 0 = addW refused 1 ∧ s'.tasks = s.tasks ∧
        ∀ k, mapGet? k s'.launches = if k = s2.nextId then some { l with deadline := dl, reason := r, status := 0x10 } else mapGet? k s.launches) ∧
      (r = 0 → l.kind ≠ 2 → ∃ s', gone s' ∧ s'.tasks = s.tasks ∧
        ∀ k, mapGet? k s'.launches = if k = s2.nextId then some { l with deadline := dl } else mapGet? k s.launches) ∧
      (r = 0 → l.kind = 2 → s.tasks.length < 4096 → ∃ s' l', gone s' ∧ mapGet? s2.nextId s'.launches = some l' ∧ l'.rcd = l.rcd ∧ l'.ext = l.ext ∧
        l'.deadline = dl ∧ l'.reason = 0 ∧ l'.phase ≤ 1 ∧ ∃ t ∈ s'.tasks, t.ctx = ctx ∧ t.tid = l.tid ∧ t.sub = true))) ∧
  (∀ (id va : Nat) (s s1 : State) (l : Launch) (p : Place), mapGet? id s.launches = some l → l.reason = 0 → l.gathered = false → l.phase ≠ 0 →
    (l.lines 0x60)[l.fetched]? = some va →
    State.translate { s with launches := mapSet id { l with fetched := l.fetched + 1 } s.launches } l.ctx va permR = (s1, .ok p) →
    ∃ s', exec (.workingSetPrefetch id) s = .next s' ∧ mapGet? id s'.launches = some { l with fetched := l.fetched + 1 } ∧ s'.teams = s.teams ∧
      s'.granary = s.granary ∧
      (spaceOf p.pa = .hbm → s1.keyOn p.key = true → s1.ownedBy p 128 permR none = false → s'.slices = (s1.fill (s1.homeOf p) (lineNo p.pa) p.key).slices)) ∧
  (∀ (id : Nat) (s : State) (l : Launch), mapGet? id s.launches = some l → l.phase = 1 → l.copies = [] →
    exec (.taskInputCopiesDone id) s = .next { s with launches := mapSet id { l with phase := 2 } s.launches }) ∧
  (∀ (id : Nat) (s : State) (l : Launch), mapGet? id s.launches = some l → s.launchOver id l = true → s.frontWaits (.completion id) = false →
    mapSorted s.launches = true →
    (l.gathered = true → ∃ s', exec (.launchCompletion id) s = .next s' ∧ s' = { s with launches := mapDel id s.launches } ∧ mapGet? id s'.launches = none) ∧
    (∀ s1 s2 a b, l.gathered = false → (l.reason ≠ 0 ∨ (l.lines 0xA0).length ≤ l.dropped) →
      s.frontWrite l.ctx (l.f 0x40 8 + 8) (toBytes (l.status * 2 ^ 56 + (if l.deadline ≠ 0 ∧ l.deadline < s.clock then 2 ^ 55 else 0) +
        (if l.status = 0x10 then l.reason * 2 ^ 48 else 0) + l.retired % 2 ^ 48) 8) (.completion id) = (s1, some a) →
      s1.frontWrite l.ctx (l.f 0x40 8) (toBytes (l.f 0x48 8) 8) (.completion id) = (s2, some b) →
      ∃ s', exec (.launchCompletion id) s = .next s' ∧ mapGet? id s'.launches = none ∧ s'.hbm = s2.hbm ∧ s'.hostMem = s2.hostMem ∧ s'.slices = s2.slices ∧
        s'.granary = s.granary ∧
        (l.isTask = true → l.reason = 0 → l.succ = [] → s.tasksDue = [] → s'.tasks = removeFirst (fun (t : Task) => decide (t.ctx = l.ctx ∧ t.tid = l.tid)) s.tasks)) ∧
    (∀ va s1 w, l.gathered = false → l.reason = 0 → (l.lines 0xA0)[l.dropped]? = some va → s.translate l.ctx va permW = (s1, .error w) →
      ∃ s', exec (.launchCompletion id) s = .next s' ∧ mapGet? id s'.launches = some { l with status := max l.status 2, dropped := l.dropped + 1 } ∧
        MemoryRests s s' ∧ s'.teams = s.teams))

/-- R173, R185, R387, R392 to R395, R462: the picked launch places its next cluster on a rectangle that has room; a cluster being pre-empted whose teams are
drained, with nothing to flush, leaves its cores whole, the image of each member written to its save area, and is counted; clearing EN of a context begins the pre-emption of its clusters and frees its
bucket counters; MINRUN passes; a budget that is spent, or begins a new period, changes the context's rank. -/
def Obligations.SchedulingEvents : Prop :=
  (∀ (pick lid : Nat) (s : State) (l : Launch) (rr : Option (Nat × Nat × Nat)) (p : List Nat) (ps : List (List Nat)),
    s.pickLaunch [] = some (lid, l, rr) → mapGet? lid s.launches = some l → l.coop = false → l.gathered = false → (∀ c ∈ s.clustersOf lid, c.2.saved = false) →
    ∀ places, s.saveFits l = some places → s.placesFor lid l [] = p :: ps →
    ∃ s' cs, cs ∈ p :: ps ∧ exec (.clusterPlacement pick) s = .next s' ∧
      s' = { s with nextId := s'.nextId, clusters := s'.clusters, teams := s'.teams, launches := s'.launches, cores := s'.cores, robin := s'.robin } ∧
      mapGet? lid s'.launches = some { l with nextClu := l.nextClu + 1 } ∧
      (∀ k, mapGet? k s'.clusters = if k = s.nextId then
        some { launch := lid, cluid := l.nextClu, width := l.f 0x20 1, teams := (List.range cs.length).map fun i => s.nextId + 1 + i
               bars := List.replicate (l.f 0x29 1) { BarWord.zero with valid := true, expect := cs.length }, since := s.clock, saved := false
               preempting := false, ripe := false }
        else mapGet? k s.clusters) ∧
      (∀ i, i < cs.length →
        let t := l.team lid s.nextId l.nextClu i (cs.getD i 0) s.clock
        ∃ t', mapGet? (s.nextId + 1 + i) s'.teams = some t' ∧ t' = { t with image := places.getD i 0, groups := t'.groups } ∧
          ∀ j, (mapGet? j t'.groups).map (fun h => { h with slot := 0 }) = (mapGet? j t.groups).map fun h => { h with slot := 0 }) ∧
      (∀ k, (k ≤ s.nextId ∨ s.nextId + cs.length < k) → mapGet? k s'.teams = mapGet? k s.teams)) ∧
  (∀ (pick : Nat) (s : State), s.pickLaunch [] = none → exec (.clusterPlacement pick) s = .next s) ∧
  (∀ (cid : Nat) (s : State) (c : Cluster) (ctx : Nat), mapGet? cid s.clusters = some c → c.preempting = true →
    (∀ x ∈ s.teamsWith cid, s.teamDrained x.1 x.2 = true ∧ x.2.cfg.ctx = ctx) → s.teamsWith cid ≠ [] → mapSorted s.teams = true →
    (∀ k ∈ s.coresOf cid, ((s.core k).l1.any fun l => match l.2.st with | .uo _ => true | _ => false) = false ∧ (s.core k).flushes = []) →
    ∃ s', exec (.preemptCluster cid) s = .next s' ∧ s'.granary = s.granary ∧ mapGet? cid s'.clusters = some { c with preempting := false, saved := true } ∧
      bits (s'.reg (ctxReg ctx 0x58)) 63 32 = addW (bits (s.reg (ctxReg ctx 0x58)) 63 32) 1 ∧
      (∀ k t, mapGet? k s.teams = some t → t.with_ = cid → ∃ t', mapGet? k s'.teams = some t' ∧ t'.core = none ∧ t'.cfg = t.cfg ∧ t'.image = t.image ∧
        t'.scratch = t.scratch ∧ t'.bars = t.bars ∧ t'.mx = t.mx ∧ ∀ j g, mapGet? j t.groups = some g →
          ∃ h, mapGet? j t'.groups = some h ∧ h.v = g.v ∧ SameUniform { g with sl := h.sl } h ∧ SameQ g h ∧ h.p = g.p ∧ h.sh = g.sh ∧ h.sp = g.sp ∧ h.cnt = g.cnt) ∧
      (∀ k t, mapGet? k s.teams = some t → t.with_ ≠ cid → ∃ t', mapGet? k s'.teams = some t' ∧ teamStill t' = teamStill t ∧
        ∀ j, (mapGet? j t'.groups).map groupStill = (mapGet? j t.groups).map groupStill) ∧
      (∀ tid t k s2 gone, s.teamsWith cid = [(tid, t)] → t.core = some k → t.owner = none →
        let s1 := (s.reopenSlots tid k).releaseFaults (FaultEntry.ofTeam tid)
        let bytes := t.imageBytes c.bars s1.fresh
        State.writeImage { s1 with fresh := s1.fresh + 1 } t bytes 0 bytes.length = (s2, gone) →
        s'.hbm = s2.hbm ∧ s'.hostMem = s2.hostMem ∧ s'.slices = s2.slices ∧ (mapGet? tid s'.teams).map Team.imageLost = some gone)) ∧
  (∀ (ctx : Nat) (value : Dword) (s : State), mapSorted s.clusters = true →
    let en := value.getLsbD 63
    ∃ s', exec (.tctlWrite ctx value) s = .next s' ∧ s'.hbm = s.hbm ∧ s'.hostMem = s.hostMem ∧ s'.granary = s.granary ∧
      s'.reg (ctxReg ctx 0) = (if en then 2 ^ 63 else 0) + value.toNat / 2 ^ 16 % 256 * 2 ^ 16 + value.toNat % 8 ∧
      (s.ctxOn ctx = false ∨ en = true → s' = { s with regs := s'.regs }) ∧
      (s.ctxOn ctx = true → en = false →
        (∀ k c l, mapGet? k s.clusters = some c → mapGet? c.launch s.launches = some l → l.ctx = ctx →
          ∃ c', mapGet? k s'.clusters = some c' ∧ (c'.preempting = true ∨ c'.saved = true)) ∧
        ∀ b k, mapGet? b s'.buckets = some k → k.ctx ≠ ctx)) ∧
  (∀ (cid : Nat) (s : State) (c : Cluster), mapGet? cid s.clusters = some c → c.saved = false →
    (c.since + s.reg 0x00B00010 ≤ s.clock → exec (.minrunExpiry cid) s = .next { s with clusters := mapSet cid { c with ripe := true } s.clusters }) ∧
    (s.clock < c.since + s.reg 0x00B00010 → exec (.minrunExpiry cid) s = .next s)) ∧
  (∀ (ctx : Nat) (s : State),
    let period := bits (s.reg (ctxReg ctx 0x20)) 63 32
    let limit := bits (s.reg (ctxReg ctx 0x20)) 31 0
    let used := bits (s.reg (ctxReg ctx 0x28)) 31 0
    (∃ s', exec (.budgetSpent ctx) s = .next s' ∧ s' = { s with spent := s'.spent } ∧
      (period ≠ 0 → limit ≤ used → ctx ∈ s'.spent ∧ ∀ t, t ≠ ctx → (t ∈ s'.spent ↔ t ∈ s.spent)) ∧ (period = 0 ∨ used < limit → s' = s)) ∧
    (∃ s', exec (.budgetPeriodReset ctx) s = .next s' ∧ s' = { s with spent := s'.spent, regs := s'.regs } ∧
      (period ≠ 0 → s.clock % period = 0 → bits (s'.reg (ctxReg ctx 0x28)) 31 0 = 0 ∧ (limit ≠ 0 → ctx ∉ s'.spent)) ∧
      (period = 0 ∨ s.clock % period ≠ 0 → s' = s)))

namespace Sys2Proof.Claims

/-- A line stands in a slice with the content l, alone there, owned by no engine; and what the slice shows of a line. -/
def HeldAt (s : State) (i ln key : Nat) (l : Line) : Prop :=
  l.bytes.length = 128 ∧ ∃ e d n px ix, (s.slice i).tags = [(ln, ⟨key, some e, d, n, none, px, false⟩)] ∧ (s.slice i).entries = [(e, ⟨l, 1, key, ix⟩)]
def Shows (s : State) (i ln key : Nat) (l : Line) : Prop := ∃ t, mapGet? ln (s.slice i).tags = some t ∧ t.key = key ∧ (s.slice i).content t = l

/-- A packet of a body is on its way from one stop to another, or has come. -/
def Sent (s : State) (src dst : Nat) (b : Body) : Prop := ∃ k p, mapGet? k s.packets = some p ∧ p.src = src ∧ p.dst = dst ∧ p.body = b

/-- A flush of the line is on its way. -/
def flushComing (s : State) (ln : Nat) : Bool := s.packets.any fun q => match q.2.body with | .flushed pl _ _ _ => decide (lineNo pl.pa = ln) | _ => false

end Sys2Proof.Claims

/-- R310, R313, R321 to R323, R354, R466: the home performs the oldest request of a line that it holds, in one step, and answers it; a request
whose key is disabled is refused; an absent line is asked of memory, whose content a fill takes. A recalled core gives up the line, sending a
partial home first; a partial is combined into the line. A scrub marks a poisoned entry, and the windows of adaptive admission follow R466. -/
def Obligations.HomeSliceEvents : Prop :=
  (∀ (i id c : Nat) (p : Packet) (r : Req) (rest : List (Nat × Packet)) (s : State), s.inbox i = (id, p) :: rest → p.body = .access r → r.tgt = .home →
    s.behind id p = false → (s.slice i).dirs = [] → (∃ a b x y, r.ret = .part a b x y) → r.core = some c → c ≠ i → id < s.nextId → mapSorted s.packets = true →
    let ln := lineNo r.place.pa
    let key := r.place.key
    let plain := (∃ w sg, r.act = .load w sg) ∨ (∃ w, r.act = .store w) ∨ (∃ op b, r.act = .atom op b)
    (∀ l, s.keyOn key = true → HeldAt s i ln key l → flushComing s ln = false → plain →
      let q := l.perform r.act r.lanes
      ∃ s', exec (.homeRequest i) s = .next s' ∧ s'.hbm = s.hbm ∧ s'.hostMem = s.hostMem ∧ s'.granary = s.granary ∧ s'.teams = s.teams ∧
        mapGet? id s'.packets = none ∧ ((∃ w sg, r.act = .load w sg) → Shows s' i ln key l) ∧ ((∀ w sg, r.act ≠ .load w sg) → Shows s' i ln key q.1) ∧
        ∃ fill, Sent s' i c (.reply r.ret q.2.out 0 q.2.fl fill 0) ∧ ∀ x, fill = some x → x = q.1) ∧
    (s.keyOn key = false → plain → ∃ s', exec (.homeRequest i) s = .next s' ∧ MemoryRests s s' ∧ s'.teams = s.teams ∧ mapGet? id s'.packets = none ∧
      Sent s' i c (.reply r.ret [] 2 0 none 0)) ∧
    (s.keyOn key = true → (s.slice i).tags = [] → (ln, key) ∉ (s.slice i).fills → plain → ∃ s', exec (.homeRequest i) s = .next s' ∧ MemoryRests s s' ∧
      s'.packets = s.packets ∧ s'.teams = s.teams ∧ (s'.slice i).fills = (s.slice i).fills ++ [(ln, key)])) ∧
  (∀ (i id c port : Nat) (p : Packet) (r : Req) (rest : List (Nat × Packet)) (s : State), s.inbox i = (id, p) :: rest → p.body = .access r → r.tgt = .host port →
    s.behind id p = false → (∃ a b x y, r.ret = .part a b x y) → r.core = some c → c ≠ i → id < s.nextId → mapSorted s.packets = true →
    cellsWf s.hostMem = true →
    let q := perform s.hostByte (fun _ => false) r.act r.lanes
    (s.hostOk r.place.pa = true → ((∃ w sg, r.act = .load w sg) ∨ (∃ w, r.act = .store w) ∨ ∃ op b, r.act = .atom op b ∧ (op = 0 ∨ op = 9 ∨ op = 10)) →
      ∃ s', exec (.homeRequest i) s = .next s' ∧ s'.hbm = s.hbm ∧ s'.granary = s.granary ∧ s'.teams = s.teams ∧ mapGet? id s'.packets = none ∧
        (∀ a, s'.hostByte a = (cellGet a q.ov).getD (s.hostByte a)) ∧ Sent s' i c (.reply r.ret q.out 0 q.fl none 0)) ∧
    (s.hostOk r.place.pa = false ∨ (∃ op b, r.act = .atom op b ∧ op ≠ 0 ∧ op ≠ 9 ∧ op ≠ 10) →
      ∃ s', exec (.homeRequest i) s = .next s' ∧ MemoryRests s s' ∧ s'.teams = s.teams ∧ mapGet? id s'.packets = none ∧ Sent s' i c (.reply r.ret [] 2 0 none 0))) ∧
  (∀ (i ln key : Nat) (s : State), (s.slice i).fills.find? (fun f => decide (f.1 = ln)) = some (ln, key) → (s.slice i).tags = [] → (s.slice i).entries = [] →
    ∃ s', exec (.l2Fill i ln) s = .next s' ∧ s' = { s with slices := s'.slices } ∧ Shows s' i ln key (s.hbmLine ln key) ∧
      (s'.slice i).fills = removeFirst (fun x => decide (x = (ln, key))) (s.slice i).fills ∧ ∀ j, j ≠ i → s'.slice j = s.slice j) ∧
  (∀ (core id ln : Nat) (uo : Bool) (p : Packet) (s : State),
    ((s.inbox core).find? fun q => match q.2.body with | .recall _ _ => true | .drain _ _ => true | _ => false) = some (id, p) → p.body = .recall ln uo →
    p.src ≠ core → id < s.nextId → mapSorted s.packets = true → mapSorted (s.core core).l1 = true →
    ∃ s', exec (.recall core) s = .next s' ∧ MemoryRests s s' ∧ mapGet? id s'.packets = none ∧ mapGet? ln (s'.core core).l1 = none ∧
      (∀ k, k ≠ ln → mapGet? k (s'.core core).l1 = mapGet? k (s.core core).l1) ∧ Sent s' core p.src (.recallAck ln core) ∧
      ∀ pl q, mapGet? ln (s.core core).l1 = some ⟨pl, .uo q⟩ → ∃ fid, Sent s' core (s.homeOf pl) (.flushed pl q core fid)) ∧
  (∀ (i id c fid : Nat) (p : Packet) (pl : Place) (q : Partial) (rest : List (Nat × Packet)) (s : State) (l : Line), s.inbox i = (id, p) :: rest →
    p.body = .flushed pl q c fid → s.behind id p = false → s.keyOn pl.key = true → (s.slice i).dirs = [] → HeldAt s i (lineNo pl.pa) pl.key l → c ≠ i →
    id < s.nextId → mapSorted s.packets = true →
    ∃ s', exec (.redPartialCombine i) s = .next s' ∧ s'.hbm = s.hbm ∧ s'.teams = s.teams ∧ mapGet? id s'.packets = none ∧
      Shows s' i (lineNo pl.pa) pl.key (l.combine q) ∧ Sent s' i c (.reply (.flush c fid) [] 0 0 none 0)) ∧
  (∀ (i e : Nat) (s : State) (x : DataEntry), mapGet? e (s.slice i).entries = some x →
    (x.line.pois = 0#32 → exec (.l2Scrub i e) s = .next s) ∧
    (x.line.pois ≠ 0#32 → ∃ s', exec (.l2Scrub i e) s = .next s' ∧ s' = { s with slices := s'.slices } ∧ (∀ j, j ≠ i → s'.slice j = s.slice j) ∧
      mapGet? e (s'.slice i).entries = some { x with indexed := false } ∧
      ∀ ln t, mapGet? ln (s.slice i).tags = some t → mapGet? ln (s'.slice i).tags = some { t with x := t.x || decide (t.entry = some e) })) ∧
  (∀ (i : Nat) (s : State),
    let a := (s.slice i).adapt
    ∃ s' b, exec (.dedupWindowExpiry i) s = .next s' ∧ s' = { s with slices := s'.slices } ∧ (∀ j, j ≠ i → s'.slice j = s.slice j) ∧
      s'.slice i = { s.slice i with adapt := b } ∧ b.window = a.window + 1 ∧ b.admissions = 0 ∧ b.joins = 0 ∧
      (a.offSince = none → a.admissions ≠ 0 → (b.on = true ↔ a.admissions ≤ 16 * a.joins)) ∧
      (∀ w, a.offSince = some w → a.on = true → a.admissions ≠ 0 → a.admissions ≤ 16 * a.joins → b.on = true ∧ b.offSince = none) ∧
      (∀ w, a.offSince = some w → (a.on = false ∨ a.admissions = 0 ∨ 16 * a.joins < a.admissions) → (b.on = true ↔ (a.window + 1 - w) % 16 = 0))) ∧
  (∀ (i : Nat) (value : Dword) (s : State),
    let m := if value.toNat % 4 = 3 then 0 else value.toNat % 4
    ∃ s', exec (.ddmodeWrite i value) s = .next s' ∧ s' = { s with regs := s'.regs, slices := s'.slices } ∧ s'.reg (stopReg i 0x18) = m ∧
      (∀ r, r ≠ stopReg i 0x18 → s'.reg r = s.reg r) ∧ s'.slice i = (if m = 0 then { s.slice i with adapt := ⟨true, none, 0, 0, 0⟩ } else s.slice i) ∧
      ∀ j, j ≠ i → s'.slice j = s.slice j)

/-- R327 to R330, R365, R371: a Granary bank performs the oldest access or range operation there that no earlier one of its group precedes, and
answers it; a retired bank refuses. Every byte that it does not reach stays. -/
def Obligations.GranaryBankOperations : Prop :=
  ∀ (b id c n : Nat) (p : Packet) (r : Req) (rest : List (Nat × Packet)) (s : State), s.inbox b = (id, p) :: rest → p.body = .access r → r.tgt = .bank n →
    s.bankBehind r = false → (s.slice b).dirs = [] → (∃ x y z w, r.ret = .part x y z w) → r.core = some c → c ≠ b → id < s.nextId →
    mapSorted s.packets = true → cellsWf s.granary = true →
    let q := perform s.granByte s.granBad r.act r.lanes
    let done (out : Map (List Elem)) (fail : Nat) (P : State → Prop) : Prop := ∃ s', exec (.granaryBankOperation b) s = .next s' ∧ s'.hbm = s.hbm ∧
      s'.hostMem = s.hostMem ∧ s'.teams = s.teams ∧ mapGet? id s'.packets = none ∧ Sent s' b c (.reply r.ret out fail 0 none 0) ∧ P s'
    (s.sliceRetired b = true → done [] 2 fun s' => s'.granary = s.granary ∧ s'.granPois = s.granPois) ∧
    (s.sliceRetired b = false →
      (∀ w sg, r.act = .load w sg → done q.out 0 fun s' => s'.granary = s.granary ∧ s'.granPois = s.granPois) ∧
      (∀ w, r.act = .store w → done q.out 0 fun s' => (∀ a, s'.granByte a = (cellGet a q.ov).getD (s.granByte a)) ∧
        s'.granPois = s.granPois.filter fun x => !(wholeWords q.ov).contains x) ∧
      (∀ op w, r.act = .atom op w → done q.out 0 fun s' => (∀ a, s'.granByte a = (cellGet a q.ov).getD (s.granByte a)) ∧ s'.granPois = s.granPois ∧
        mapGetD (64 * b + r.ctx) 0 s'.granFlags = mapGetD (64 * b + r.ctx) 0 s.granFlags ||| q.fl) ∧
      (∀ op rnd fmt count par base, r.act = .gupd op rnd fmt count par base →
        let x := gupdBank { s with packets := mapDel id s.packets } b r.ctx op rnd ((Fmt.ofCode fmt).getD .fp32) count par base
        done x.2.2 (if x.2.1 then 2 else 0) fun s' => s'.granary = x.1.granary ∧ s'.granPois = x.1.granPois ∧ s'.granFlags = x.1.granFlags))

/-- R300 to R306, R331, R465: a router gives a packet to an output of R302, one that comes nearer while such a link is on, where a buffer of the next
router is free; the packet is delivered when it reaches its stop. A packet blocked for TO clocks fires the detector and arms its router, whose packet the
Lantern takes when it comes by and carries to its destination's recovery buffer, where it is handled ahead of the others. A failed link is off in both
directions. A recalibration changes nothing, and a clock period sets the die's reading alone, in steps of 25 MHz, its watts within what PCAP leaves. -/
def Obligations.NetworkEvents : Prop :=
  (∀ (id dir : Nat) (s : State) (p : Packet), mapGet? id s.packets = some p → p.loc = .net → dir ∈ s.outputs p → s.heldBack id p = false →
    let dest := neighbour p.here dir
    let nearer (d : Nat) : Prop := stopDist (neighbour p.here d) p.dst < stopDist p.here p.dst
    let hops := if stopDist dest p.dst < stopDist p.here p.dst then p.detours else p.detours + 1
    ((∃ d, d < 4 ∧ nearer d ∧ s.linkOn p.here d = true) → nearer dir) ∧ s.linkOn p.here dir = true ∧ (¬nearer dir → hops ≤ 2) ∧
    (dest ≠ p.dst → s.freeChannel p.here dir = none → exec (.packetRoute id dir) s = .next s) ∧
    (∀ v, dest ≠ p.dst → s.freeChannel p.here dir = some v → ∃ s', exec (.packetRoute id dir) s = .next s' ∧ s' = { s with packets := s'.packets, routers := s'.routers } ∧
      (∀ k, mapGet? k s'.packets = if k = id then 
        some { p with here := dest, since := s.clock, via := some (p.here, dir), vc := v, fired := false, detours := hops } else mapGet? k s.packets) ∧
      (s'.router p.here).armed ≠ some id ∧ ∀ k, k ≠ p.here → s'.router k = s.router k) ∧
    (dest = p.dst → p.pkg = none → (∃ r, p.body = .access r ∧ r.tgt = .home) → (∀ q ∈ s.packets, ∀ r, q.2.body = .access r → r.tgt = .home) →
      ∃ s', exec (.packetRoute id dir) s = .next s' ∧ s' = { s with packets := s'.packets, routers := s'.routers, nextId := s.nextId + 1 } ∧
        mapGet? id s'.packets =
          some { p with here := dest, since := s.clock, via := some (p.here, dir), vc := 0, fired := false, detours := hops, loc := .arrived s.nextId })) ∧
  (∀ (id : Nat) (s : State) (p : Packet), mapGet? id s.packets = some p →
    let r := s.router p.here
    let late := p.loc = .net ∧ p.since + bits (s.reg (stopReg p.here 0x08)) 15 0 ≤ s.clock ∧ s.heldBack id p = false ∧ (p.fired = false ∨ r.armed = none)
    (late → exec (.routerTimeout id) s = .next (State.setRouter { s with packets := mapSet id { p with fired := true } s.packets } p.here
      { r with armed := if r.armed = none then some id else r.armed, fire := if p.fired = true then r.fire else addW r.fire 1 })) ∧
    (¬late → exec (.routerTimeout id) s = .next s)) ∧
  (∀ (stop : Nat) (s : State),
    let l := s.lantern
    let r := s.router stop
    (l.works = false ∨ l.carry ≠ none ∨ l.buf ≠ none → exec (.lanternArrival stop) s = .next s) ∧
    (l.works = true → l.carry = none → l.buf = none → (l.at_ + 1) % 256 = stop →
      (r.armed = none → exec (.lanternArrival stop) s = .next { s with lantern := { l with at_ := stop } }) ∧
      (∀ id p, r.armed = some id → mapGet? id s.packets = some p →
        ∃ s', exec (.lanternArrival stop) s = .next s' ∧ s' = { s with lantern := { l with at_ := stop, carry := some id }, packets := s'.packets, routers := s'.routers } ∧
        s'.router stop = { r with armed := none, capt := addW r.capt 1 } ∧ (∀ k, k ≠ stop → s'.router k = s.router k) ∧
        ∀ k, mapGet? k s'.packets = if k = id then some { p with loc := .lane } else mapGet? k s.packets))) ∧
  (∀ (id : Nat) (s : State) (p : Packet), mapGet? id s.packets = some p →
    (s.lantern.carry = some id → ∃ s', exec .recoveryPacketArrival s = .next s' ∧
      s' = { s with lantern := { s.lantern with carry := none, buf := some id, at_ := p.dst }, packets := s'.packets } ∧
      ∀ k, mapGet? k s'.packets = if k = id then some { p with here := p.dst } else mapGet? k s.packets) ∧
    (s.lantern.carry = none → s.lantern.buf = some id → p.pkg = none → (∃ r, p.body = .access r ∧ r.tgt = .home) →
      (∀ q ∈ s.packets, ∀ r, q.2.body = .access r → r.tgt = .home) →
      ∃ s', exec .recoveryPacketArrival s = .next s' ∧ s'.lantern = { s.lantern with buf := none } ∧ MemoryRests s s' ∧ s'.teams = s.teams ∧
        mapGet? id s'.packets = some { p with loc := .arrived 0 })) ∧
  (∀ (stop dir : Nat) (s : State), stop < 256 → dir < 4 → (s.router stop).lnkw.length = 4 → (s.router (neighbour stop dir)).lnkw.length = 4 →
    let back := neighbour stop dir
    let rdir := if dir = 0 then 1 else if dir = 1 then 0 else if dir = 2 then 3 else 2
    ∃ s', exec (.linkFailure stop dir) s = .next s' ∧ s'.linkOn stop dir = false ∧ s'.linkOn back rdir = false ∧
      (∀ k d, (k ≠ stop ∨ d ≠ dir) → (k ≠ back ∨ d ≠ rdir) → d < 4 → s'.linkOn k d = s.linkOn k d) ∧
      ((∀ q ∈ s.packets, q.2.since ≠ s.clock) → s' = { s with routers := s'.routers })) ∧
  (∀ (link : LinkName) (s : State), exec (.linkRecalibration link) s = .next s) ∧
  (∀ (die : Nat) (s : State), die < 4 → s.clock % 17000 = 0 → ∃ s', exec (.dvfsPeriod die) s = .next s' ∧
    s' = { s with regs := s'.regs, fresh := s'.fresh } ∧ (∀ r, r ≠ 0x00C40008 + 8 * die → s'.reg r = s.reg r) ∧
    let mhz := s'.reg (0x00C40008 + 8 * die) / 2 ^ 32
    let watts (d : Nat) : Nat := bits (s'.reg (0x00C40008 + 8 * d)) 15 0
    900 ≤ mhz ∧ mhz ≤ 1700 ∧ mhz % 25 = 0 ∧
    (bits (s.reg (0x00C40008 + 8 * ((die + 1) % 4))) 15 0 + bits (s.reg (0x00C40008 + 8 * ((die + 2) % 4))) 15 0 +
        bits (s.reg (0x00C40008 + 8 * ((die + 3) % 4))) 15 0 ≤ bits (s.reg 0x00C40000) 15 0 →
      watts 0 + watts 1 + watts 2 + watts 3 ≤ bits (s'.reg 0x00C40000) 15 0))

namespace Sys2Proof.Claims

/-- The fault of an entry is answered with `value`, and no other entry of the die is: its context and page (R412). -/
def AloneAnswered (s : State) (die : Nat) (value : Dword) (e : FaultEntry) : Prop :=
  ((s.faultBuf die).filter fun x => decide (x.ctx = bits value.toNat 5 0 ∧ x.va / 4096 % 2 ^ 45 = bits value.toNat 56 12)) = [e]

/-- The die's fault buffer keeps the entries that the answer does not name (R412). -/
def Answering (s s' : State) (die : Nat) (value : Dword) : Prop :=
  s'.faultBuf die = (s.faultBuf die).filter fun x => !decide (x.ctx = bits value.toNat 5 0 ∧ x.va / 4096 % 2 ^ 45 = bits value.toNat 56 12)

/-- The trap registers of a group that takes the translation trap for a fragment outside a clause (R73, R412). -/
def translationSp (sp : Special) (entry : Nat) (pc addr : Dword) (mask : Mask) : Special :=
  { sp with trapcause := BitVec.ofNat 32 (0x20 + 2 ^ 16 * entry), trappc := pc, trapaddr := addr, trapmask := mask }

end Sys2Proof.Claims

/-- R409, R411, R412, R455: the oldest waiting record of a die goes to its ring while there is room. RETRY takes the entries of the page out, to
walk again. FATAL ends a group's access with the translation trap and one count less, TRAPMASK and TRAPADDR those of its lanes that fault on the page; a
fetch with the trap at its main word, either of an interrupted clause with the trap at the CLAUSE, an engine's command with status 3. An invalidation starts when none is
under way and it names something; it ends when nothing uses the translations of its range, which are then gone. -/
def Obligations.FaultEvents : Prop :=
  (∀ (die : Nat) (s : State),
    let b := s.reg (dieReg die 0)
    let p := s.reg (dieReg die 8)
    let tail := bits p 63 32
    let size := 128 * 2 ^ bits b 3 0
    let full := size ≤ (tail + 2 ^ 32 - bits p 31 0) % 2 ^ 32
    ((s.faultBuf die).find? FaultEntry.record = none → exec (.faultRecordPost die) s = .next s) ∧
    (full → exec (.faultRecordPost die) s = .next s) ∧
    (∀ e, (s.faultBuf die).find? FaultEntry.record = some e → ¬full →
      let record := toBytes e.va 8 ++ [BitVec.ofNat 8 e.ctx, BitVec.ofNat 8 e.cause, BitVec.ofNat 8 e.access, BitVec.ofNat 8 e.level] ++ toBytes e.stop 2 ++ [0, 0] ++
        toBytes (if e.cause = 5 then 0 else e.pte) 8 ++ toBytes s.clock 8
      let s1 := (s.writePhys ⟨bits b 51 12 * 4096 + 32 * (tail % size), bits b 63 52, false, 0, 0⟩ record).1
      ∃ s', exec (.faultRecordPost die) s = .next s' ∧ MemoryRests s1 s' ∧ s'.reg (dieReg die 8) = (tail + 1) % 2 ^ 32 * 2 ^ 32 + bits p 31 0 ∧
        (s'.faultBuf die).length = (s.faultBuf die).length ∧
        (s'.faultBuf die).countP FaultEntry.record + 1 = (s.faultBuf die).countP FaultEntry.record ∧
        (bit (s1.reg irqcfg) 63 = false → s'.sent = s1.sent ∧ s'.msix = s1.msix) ∧
        (bit (s1.reg irqcfg) 63 = true → s1.vecMasked 0 (bits (s1.reg irqcfg) 5 0) = false → s'.sent = s1.sent ++ [⟨0, bits (s1.reg irqcfg) 5 0, 0⟩]))) ∧
  (∀ (die : Nat) (value : Dword) (s : State) (e : FaultEntry), AloneAnswered s die value e →
    (∀ t g en, e.who = .fetch t g en → ∃ s', exec (.frespRetry die value) s = .next s' ∧ s' = { s with faults := s'.faults } ∧ Answering s s' die value) ∧
    (∀ id, e.who = .engine id → ∃ s', exec (.frespRetry die value) s = .next s' ∧ s' = { s with faults := s'.faults } ∧ Answering s s' die value) ∧
    (∀ t g en cl m a, e.who = .member t g en cl m a →
      ∃ s', exec (.frespRetry die value) s = .next s' ∧ s' = { s with faults := s'.faults } ∧ Answering s s' die value) ∧
    (∀ t g f p tm gr c q, e.who = .part t g f p → s.group? t g = some (tm, gr) → tm.core = some c → (gr.flight? f).bind (fun (y : Flight) => y.parts[p]?) = some q →
      let s1 : State := { s with faults := mapSet die ((s.faultBuf die).filter fun x => decide (x ≠ e)) s.faults }
      (s1.resolvePart t g c f p q = none → exec (.frespRetry die value) s = .next (s1.updGroup t g fun gr => gr.updPart f p fun q => { q with st := .faulted })) ∧
      (∀ s2 q', s1.resolvePart t g c f p q = some (s2, q') →
        exec (.frespRetry die value) s = .next ((s2.updGroup t g fun gr => gr.updPart f p fun _ => q').pump t g)))) ∧
  (∀ (die : Nat) (value : Dword) (s : State), ((s.faultBuf die).any fun x => decide (x.ctx = bits value.toNat 5 0 ∧ x.va / 4096 % 2 ^ 45 = bits value.toNat 56 12)) = false →
    exec (.frespRetry die value) s = .next s ∧ exec (.frespFatal die value) s = .next s) ∧
  (∀ (die : Nat) (value : Dword) (s : State) (e : FaultEntry), AloneAnswered s die value e →
    (∀ t g en tm gr fr, e.who = .fetch t g en → s.group? t g = some (tm, gr) → mapGet? en gr.frags = some fr → gr.handler = none → gr.inClause en = false →
      tm.cfg.trapv ≠ BitVec.allOnes 64 →
      ∃ s' tm' h, exec (.frespFatal die value) s = .next s' ∧ s' = { s with faults := s'.faults, teams := s'.teams } ∧ Answering s s' die value ∧
        s'.group? t g = some (tm', h) ∧ TrapTaken gr h ⟨t, g, en⟩ tm.cfg.trapv
          (translationSp gr.sp en fr.pc (BitVec.ofNat 64 e.va) fr.emask)) ∧
    (∀ t g en cl m a tm gr fr, e.who = .member t g en cl m a → s.group? t g = some (tm, gr) → mapGet? en gr.frags = some fr → gr.handler = none →
      gr.inClause en = false → tm.cfg.trapv ≠ BitVec.allOnes 64 →
      ∃ s' tm' h, exec (.frespFatal die value) s = .next s' ∧ s' = { s with faults := s'.faults, teams := s'.teams } ∧ Answering s s' die value ∧
        s'.group? t g = some (tm', h) ∧ TrapTaken gr h ⟨t, g, en⟩ tm.cfg.trapv
          { translationSp gr.sp en cl (BitVec.ofNat 64 a) m with trapcause := BitVec.ofNat 32 (0x20 + 2 ^ 9 + 2 ^ 16 * en) }) ∧
    (∀ t g f p tm gr fl q fr, e.who = .part t g f p → s.group? t g = some (tm, gr) → gr.flights = [fl] → fl.id = f → fl.parts[p]? = some q →
      mapGet? fl.entry gr.frags = some fr → gr.handler = none → gr.inClause fl.entry = false → tm.cfg.trapv ≠ BitVec.allOnes 64 → noneWaits gr = true →
      let hit := fl.parts.flatMap fun y => if y.st = .faulted ∧ y.req.place.va / 4096 = q.req.place.va / 4096 then
        y.req.lanes.map fun l => (l.lane, y.req.place.va / 128 * 128 + l.addr % 128) else []
      let uniform := (∃ sg, q.req.act = .load 64 sg) ∨ q.req.act = .store 64
      hit ≠ [] → ∃ s' tm' h m i a, exec (.frespFatal die value) s = .next s' ∧ MemoryRests s s' ∧ s'.packets = s.packets ∧ s'.group? t g = some (tm', h) ∧ h.flights = [] ∧
        h.cnt = listUpd fl.path (fun n => n - 1) gr.cnt ∧
        (uniform → m = fl.mask) ∧ (¬uniform → ∀ j, j < 32 → inMask m j = hit.any fun y => decide (y.1 = j)) ∧ (i, a) ∈ hit ∧ (∀ y ∈ hit, i ≤ y.1) ∧
        TrapTaken gr h ⟨t, g, fl.entry⟩ tm.cfg.trapv (translationSp gr.sp fl.entry fl.pc (BitVec.ofNat 64 a) m)) ∧
    (∀ id c, e.who = .engine id → mapGet? id s.cmds = some c → c.ended = false → c.kind ≠ .encode →
      ∃ s', exec (.frespFatal die value) s = .next s' ∧ s'.hbm = s.hbm ∧ s'.hostMem = s.hostMem ∧ s'.granary = s.granary ∧ s'.teams = s.teams ∧ Answering s s' die value ∧
        mapGet? id s'.cmds = some { c with status := max c.status 3, ended := true, busy := false, out := [] }) ∧
    (∀ ctx, e.who = .frontEnd ctx → ∃ s', exec (.frespFatal die value) s = .next s' ∧ Answering s s' die value ∧
      s' = { s with faults := s'.faults, frontFatal := s.frontFatal ++ [(e.ctx, e.va / 4096)] })) ∧
  (∀ (value : Dword) (s : State),
    let v := value.toNat
    let va := bits (s.reg xinva) 56 12 * 4096
    let nothing := s.inval.isSome = true ∨ (bits v 31 0 = 0 ∧ bit v 62 = false)
    (nothing → exec (.xinvcWrite value) s = .next s) ∧
    (¬nothing → ∃ s', exec (.xinvcWrite value) s = .next s' ∧ s' = { s with regs := s'.regs, inval := s'.inval } ∧
      s'.inval = some ⟨bits v 37 32, va, bits v 31 0, bit v 62⟩ ∧
      (∀ r, r ≠ xinvc → s'.reg r = s.reg r) ∧ bits (s'.reg xinvc) 31 0 = bits v 31 0 ∧ bits (s'.reg xinvc) 37 32 = bits v 37 32 ∧
      bit (s'.reg xinvc) 62 = bit v 62 ∧ bit (s'.reg xinvc) 61 = (bit (s.reg xinvc) 61 && !bit v 61) ∧ bits (s'.readPf xinvc) 63 63 = 1)) ∧
  (∀ (s : State),
    (s.inval = none → exec .invalidationComplete s = .next s) ∧
    (∀ i, s.inval = some i →
      let gone (e : TlbEntry) : Bool := decide (e.ctx = i.ctx) && (i.all || (decide (e.va < i.va + 4096 * i.npg) && decide (i.va < e.va + e.size)))
      let ds := s.tlb.filter gone
      (s.invalBusy i.ctx ds = true → exec .invalidationComplete s = .next s) ∧
      (s.invalBusy i.ctx ds = false → s.heldLines (ds ++ (if i.all then s.allLeaves i.ctx else [])) = [] →
        bit (s.reg xinvc) 63 = false →
        ∃ s', exec .invalidationComplete s = .next s' ∧ s' = { s with regs := s'.regs, inval := none, tlb := s'.tlb } ∧
          s'.tlb = s.tlb.filter (fun e => !gone e) ∧ bit (s'.reg xinvc) 61 = false ∧ bit (s'.readPf xinvc) 63 = false ∧
          ∀ r, r ≠ xinvc → s'.reg r = s.reg r)))

namespace Sys2Proof.Claims

/-- The answer is a state with the property P, whose error of a kind has been recorded (R417): uncorrectable, with its unit, context and address. -/
def Recorded (i : Instr) (s : State) (kind unit ctx addr : Nat) (P : State → Prop) : Prop :=
  ∃ s1, exec i s = .next (postError s1 ⟨kind, 2, unit, ctx, addr, 0⟩) ∧ P s1

/-- One error more of a unit in this period (R418); of a core, in CERR too, where it saturates (R417). -/
def UnitCounted (s s1 : State) (unit : Nat) : Prop :=
  mapGetD unit 0 s1.errs = mapGetD unit 0 s.errs + 1 ∧ ∀ u, u ≠ unit → mapGetD u 0 s1.errs = mapGetD u 0 s.errs
def CoreCounted (s s1 : State) (c : Nat) (k : Core) : Prop :=
  UnitCounted s s1 c ∧ s1.core c = { k with uncorr := min 0xFFFF ((s.core c).uncorr + 1) } ∧ ∀ d, d ≠ c → s1.core d = s.core d

/-- An error in the state of a team on core c: the team is x afterwards, every other is as it was, and the core has counted it. -/
def TeamHit (s s1 : State) (t c : Nat) (P : Team → Prop) : Prop :=
  s1 = { s with teams := s1.teams, cores := s1.cores, errs := s1.errs, fresh := s1.fresh } ∧ CoreCounted s s1 c (s.core c) ∧
    (∀ k, k ≠ t → mapGet? k s1.teams = mapGet? k s.teams) ∧ ∃ x, mapGet? t s1.teams = some x ∧ P x

end Sys2Proof.Claims

/-- R71, R179, R187, R244, R321, R330, R331, R417: an uncorrectable error poisons what it meets (a word of the scratchpad, turning store or Granary, a
register element, a cell, an accumulator, a row's pass, the words of a data entry, a tag's line), breaks a barrier, drops a V line; and is counted and recorded. -/
def Sys2Proof.Claims.UncorrectableErrorsHold : Prop :=
  ∀ (s : State),
    (∀ t tm c, mapGet? t s.teams = some tm → tm.core = some c →
      (∀ w, 8 * w + 8 ≤ tm.cfg.scratch → Recorded (.uncorrectableError (.scratchpad t w)) s 1 c tm.cfg.ctx (8 * w) fun s1 => TeamHit s s1 t c fun x =>
        x = { tm with scratchPois := x.scratchPois } ∧ ∀ k, k ∈ x.scratchPois ↔ k = w ∨ k ∈ tm.scratchPois) ∧
      (∀ g gr r l, mapGet? g tm.groups = some gr → r < tm.cfg.k → l < 32 → (gr.vreg r).length = 32 →
        Recorded (.uncorrectableError (.vreg t g r l)) s 2 c tm.cfg.ctx 0 fun s1 => TeamHit s s1 t c fun x =>
          ∃ h, x = { tm with groups := x.groups } ∧ (∀ k, k ≠ g → mapGet? k x.groups = mapGet? k tm.groups) ∧ mapGet? g x.groups = some h ∧
            h = { gr with v := h.v } ∧ (laneAt (h.vreg r) l).pois = true ∧ (∀ j, j ≠ l → laneAt (h.vreg r) j = laneAt (gr.vreg r) j) ∧
            ∀ k, k ≠ r → h.vreg k = gr.vreg k) ∧
      (∀ g gr r, mapGet? g tm.groups = some gr → r < 128 → Recorded (.uncorrectableError (.ureg t g r)) s 2 c tm.cfg.ctx 0 fun s1 => TeamHit s s1 t c fun x =>
        ∃ h, x = { tm with groups := x.groups } ∧ (∀ k, k ≠ g → mapGet? k x.groups = mapGet? k tm.groups) ∧ mapGet? g x.groups = some h ∧
          h = { gr with s := h.s } ∧ (h.sreg r).pois = true ∧ ∀ k, k ≠ r → h.sreg k = gr.sreg k) ∧
      (∀ b w, b < tm.cfg.nbar → tm.bars[b]? = some w →
        ∃ s1, exec (.uncorrectableError (.barrier t b)) s = .next (trapTeam (postError s1 ⟨3, 2, c, tm.cfg.ctx, 0, 0⟩) t 0x19 fun x => match x with | .barrier b' _ _ => decide (b' = b) | _ => false) ∧
          TeamHit s s1 t c fun x => x = { tm with bars := x.bars } ∧ x.bars[b]? = some { w with broken := true } ∧ ∀ j, j ≠ b → x.bars[j]? = tm.bars[j]?) ∧
      (∀ m k n x col cell, tm.mx.macros[m]? = some x → x.tile[n]? = some col → col[k]? = some cell →
        Recorded (.uncorrectableError (.macroCell t m k n)) s 5 c tm.cfg.ctx 0 fun s1 => TeamHit s s1 t c fun y =>
          y = { tm with mx := { tm.mx with macros := y.mx.macros } } ∧ (∀ j, j ≠ m → y.mx.macros[j]? = tm.mx.macros[j]?) ∧
          ∃ z col', y.mx.macros[m]? = some z ∧ z.fam = x.fam ∧ (∀ j, j ≠ n → z.tile[j]? = x.tile[j]?) ∧ z.tile[n]? = some col' ∧
            (∀ j, j ≠ k → col'[j]? = col[j]?) ∧ col'[k]? = some (cell.map fun v => (v.1, true))) ∧
      (∀ b row col bank, b < tm.cfg.macros → row < 32 → col < 128 → tm.mx.banks[b]? = some bank →
        let line (x : Map (List Elem)) (i : Nat) : List Elem := mapGetD i (List.replicate 128 Elem.zero) x
        (line bank row).length = 128 →
        Recorded (.uncorrectableError (.bankElem t b row col)) s 5 c tm.cfg.ctx 0 fun s1 => TeamHit s s1 t c fun y =>
          y = { tm with mx := { tm.mx with banks := y.mx.banks } } ∧ (∀ j, j ≠ b → y.mx.banks[j]? = tm.mx.banks[j]?) ∧
          ∃ z e, y.mx.banks[b]? = some z ∧ (∀ i, i ≠ row → line z i = line bank i) ∧ (line z row)[col]? = some e ∧ e.pois = true ∧
            ∀ j, j ≠ col → (line z row)[j]? = (line bank row)[j]?) ∧
      (∀ w, w < 2048 * tm.cfg.tsq → Recorded (.uncorrectableError (.turning t w)) s 5 c tm.cfg.ctx (8 * w) fun s1 => TeamHit s s1 t c fun x =>
        x = { tm with mx := { tm.mx with tsPois := x.mx.tsPois } } ∧ ∀ k, k ∈ x.mx.tsPois ↔ k = w ∨ k ∈ tm.mx.tsPois)) ∧
    (∀ cid cl b w t tm c ts, mapGet? cid s.clusters = some cl → cl.saved = false → cl.bars[b]? = some w → cl.teams = t :: ts → mapGet? t s.teams = some tm → tm.core = some c →
      ∃ s1, exec (.uncorrectableError (.clusterBarrier cid b)) s = .next (cl.teams.foldl (fun a k => trapTeam a k 0x19 fun x => match x with | .cluster b' _ _ => decide (b' = b) | _ => false)
          (postError s1 ⟨3, 2, c, tm.cfg.ctx, 0, 0⟩)) ∧ CoreCounted s s1 c (s.core c) ∧ s1.teams = s.teams ∧
        ∃ cl', mapGet? cid s1.clusters = some cl' ∧ cl' = { cl with bars := cl'.bars } ∧ cl'.bars[b]? = some { w with broken := true } ∧ ∀ j, j ≠ b → cl'.bars[j]? = cl.bars[j]?) ∧
    (∀ c ln l, mapGet? ln (s.core c).l1 = some l →
      (∀ q, l.st = .v q → ∃ s1, exec (.uncorrectableError (.l1 c ln)) s = .next s1 ∧ s1 = { s with cores := s1.cores, errs := s1.errs } ∧
        CoreCounted s s1 c { s.core c with l1 := mapDel ln (s.core c).l1 }) ∧
      (∀ q, l.st = .uo q → Recorded (.uncorrectableError (.l1 c ln)) s 4 c 0xFF l.place.pa fun s1 => s1 = { s with cores := s1.cores, errs := s1.errs } ∧
        CoreCounted s s1 c { s.core c with l1 := mapSet ln ⟨l.place, .uo { q with pois := q.pois ||| q.touched }⟩ (s.core c).l1 })) ∧
    (∀ c i x fam fwd line m b row za lost, (s.core c).mx.q[i]? = some x → x.op = .pass fam fwd line m b row za lost →
      Recorded (.uncorrectableError (.rowBuffer c i)) s 5 c 0xFF 0 fun s1 => s1 = { s with cores := s1.cores, errs := s1.errs } ∧
        CoreCounted s s1 c { s.core c with mx := (s1.core c).mx } ∧ (∀ j, j ≠ i → (s1.core c).mx.q[j]? = (s.core c).mx.q[j]?) ∧
        (s1.core c).mx.q[i]? = some { x with op := .pass fam fwd line m b row za true }) ∧
    (∀ i e w x, mapGet? e (s.slice i).entries = some x → Recorded (.uncorrectableError (.l2Data i e w)) s 6 i 0xFF 0 fun s1 =>
      s1 = { s with slices := s1.slices, errs := s1.errs } ∧ UnitCounted s s1 (256 + i) ∧ (∀ j, j ≠ i → s1.slice j = s.slice j) ∧
      s1.slice i = { s.slice i with tags := (s1.slice i).tags, entries := (s1.slice i).entries } ∧
      mapGet? e (s1.slice i).entries = some { x with indexed := false, line := { x.line with pois := x.line.pois ||| BitVec.ofNat 32 (3 * 2 ^ (2 * (w % 16))) } } ∧
      (∀ k, k ≠ e → mapGet? k (s1.slice i).entries = mapGet? k (s.slice i).entries) ∧
      ∀ ln, mapGet? ln (s1.slice i).tags = (mapGet? ln (s.slice i).tags).map fun t => { t with x := t.x || decide (t.entry = some e) }) ∧
    (∀ i ln t e y, mapGet? ln (s.slice i).tags = some t → t.entry = some e → (s.slice i).entries = [(e, y)] → y.rc = 1 → Recorded (.uncorrectableError (.l2Tag i ln)) s 7 i 0xFF (128 * ln) fun s1 =>
      s1 = { s with slices := s1.slices, errs := s1.errs } ∧ UnitCounted s s1 (256 + i) ∧ (∀ j, j ≠ i → s1.slice j = s.slice j) ∧
      (∀ k, k ≠ ln → mapGet? k (s1.slice i).tags = mapGet? k (s.slice i).tags) ∧ (s1.slice i).entries.length = 1 ∧
      ∃ t', mapGet? ln (s1.slice i).tags = some t' ∧ t' = { t with entry := t'.entry, x := true, bad := true } ∧
        (s1.slice i).content t' = { y.line with pois := BitVec.allOnes 32 }) ∧
    (∀ ln m, ln < 0x6000000000 / 128 → ∃ unit, unit / 2 = ln / 0x30000000 ∧ Recorded (.uncorrectableError (.hbm ln m)) s 9 unit 0xFF (128 * ln) fun s1 =>
      s1 = { s with hbmErr := s1.hbmErr, fresh := s1.fresh } ∧ mapGetD ln 0#32 s1.hbmErr = mapGetD ln 0#32 s.hbmErr ||| m ∧
      ∀ k, k ≠ ln → mapGet? k s1.hbmErr = mapGet? k s.hbmErr) ∧
    (∀ b w, b < 256 → w < 65536 → Recorded (.uncorrectableError (.granary b w)) s 8 b 0xFF (8 * granWord b w) fun s1 =>
      s1 = { s with granPois := s1.granPois, errs := s1.errs } ∧ UnitCounted s s1 (256 + b) ∧ ∀ k, k ∈ s1.granPois ↔ k = granWord b w ∨ k ∈ s.granPois) ∧
    exec (.uncorrectableError .lantern) s = .next (postError { s with lantern := { s.lantern with works := false } } ⟨0x0D, 3, s.lantern.at_, 0xFF, 0, 0⟩)

/-- R187, R331, R417, R418: an error record takes the next place of the ring while there is room, and is lost when there is none; a fatal one sets FATAL.
At the end of a health period the units that failed are noted, and those that failed the last check too are retired: a core takes no team from then on, and
leaves the pool when its teams have left. -/
def Sys2Proof.Claims.ErrorLogAndHealthHold : Prop :=
  (∀ (s : State) (r : ErrRec),
    let p := s.reg elogp
    let b := s.reg elogb
    let tail := bits p 63 32
    let full := 128 * 2 ^ bits b 3 0 ≤ (tail + 2 ^ 32 - bits p 31 0) % 2 ^ 32
    let record := [BitVec.ofNat 8 r.kind, BitVec.ofNat 8 r.sev] ++ toBytes r.unit 2 ++ [BitVec.ofNat 8 r.ctx, 0, 0, 0] ++ toBytes r.addr 8 ++ toBytes r.detail 8 ++ toBytes s.clock 8
    (full → (postError s r).reg estat = s.reg estat ||| (if r.sev = 3 then 6 else 4) ∧ (postError s r).reg elogp = p ∧ (postError s r).teams = s.teams ∧
      MemoryRests s (postError s r)) ∧
    (¬full → (postError s r).reg elogp = (tail + 1) % 2 ^ 32 * 2 ^ 32 + bits p 31 0 ∧
      ∀ pa, pa = bits b 51 12 * 4096 + 32 * (tail % (128 * 2 ^ bits b 3 0)) → bits b 63 52 = 0 → spaceOf pa = .host 0 → s.hostOk pa = true → cellsWf s.hostMem = true →
        (∀ i, i < 32 → (postError s r).hostByte (pa + i) = record.getD i 0) ∧ (∀ a, a < pa ∨ pa + 32 ≤ a → (postError s r).hostByte a = s.hostByte a) ∧
        (postError s r).hbm = s.hbm ∧ (postError s r).teams = s.teams ∧ bit ((postError s r).reg estat) 1 = (decide (r.sev = 3) || bit (s.reg estat) 1))) ∧
  (∀ (failing : List Nat) (s : State),
    let h := s.reg hctl
    let early := s.clock < s.healthAt + bits h 63 32 ∨ bits h 63 32 = 0
    let bad := (List.range 1552).filter fun u => failing.contains u || decide (bits h 15 8 ≤ mapGetD u 0 s.errs) ||
      decide (bits h 31 16 ≤ mapGetD u 0 s.fixed)
    let s1 : State := { s with failing := bad, errs := [], fixed := [], healthAt := s.clock }
    (early → exec (.healthPeriodExpiry failing) s = .next s) ∧
    (¬early → (∀ u, u ∈ bad → u ∉ s.failing) → exec (.healthPeriodExpiry failing) s = .next s1) ∧
    (∀ u, ¬early → bad.filter (fun x => s.failing.contains x) = [u] →
      (u < 256 → s.coreRetired u = false → ∃ s', exec (.healthPeriodExpiry failing) s = .next s' ∧ s'.failing = bad ∧ s'.errs = [] ∧
        s'.fixed = [] ∧ s'.coreRetired u = true ∧ ((s.teamsOn u) = [] → s' = { s1 with retiring := s.retiring ++ [u] })) ∧
      (512 ≤ u → u < 1536 → s.linkOn ((u - 512) / 4) (u % 4) = true → (∀ k, (s.router k).lnkw.length = 4) →
        ∃ s2, exec (.healthPeriodExpiry failing) s = .next (State.postRetired s2 (u - 512) 2) ∧ s2 = { s1 with routers := s2.routers } ∧
          (s2.router ((u - 512) / 4)).lnkw = listUpd (u % 4) (fun w => min 3 (w + 1)) (s.router ((u - 512) / 4)).lnkw)))

/-- R452, R469, R473, R474, R478, R479: links report the port they reach, and those that agree with the majority train. An exit port numbers the packets of a
flow, in order, sends each over the torus to the port of its plane, keeps it until it is acknowledged, and sends it again under the same number; an entry port releases requests in that order and
answers as they come. A flow that nothing acknowledges in RTO clocks is recorded; accesses to a package declared dead fail. -/
def Obligations.FabricEvents : Prop :=
  (∀ (link peer : Nat) (s : State),
    let ports := mapSet link peer s.linkPort
    let votes (p : Nat) : Nat := (ports.filter fun q => decide (q.2 = p)).length
    (16 ≤ link ∨ 288 ≤ peer → exec (.fabricLinkUp link peer) s = .next s) ∧
    (link < 16 → peer < 288 → mapSorted s.linkPort = true → (∀ q ∈ s.linkPort, q.1 < 16 ∧ q.2 < 288) →
      ∃ s' m, exec (.fabricLinkUp link peer) s = .next s' ∧ s' = { s with linkPort := ports, regs := s'.regs } ∧
        (∃ q ∈ ports, q.2 = m) ∧ (∀ p, votes p ≤ votes m) ∧ (∀ k, s.pkg = some k → (∀ p, votes p ≤ votes k) → m = k) ∧
        bits (s'.reg 0x00C50000) 8 0 = m ∧ (bit (s'.reg 0x00C50000) 63 = true ↔ ∃ p, p < 16 ∧ s'.linkUp p = true) ∧
        ∀ l p, mapGet? l ports = some p →
          let r := s'.reg (flnk l)
          let up := p = m ∧ mapGetD l 0 s.narrowed < 3
          (bit r 0 = true ↔ up) ∧ bits r 40 32 = p ∧ bits r 63 48 = bits (s.reg (flnk l)) 63 48 ∧ (up → bits r 3 2 = mapGetD l 0 s.narrowed) ∧ (¬up → bits r 3 2 = 3))) ∧
  (∀ (port width rate : Nat) (s : State),
    let good := port < 2 ∧ (width = 16 ∨ width = 8 ∨ width = 4) ∧ 1 ≤ rate ∧ rate ≤ 64
    (good → exec (.hostLinkTraining port width rate) s = .next { s with hostLinks := mapSet port (width, rate) s.hostLinks }) ∧
    (¬good → exec (.hostLinkTraining port width rate) s = .next s)) ∧
  (∀ (packet plane k : Nat) (p : Packet) (s : State), mapGet? packet s.packets = some p → p.pkg = some k →
    let f := 4 * k + p.cls.code
    let x := s.exitFlow f
    let earlier := ∃ q ∈ s.packets, q.1 < packet ∧ q.2.src = p.src ∧ q.2.pkg = some k ∧ q.2.cls = p.cls
    let free := p.loc = .exit ∧ ¬earlier ∧ plane < 16 ∧ s.linkUp plane = true ∧ x.kept.length < 65536
    (¬free → exec (.fabricExitSend packet plane) s = .next s) ∧
    (free → ∃ s' y, exec (.fabricExitSend packet plane) s = .next s' ∧
      (fabricStop plane = exitStop k → s' = { s with packets := mapDel packet s.packets, exits := s'.exits }) ∧
      (fabricStop plane ≠ exitStop k → s' = { s with packets := s'.packets, exits := s'.exits, seqs := s'.seqs, nextId := s.nextId + 1 } ∧
        Sent s' (exitStop k) (fabricStop plane) (.leg f x.next) ∧
        ∀ j, j ≠ s.nextId → mapGet? j s'.packets = mapGet? j (mapDel packet s.packets)) ∧
      (∀ j, j ≠ f → mapGet? j s'.exits = mapGet? j s.exits) ∧ s'.exitFlow f = y ∧ y.next = (x.next + 1) % 2 ^ 32 ∧ y.kept = x.kept ++ [(x.next, plane, p)] ∧
      y.open_ = x.open_ ++ (match p.body with | .access r => if r.ret = .none then [] else [r.ret] | _ => []))) ∧
  (∀ (flow number plane : Nat) (s : State),
    let x := s.exitFlow flow
    let known := ∃ k ∈ x.kept, k.1 = number
    (¬known → exec (.fabricAck flow number) s = .next s ∧ exec (.fabricResend flow number plane) s = .next s) ∧
    let under := ∃ p ∈ s.packets, p.2.body = .leg flow number
    let again := s.setExit flow { x with kept := x.kept.map fun k => if k.1 = number then (k.1, plane, k.2.2) else k }
    (under → exec (.fabricAck flow number) s = .next s ∧ exec (.fabricResend flow number plane) s = .next s) ∧
    (known → ¬under → exec (.fabricAck flow number) s = .next (s.setExit flow { x with kept := x.kept.filter (fun k => decide (k.1 ≠ number)), last := s.clock, reported := false })) ∧
    (known → ¬under → plane < 16 → s.linkUp plane = true →
      (fabricStop plane = exitStop (flow / 4) → exec (.fabricResend flow number plane) s = .next again) ∧
      (fabricStop plane ≠ exitStop (flow / 4) → ∃ s', exec (.fabricResend flow number plane) s = .next s' ∧
        s' = { again with packets := s'.packets, seqs := s'.seqs, nextId := s.nextId + 1 } ∧
        Sent s' (exitStop (flow / 4)) (fabricStop plane) (.leg flow number) ∧
        ∀ j, j ≠ s.nextId → mapGet? j s'.packets = mapGet? j s.packets)) ∧
    (plane < 16 → s.linkUp plane = false → exec (.fabricResend flow number plane) s = .next s)) ∧
  (∀ (flow pkg tok : Nat) (s : State) (p : Packet) (r : Req),
    let e := s.entryFlow flow
    let stop := exitStop (flow / 4)
    let r1 : Req := { r with ret := .remote (flow / 4) tok, core := none, scope := 5, fill := false }
    flow % 4 ≠ 1 →
      (mapGet? e.next e.held = none → exec (.fabricEntryRelease flow) s = .next s) ∧
      (mapGet? e.next e.held = some p → p.body = .access r → r.ret = .remote pkg tok → e.ahead = [] →
        ∃ s', exec (.fabricEntryRelease flow) s = .next s' ∧ MemoryRests s s' ∧ s'.teams = s.teams ∧
          s'.entryFlow flow = { e with next := (e.next + 1) % 2 ^ 32, held := mapDel e.next e.held } ∧
          (s.exported r1 (flow / 4) = none → ∃ k q, mapGet? k s'.packets = some q ∧ q.src = stop ∧ q.dst = stop ∧ q.pkg = some (flow / 4) ∧
            q.body = .reply (.remote (flow / 4) tok) [] 2 0 none 0) ∧
          (∀ r2, s.exported r1 (flow / 4) = some r2 → s.homeOf r2.place ≠ stop → Sent s' stop (s.homeOf r2.place) (.access r2)))) ∧
  (∀ (flow n : Nat) (s : State) (p : Packet) (ret : Ret) (words : Map (List Elem)) (fail fl lines : Nat) (fill : Option Line) (rest : Map Packet),
    flow % 4 = 1 → (s.entryFlow flow).held = (n, p) :: rest → p.body = .reply ret words fail fl fill lines → s.retStop ret (exitStop (flow / 4)) ≠ exitStop (flow / 4) →
    ∃ s', exec (.fabricEntryRelease flow) s = .next s' ∧ MemoryRests s s' ∧ s'.teams = s.teams ∧ (s'.entryFlow flow).held = rest ∧
      Sent s' (exitStop (flow / 4)) (s.retStop ret (exitStop (flow / 4))) (.reply ret words fail fl none lines)) ∧
  (∀ (flow : Nat) (s : State),
    let x := s.exitFlow flow
    let excess := x.kept ≠ [] ∧ x.reported = false ∧ x.last + bits (s.reg 0x00C50008) 31 0 ≤ s.clock
    (¬excess → exec (.rtoExpiry flow) s = .next s) ∧
    (excess → exec (.rtoExpiry flow) s = .next (postError (s.setExit flow { x with reported := true }) ⟨0x0A, 2, 16, 0xFF, 0, flow / 4⟩))) ∧
  (∀ (package : Nat) (s : State),
    let theirs (f : Nat) : Bool := decide (f / 4 = package)
    (288 ≤ package ∨ package ∈ s.dead → exec (.fdeadDead package) s = .next s) ∧
    (package < 288 → package ∉ s.dead → (∀ t ∈ s.teams, t.2.core = none) →
      let theirsP (p : Packet) : Bool := match p.body with
        | .leg f _ => theirs f
        | .came k _ _ _ => decide (k = package)
        | _ => decide (p.pkg = some package)
      let left := s.packets.filter fun p => !theirsP p.2
      ((∀ p ∈ s.packets, theirsP p.2 = false) → (∀ f, theirs f = true → (s.exitFlow f).open_ = []) →
        ∃ s', exec (.fdeadDead package) s = .next s' ∧ s' = { s with dead := s.dead ++ [package], exits := s'.exits, entries := s'.entries, teams := s'.teams } ∧
          s'.exits = s.exits.filter (fun x => !theirs x.1) ∧ s'.entries = s.entries.filter (fun x => !theirs x.1)) ∧
      (∀ k p r id n c, s.packets = (k, p) :: left → p.pkg = some package → p.body = .access r → r.ret = .cmd id n → mapGet? id s.cmds = some c →
        (∀ f, theirs f = true → (s.exitFlow f).open_ = []) →
        ∃ s', exec (.fdeadDead package) s = .next s' ∧ s'.dead = s.dead ++ [package] ∧ s'.packets = left ∧ MemoryRests s s' ∧
          mapGet? id s'.cmds = some { c with wait := c.wait - 1, status := max c.status 2 }))) ∧
  (∀ (package : Nat) (s : State), exec (.fdeadLive package) s = .next { s with dead := s.dead.filter fun p => decide (p ≠ package) })

namespace Sys2Proof.Claims

/-- One register takes a value; nothing else differs. -/
def RegisterTakes (i : Instr) (s : State) (off v : Nat) : Prop :=
  ∃ s', exec i s = .next s' ∧ s' = { s with regs := s'.regs } ∧ s'.reg off = v ∧ ∀ r, r ≠ off → s'.reg r = s.reg r

/-- No core holds a line, and no packet is under way. -/
def Quiet (s : State) : Prop := (∀ c ∈ s.cores, c.2.l1 = []) ∧ s.packets = []

/-- What a key command does first (R451): the lines of the key ID leave every slice, and a dirty one is in memory; s' is the state after the command. -/
def KeyFlushed (s s' : State) (key : Nat) : Prop :=
  ((∀ i, ∀ t ∈ (s.slice i).tags, t.2.key ≠ key) → s'.slices = s.slices ∧ s'.hbm = s.hbm) ∧
  (∀ i ln l e n px ix d, (s.slice i).tags = [(ln, ⟨key, some e, d, n, none, px, false⟩)] → (s.slice i).entries = [(e, ⟨l, 1, key, ix⟩)] → l.bytes.length = 128 →
    (∀ j, j ≠ i → (s.slice j).tags = []) → s.keyOn key = true → cellsWf s.hbm = true →
    (s'.slice i).tags = [] ∧ (d = false → s'.hbm = s.hbm) ∧
    (d = true → (∀ k, k < 128 → cellGet (128 * ln + k) s'.hbm = some (l.bytes.getD k 0)) ∧
      ∀ a, a < 128 * ln ∨ 128 * ln + 128 ≤ a → cellGet a s'.hbm = cellGet a s.hbm))

end Sys2Proof.Claims

/-- R6, R12, R213, R387, R401, R405, R411, R417, R451, R453, R455, R465, R469: a write of a register stores the writable bits of the word; a read-only
register, an offset that is not a multiple of eight, and a function that is not there ignore it; a register whose write does something does it. -/
def Obligations.RegisterWrites : Prop :=
  (∀ (fn off : Nat) (v : Dword) (s : State), off % 8 ≠ 0 ∨ 64 ≤ fn → exec (.registerWrite fn off v) s = .next s) ∧
  (∀ (v : Dword) (s : State) (off mask : Nat),
    (off, mask) ∈ [(0x00B00008, 0xFFFFFFFF), (0x00B00010, 0xFFFFFFFF), (0x00B20000, 0x1FFFFFFFFFFF000), (0x00B40000, 0xFFFFFFFFFFFFF00F), (0x00B40018, 0xFFFFFFFFFFFFFF00),
      (0x00C30000, 0xFFFFFFFFFFFFFFFF), (0x00C60000, 0xE0000000003F3F3F)] → RegisterTakes (.registerWrite 0 off v) s off (v.toNat &&& mask)) ∧
  (∀ (v : Dword) (s : State) (off : Nat), off = 0 ∨ off = 0x00B00000 ∨ (0x00B40020 ≤ off ∧ off < 0x00B40060) ∨ off = 0x00C50000 ∨ (0x00900000 ≤ off ∧ off < 0x00900200) →
    off % 8 = 0 → exec (.registerWrite 0 off v) s = .next s) ∧
  (∀ (v : Dword) (s : State) (i d : Nat), i < 8 → d < 4 →
    RegisterTakes (.registerWrite 0 (0x00C20000 + 8 * i) v) s (0x00C20000 + 8 * i) v.toNat ∧
    RegisterTakes (.registerWrite 0 (0x00B30000 + 0x40 * d) v) s (0x00B30000 + 0x40 * d) (v.toNat &&& 0xFFFFFFFFFFFFF00F) ∧
    RegisterTakes (.registerWrite 0 (0x00B30008 + 0x40 * d) v) s (0x00B30008 + 0x40 * d) (bits (s.reg (0x00B30008 + 0x40 * d)) 63 32 * 2 ^ 32 + bits v.toNat 31 0)) ∧
  (∀ (v : Dword) (s : State),
    RegisterTakes (.registerWrite 0 0x00B40008 v) s 0x00B40008 (bits (s.reg 0x00B40008) 63 32 * 2 ^ 32 + bits v.toNat 31 0) ∧
    RegisterTakes (.registerWrite 0 0x00B40010 v) s 0x00B40010 (s.reg 0x00B40010 &&& (7 - bits v.toNat 2 0)) ∧
    RegisterTakes (.registerWrite 0 0x00C40000 v) s 0x00C40000 (max 800 (min 1600 (bits v.toNat 15 0))) ∧
    RegisterTakes (.registerWrite 0 0x00C50008 v) s 0x00C50008 (max 17000 (bits v.toNat 31 0)) ∧
    exec (.registerWrite 0 0x00B20008 v) s = exec (.xinvcWrite v) s ∧
    (bits v.toNat 62 60 = 1 → exec (.registerWrite 0 0x00C20040 v) s = exec (.kcmdLoad v) s) ∧
    (bits v.toNat 62 60 = 2 → exec (.registerWrite 0 0x00C20040 v) s = exec (.kcmdClear v) s) ∧
    (bits v.toNat 63 62 = 2 → exec (.registerWrite 0 0x00C50010 v) s = exec (.fdeadDead (bits v.toNat 8 0)) s) ∧
    (bits v.toNat 63 62 = 1 → exec (.registerWrite 0 0x00C50010 v) s = exec (.fdeadLive (bits v.toNat 8 0)) s)) ∧
  (∀ (v : Dword) (s : State) (n w : Nat), w < 2 →
    (n < 256 → exec (.registerWrite 0 (0x00C00000 + 0x10 * n + 8 * w) v) s = exec (.commConfigWrite n w v) s) ∧
    (n < 64 → exec (.registerWrite 0 (0x00C51000 + 0x10 * n + 8 * w) v) s = exec (.exportWindowWrite n w v) s)) ∧
  (∀ (v : Dword) (s : State) (d c q t i : Nat), d < 4 → c < 256 → q < 256 → t < 64 → i < 256 →
    (bits v.toNat 63 62 = 1 → exec (.registerWrite 0 (0x00B30010 + 0x40 * d) v) s = exec (.frespRetry d v) s) ∧
    (bits v.toNat 63 62 = 2 → exec (.registerWrite 0 (0x00B30010 + 0x40 * d) v) s = exec (.frespFatal d v) s) ∧
    exec (.registerWrite 0 (0x00400000 + 0x40 * c) v) s = exec (.dbgownWrite c v) s ∧
    exec (.registerWrite 0 (0x00400018 + 0x40 * c) v) s = exec (.dbginWrite c v) s ∧
    (bits v.toNat 1 0 = 1 → exec (.registerWrite 0 (0x00400008 + 0x40 * c) v) s = exec (.dbgctlHalt c) s) ∧
    (bits v.toNat 1 0 = 2 → exec (.registerWrite 0 (0x00400008 + 0x40 * c) v) s = exec (.dbgctlClr c) s) ∧
    exec (.registerWrite 0 (0x00A00000 + 0x40 * q) v) s = exec (.qcfgWrite q v) s ∧
    exec (.registerWrite 0 (0x00800018 + 0x100 * i) v) s = exec (.ddmodeWrite i v) s ∧
    exec (.registerWrite 0 (0x00B10000 + 0x100 * t) v) s = exec (.tctlWrite t v) s ∧
    exec (.registerWrite 0 (0x00B10010 + 0x100 * t) v) s = exec (.tsubpTailWrite t v) s ∧
    exec (.registerWrite t 0x1010 v) s = exec (.tsubpTailWrite t v) s) ∧
  (∀ (v : Dword) (s : State) (t : Nat), t < 64 →
    let r := 0x00B10000 + 0x100 * t
    (∀ off mask, (off, mask) ∈ [(0x08, 0xFFFFFFFFFFFFF00F), (0x18, 0xFFFFFFFFFFFFFFFF), (0x48, 0xFFFFFFFFFFFFFF00), (0x50, 0xFFFF), (0x58, 0xFFFFFFFFFFFFFFFF), (0x78, 0x800000000000003F)] →
      RegisterTakes (.registerWrite t (0x1000 + off) v) s (r + off) (v.toNat &&& mask) ∧ RegisterTakes (.registerWrite 0 (r + off) v) s (r + off) (v.toNat &&& mask)) ∧
    (∀ off mask, (off, mask) ∈ [(0x30, 0x3FF01FF), (0x38, 0xFFFFFFFFFFFFF), (0x40, 0xFFFFFFFFFFFFFFFF), (0x60, 0xFFFFFFFFFFFFF001), (0x68, 0xFFF0FFF), (0x70, 0xFFFFFFFFC000007F)] →
      RegisterTakes (.registerWrite 0 (r + off) v) s (r + off) (v.toNat &&& mask) ∧ (0 < t → exec (.registerWrite t (0x1000 + off) v) s = .next s)) ∧
    (0 < t → exec (.registerWrite t 0x1000 v) s = .next s ∧ exec (.registerWrite t 0x1020 v) s = .next s))

/-- R451, R453, R455 to R457, R467, R468, R471: the package's events. A key command flushes the lines of its key ID, then installs or clears the key, and zeroes
KDATA. A communicator or a window changes only while it is not enabled, or to disable it. The host's window reads and writes HBM at the home of the line, and
reads all ones beyond it; an AtomicOp of it does nothing, and a function is seen at one port. A reset keeps what the firmware and the host hold, and measures the
firmware: a stage with another key than the one before it names, a signature that is not its key's, or a version below the counter leaves the package in reset; a
stage that is good is extended into its register and names the next key. Log entry 7: the firmware is free, and the registers start at zero. -/
def Obligations.PackageEvents : Prop :=
  (∀ (v : Dword) (s : State),
    let k := bits v.toNat 11 0
    let mat := (List.range 8).map fun i => BitVec.ofNat 64 (s.reg (0x00C20000 + 8 * i))
    let zeroed (s' : State) : Prop := (∀ i, i < 8 → s'.reg (0x00C20000 + 8 * i) = 0) ∧ s'.reg 0x00C20040 = k ∧
      ∀ r, (∀ i, i < 8 → r ≠ 0x00C20000 + 8 * i) → r ≠ 0x00C20040 → s'.reg r = s.reg r
    (k = 0 → RegisterTakes (.kcmdLoad v) s 0x00C20040 0 ∧ RegisterTakes (.kcmdClear v) s 0x00C20040 0) ∧
    (k ≠ 0 → Quiet s → mapSorted s.keys = true → mapSorted s.slices = true →
      (∃ s', exec (.kcmdLoad v) s = .next s' ∧ zeroed s' ∧ KeyFlushed s s' k ∧ (∀ j, mapGet? j s'.keys = if j = k then some mat else mapGet? j s.keys) ∧
        s' = { s with keys := s'.keys, regs := s'.regs, slices := s'.slices, hbm := s'.hbm, hbmKey := s'.hbmKey, hbmPois := s'.hbmPois, hbmErr := s'.hbmErr }) ∧
      (∃ s', exec (.kcmdClear v) s = .next s' ∧ zeroed s' ∧ KeyFlushed s s' k ∧ (∀ j, mapGet? j s'.keys = if j = k then none else mapGet? j s.keys) ∧
        s' = { s with keys := s'.keys, regs := s'.regs, slices := s'.slices, hbm := s'.hbm, hbmKey := s'.hbmKey, hbmPois := s'.hbmPois, hbmErr := s'.hbmErr }))) ∧
  (∀ (fn vec : Nat) (s : State),
    (64 ≤ fn ∨ 64 ≤ vec → exec (.msixUnmask fn vec) s = .next s) ∧
    (fn < 64 → vec < 64 → ∃ s', exec (.msixUnmask fn vec) s = .next s' ∧ s' = { s with msix := s'.msix, sent := s'.sent } ∧
      s'.vecMasked fn vec = false ∧ (∀ f w, (f ≠ fn ∨ w ≠ vec) → s'.vecMasked f w = s.vecMasked f w) ∧
      bit (s'.msixOf fn).pend.toNat vec = false ∧ s'.sent = s.sent ++ (if bit (s.msixOf fn).pend.toNat vec then [⟨fn, vec, s.fnPort fn⟩] else []))) ∧
  (∀ (comm : Nat) (v : Dword) (s : State),
    let r := 0x00C00000 + 0x10 * comm
    let on := bit (s.reg r) 63
    (256 ≤ comm → ∀ word, exec (.commConfigWrite comm word v) s = .next s) ∧
    (comm < 256 →
      (on = false → RegisterTakes (.commConfigWrite comm 0 v) s r (v.toNat &&& 0x80FF01FF01FF0000) ∧
        RegisterTakes (.commConfigWrite comm 1 v) s (r + 8) (v.toNat / 4096 * 4096)) ∧
      (on = true → exec (.commConfigWrite comm 1 v) s = .next s ∧ (v.getLsbD 63 = true → exec (.commConfigWrite comm 0 v) s = .next s)) ∧
      (on = true → v.getLsbD 63 = false →
        ((∀ c ∈ s.cmds, c.2.kind ≠ .coll) → RegisterTakes (.commConfigWrite comm 0 v) s r (v.toNat &&& 0x80FF01FF01FF0000)) ∧
        (∀ id c n, s.cmds = [(id, c)] → c.kind = .coll → bits (dW c.desc 6) 7 0 = comm → c.ended = false → c.accepted = some n → c.issuer = none →
          ∃ s', exec (.commConfigWrite comm 0 v) s = .next s' ∧ s'.reg r = v.toNat &&& 0x80FF01FF01FF0000 ∧ s'.hbm = s.hbm ∧ s'.teams = s.teams ∧
            s'.cmds = [(id, { c with status := max c.status 2, ended := true, out := [], busy := false })] ∧
            ∀ k ln tag, mapGet? ln (s'.slice k).tags = some tag → tag.w ≠ some id) ∧
        (∀ id c, s.cmds = [(id, c)] → c.kind = .coll → bits (dW c.desc 6) 7 0 = comm → c.ended = false → s.cmdSent c = false →
          ∃ s', exec (.commConfigWrite comm 0 v) s = .next s' ∧ s'.reg r = v.toNat &&& 0x80FF01FF01FF0000 ∧
            s' = { s with regs := s'.regs, cmds := [(id, { c with status := max c.status 2 })] })))) ∧
  (∀ (w : Nat) (v : Dword) (s : State),
    let r := 0x00C51000 + 0x10 * w
    let on := bit (s.reg r) 63
    (64 ≤ w → ∀ word, exec (.exportWindowWrite w word v) s = .next s) ∧
    (w < 64 → (on = false → RegisterTakes (.exportWindowWrite w 0 v) s r (v.toNat &&& 0xFFFFFFFFFFFFF000) ∧
        RegisterTakes (.exportWindowWrite w 1 v) s (r + 8) (v.toNat &&& 0xFFC0000FFFFFF000)) ∧
      (on = true → exec (.exportWindowWrite w 1 v) s = .next s ∧ (v.getLsbD 63 = true → exec (.exportWindowWrite w 0 v) s = .next s) ∧
        (v.getLsbD 63 = false → RegisterTakes (.exportWindowWrite w 0 v) s r (v.toNat &&& 0xFFFFFFFFFFFFF000))))) ∧
  (∀ (fn off n : Nat) (data : List Byte) (s : State),
    let win := s.reg (ctxReg fn 0x70)
    let pa := if fn = 0 then off else bits win 51 30 * 2 ^ 30 + off
    let lim := if fn = 0 then 2 ^ 39 else min (bits win 6 0) 64 * 2 ^ 30
    let within (n : Nat) : Prop := off + n ≤ lim ∧ pa + n ≤ 0x6000000000
    (¬within n → exec (.bar2HostAccess (.read fn off n)) s = .next { s with answer := List.replicate n 0xFF#8 }) ∧
    (¬within data.length → exec (.bar2HostAccess (.write fn off data)) s = .next s) ∧
    (∀ l q, q = (⟨pa / 128 * 128, bits win 63 52, false, 0, 0⟩ : Place) →
      Alone s q l → (∀ t, mapGet? (pa / 128) (s.slice (s.homeOf q)).tags = some t → t.w = none) → l.pois = 0#32 → pa % 128 + n ≤ 128 → data.length = n → 0 < n → within n →
      (∃ s', exec (.bar2HostAccess (.read fn off n)) s = .next s' ∧ s'.answer = (l.bytes.drop (pa % 128)).take n ∧ s'.hbm = s.hbm ∧ s'.teams = s.teams ∧ s'.peekLine q = l) ∧
      (∃ s', exec (.bar2HostAccess (.write fn off data)) s = .next s' ∧ s'.hbm = s.hbm ∧ s'.granary = s.granary ∧
        (s'.peekLine q).bytes = l.bytes.take (pa % 128) ++ data ++ l.bytes.drop (pa % 128 + n)))) ∧
  (∀ (fn bar off n port : Nat) (s : State),
    exec (.bar2HostAccess (.atomicOp fn bar off n)) s = .next { s with answer := [] } ∧
    ∃ s', exec (.bar2HostAccess (.identity port fn)) s = .next s' ∧ s' = { s with answer := s'.answer } ∧ s'.answer.length = 10 ∧
      (fn < 64 → port = (if fn ≠ 0 ∧ bit (s.reg 0x00C30000) fn then 1 else 0) →
        s'.answer.take 2 = toBytes 0x1F3A 2 ∧ (s'.answer.drop 2).take 2 = toBytes (if fn = 0 then 0x5CA4 else 0x5CA5) 2) ∧
      (64 ≤ fn ∨ port ≠ (if fn ≠ 0 ∧ bit (s.reg 0x00C30000) fn then 1 else 0) → s'.answer = List.replicate 10 0xFF#8)) ∧
  (∀ (s : State), ∃ s', exec .packageReset s = .next s' ∧
    s' = { State.reset with
      mrs := s'.mrs, inReset := s'.inReset
      fresh := s.fresh + 1, nextId := s.nextId, schedule := s.schedule, hostMem := s.hostMem, hostBad := s.hostBad
      homeTbl := s.homeTbl, dlTbl := s.dlTbl, narrowed := s.narrowed, routers := s'.routers, regs := s'.regs } ∧
    (s'.mrs, !s'.inReset) = boot (Config.firmware (s.fresh + 1)) ∧
    (∀ c, c < 256 → bit (s'.reg (0x00B40020 + 8 * (c / 64))) (c % 64) = s.coreRetired c) ∧ (∀ k, s'.router k = { Router.reset with lnkw := (s.router k).lnkw }) ∧
    ((∀ c ∈ s.retiring, c < 256) → (∀ i, 4 ≤ i → i < 8 → s'.reg (0x00B40020 + 8 * i) = s.reg (0x00B40020 + 8 * i)) ∧
      bits (s'.reg 0) 11 4 = ((List.range 16).filter fun p => decide (mapGetD p 0 s.narrowed < 3) && ((mapGet? p s.linkPort).isNone || s.linkUp p)).length) ∧
    (∀ r, r ≠ 0 → (∀ i, i < 8 → r ≠ 0x00B40020 + 8 * i) → s'.reg r = State.reset.reg r) ∧
    bits (s'.reg 0) 63 24 = 0x5CA1041104 ∧ bits (s'.reg 0) 23 12 = ((List.range 256).filter fun c => !s.coreRetired c).length) ∧
  (∀ (counter : Nat) (digest : List Byte) (mrs : List (BitVec 512)) (f : Config.FwStage) (fs : List Config.FwStage),
    let b := bootFrom counter digest mrs (f :: fs)
    ((∃ x ∈ f :: fs, x.version < counter) → b.2 = false) ∧
    ((sha512 ([0x04#8] ++ bytesBig f.key.1 66 ++ bytesBig f.key.2 66) ≠ digest ∨ ecdsaOk f.key f.r f.s f.image = false) → b = (mrs, false)) ∧
    (∀ m, sha512 ([0x04#8] ++ bytesBig f.key.1 66 ++ bytesBig f.key.2 66) = digest → ecdsaOk f.key f.r f.s f.image = true → counter ≤ f.version →
      f.mr < 4 → mrs[f.mr]? = some m →
      b = bootFrom counter f.nextKey (mrs.set f.mr (BitVec.ofNat 512 (ofBytesBig (sha512 (bytesBig m.toNat 64 ++ sha512 f.image))))) fs) ∧
    bootFrom counter digest mrs [] = (mrs, true)) ∧
  (∀ (nonce : List Byte) (s : State),
    (nonce.length ≠ 64 → exec (.attestationReport nonce) s = .next s) ∧
    (nonce.length = 64 → ∃ s', exec (.attestationReport nonce) s = .next s' ∧ s' = { s with fresh := s'.fresh, answer := s'.answer } ∧
      s'.answer.length = 0x1A0 + 132 ∧ s'.answer.take 8 = toBytes (s.reg 0) 8 ∧ (s'.answer.drop 0x14).take 12 = List.replicate 12 0#8 ∧
      (s'.answer.drop 0x20).take 64 = nonce ∧ (∀ i m, i < 4 → s.mrs[i]? = some m → ofBytesBig ((s'.answer.drop (0x60 + 64 * i)).take 64) = m.toNat) ∧ ∀ i, i < 4 → (s'.answer.drop (0x160 + 8 * i)).take 8 = toBytes (s.reg (0x00B40020 + 8 * i)) 8))

namespace Sys2Proof.Claims

/-- How many values SUB takes in a cell of the opcode maps of R90 and R91: the members, or the conditions of a cell with a dagger; none for a
reserved cell. -/
def members (uniform : Bool) (op : Nat) : Nat :=
  (if uniform then
    [1, 1, 1, 1, 1, 1, 1, 1, 1, 1, 1, 1, 1, 2, 3, 3, 3, 2, 10, 1, 1, 1, 2, 3, 1, 1, 1, 1, 1, 1, 1, 1,
     1, 4, 1, 5, 1, 1, 1, 1, 1, 1, 1, 1, 1, 2, 1, 1, 1, 1, 1, 2, 1, 1, 1, 1, 1, 0, 0, 0, 0, 0, 0, 0]
  else
    [1, 1, 1, 1, 2, 8, 3, 7, 1, 6, 4, 3, 3, 4, 4, 2, 4, 10, 1, 1, 1, 1, 1, 2, 1, 1, 1, 1, 1, 1, 1, 1,
     1, 1, 1, 1, 1, 1, 1, 1, 1, 1, 4, 1, 2, 0, 1, 1, 1, 1, 1, 1, 1, 1, 1, 1, 1, 1, 1, 1, 1, 1, 1, 1]).getD op 0

/-- The environment's next move is the issue of a group that its port selects (log entry 14), whose current fragment is ready: on a core, neither frozen
nor parked, within its quantum, no debug halt, no wait and no trap pending, no breakpoint at the address (R67, R174, R185, R204, R410). -/
structure AtIssue (s s0 : State) (iss : Issuer) (t : Team) (g : Group) (f : Frag) (c : Nat) : Prop where
  move : ∃ ms, s.schedule = .issue iss.team iss.gix :: ms ∧ s0 = { s with schedule := ms }
  up : s.inReset = false
  selected : s0.selected exec iss.team iss.gix = true
  group : s0.group? iss.team iss.gix = some (t, g)
  sorted : mapSorted t.groups = true
  core : t.core = some c
  runs : s0.frozen t.with_ = false ∧ s0.parked iss.team iss.gix = false
  quantum : g.issued < g.quantum ∨ g.clause.isSome = true
  cur : g.cur = iss.entry
  frag : mapGet? iss.entry g.frags = some f
  ready : f.ready = true ∧ f.wait = .none
  calm : g.haltPending = false ∧ f.pendTrap = none
  address : badAddr f.pc = false
  watch : g.handler.isSome = true ∨ f.exempt = true ∨ g.sp.hit f.pc = none

/-- Four bytes at an address of the issuing group's context: they translate, with permission to fetch, memory holds them, and the core's instruction cache
holds no other (R95). s' is the state after the fetch: the translation may be cached, and a line of HBM takes its place in the instruction cache. -/
def BytesAt (s s' : State) (t : Team) (c va : Nat) (w : Word) : Prop :=
  s.mustWait (dieOf c) t.cfg.ctx va = false ∧ ∃ s1 p bs, s.translate t.cfg.ctx va permX = (s1, .ok p) ∧ s1.peekPhys p 4 = some bs ∧
    bs.map (·.1) = toBytes w.toNat 4 ∧
    (if spaceOf p.pa = .hbm then
      match s1.codeLine c t.cfg.launch p with
      | none => s' = s1.keepCode c p
      | some l => s' = s1 ∧ wordOfLine l.bytes p.pa = w.toNat
    else s' = s1)

end Sys2Proof.Claims

/-- R55, R92, R93: the encodings that are not instructions. Reserved opcodes and undefined SUB values decode to no instruction, and their issue takes the
illegal-instruction trap; a short form has SUB 0 and reads no C. -/
def Obligations.EncodingsThatAreNotInstructions : Prop :=
  (∀ (w x t : Word), members (w.getLsbD 31) (bits w.toNat 29 24) ≤ bits x.toNat 23 20 → decodeWords w x t = .illegalInstr) ∧
  (∀ (s s0 s1 s2 : State) (iss : Issuer) (t : Team) (g : Group) (f : Frag) (c : Nat) (w x : Word), AtIssue s s0 iss t g f c →
    BytesAt s0 s1 t c f.pc.toNat w → (if w.getLsbD 30 then BytesAt s1 s2 t c (f.pc.toNat + 4) x else s2 = s1 ∧ x = 0xFF000000#32) →
    members (w.getLsbD 31) (bits w.toNat 29 24) ≤ bits x.toNat 23 20 →
    let lanes := if w.getLsbD 31 = false ∧ x.getLsbD 12 = true then guardLanes g (some ⟨x.extractLsb' 14 3, x.getLsbD 13⟩) f.emask else f.emask
    step s = .next (takeTrap { s2 with fresh := s2.fresh + 1 } iss f.pc f.pc lanes { code := 0x01 })) ∧
  (∀ (w t : Word) (i : Instr) (n : Nat) (o : Op) (x : Args), w.getLsbD 30 = false → decodeWords w 0xFF000000#32 t = .ok i n → i.split = some (o, x) →
    o.code.sub = 0 ∧ x.cond = 0#4 ∧ x.c = .none) ∧
  (∀ (w t : Word) (o : Op), w.getLsbD 30 = false → opOf w 0xFF000000#32 = .inr o → (sig o (rawOf w 0xFF000000#32)).c ≠ .unused →
    decodeWords w 0xFF000000#32 t = .illegalOperand o.barred)

/-- R77, R79, R80, R86 to R89, R94, R95: words that the spec writes out, in the examples of its encoding, and what they are. -/
def Obligations.DecodeOfWrittenWords : Prop :=
  let at_ (ws : List Word) : Decoded := decode (wordBytes ws)
  let z : Args := ⟨false, none, 0#3, 0#4, .none, .none, .none, .none, 0#12, 0#24⟩
  at_ [0x00030102#32] = .ok (.fadd { z with d := .v 3, a := .v 1, b := .v 2 }) 1 ∧
  at_ [0x00000000#32] = .ok (.fadd { z with d := .v 0, a := .v 0, b := .v 0 }) 1 ∧
  at_ [0x80FFFFFF#32] = .ok (.nop z) 1 ∧
  at_ [0x43090205#32, 0xFE000089#32, 0x3FC00000#32] = .ok (.ffma { z with long := true, d := .v 9, a := .v 2, b := .v 5, c := .lit 0x3FC00000, mod := 0x089 }) 3 ∧
  at_ [0xCD040485#32, 0xFF009000#32] = .ok (.uadd { z with long := true, guard := some ⟨2, false⟩, d := .s 4, a := .s 4, b := .uconst 1 }) 2 ∧
  at_ [0x0A0505FC#32, 0x00000007#32] = .ok (.iadd { z with d := .v 5, a := .v 5, b := .uref 7 }) 2 ∧
  at_ [0x2DFFFFFF#32] = .illegalInstr ∧ at_ [0xB9FFFFFF#32] = .illegalInstr ∧ at_ [0x40000102#32, 0xFF500000#32] = .illegalInstr ∧
  (∀ ws ∈ [[0x000301FB#32], [0x00F00102#32], [0x0003FEFE#32, 1#32], [0x40030102#32, 0xFF000005#32], [0x40030102#32, 0xFF002000#32],
    [0x530301FF#32, 0xFF060000#32], [0x8D0404FC#32]], ∃ b, at_ ws = .illegalOperand b)

/-- R76 to R92, R489: decoding the words of a well-formed instruction, whatever follows them, gives the instruction and the number of its words: no bit of an
encoding is dropped. -/
def Obligations.DecodeOfEncodeIsTheInstruction : Prop :=
  ∀ (i : Instr) (ws : List Word) (rest : List Byte), i.wellFormed = true → encode i = some ws → decode (wordBytes ws ++ rest) = .ok i ws.length

/-- R76 to R93, R489: what the decoder accepts is a well-formed instruction, and its words are the ones that were read: every reserved bit and every illegal
field is refused, and an instruction has one encoding. -/
def Obligations.DecodedWordsAreTheEncoding : Prop :=
  ∀ (bs : List Byte) (i : Instr) (n : Nat), decode bs = .ok i n →
    i.wellFormed = true ∧ ∃ ws, encode i = some ws ∧ ws.length = n ∧ 4 * n ≤ bs.length ∧ wordBytes ws = bs.take (4 * n)

/-- R12, R309, R326, R386, R387, R401, R417, R465, R469: what reset leaves in the registers whose reset value the spec gives, and an empty machine. -/
def Obligations.ResetValues : Prop :=
  let s := State.reset
  (∀ fn, fn < 64 → s.readReg fn 0 = 0x5CA1041104100100) ∧
  (∀ q ∈ [(0x00B00000, 0), (0x00B00008, 0x14C08), (0x00B00010, 0x4268), (0x00B20000, 0), (0x00B20008, 0), (0x00B40000, 0), (0x00B40008, 0), (0x00B40010, 0),
    (0x00B40018, 0x6553F10004000200), (0x00B40020, 0), (0x00B40040, 0), (0x00C20040, 0), (0x00C30000, 0), (0x00C40000, 1600), (0x00C50000, 0), (0x00C50008, 0x19F0A0),
    (0x00C60000, 0)], s.readReg 0 q.1 = q.2) ∧
  (∀ i, i < 256 → s.readReg 0 (0x00800000 + 0x100 * i) = i / 64 * 256 + i + s.readReg 0 (0x00800000 + 0x100 * i) / 65536 * 65536 ∧
    s.readReg 0 (0x00800008 + 0x100 * i) = 0x400 ∧ s.readReg 0 (0x00800018 + 0x100 * i) = 4 ∧ s.readReg 0 (0x00800020 + 0x100 * i) = 0 ∧
    s.readReg 0 (0x00900000 + i / 8 * 8) / 2 ^ (8 * (i % 8)) % 256 = i ∧ s.readReg 0 (0x00900100 + i / 8 * 8) / 2 ^ (8 * (i % 8)) % 256 = i ∧
    s.readReg 0 (0x00A00000 + 0x40 * i) = 0 ∧ s.readReg 0 (0x00A00010 + 0x40 * i) = 0 ∧ s.readReg 0 (0x00C00000 + 0x10 * i) = 0) ∧
  (∀ t, t < 64 → s.readReg t 0x1000 = 0x10000 ∧ s.readReg t 0x1050 = 0x400 ∧ (∀ off ∈ [0x08, 0x10, 0x18, 0x20, 0x28, 0x30, 0x38, 0x40, 0x48, 0x58, 0x60, 0x68, 0x70, 0x78],
    s.readReg t (0x1000 + off) = 0) ∧ s.readReg 0 (0x00C51000 + 0x10 * t) = 0) ∧
  (∀ p, p < 16 → s.readReg 0 (0x00C50100 + 8 * p) = 0xC) ∧
  s.teams = [] ∧ s.launches = [] ∧ s.packets = [] ∧ s.cmds = [] ∧ s.tlb = [] ∧ s.hbm = [] ∧ s.hostMem = [] ∧ s.granary = [] ∧ s.lantern = ⟨0, none, none, true⟩

/-- The memories of the machine after reset are in their canonical form. -/
def Obligations.ResetMemoriesAreCanonical : Prop := State.reset.memWf = true

/-- Every step keeps the canonical form of every memory: HBM, host memory, the Granary, and each team's scratchpad and turning store (equal memories are equal
data), whatever the step does: an instruction, an event, a move of the host, or a cycle. -/
def Obligations.StepKeepsMemoriesCanonical : Prop :=
  ∀ (s s' : State), s.memWf = true → step s = .next s' → s'.memWf = true

/-- R8, R67, R93, R174, R204, R410: where the words at the program counter of a fragment that is about to issue decode to an instruction, the step fetches them and
executes that instruction for that fragment; an event that the environment names is executed; and nothing of the issuer's mark is left. A package in
reset does nothing but another reset (R467). -/
def Obligations.StepRunsTheDecodedInstruction : Prop :=
  (∀ (s s0 s1 s2 s3 : State) (iss : Issuer) (t : Team) (g : Group) (f : Frag) (c : Nat) (w0 w1 w2 : Word) (i : Instr) (n : Nat), AtIssue s s0 iss t g f c →
    BytesAt s0 s1 t c f.pc.toNat w0 → (if 2 ≤ n then BytesAt s1 s2 t c (f.pc.toNat + 4) w1 else s2 = s1) →
    (if 3 ≤ n then BytesAt s2 s3 t c (f.pc.toNat + 8) w2 else s3 = s2) → decode (wordBytes [w0, w1, w2]) = .ok i n →
    (∀ s', exec i { s3 with cur := some iss } = .next s' → step s = .next { s' with cur := none }) ∧
    (∀ r, exec i { s3 with cur := some iss } = .fault r → step s = .fault r) ∧
    (∀ r, exec i { s3 with cur := some iss } = .refused r → step s = .refused r)) ∧
  (∀ (s s' : State) (i : Instr) (ms : List Move), s.schedule = .event i :: ms → (s.inReset = false ∨ i = .packageReset) →
    exec i { s with schedule := ms, cur := none } = .next s' → step s = .next { s' with cur := none }) ∧
  (∀ (s : State) (m : Move) (ms : List Move), s.inReset = true → s.schedule = m :: ms → m ≠ .event .packageReset → step s = .next { s with schedule := ms }) ∧
  (∀ (s : State), s.inReset = true → s.schedule = [] → step s = .next s)

/-- R131, R136, R137, R139 to R145: the FP32 and the packed instructions of the lane set deliver their results. -/
def Obligations.LaneFloatResults : Prop := Claims.LaneFloatResultsHold ∧ Claims.LanePackedResultsHold

/-- R156 to R160: the conversions of the lane set, and the packing of shared-exponent blocks. -/
def Obligations.LaneConversionAndPackingResults : Prop := Claims.LaneConversionResultsHold ∧ Claims.SxpackEncodesABlockForEachHalfHold

/-- R147, R148: sums of more than 32 bits: the carry chain, and IMAD. -/
def Obligations.CarryAndWideProductResults : Prop := Claims.CarryChainResultsHold ∧ Claims.ImadDeliversThe64BitSumHold

/-- R154, R155, R163: MOV, SEL and SHFL, which copy elements, and PRMT, which picks bytes. -/
def Obligations.LaneCopyAndPermuteResults : Prop := Claims.LaneCopyResultsHold ∧ Claims.PrmtPicksBytesHold

/-- R164 to R169: the instructions across lanes; SEGRED with the head poison of log entry 54. -/
def Obligations.CrossLaneResults : Prop := Claims.CrossLaneUniformResultsHold ∧ Claims.ScanAndSegredResultsHold

/-- R7, R42, R54, R67, R72, R121, R123, R124, R205: the special registers, the flags and the execution mask, read and written. -/
def Obligations.SpecialRegisterAndMaskInstructions : Prop := Claims.SpecialRegisterReadsHold ∧ Claims.SpecialRegisterWritesHold ∧ Claims.FlagsReadsAndUpdatesHold ∧ Claims.MaskWritesHold

/-- R62, R64, R79, R108 to R112: where a branch, a call and a return lead, and how BRV splits a fragment. -/
def Obligations.BranchesReachTheirTargets : Prop := Claims.BranchesReachTheirTargetsHold ∧ Claims.BrvSplitsTheFragmentHold

/-- R62, R116, R117: the levels of the hardware loops, opened, closed and stepped. -/
def Obligations.LoopLevels : Prop := Claims.LoopLevelsOpenAndCloseHold ∧ Claims.LoopStepRuleHold

/-- R70, R73, R74, R415: taking a trap, and the trap that stops the group. -/
def Obligations.TrapEntry : Prop := Claims.TrapEntryHold ∧ Claims.DoubleTrapStopsTheGroupHold

/-- R55, R69, R74, R93, R94, R105, R106: the checks before an instruction acts, and the range check of the address after it. -/
def Obligations.IssueChecks : Prop := Claims.IssueChecksHold ∧ Claims.NextAddressRangeTrapHold

/-- R60, R189, R190, R192, R284 to R289, R327, R363 to R365: the accesses of scratchpad, windows and Granary enter their paths. -/
def Obligations.ScratchpadWindowAndGranaryAccessesIssue : Prop := Claims.ScratchpadAndWindowAccessesIssueHold ∧ Claims.GranaryAccessesIssueHold

/-- R177, R178, R190, R193, R194: the scratchpad serves its oldest access, and what an atomic operation stores and answers. -/
def Obligations.ScratchpadServesAccessesAndAtomics : Prop := Claims.ScratchpadServesTheOldestAccessHold ∧ Claims.AtomicOperationsHold

/-- R181, R199, R200, R293 to R295: arrivals and cluster barriers, issued and counted. -/
def Obligations.ArrivalsAndClusterBarriers : Prop := Claims.ArrivalsAndClusterBarriersIssueHold ∧ Claims.ArrivalEventsHold

/-- R211 to R214: the debug unit, from the group and from the host. -/
def Obligations.DebugUnit : Prop := Claims.DebugUnitInstructionsHold ∧ Claims.DebugRegisterEventsHold

/-- R218 to R220, R223 to R229, R234 to R236: the commands of the matrix engine enter its queue, gathered tiles among them. -/
def Obligations.MatrixCommandsIssue : Prop := Claims.MatrixCommandsIssueHold ∧ Claims.GatheredTilesIssueHold

/-- R178, R193, R194, R221, R226, R227, R231 to R233, R236: what the matrix engine and the turning store do with what they hold. -/
def Obligations.MatrixAndTurningStoreEvents : Prop := Claims.MatrixEngineEventsHold ∧ Claims.TurningStoreEventsHold

/-- R230 to R232, R237 to R241: accesses of the turning store, and the tile sequence. -/
def Obligations.TurningStoreSequences : Prop := Claims.TurningStoreAccessesIssueHold ∧ Claims.TileSequencesHold

/-- R264 to R269: the splatting instructions, and the walker that BLEND and STAGE start. -/
def Obligations.SplatInstructionsAndBlending : Prop := Claims.SplatInstructionsIssueHold ∧ Claims.BlendWalkerCopiesARecordHold

/-- R352, R374, R377 to R381, R459, R460: what the engines do with a command, and how it completes. -/
def Obligations.EngineWork : Prop := Claims.EngineWorkHold ∧ Claims.EngineCompletionHold

/-- R71, R179, R187, R244, R321, R330, R331, R417, R418: uncorrectable errors, the error log, and health checks. -/
def Obligations.ErrorsAndHealth : Prop := Claims.UncorrectableErrorsHold ∧ Claims.ErrorLogAndHealthHold
end

