-- ==== Sys2Proof/Laws/Cells.lean ====
section
/-! SUPPORT. Memories as lists of cells: a read after a write, and the canonical form, which every operation keeps. -/

namespace Sys2Proof.Machine

open Sys2Proof

/-- The first address of a canonical memory is above a bound. -/
def cellsAbove (a : Nat) (m : List Host.Cell) : Prop := ∀ c ∈ m.head?, a < c.1

theorem cellsWf_cons {a : Nat} {b : Byte} {m : List Host.Cell} :
    cellsWf ((a, b) :: m) = true ↔ cellsAbove a m ∧ cellsWf m = true := by
  cases m with
  | nil => simp [cellsWf, cellsAbove]
  | cons c m => obtain ⟨k, c⟩ := c; simp [cellsWf, cellsAbove]

theorem cellsAbove_put {a k : Nat} {b : Byte} {m : List Host.Cell} (h : cellsAbove k m) (hk : k < a) :
    cellsAbove k (cellPut a b m) := by
  cases m with
  | nil => simp [cellPut, cellsAbove, hk]
  | cons c m =>
    obtain ⟨j, c⟩ := c
    simp only [cellPut]
    split
    · simp [cellsAbove, hk]
    · split <;> simp_all [cellsAbove]

theorem cellsWf_put (a : Nat) (b : Byte) (m : List Host.Cell) (h : cellsWf m = true) : cellsWf (cellPut a b m) = true := by
  induction m with
  | nil => simp [cellPut, cellsWf]
  | cons c m ih =>
    obtain ⟨k, c⟩ := c
    simp only [cellPut]
    split
    · rename_i hk; exact cellsWf_cons.2 ⟨by simp [cellsAbove, hk], h⟩
    · rename_i hk
      split
      · subst_vars; exact cellsWf_cons.2 (cellsWf_cons.1 h)
      · rename_i hne
        obtain ⟨h1, h2⟩ := cellsWf_cons.1 h
        exact cellsWf_cons.2 ⟨cellsAbove_put h1 (by omega), ih h2⟩

theorem cellsAbove_trans {a k : Nat} {c : Byte} {m : List Host.Cell} (h : cellsAbove a ((k, c) :: m)) (hm : cellsAbove k m) :
    cellsAbove a m := by
  have h1 : a < k := by simpa [cellsAbove] using h
  intro d hd; exact Nat.lt_trans h1 (hm d hd)

theorem cellsAbove_del {a k : Nat} {m : List Host.Cell} (h : cellsAbove k m) (hm : cellsWf m = true) : cellsAbove k (cellDel a m) := by
  cases m with
  | nil => simpa [cellDel] using h
  | cons c m =>
    obtain ⟨j, c⟩ := c
    simp only [cellDel]
    split
    · exact cellsAbove_trans h (cellsWf_cons.1 hm).1
    · split <;> simpa [cellsAbove] using h

theorem cellsWf_del (a : Nat) (m : List Host.Cell) (h : cellsWf m = true) : cellsWf (cellDel a m) = true := by
  induction m with
  | nil => simp [cellDel, cellsWf]
  | cons c m ih =>
    obtain ⟨k, c⟩ := c
    obtain ⟨h1, h2⟩ := cellsWf_cons.1 h
    simp only [cellDel]
    split
    · exact h2
    · split
      · exact h
      · exact cellsWf_cons.2 ⟨cellsAbove_del h1 h2, ih h2⟩

theorem cellsWf_puts (a : Nat) (bs : List Byte) (m : List Host.Cell) (h : cellsWf m = true) : cellsWf (cellPuts a bs m) = true := by
  induction bs generalizing a m with
  | nil => exact h
  | cons b bs ih => exact ih _ _ (cellsWf_put a b m h)

theorem mem_cellPut {a : Nat} {b : Byte} {m : List Host.Cell} {c : Host.Cell} (h : c ∈ cellPut a b m) : c = (a, b) ∨ c ∈ m := by
  induction m with
  | nil => simpa [cellPut] using h
  | cons d m ih =>
    obtain ⟨k, d⟩ := d
    simp only [cellPut] at h
    split at h
    · simpa using h
    · split at h
      · simp only [List.mem_cons] at h ⊢
        exact h.imp_right .inr
      · simp only [List.mem_cons] at h ⊢
        rcases h with h | h
        · exact .inr (.inl h)
        · exact (ih h).imp_right .inr

theorem mem_cellDel {a : Nat} {m : List Host.Cell} {c : Host.Cell} (h : c ∈ cellDel a m) : c ∈ m := by
  induction m with
  | nil => simp [cellDel] at h
  | cons d m ih =>
    obtain ⟨k, d⟩ := d
    simp only [cellDel] at h
    split at h
    · exact List.mem_cons_of_mem _ h
    · split at h
      · exact h
      · simp only [List.mem_cons] at h ⊢
        rcases h with h | h
        · exact .inl h
        · exact .inr (ih h)

theorem zeroWf_putZ (a : Nat) (b : Byte) (m : List Host.Cell) (h : zeroWf m = true) : zeroWf (cellPutZ a b m) = true := by
  simp only [zeroWf, Bool.and_eq_true, List.all_eq_true, decide_eq_true_eq] at h ⊢
  simp only [cellPutZ]
  split
  · exact ⟨cellsWf_del a m h.1, fun c hc => h.2 c (mem_cellDel hc)⟩
  · rename_i hb
    refine ⟨cellsWf_put a b m h.1, fun c hc => ?_⟩
    rcases mem_cellPut hc with rfl | hc
    · exact hb
    · exact h.2 c hc

/-- Writes of listed cells keep both canonical forms. -/
theorem cellsWf_foldl_put (ov m : List Host.Cell) (h : cellsWf m = true) :
    cellsWf (ov.foldl (fun m c => cellPut c.1 c.2 m) m) = true := by
  induction ov generalizing m with
  | nil => exact h
  | cons c ov ih => exact ih _ (cellsWf_put _ _ _ h)

theorem zeroWf_foldl_putZ (ov m : List Host.Cell) (h : zeroWf m = true) :
    zeroWf (ov.foldl (fun m c => cellPutZ c.1 c.2 m) m) = true := by
  induction ov generalizing m with
  | nil => exact h
  | cons c ov ih => exact ih _ (zeroWf_putZ _ _ _ h)

/-- A byte below the first address is not listed. -/
theorem cellGet_above {a k : Nat} {m : List Host.Cell} (h : cellsAbove k m) (ha : a ≤ k) : cellGet a m = none := by
  cases m with
  | nil => rfl
  | cons c m =>
    obtain ⟨j, c⟩ := c
    have : k < j := by simpa [cellsAbove] using h
    simp only [cellGet]
    split
    · omega
    · split
      · rfl
      · omega

/-- A read after a write of a byte. -/
theorem cellGet_put (a x : Nat) (b : Byte) (m : List Host.Cell) :
    cellGet x (cellPut a b m) = if x = a then some b else cellGet x m := by
  induction m with
  | nil =>
    simp only [cellPut, cellGet]
    split <;> rename_i h
    · simp [h]
    · split <;> rename_i h2
      · rw [if_neg (by omega)]
      · rw [if_neg (by omega)]
  | cons c m ih =>
    obtain ⟨k, c⟩ := c
    simp only [cellPut]
    split
    · simp only [cellGet]
      (repeat' split) <;> first | rfl | omega
    · split
      · subst_vars; simp only [cellGet]
        (repeat' split) <;> first | rfl | omega
      · simp only [cellGet, ih]
        (repeat' split) <;> first | rfl | omega

/-- A read after a byte is removed, in canonical form. -/
theorem cellGet_del (a x : Nat) (m : List Host.Cell) (h : cellsWf m = true) :
    cellGet x (cellDel a m) = if x = a then none else cellGet x m := by
  induction m with
  | nil => simp [cellDel, cellGet]
  | cons c m ih =>
    obtain ⟨k, c⟩ := c
    obtain ⟨h1, h2⟩ := cellsWf_cons.1 h
    simp only [cellDel]
    split
    · rename_i hk
      subst hk
      by_cases hx : x = k
      · subst hx; simp [cellGet_above h1 (Nat.le_refl _)]
      · simp only [cellGet, hx, if_false, Ne.symm hx]
        split
        · exact cellGet_above h1 (by omega)
        · rfl
    · split
      · simp only [cellGet]
        (repeat' split) <;> first | rfl | omega
      · simp only [cellGet, ih h2]
        (repeat' split) <;> first | rfl | omega

/-- A read after a write where unlisted bytes read as zero, in canonical form. -/
theorem cellGet_putZ (a x : Nat) (b : Byte) (m : List Host.Cell) (h : cellsWf m = true) :
    (cellGet x (cellPutZ a b m)).getD 0#8 = if x = a then b else (cellGet x m).getD 0#8 := by
  simp only [cellPutZ]
  split
  · rename_i hb; rw [cellGet_del _ _ _ h]; split <;> simp [hb]
  · rw [cellGet_put]; split <;> simp

/-- A byte outside the bytes written reads as before; a byte written reads as it was written. -/
theorem cellGet_puts (a x : Nat) (bs : List Byte) (m : List Host.Cell) :
    cellGet x (cellPuts a bs m) = if a ≤ x ∧ x < a + bs.length then bs[x - a]? else cellGet x m := by
  induction bs generalizing a m with
  | nil => simp only [cellPuts, List.length_nil]; rw [if_neg (by omega)]
  | cons b bs ih =>
    simp only [cellPuts, ih, cellGet_put, List.length_cons]
    by_cases h1 : x = a
    · subst h1
      rw [if_neg (by omega), if_pos rfl, if_pos (by omega)]; simp
    · by_cases h2 : a + 1 ≤ x ∧ x < a + 1 + bs.length
      · rw [if_pos h2, if_pos (by omega)]
        obtain ⟨n, hn⟩ : ∃ n, x - a = n + 1 := ⟨x - a - 1, by omega⟩
        rw [hn, show x - (a + 1) = n by omega]; simp
      · rw [if_neg h2, if_neg h1, if_neg (by omega)]

end Sys2Proof.Machine
end

