-- ==== Sys2Proof/Laws/Maps.lean ====
section
/-! SUPPORT. Reading after writing a sparse map; these hold of every list, sorted or not. -/

namespace Sys2Proof.Machine

open Sys2Proof

@[simp] theorem mapGet?_mapSet_self {α : Type} (k : Nat) (v : α) (m : Map α) : mapGet? k (mapSet k v m) = some v := by
  induction m with
  | nil => simp [mapSet, mapGet?]
  | cons p m ih =>
    obtain ⟨j, w⟩ := p
    simp only [mapSet]
    split
    · simp [mapGet?]
    · split <;> simp_all [mapGet?]

theorem mapGet?_mapSet_ne {α : Type} {k j : Nat} (h : j ≠ k) (v : α) (m : Map α) :
    mapGet? j (mapSet k v m) = mapGet? j m := by
  induction m with
  | nil => simp [mapSet, mapGet?, Ne.symm h]
  | cons p m ih =>
    obtain ⟨i, w⟩ := p
    simp only [mapSet]
    split
    · simp [mapGet?, Ne.symm h]
    · split
      · subst_vars; simp [mapGet?, Ne.symm h]
      · simp [mapGet?, ih]

theorem mapGet?_mapSet {α : Type} (k j : Nat) (v : α) (m : Map α) :
    mapGet? j (mapSet k v m) = if j = k then some v else mapGet? j m := by
  by_cases h : j = k
  · subst h; simp
  · simp [h, mapGet?_mapSet_ne h]

theorem mapGet?_mapUpd_self {α : Type} (k : Nat) (f : α → α) (m : Map α) :
    mapGet? k (mapUpd k f m) = (mapGet? k m).map f := by
  induction m with
  | nil => simp [mapUpd, mapGet?]
  | cons p m ih =>
    obtain ⟨j, w⟩ := p
    simp only [mapUpd]
    split <;> simp_all [mapGet?]

theorem mapGet?_mapUpd_ne {α : Type} {k j : Nat} (h : j ≠ k) (f : α → α) (m : Map α) :
    mapGet? j (mapUpd k f m) = mapGet? j m := by
  induction m with
  | nil => simp [mapUpd]
  | cons p m ih =>
    obtain ⟨i, w⟩ := p
    simp only [mapUpd]
    split
    · subst_vars; simp [mapGet?, Ne.symm h]
    · simp [mapGet?, ih]

theorem mapGet?_map {α β : Type} (k : Nat) (f : α → β) (m : Map α) :
    mapGet? k (m.map fun p => (p.1, f p.2)) = (mapGet? k m).map f := by
  induction m with
  | nil => simp [mapGet?]
  | cons p m ih =>
    obtain ⟨i, w⟩ := p
    simp only [List.map_cons, mapGet?]
    split <;> simp_all

theorem mapGet?_map_key {α β : Type} (k : Nat) (f : Nat → α → β) (m : Map α) :
    mapGet? k (m.map fun p => (p.1, f p.1 p.2)) = (mapGet? k m).map (f k) := by
  induction m with
  | nil => simp [mapGet?]
  | cons p m ih =>
    obtain ⟨i, w⟩ := p
    simp only [List.map_cons, mapGet?]
    split <;> simp_all

@[simp] theorem mapGetD_mapSet_self {α : Type} (k : Nat) (d v : α) (m : Map α) : mapGetD k d (mapSet k v m) = v := by
  simp [mapGetD]

theorem mapGetD_mapSet_ne {α : Type} {k j : Nat} (h : j ≠ k) (d v : α) (m : Map α) :
    mapGetD j d (mapSet k v m) = mapGetD j d m := by
  simp [mapGetD, mapGet?_mapSet_ne h]

@[simp] theorem mapUpd_mapUpd {α : Type} (k : Nat) (f g : α → α) (m : Map α) :
    mapUpd k f (mapUpd k g m) = mapUpd k (fun x => f (g x)) m := by
  induction m with
  | nil => rfl
  | cons p m ih =>
    obtain ⟨i, w⟩ := p
    simp only [mapUpd]
    split <;> simp_all [mapUpd]

@[simp] theorem length_listSet {α : Type} (i : Nat) (v : α) (xs : List α) : (listSet i v xs).length = xs.length := by
  induction xs generalizing i with
  | nil => simp [listSet]
  | cons x xs ih => cases i <;> simp [listSet, ih]

theorem getElem?_listSet {α : Type} (i j : Nat) (v : α) (xs : List α) :
    (listSet i v xs)[j]? = if j = i then (xs[j]?).map (fun _ => v) else xs[j]? := by
  induction xs generalizing i j with
  | nil => simp [listSet]
  | cons x xs ih => cases i <;> cases j <;> simp [listSet, ih]

theorem getElem?_listUpd {α : Type} (i j : Nat) (f : α → α) (xs : List α) :
    (listUpd i f xs)[j]? = if j = i then (xs[j]?).map f else xs[j]? := by
  induction xs generalizing i j with
  | nil => simp [listUpd]
  | cons x xs ih => cases i <;> cases j <;> simp [listUpd, ih]

theorem mem_insertBy {α : Type} {le : α → α → Bool} {x y : α} {xs : List α} : y ∈ insertBy le x xs ↔ y = x ∨ y ∈ xs := by
  induction xs with
  | nil => simp [insertBy]
  | cons z zs ih => simp only [insertBy]; split <;> simp [ih, or_left_comm]

/-- Sorting keeps the elements. -/
@[simp] theorem mem_sortBy {α : Type} {le : α → α → Bool} {y : α} {xs : List α} : y ∈ sortBy le xs ↔ y ∈ xs := by
  induction xs with
  | nil => rfl
  | cons z zs ih => rw [sortBy, List.foldr_cons, mem_insertBy, List.mem_cons]; exact or_congr_right ih

end Sys2Proof.Machine
end

