-- ==== Sys2Proof/Laws/State.lean ====
section
/-! SUPPORT. What each update of the state and of a group leaves in every other field. -/

namespace Sys2Proof.Machine

open Sys2Proof

@[simp] theorem State.setGroup_cur (s : State) (t i : Nat) (g : Group) : (s.setGroup t i g).cur = s.cur := rfl
@[simp] theorem State.setGroup_clock (s : State) (t i : Nat) (g : Group) : (s.setGroup t i g).clock = s.clock := rfl
@[simp] theorem State.setGroup_fresh (s : State) (t i : Nat) (g : Group) : (s.setGroup t i g).fresh = s.fresh := rfl
@[simp] theorem State.setGroup_nextId (s : State) (t i : Nat) (g : Group) : (s.setGroup t i g).nextId = s.nextId := rfl
@[simp] theorem State.setGroup_schedule (s : State) (t i : Nat) (g : Group) : (s.setGroup t i g).schedule = s.schedule := rfl
@[simp] theorem State.setGroup_answer (s : State) (t i : Nat) (g : Group) : (s.setGroup t i g).answer = s.answer := rfl
@[simp] theorem State.setGroup_clusters (s : State) (t i : Nat) (g : Group) : (s.setGroup t i g).clusters = s.clusters := rfl
@[simp] theorem State.setGroup_launches (s : State) (t i : Nat) (g : Group) : (s.setGroup t i g).launches = s.launches := rfl
@[simp] theorem State.setGroup_cores (s : State) (t i : Nat) (g : Group) : (s.setGroup t i g).cores = s.cores := rfl
@[simp] theorem State.setGroup_slices (s : State) (t i : Nat) (g : Group) : (s.setGroup t i g).slices = s.slices := rfl
@[simp] theorem State.setGroup_routers (s : State) (t i : Nat) (g : Group) : (s.setGroup t i g).routers = s.routers := rfl
@[simp] theorem State.setGroup_lantern (s : State) (t i : Nat) (g : Group) : (s.setGroup t i g).lantern = s.lantern := rfl
@[simp] theorem State.setGroup_packets (s : State) (t i : Nat) (g : Group) : (s.setGroup t i g).packets = s.packets := rfl
@[simp] theorem State.setGroup_seqs (s : State) (t i : Nat) (g : Group) : (s.setGroup t i g).seqs = s.seqs := rfl
@[simp] theorem State.setGroup_hbm (s : State) (t i : Nat) (g : Group) : (s.setGroup t i g).hbm = s.hbm := rfl
@[simp] theorem State.setGroup_hbmKey (s : State) (t i : Nat) (g : Group) : (s.setGroup t i g).hbmKey = s.hbmKey := rfl
@[simp] theorem State.setGroup_hbmPois (s : State) (t i : Nat) (g : Group) : (s.setGroup t i g).hbmPois = s.hbmPois := rfl
@[simp] theorem State.setGroup_hbmErr (s : State) (t i : Nat) (g : Group) : (s.setGroup t i g).hbmErr = s.hbmErr := rfl
@[simp] theorem State.setGroup_late (s : State) (t i : Nat) (g : Group) : (s.setGroup t i g).late = s.late := rfl
@[simp] theorem State.setGroup_hostMem (s : State) (t i : Nat) (g : Group) : (s.setGroup t i g).hostMem = s.hostMem := rfl
@[simp] theorem State.setGroup_hostBad (s : State) (t i : Nat) (g : Group) : (s.setGroup t i g).hostBad = s.hostBad := rfl
@[simp] theorem State.setGroup_granary (s : State) (t i : Nat) (g : Group) : (s.setGroup t i g).granary = s.granary := rfl
@[simp] theorem State.setGroup_granPois (s : State) (t i : Nat) (g : Group) : (s.setGroup t i g).granPois = s.granPois := rfl
@[simp] theorem State.setGroup_granFlags (s : State) (t i : Nat) (g : Group) : (s.setGroup t i g).granFlags = s.granFlags := rfl
@[simp] theorem State.setGroup_keys (s : State) (t i : Nat) (g : Group) : (s.setGroup t i g).keys = s.keys := rfl
@[simp] theorem State.setGroup_tlb (s : State) (t i : Nat) (g : Group) : (s.setGroup t i g).tlb = s.tlb := rfl
@[simp] theorem State.setGroup_faults (s : State) (t i : Nat) (g : Group) : (s.setGroup t i g).faults = s.faults := rfl
@[simp] theorem State.setGroup_inval (s : State) (t i : Nat) (g : Group) : (s.setGroup t i g).inval = s.inval := rfl
@[simp] theorem State.setGroup_cmds (s : State) (t i : Nat) (g : Group) : (s.setGroup t i g).cmds = s.cmds := rfl
@[simp] theorem State.setGroup_acceptedCmds (s : State) (t i : Nat) (g : Group) : (s.setGroup t i g).acceptedCmds = s.acceptedCmds := rfl
@[simp] theorem State.setGroup_commNth (s : State) (t i : Nat) (g : Group) : (s.setGroup t i g).commNth = s.commNth := rfl
@[simp] theorem State.setGroup_peers (s : State) (t i : Nat) (g : Group) : (s.setGroup t i g).peers = s.peers := rfl
@[simp] theorem State.setGroup_buckets (s : State) (t i : Nat) (g : Group) : (s.setGroup t i g).buckets = s.buckets := rfl
@[simp] theorem State.setGroup_queues (s : State) (t i : Nat) (g : Group) : (s.setGroup t i g).queues = s.queues := rfl
@[simp] theorem State.setGroup_gathers (s : State) (t i : Nat) (g : Group) : (s.setGroup t i g).gathers = s.gathers := rfl
@[simp] theorem State.setGroup_accepting (s : State) (t i : Nat) (g : Group) : (s.setGroup t i g).accepting = s.accepting := rfl
@[simp] theorem State.setGroup_frontFatal (s : State) (t i : Nat) (g : Group) : (s.setGroup t i g).frontFatal = s.frontFatal := rfl
@[simp] theorem State.setGroup_tasks (s : State) (t i : Nat) (g : Group) : (s.setGroup t i g).tasks = s.tasks := rfl
@[simp] theorem State.setGroup_tasksDue (s : State) (t i : Nat) (g : Group) : (s.setGroup t i g).tasksDue = s.tasksDue := rfl
@[simp] theorem State.setGroup_robin (s : State) (t i : Nat) (g : Group) : (s.setGroup t i g).robin = s.robin := rfl
@[simp] theorem State.setGroup_spent (s : State) (t i : Nat) (g : Group) : (s.setGroup t i g).spent = s.spent := rfl
@[simp] theorem State.setGroup_exits (s : State) (t i : Nat) (g : Group) : (s.setGroup t i g).exits = s.exits := rfl
@[simp] theorem State.setGroup_entries (s : State) (t i : Nat) (g : Group) : (s.setGroup t i g).entries = s.entries := rfl
@[simp] theorem State.setGroup_dead (s : State) (t i : Nat) (g : Group) : (s.setGroup t i g).dead = s.dead := rfl
@[simp] theorem State.setGroup_msix (s : State) (t i : Nat) (g : Group) : (s.setGroup t i g).msix = s.msix := rfl
@[simp] theorem State.setGroup_sent (s : State) (t i : Nat) (g : Group) : (s.setGroup t i g).sent = s.sent := rfl
@[simp] theorem State.setGroup_failing (s : State) (t i : Nat) (g : Group) : (s.setGroup t i g).failing = s.failing := rfl
@[simp] theorem State.setGroup_retiring (s : State) (t i : Nat) (g : Group) : (s.setGroup t i g).retiring = s.retiring := rfl
@[simp] theorem State.setGroup_errs (s : State) (t i : Nat) (g : Group) : (s.setGroup t i g).errs = s.errs := rfl
@[simp] theorem State.setGroup_fixed (s : State) (t i : Nat) (g : Group) : (s.setGroup t i g).fixed = s.fixed := rfl
@[simp] theorem State.setGroup_healthAt (s : State) (t i : Nat) (g : Group) : (s.setGroup t i g).healthAt = s.healthAt := rfl
@[simp] theorem State.setGroup_linkPort (s : State) (t i : Nat) (g : Group) : (s.setGroup t i g).linkPort = s.linkPort := rfl
@[simp] theorem State.setGroup_narrowed (s : State) (t i : Nat) (g : Group) : (s.setGroup t i g).narrowed = s.narrowed := rfl
@[simp] theorem State.setGroup_hostLinks (s : State) (t i : Nat) (g : Group) : (s.setGroup t i g).hostLinks = s.hostLinks := rfl
@[simp] theorem State.setGroup_homeTbl (s : State) (t i : Nat) (g : Group) : (s.setGroup t i g).homeTbl = s.homeTbl := rfl
@[simp] theorem State.setGroup_dlTbl (s : State) (t i : Nat) (g : Group) : (s.setGroup t i g).dlTbl = s.dlTbl := rfl
@[simp] theorem State.setGroup_counted (s : State) (t i : Nat) (g : Group) : (s.setGroup t i g).counted = s.counted := rfl
@[simp] theorem State.setGroup_mrs (s : State) (t i : Nat) (g : Group) : (s.setGroup t i g).mrs = s.mrs := rfl
@[simp] theorem State.setGroup_inReset (s : State) (t i : Nat) (g : Group) : (s.setGroup t i g).inReset = s.inReset := rfl
@[simp] theorem State.setGroup_regs (s : State) (t i : Nat) (g : Group) : (s.setGroup t i g).regs = s.regs := rfl

@[simp] theorem State.updGroup_cur (s : State) (t i : Nat) (f : Group → Group) : (s.updGroup t i f).cur = s.cur := rfl
@[simp] theorem State.updGroup_clock (s : State) (t i : Nat) (f : Group → Group) : (s.updGroup t i f).clock = s.clock := rfl
@[simp] theorem State.updGroup_fresh (s : State) (t i : Nat) (f : Group → Group) : (s.updGroup t i f).fresh = s.fresh := rfl
@[simp] theorem State.updGroup_nextId (s : State) (t i : Nat) (f : Group → Group) : (s.updGroup t i f).nextId = s.nextId := rfl
@[simp] theorem State.updGroup_schedule (s : State) (t i : Nat) (f : Group → Group) : (s.updGroup t i f).schedule = s.schedule := rfl
@[simp] theorem State.updGroup_answer (s : State) (t i : Nat) (f : Group → Group) : (s.updGroup t i f).answer = s.answer := rfl
@[simp] theorem State.updGroup_clusters (s : State) (t i : Nat) (f : Group → Group) : (s.updGroup t i f).clusters = s.clusters := rfl
@[simp] theorem State.updGroup_launches (s : State) (t i : Nat) (f : Group → Group) : (s.updGroup t i f).launches = s.launches := rfl
@[simp] theorem State.updGroup_cores (s : State) (t i : Nat) (f : Group → Group) : (s.updGroup t i f).cores = s.cores := rfl
@[simp] theorem State.updGroup_slices (s : State) (t i : Nat) (f : Group → Group) : (s.updGroup t i f).slices = s.slices := rfl
@[simp] theorem State.updGroup_routers (s : State) (t i : Nat) (f : Group → Group) : (s.updGroup t i f).routers = s.routers := rfl
@[simp] theorem State.updGroup_lantern (s : State) (t i : Nat) (f : Group → Group) : (s.updGroup t i f).lantern = s.lantern := rfl
@[simp] theorem State.updGroup_packets (s : State) (t i : Nat) (f : Group → Group) : (s.updGroup t i f).packets = s.packets := rfl
@[simp] theorem State.updGroup_seqs (s : State) (t i : Nat) (f : Group → Group) : (s.updGroup t i f).seqs = s.seqs := rfl
@[simp] theorem State.updGroup_hbm (s : State) (t i : Nat) (f : Group → Group) : (s.updGroup t i f).hbm = s.hbm := rfl
@[simp] theorem State.updGroup_hbmKey (s : State) (t i : Nat) (f : Group → Group) : (s.updGroup t i f).hbmKey = s.hbmKey := rfl
@[simp] theorem State.updGroup_hbmPois (s : State) (t i : Nat) (f : Group → Group) : (s.updGroup t i f).hbmPois = s.hbmPois := rfl
@[simp] theorem State.updGroup_hbmErr (s : State) (t i : Nat) (f : Group → Group) : (s.updGroup t i f).hbmErr = s.hbmErr := rfl
@[simp] theorem State.updGroup_late (s : State) (t i : Nat) (f : Group → Group) : (s.updGroup t i f).late = s.late := rfl
@[simp] theorem State.updGroup_hostMem (s : State) (t i : Nat) (f : Group → Group) : (s.updGroup t i f).hostMem = s.hostMem := rfl
@[simp] theorem State.updGroup_hostBad (s : State) (t i : Nat) (f : Group → Group) : (s.updGroup t i f).hostBad = s.hostBad := rfl
@[simp] theorem State.updGroup_granary (s : State) (t i : Nat) (f : Group → Group) : (s.updGroup t i f).granary = s.granary := rfl
@[simp] theorem State.updGroup_granPois (s : State) (t i : Nat) (f : Group → Group) : (s.updGroup t i f).granPois = s.granPois := rfl
@[simp] theorem State.updGroup_granFlags (s : State) (t i : Nat) (f : Group → Group) : (s.updGroup t i f).granFlags = s.granFlags := rfl
@[simp] theorem State.updGroup_keys (s : State) (t i : Nat) (f : Group → Group) : (s.updGroup t i f).keys = s.keys := rfl
@[simp] theorem State.updGroup_tlb (s : State) (t i : Nat) (f : Group → Group) : (s.updGroup t i f).tlb = s.tlb := rfl
@[simp] theorem State.updGroup_faults (s : State) (t i : Nat) (f : Group → Group) : (s.updGroup t i f).faults = s.faults := rfl
@[simp] theorem State.updGroup_inval (s : State) (t i : Nat) (f : Group → Group) : (s.updGroup t i f).inval = s.inval := rfl
@[simp] theorem State.updGroup_cmds (s : State) (t i : Nat) (f : Group → Group) : (s.updGroup t i f).cmds = s.cmds := rfl
@[simp] theorem State.updGroup_acceptedCmds (s : State) (t i : Nat) (f : Group → Group) : (s.updGroup t i f).acceptedCmds = s.acceptedCmds := rfl
@[simp] theorem State.updGroup_commNth (s : State) (t i : Nat) (f : Group → Group) : (s.updGroup t i f).commNth = s.commNth := rfl
@[simp] theorem State.updGroup_peers (s : State) (t i : Nat) (f : Group → Group) : (s.updGroup t i f).peers = s.peers := rfl
@[simp] theorem State.updGroup_buckets (s : State) (t i : Nat) (f : Group → Group) : (s.updGroup t i f).buckets = s.buckets := rfl
@[simp] theorem State.updGroup_queues (s : State) (t i : Nat) (f : Group → Group) : (s.updGroup t i f).queues = s.queues := rfl
@[simp] theorem State.updGroup_gathers (s : State) (t i : Nat) (f : Group → Group) : (s.updGroup t i f).gathers = s.gathers := rfl
@[simp] theorem State.updGroup_accepting (s : State) (t i : Nat) (f : Group → Group) : (s.updGroup t i f).accepting = s.accepting := rfl
@[simp] theorem State.updGroup_frontFatal (s : State) (t i : Nat) (f : Group → Group) : (s.updGroup t i f).frontFatal = s.frontFatal := rfl
@[simp] theorem State.updGroup_tasks (s : State) (t i : Nat) (f : Group → Group) : (s.updGroup t i f).tasks = s.tasks := rfl
@[simp] theorem State.updGroup_tasksDue (s : State) (t i : Nat) (f : Group → Group) : (s.updGroup t i f).tasksDue = s.tasksDue := rfl
@[simp] theorem State.updGroup_robin (s : State) (t i : Nat) (f : Group → Group) : (s.updGroup t i f).robin = s.robin := rfl
@[simp] theorem State.updGroup_spent (s : State) (t i : Nat) (f : Group → Group) : (s.updGroup t i f).spent = s.spent := rfl
@[simp] theorem State.updGroup_exits (s : State) (t i : Nat) (f : Group → Group) : (s.updGroup t i f).exits = s.exits := rfl
@[simp] theorem State.updGroup_entries (s : State) (t i : Nat) (f : Group → Group) : (s.updGroup t i f).entries = s.entries := rfl
@[simp] theorem State.updGroup_dead (s : State) (t i : Nat) (f : Group → Group) : (s.updGroup t i f).dead = s.dead := rfl
@[simp] theorem State.updGroup_msix (s : State) (t i : Nat) (f : Group → Group) : (s.updGroup t i f).msix = s.msix := rfl
@[simp] theorem State.updGroup_sent (s : State) (t i : Nat) (f : Group → Group) : (s.updGroup t i f).sent = s.sent := rfl
@[simp] theorem State.updGroup_failing (s : State) (t i : Nat) (f : Group → Group) : (s.updGroup t i f).failing = s.failing := rfl
@[simp] theorem State.updGroup_retiring (s : State) (t i : Nat) (f : Group → Group) : (s.updGroup t i f).retiring = s.retiring := rfl
@[simp] theorem State.updGroup_errs (s : State) (t i : Nat) (f : Group → Group) : (s.updGroup t i f).errs = s.errs := rfl
@[simp] theorem State.updGroup_fixed (s : State) (t i : Nat) (f : Group → Group) : (s.updGroup t i f).fixed = s.fixed := rfl
@[simp] theorem State.updGroup_healthAt (s : State) (t i : Nat) (f : Group → Group) : (s.updGroup t i f).healthAt = s.healthAt := rfl
@[simp] theorem State.updGroup_linkPort (s : State) (t i : Nat) (f : Group → Group) : (s.updGroup t i f).linkPort = s.linkPort := rfl
@[simp] theorem State.updGroup_narrowed (s : State) (t i : Nat) (f : Group → Group) : (s.updGroup t i f).narrowed = s.narrowed := rfl
@[simp] theorem State.updGroup_hostLinks (s : State) (t i : Nat) (f : Group → Group) : (s.updGroup t i f).hostLinks = s.hostLinks := rfl
@[simp] theorem State.updGroup_homeTbl (s : State) (t i : Nat) (f : Group → Group) : (s.updGroup t i f).homeTbl = s.homeTbl := rfl
@[simp] theorem State.updGroup_dlTbl (s : State) (t i : Nat) (f : Group → Group) : (s.updGroup t i f).dlTbl = s.dlTbl := rfl
@[simp] theorem State.updGroup_counted (s : State) (t i : Nat) (f : Group → Group) : (s.updGroup t i f).counted = s.counted := rfl
@[simp] theorem State.updGroup_mrs (s : State) (t i : Nat) (f : Group → Group) : (s.updGroup t i f).mrs = s.mrs := rfl
@[simp] theorem State.updGroup_inReset (s : State) (t i : Nat) (f : Group → Group) : (s.updGroup t i f).inReset = s.inReset := rfl
@[simp] theorem State.updGroup_regs (s : State) (t i : Nat) (f : Group → Group) : (s.updGroup t i f).regs = s.regs := rfl

@[simp] theorem State.updTeam_cur (s : State) (t : Nat) (f : Team → Team) : (s.updTeam t f).cur = s.cur := rfl
@[simp] theorem State.updTeam_clock (s : State) (t : Nat) (f : Team → Team) : (s.updTeam t f).clock = s.clock := rfl
@[simp] theorem State.updTeam_fresh (s : State) (t : Nat) (f : Team → Team) : (s.updTeam t f).fresh = s.fresh := rfl
@[simp] theorem State.updTeam_nextId (s : State) (t : Nat) (f : Team → Team) : (s.updTeam t f).nextId = s.nextId := rfl
@[simp] theorem State.updTeam_schedule (s : State) (t : Nat) (f : Team → Team) : (s.updTeam t f).schedule = s.schedule := rfl
@[simp] theorem State.updTeam_answer (s : State) (t : Nat) (f : Team → Team) : (s.updTeam t f).answer = s.answer := rfl
@[simp] theorem State.updTeam_clusters (s : State) (t : Nat) (f : Team → Team) : (s.updTeam t f).clusters = s.clusters := rfl
@[simp] theorem State.updTeam_launches (s : State) (t : Nat) (f : Team → Team) : (s.updTeam t f).launches = s.launches := rfl
@[simp] theorem State.updTeam_cores (s : State) (t : Nat) (f : Team → Team) : (s.updTeam t f).cores = s.cores := rfl
@[simp] theorem State.updTeam_slices (s : State) (t : Nat) (f : Team → Team) : (s.updTeam t f).slices = s.slices := rfl
@[simp] theorem State.updTeam_routers (s : State) (t : Nat) (f : Team → Team) : (s.updTeam t f).routers = s.routers := rfl
@[simp] theorem State.updTeam_lantern (s : State) (t : Nat) (f : Team → Team) : (s.updTeam t f).lantern = s.lantern := rfl
@[simp] theorem State.updTeam_packets (s : State) (t : Nat) (f : Team → Team) : (s.updTeam t f).packets = s.packets := rfl
@[simp] theorem State.updTeam_seqs (s : State) (t : Nat) (f : Team → Team) : (s.updTeam t f).seqs = s.seqs := rfl
@[simp] theorem State.updTeam_hbm (s : State) (t : Nat) (f : Team → Team) : (s.updTeam t f).hbm = s.hbm := rfl
@[simp] theorem State.updTeam_hbmKey (s : State) (t : Nat) (f : Team → Team) : (s.updTeam t f).hbmKey = s.hbmKey := rfl
@[simp] theorem State.updTeam_hbmPois (s : State) (t : Nat) (f : Team → Team) : (s.updTeam t f).hbmPois = s.hbmPois := rfl
@[simp] theorem State.updTeam_hbmErr (s : State) (t : Nat) (f : Team → Team) : (s.updTeam t f).hbmErr = s.hbmErr := rfl
@[simp] theorem State.updTeam_late (s : State) (t : Nat) (f : Team → Team) : (s.updTeam t f).late = s.late := rfl
@[simp] theorem State.updTeam_hostMem (s : State) (t : Nat) (f : Team → Team) : (s.updTeam t f).hostMem = s.hostMem := rfl
@[simp] theorem State.updTeam_hostBad (s : State) (t : Nat) (f : Team → Team) : (s.updTeam t f).hostBad = s.hostBad := rfl
@[simp] theorem State.updTeam_granary (s : State) (t : Nat) (f : Team → Team) : (s.updTeam t f).granary = s.granary := rfl
@[simp] theorem State.updTeam_granPois (s : State) (t : Nat) (f : Team → Team) : (s.updTeam t f).granPois = s.granPois := rfl
@[simp] theorem State.updTeam_granFlags (s : State) (t : Nat) (f : Team → Team) : (s.updTeam t f).granFlags = s.granFlags := rfl
@[simp] theorem State.updTeam_keys (s : State) (t : Nat) (f : Team → Team) : (s.updTeam t f).keys = s.keys := rfl
@[simp] theorem State.updTeam_tlb (s : State) (t : Nat) (f : Team → Team) : (s.updTeam t f).tlb = s.tlb := rfl
@[simp] theorem State.updTeam_faults (s : State) (t : Nat) (f : Team → Team) : (s.updTeam t f).faults = s.faults := rfl
@[simp] theorem State.updTeam_inval (s : State) (t : Nat) (f : Team → Team) : (s.updTeam t f).inval = s.inval := rfl
@[simp] theorem State.updTeam_cmds (s : State) (t : Nat) (f : Team → Team) : (s.updTeam t f).cmds = s.cmds := rfl
@[simp] theorem State.updTeam_acceptedCmds (s : State) (t : Nat) (f : Team → Team) : (s.updTeam t f).acceptedCmds = s.acceptedCmds := rfl
@[simp] theorem State.updTeam_commNth (s : State) (t : Nat) (f : Team → Team) : (s.updTeam t f).commNth = s.commNth := rfl
@[simp] theorem State.updTeam_peers (s : State) (t : Nat) (f : Team → Team) : (s.updTeam t f).peers = s.peers := rfl
@[simp] theorem State.updTeam_buckets (s : State) (t : Nat) (f : Team → Team) : (s.updTeam t f).buckets = s.buckets := rfl
@[simp] theorem State.updTeam_queues (s : State) (t : Nat) (f : Team → Team) : (s.updTeam t f).queues = s.queues := rfl
@[simp] theorem State.updTeam_gathers (s : State) (t : Nat) (f : Team → Team) : (s.updTeam t f).gathers = s.gathers := rfl
@[simp] theorem State.updTeam_accepting (s : State) (t : Nat) (f : Team → Team) : (s.updTeam t f).accepting = s.accepting := rfl
@[simp] theorem State.updTeam_frontFatal (s : State) (t : Nat) (f : Team → Team) : (s.updTeam t f).frontFatal = s.frontFatal := rfl
@[simp] theorem State.updTeam_tasks (s : State) (t : Nat) (f : Team → Team) : (s.updTeam t f).tasks = s.tasks := rfl
@[simp] theorem State.updTeam_tasksDue (s : State) (t : Nat) (f : Team → Team) : (s.updTeam t f).tasksDue = s.tasksDue := rfl
@[simp] theorem State.updTeam_robin (s : State) (t : Nat) (f : Team → Team) : (s.updTeam t f).robin = s.robin := rfl
@[simp] theorem State.updTeam_spent (s : State) (t : Nat) (f : Team → Team) : (s.updTeam t f).spent = s.spent := rfl
@[simp] theorem State.updTeam_exits (s : State) (t : Nat) (f : Team → Team) : (s.updTeam t f).exits = s.exits := rfl
@[simp] theorem State.updTeam_entries (s : State) (t : Nat) (f : Team → Team) : (s.updTeam t f).entries = s.entries := rfl
@[simp] theorem State.updTeam_dead (s : State) (t : Nat) (f : Team → Team) : (s.updTeam t f).dead = s.dead := rfl
@[simp] theorem State.updTeam_msix (s : State) (t : Nat) (f : Team → Team) : (s.updTeam t f).msix = s.msix := rfl
@[simp] theorem State.updTeam_sent (s : State) (t : Nat) (f : Team → Team) : (s.updTeam t f).sent = s.sent := rfl
@[simp] theorem State.updTeam_failing (s : State) (t : Nat) (f : Team → Team) : (s.updTeam t f).failing = s.failing := rfl
@[simp] theorem State.updTeam_retiring (s : State) (t : Nat) (f : Team → Team) : (s.updTeam t f).retiring = s.retiring := rfl
@[simp] theorem State.updTeam_errs (s : State) (t : Nat) (f : Team → Team) : (s.updTeam t f).errs = s.errs := rfl
@[simp] theorem State.updTeam_fixed (s : State) (t : Nat) (f : Team → Team) : (s.updTeam t f).fixed = s.fixed := rfl
@[simp] theorem State.updTeam_healthAt (s : State) (t : Nat) (f : Team → Team) : (s.updTeam t f).healthAt = s.healthAt := rfl
@[simp] theorem State.updTeam_linkPort (s : State) (t : Nat) (f : Team → Team) : (s.updTeam t f).linkPort = s.linkPort := rfl
@[simp] theorem State.updTeam_narrowed (s : State) (t : Nat) (f : Team → Team) : (s.updTeam t f).narrowed = s.narrowed := rfl
@[simp] theorem State.updTeam_hostLinks (s : State) (t : Nat) (f : Team → Team) : (s.updTeam t f).hostLinks = s.hostLinks := rfl
@[simp] theorem State.updTeam_homeTbl (s : State) (t : Nat) (f : Team → Team) : (s.updTeam t f).homeTbl = s.homeTbl := rfl
@[simp] theorem State.updTeam_dlTbl (s : State) (t : Nat) (f : Team → Team) : (s.updTeam t f).dlTbl = s.dlTbl := rfl
@[simp] theorem State.updTeam_counted (s : State) (t : Nat) (f : Team → Team) : (s.updTeam t f).counted = s.counted := rfl
@[simp] theorem State.updTeam_mrs (s : State) (t : Nat) (f : Team → Team) : (s.updTeam t f).mrs = s.mrs := rfl
@[simp] theorem State.updTeam_inReset (s : State) (t : Nat) (f : Team → Team) : (s.updTeam t f).inReset = s.inReset := rfl
@[simp] theorem State.updTeam_regs (s : State) (t : Nat) (f : Team → Team) : (s.updTeam t f).regs = s.regs := rfl

@[simp] theorem State.setReg_cur (s : State) (o v : Nat) : (s.setReg o v).cur = s.cur := rfl
@[simp] theorem State.setReg_clock (s : State) (o v : Nat) : (s.setReg o v).clock = s.clock := rfl
@[simp] theorem State.setReg_fresh (s : State) (o v : Nat) : (s.setReg o v).fresh = s.fresh := rfl
@[simp] theorem State.setReg_nextId (s : State) (o v : Nat) : (s.setReg o v).nextId = s.nextId := rfl
@[simp] theorem State.setReg_schedule (s : State) (o v : Nat) : (s.setReg o v).schedule = s.schedule := rfl
@[simp] theorem State.setReg_answer (s : State) (o v : Nat) : (s.setReg o v).answer = s.answer := rfl
@[simp] theorem State.setReg_teams (s : State) (o v : Nat) : (s.setReg o v).teams = s.teams := rfl
@[simp] theorem State.setReg_clusters (s : State) (o v : Nat) : (s.setReg o v).clusters = s.clusters := rfl
@[simp] theorem State.setReg_launches (s : State) (o v : Nat) : (s.setReg o v).launches = s.launches := rfl
@[simp] theorem State.setReg_cores (s : State) (o v : Nat) : (s.setReg o v).cores = s.cores := rfl
@[simp] theorem State.setReg_slices (s : State) (o v : Nat) : (s.setReg o v).slices = s.slices := rfl
@[simp] theorem State.setReg_routers (s : State) (o v : Nat) : (s.setReg o v).routers = s.routers := rfl
@[simp] theorem State.setReg_lantern (s : State) (o v : Nat) : (s.setReg o v).lantern = s.lantern := rfl
@[simp] theorem State.setReg_packets (s : State) (o v : Nat) : (s.setReg o v).packets = s.packets := rfl
@[simp] theorem State.setReg_seqs (s : State) (o v : Nat) : (s.setReg o v).seqs = s.seqs := rfl
@[simp] theorem State.setReg_hbm (s : State) (o v : Nat) : (s.setReg o v).hbm = s.hbm := rfl
@[simp] theorem State.setReg_hbmKey (s : State) (o v : Nat) : (s.setReg o v).hbmKey = s.hbmKey := rfl
@[simp] theorem State.setReg_hbmPois (s : State) (o v : Nat) : (s.setReg o v).hbmPois = s.hbmPois := rfl
@[simp] theorem State.setReg_hbmErr (s : State) (o v : Nat) : (s.setReg o v).hbmErr = s.hbmErr := rfl
@[simp] theorem State.setReg_late (s : State) (o v : Nat) : (s.setReg o v).late = s.late := rfl
@[simp] theorem State.setReg_hostMem (s : State) (o v : Nat) : (s.setReg o v).hostMem = s.hostMem := rfl
@[simp] theorem State.setReg_hostBad (s : State) (o v : Nat) : (s.setReg o v).hostBad = s.hostBad := rfl
@[simp] theorem State.setReg_granary (s : State) (o v : Nat) : (s.setReg o v).granary = s.granary := rfl
@[simp] theorem State.setReg_granPois (s : State) (o v : Nat) : (s.setReg o v).granPois = s.granPois := rfl
@[simp] theorem State.setReg_granFlags (s : State) (o v : Nat) : (s.setReg o v).granFlags = s.granFlags := rfl
@[simp] theorem State.setReg_keys (s : State) (o v : Nat) : (s.setReg o v).keys = s.keys := rfl
@[simp] theorem State.setReg_tlb (s : State) (o v : Nat) : (s.setReg o v).tlb = s.tlb := rfl
@[simp] theorem State.setReg_faults (s : State) (o v : Nat) : (s.setReg o v).faults = s.faults := rfl
@[simp] theorem State.setReg_inval (s : State) (o v : Nat) : (s.setReg o v).inval = s.inval := rfl
@[simp] theorem State.setReg_cmds (s : State) (o v : Nat) : (s.setReg o v).cmds = s.cmds := rfl
@[simp] theorem State.setReg_acceptedCmds (s : State) (o v : Nat) : (s.setReg o v).acceptedCmds = s.acceptedCmds := rfl
@[simp] theorem State.setReg_commNth (s : State) (o v : Nat) : (s.setReg o v).commNth = s.commNth := rfl
@[simp] theorem State.setReg_peers (s : State) (o v : Nat) : (s.setReg o v).peers = s.peers := rfl
@[simp] theorem State.setReg_buckets (s : State) (o v : Nat) : (s.setReg o v).buckets = s.buckets := rfl
@[simp] theorem State.setReg_queues (s : State) (o v : Nat) : (s.setReg o v).queues = s.queues := rfl
@[simp] theorem State.setReg_gathers (s : State) (o v : Nat) : (s.setReg o v).gathers = s.gathers := rfl
@[simp] theorem State.setReg_accepting (s : State) (o v : Nat) : (s.setReg o v).accepting = s.accepting := rfl
@[simp] theorem State.setReg_frontFatal (s : State) (o v : Nat) : (s.setReg o v).frontFatal = s.frontFatal := rfl
@[simp] theorem State.setReg_tasks (s : State) (o v : Nat) : (s.setReg o v).tasks = s.tasks := rfl
@[simp] theorem State.setReg_tasksDue (s : State) (o v : Nat) : (s.setReg o v).tasksDue = s.tasksDue := rfl
@[simp] theorem State.setReg_robin (s : State) (o v : Nat) : (s.setReg o v).robin = s.robin := rfl
@[simp] theorem State.setReg_spent (s : State) (o v : Nat) : (s.setReg o v).spent = s.spent := rfl
@[simp] theorem State.setReg_exits (s : State) (o v : Nat) : (s.setReg o v).exits = s.exits := rfl
@[simp] theorem State.setReg_entries (s : State) (o v : Nat) : (s.setReg o v).entries = s.entries := rfl
@[simp] theorem State.setReg_dead (s : State) (o v : Nat) : (s.setReg o v).dead = s.dead := rfl
@[simp] theorem State.setReg_msix (s : State) (o v : Nat) : (s.setReg o v).msix = s.msix := rfl
@[simp] theorem State.setReg_sent (s : State) (o v : Nat) : (s.setReg o v).sent = s.sent := rfl
@[simp] theorem State.setReg_failing (s : State) (o v : Nat) : (s.setReg o v).failing = s.failing := rfl
@[simp] theorem State.setReg_retiring (s : State) (o v : Nat) : (s.setReg o v).retiring = s.retiring := rfl
@[simp] theorem State.setReg_errs (s : State) (o v : Nat) : (s.setReg o v).errs = s.errs := rfl
@[simp] theorem State.setReg_fixed (s : State) (o v : Nat) : (s.setReg o v).fixed = s.fixed := rfl
@[simp] theorem State.setReg_healthAt (s : State) (o v : Nat) : (s.setReg o v).healthAt = s.healthAt := rfl
@[simp] theorem State.setReg_linkPort (s : State) (o v : Nat) : (s.setReg o v).linkPort = s.linkPort := rfl
@[simp] theorem State.setReg_narrowed (s : State) (o v : Nat) : (s.setReg o v).narrowed = s.narrowed := rfl
@[simp] theorem State.setReg_hostLinks (s : State) (o v : Nat) : (s.setReg o v).hostLinks = s.hostLinks := rfl
@[simp] theorem State.setReg_homeTbl (s : State) (o v : Nat) : (s.setReg o v).homeTbl = s.homeTbl := rfl
@[simp] theorem State.setReg_dlTbl (s : State) (o v : Nat) : (s.setReg o v).dlTbl = s.dlTbl := rfl
@[simp] theorem State.setReg_counted (s : State) (o v : Nat) : (s.setReg o v).counted = s.counted := rfl
@[simp] theorem State.setReg_mrs (s : State) (o v : Nat) : (s.setReg o v).mrs = s.mrs := rfl
@[simp] theorem State.setReg_inReset (s : State) (o v : Nat) : (s.setReg o v).inReset = s.inReset := rfl

@[simp] theorem State.setCore_cur (s : State) (c : Nat) (x : Core) : (s.setCore c x).cur = s.cur := rfl
@[simp] theorem State.setCore_clock (s : State) (c : Nat) (x : Core) : (s.setCore c x).clock = s.clock := rfl
@[simp] theorem State.setCore_fresh (s : State) (c : Nat) (x : Core) : (s.setCore c x).fresh = s.fresh := rfl
@[simp] theorem State.setCore_nextId (s : State) (c : Nat) (x : Core) : (s.setCore c x).nextId = s.nextId := rfl
@[simp] theorem State.setCore_schedule (s : State) (c : Nat) (x : Core) : (s.setCore c x).schedule = s.schedule := rfl
@[simp] theorem State.setCore_answer (s : State) (c : Nat) (x : Core) : (s.setCore c x).answer = s.answer := rfl
@[simp] theorem State.setCore_teams (s : State) (c : Nat) (x : Core) : (s.setCore c x).teams = s.teams := rfl
@[simp] theorem State.setCore_clusters (s : State) (c : Nat) (x : Core) : (s.setCore c x).clusters = s.clusters := rfl
@[simp] theorem State.setCore_launches (s : State) (c : Nat) (x : Core) : (s.setCore c x).launches = s.launches := rfl
@[simp] theorem State.setCore_slices (s : State) (c : Nat) (x : Core) : (s.setCore c x).slices = s.slices := rfl
@[simp] theorem State.setCore_routers (s : State) (c : Nat) (x : Core) : (s.setCore c x).routers = s.routers := rfl
@[simp] theorem State.setCore_lantern (s : State) (c : Nat) (x : Core) : (s.setCore c x).lantern = s.lantern := rfl
@[simp] theorem State.setCore_packets (s : State) (c : Nat) (x : Core) : (s.setCore c x).packets = s.packets := rfl
@[simp] theorem State.setCore_seqs (s : State) (c : Nat) (x : Core) : (s.setCore c x).seqs = s.seqs := rfl
@[simp] theorem State.setCore_hbm (s : State) (c : Nat) (x : Core) : (s.setCore c x).hbm = s.hbm := rfl
@[simp] theorem State.setCore_hbmKey (s : State) (c : Nat) (x : Core) : (s.setCore c x).hbmKey = s.hbmKey := rfl
@[simp] theorem State.setCore_hbmPois (s : State) (c : Nat) (x : Core) : (s.setCore c x).hbmPois = s.hbmPois := rfl
@[simp] theorem State.setCore_hbmErr (s : State) (c : Nat) (x : Core) : (s.setCore c x).hbmErr = s.hbmErr := rfl
@[simp] theorem State.setCore_late (s : State) (c : Nat) (x : Core) : (s.setCore c x).late = s.late := rfl
@[simp] theorem State.setCore_hostMem (s : State) (c : Nat) (x : Core) : (s.setCore c x).hostMem = s.hostMem := rfl
@[simp] theorem State.setCore_hostBad (s : State) (c : Nat) (x : Core) : (s.setCore c x).hostBad = s.hostBad := rfl
@[simp] theorem State.setCore_granary (s : State) (c : Nat) (x : Core) : (s.setCore c x).granary = s.granary := rfl
@[simp] theorem State.setCore_granPois (s : State) (c : Nat) (x : Core) : (s.setCore c x).granPois = s.granPois := rfl
@[simp] theorem State.setCore_granFlags (s : State) (c : Nat) (x : Core) : (s.setCore c x).granFlags = s.granFlags := rfl
@[simp] theorem State.setCore_keys (s : State) (c : Nat) (x : Core) : (s.setCore c x).keys = s.keys := rfl
@[simp] theorem State.setCore_tlb (s : State) (c : Nat) (x : Core) : (s.setCore c x).tlb = s.tlb := rfl
@[simp] theorem State.setCore_faults (s : State) (c : Nat) (x : Core) : (s.setCore c x).faults = s.faults := rfl
@[simp] theorem State.setCore_inval (s : State) (c : Nat) (x : Core) : (s.setCore c x).inval = s.inval := rfl
@[simp] theorem State.setCore_cmds (s : State) (c : Nat) (x : Core) : (s.setCore c x).cmds = s.cmds := rfl
@[simp] theorem State.setCore_acceptedCmds (s : State) (c : Nat) (x : Core) : (s.setCore c x).acceptedCmds = s.acceptedCmds := rfl
@[simp] theorem State.setCore_commNth (s : State) (c : Nat) (x : Core) : (s.setCore c x).commNth = s.commNth := rfl
@[simp] theorem State.setCore_peers (s : State) (c : Nat) (x : Core) : (s.setCore c x).peers = s.peers := rfl
@[simp] theorem State.setCore_buckets (s : State) (c : Nat) (x : Core) : (s.setCore c x).buckets = s.buckets := rfl
@[simp] theorem State.setCore_queues (s : State) (c : Nat) (x : Core) : (s.setCore c x).queues = s.queues := rfl
@[simp] theorem State.setCore_gathers (s : State) (c : Nat) (x : Core) : (s.setCore c x).gathers = s.gathers := rfl
@[simp] theorem State.setCore_accepting (s : State) (c : Nat) (x : Core) : (s.setCore c x).accepting = s.accepting := rfl
@[simp] theorem State.setCore_frontFatal (s : State) (c : Nat) (x : Core) : (s.setCore c x).frontFatal = s.frontFatal := rfl
@[simp] theorem State.setCore_tasks (s : State) (c : Nat) (x : Core) : (s.setCore c x).tasks = s.tasks := rfl
@[simp] theorem State.setCore_tasksDue (s : State) (c : Nat) (x : Core) : (s.setCore c x).tasksDue = s.tasksDue := rfl
@[simp] theorem State.setCore_robin (s : State) (c : Nat) (x : Core) : (s.setCore c x).robin = s.robin := rfl
@[simp] theorem State.setCore_spent (s : State) (c : Nat) (x : Core) : (s.setCore c x).spent = s.spent := rfl
@[simp] theorem State.setCore_exits (s : State) (c : Nat) (x : Core) : (s.setCore c x).exits = s.exits := rfl
@[simp] theorem State.setCore_entries (s : State) (c : Nat) (x : Core) : (s.setCore c x).entries = s.entries := rfl
@[simp] theorem State.setCore_dead (s : State) (c : Nat) (x : Core) : (s.setCore c x).dead = s.dead := rfl
@[simp] theorem State.setCore_msix (s : State) (c : Nat) (x : Core) : (s.setCore c x).msix = s.msix := rfl
@[simp] theorem State.setCore_sent (s : State) (c : Nat) (x : Core) : (s.setCore c x).sent = s.sent := rfl
@[simp] theorem State.setCore_failing (s : State) (c : Nat) (x : Core) : (s.setCore c x).failing = s.failing := rfl
@[simp] theorem State.setCore_retiring (s : State) (c : Nat) (x : Core) : (s.setCore c x).retiring = s.retiring := rfl
@[simp] theorem State.setCore_errs (s : State) (c : Nat) (x : Core) : (s.setCore c x).errs = s.errs := rfl
@[simp] theorem State.setCore_fixed (s : State) (c : Nat) (x : Core) : (s.setCore c x).fixed = s.fixed := rfl
@[simp] theorem State.setCore_healthAt (s : State) (c : Nat) (x : Core) : (s.setCore c x).healthAt = s.healthAt := rfl
@[simp] theorem State.setCore_linkPort (s : State) (c : Nat) (x : Core) : (s.setCore c x).linkPort = s.linkPort := rfl
@[simp] theorem State.setCore_narrowed (s : State) (c : Nat) (x : Core) : (s.setCore c x).narrowed = s.narrowed := rfl
@[simp] theorem State.setCore_hostLinks (s : State) (c : Nat) (x : Core) : (s.setCore c x).hostLinks = s.hostLinks := rfl
@[simp] theorem State.setCore_homeTbl (s : State) (c : Nat) (x : Core) : (s.setCore c x).homeTbl = s.homeTbl := rfl
@[simp] theorem State.setCore_dlTbl (s : State) (c : Nat) (x : Core) : (s.setCore c x).dlTbl = s.dlTbl := rfl
@[simp] theorem State.setCore_counted (s : State) (c : Nat) (x : Core) : (s.setCore c x).counted = s.counted := rfl
@[simp] theorem State.setCore_mrs (s : State) (c : Nat) (x : Core) : (s.setCore c x).mrs = s.mrs := rfl
@[simp] theorem State.setCore_inReset (s : State) (c : Nat) (x : Core) : (s.setCore c x).inReset = s.inReset := rfl
@[simp] theorem State.setCore_regs (s : State) (c : Nat) (x : Core) : (s.setCore c x).regs = s.regs := rfl

@[simp] theorem State.updCore_cur (s : State) (c : Nat) (f : Core → Core) : (s.updCore c f).cur = s.cur := rfl
@[simp] theorem State.updCore_clock (s : State) (c : Nat) (f : Core → Core) : (s.updCore c f).clock = s.clock := rfl
@[simp] theorem State.updCore_fresh (s : State) (c : Nat) (f : Core → Core) : (s.updCore c f).fresh = s.fresh := rfl
@[simp] theorem State.updCore_nextId (s : State) (c : Nat) (f : Core → Core) : (s.updCore c f).nextId = s.nextId := rfl
@[simp] theorem State.updCore_schedule (s : State) (c : Nat) (f : Core → Core) : (s.updCore c f).schedule = s.schedule := rfl
@[simp] theorem State.updCore_answer (s : State) (c : Nat) (f : Core → Core) : (s.updCore c f).answer = s.answer := rfl
@[simp] theorem State.updCore_teams (s : State) (c : Nat) (f : Core → Core) : (s.updCore c f).teams = s.teams := rfl
@[simp] theorem State.updCore_clusters (s : State) (c : Nat) (f : Core → Core) : (s.updCore c f).clusters = s.clusters := rfl
@[simp] theorem State.updCore_launches (s : State) (c : Nat) (f : Core → Core) : (s.updCore c f).launches = s.launches := rfl
@[simp] theorem State.updCore_slices (s : State) (c : Nat) (f : Core → Core) : (s.updCore c f).slices = s.slices := rfl
@[simp] theorem State.updCore_routers (s : State) (c : Nat) (f : Core → Core) : (s.updCore c f).routers = s.routers := rfl
@[simp] theorem State.updCore_lantern (s : State) (c : Nat) (f : Core → Core) : (s.updCore c f).lantern = s.lantern := rfl
@[simp] theorem State.updCore_packets (s : State) (c : Nat) (f : Core → Core) : (s.updCore c f).packets = s.packets := rfl
@[simp] theorem State.updCore_seqs (s : State) (c : Nat) (f : Core → Core) : (s.updCore c f).seqs = s.seqs := rfl
@[simp] theorem State.updCore_hbm (s : State) (c : Nat) (f : Core → Core) : (s.updCore c f).hbm = s.hbm := rfl
@[simp] theorem State.updCore_hbmKey (s : State) (c : Nat) (f : Core → Core) : (s.updCore c f).hbmKey = s.hbmKey := rfl
@[simp] theorem State.updCore_hbmPois (s : State) (c : Nat) (f : Core → Core) : (s.updCore c f).hbmPois = s.hbmPois := rfl
@[simp] theorem State.updCore_hbmErr (s : State) (c : Nat) (f : Core → Core) : (s.updCore c f).hbmErr = s.hbmErr := rfl
@[simp] theorem State.updCore_late (s : State) (c : Nat) (f : Core → Core) : (s.updCore c f).late = s.late := rfl
@[simp] theorem State.updCore_hostMem (s : State) (c : Nat) (f : Core → Core) : (s.updCore c f).hostMem = s.hostMem := rfl
@[simp] theorem State.updCore_hostBad (s : State) (c : Nat) (f : Core → Core) : (s.updCore c f).hostBad = s.hostBad := rfl
@[simp] theorem State.updCore_granary (s : State) (c : Nat) (f : Core → Core) : (s.updCore c f).granary = s.granary := rfl
@[simp] theorem State.updCore_granPois (s : State) (c : Nat) (f : Core → Core) : (s.updCore c f).granPois = s.granPois := rfl
@[simp] theorem State.updCore_granFlags (s : State) (c : Nat) (f : Core → Core) : (s.updCore c f).granFlags = s.granFlags := rfl
@[simp] theorem State.updCore_keys (s : State) (c : Nat) (f : Core → Core) : (s.updCore c f).keys = s.keys := rfl
@[simp] theorem State.updCore_tlb (s : State) (c : Nat) (f : Core → Core) : (s.updCore c f).tlb = s.tlb := rfl
@[simp] theorem State.updCore_faults (s : State) (c : Nat) (f : Core → Core) : (s.updCore c f).faults = s.faults := rfl
@[simp] theorem State.updCore_inval (s : State) (c : Nat) (f : Core → Core) : (s.updCore c f).inval = s.inval := rfl
@[simp] theorem State.updCore_cmds (s : State) (c : Nat) (f : Core → Core) : (s.updCore c f).cmds = s.cmds := rfl
@[simp] theorem State.updCore_acceptedCmds (s : State) (c : Nat) (f : Core → Core) : (s.updCore c f).acceptedCmds = s.acceptedCmds := rfl
@[simp] theorem State.updCore_commNth (s : State) (c : Nat) (f : Core → Core) : (s.updCore c f).commNth = s.commNth := rfl
@[simp] theorem State.updCore_peers (s : State) (c : Nat) (f : Core → Core) : (s.updCore c f).peers = s.peers := rfl
@[simp] theorem State.updCore_buckets (s : State) (c : Nat) (f : Core → Core) : (s.updCore c f).buckets = s.buckets := rfl
@[simp] theorem State.updCore_queues (s : State) (c : Nat) (f : Core → Core) : (s.updCore c f).queues = s.queues := rfl
@[simp] theorem State.updCore_gathers (s : State) (c : Nat) (f : Core → Core) : (s.updCore c f).gathers = s.gathers := rfl
@[simp] theorem State.updCore_accepting (s : State) (c : Nat) (f : Core → Core) : (s.updCore c f).accepting = s.accepting := rfl
@[simp] theorem State.updCore_frontFatal (s : State) (c : Nat) (f : Core → Core) : (s.updCore c f).frontFatal = s.frontFatal := rfl
@[simp] theorem State.updCore_tasks (s : State) (c : Nat) (f : Core → Core) : (s.updCore c f).tasks = s.tasks := rfl
@[simp] theorem State.updCore_tasksDue (s : State) (c : Nat) (f : Core → Core) : (s.updCore c f).tasksDue = s.tasksDue := rfl
@[simp] theorem State.updCore_robin (s : State) (c : Nat) (f : Core → Core) : (s.updCore c f).robin = s.robin := rfl
@[simp] theorem State.updCore_spent (s : State) (c : Nat) (f : Core → Core) : (s.updCore c f).spent = s.spent := rfl
@[simp] theorem State.updCore_exits (s : State) (c : Nat) (f : Core → Core) : (s.updCore c f).exits = s.exits := rfl
@[simp] theorem State.updCore_entries (s : State) (c : Nat) (f : Core → Core) : (s.updCore c f).entries = s.entries := rfl
@[simp] theorem State.updCore_dead (s : State) (c : Nat) (f : Core → Core) : (s.updCore c f).dead = s.dead := rfl
@[simp] theorem State.updCore_msix (s : State) (c : Nat) (f : Core → Core) : (s.updCore c f).msix = s.msix := rfl
@[simp] theorem State.updCore_sent (s : State) (c : Nat) (f : Core → Core) : (s.updCore c f).sent = s.sent := rfl
@[simp] theorem State.updCore_failing (s : State) (c : Nat) (f : Core → Core) : (s.updCore c f).failing = s.failing := rfl
@[simp] theorem State.updCore_retiring (s : State) (c : Nat) (f : Core → Core) : (s.updCore c f).retiring = s.retiring := rfl
@[simp] theorem State.updCore_errs (s : State) (c : Nat) (f : Core → Core) : (s.updCore c f).errs = s.errs := rfl
@[simp] theorem State.updCore_fixed (s : State) (c : Nat) (f : Core → Core) : (s.updCore c f).fixed = s.fixed := rfl
@[simp] theorem State.updCore_healthAt (s : State) (c : Nat) (f : Core → Core) : (s.updCore c f).healthAt = s.healthAt := rfl
@[simp] theorem State.updCore_linkPort (s : State) (c : Nat) (f : Core → Core) : (s.updCore c f).linkPort = s.linkPort := rfl
@[simp] theorem State.updCore_narrowed (s : State) (c : Nat) (f : Core → Core) : (s.updCore c f).narrowed = s.narrowed := rfl
@[simp] theorem State.updCore_hostLinks (s : State) (c : Nat) (f : Core → Core) : (s.updCore c f).hostLinks = s.hostLinks := rfl
@[simp] theorem State.updCore_homeTbl (s : State) (c : Nat) (f : Core → Core) : (s.updCore c f).homeTbl = s.homeTbl := rfl
@[simp] theorem State.updCore_dlTbl (s : State) (c : Nat) (f : Core → Core) : (s.updCore c f).dlTbl = s.dlTbl := rfl
@[simp] theorem State.updCore_counted (s : State) (c : Nat) (f : Core → Core) : (s.updCore c f).counted = s.counted := rfl
@[simp] theorem State.updCore_mrs (s : State) (c : Nat) (f : Core → Core) : (s.updCore c f).mrs = s.mrs := rfl
@[simp] theorem State.updCore_inReset (s : State) (c : Nat) (f : Core → Core) : (s.updCore c f).inReset = s.inReset := rfl
@[simp] theorem State.updCore_regs (s : State) (c : Nat) (f : Core → Core) : (s.updCore c f).regs = s.regs := rfl

@[simp] theorem State.setSlice_cur (s : State) (i : Nat) (x : Slice) : (s.setSlice i x).cur = s.cur := rfl
@[simp] theorem State.setSlice_clock (s : State) (i : Nat) (x : Slice) : (s.setSlice i x).clock = s.clock := rfl
@[simp] theorem State.setSlice_fresh (s : State) (i : Nat) (x : Slice) : (s.setSlice i x).fresh = s.fresh := rfl
@[simp] theorem State.setSlice_nextId (s : State) (i : Nat) (x : Slice) : (s.setSlice i x).nextId = s.nextId := rfl
@[simp] theorem State.setSlice_schedule (s : State) (i : Nat) (x : Slice) : (s.setSlice i x).schedule = s.schedule := rfl
@[simp] theorem State.setSlice_answer (s : State) (i : Nat) (x : Slice) : (s.setSlice i x).answer = s.answer := rfl
@[simp] theorem State.setSlice_teams (s : State) (i : Nat) (x : Slice) : (s.setSlice i x).teams = s.teams := rfl
@[simp] theorem State.setSlice_clusters (s : State) (i : Nat) (x : Slice) : (s.setSlice i x).clusters = s.clusters := rfl
@[simp] theorem State.setSlice_launches (s : State) (i : Nat) (x : Slice) : (s.setSlice i x).launches = s.launches := rfl
@[simp] theorem State.setSlice_cores (s : State) (i : Nat) (x : Slice) : (s.setSlice i x).cores = s.cores := rfl
@[simp] theorem State.setSlice_routers (s : State) (i : Nat) (x : Slice) : (s.setSlice i x).routers = s.routers := rfl
@[simp] theorem State.setSlice_lantern (s : State) (i : Nat) (x : Slice) : (s.setSlice i x).lantern = s.lantern := rfl
@[simp] theorem State.setSlice_packets (s : State) (i : Nat) (x : Slice) : (s.setSlice i x).packets = s.packets := rfl
@[simp] theorem State.setSlice_seqs (s : State) (i : Nat) (x : Slice) : (s.setSlice i x).seqs = s.seqs := rfl
@[simp] theorem State.setSlice_hbm (s : State) (i : Nat) (x : Slice) : (s.setSlice i x).hbm = s.hbm := rfl
@[simp] theorem State.setSlice_hbmKey (s : State) (i : Nat) (x : Slice) : (s.setSlice i x).hbmKey = s.hbmKey := rfl
@[simp] theorem State.setSlice_hbmPois (s : State) (i : Nat) (x : Slice) : (s.setSlice i x).hbmPois = s.hbmPois := rfl
@[simp] theorem State.setSlice_hbmErr (s : State) (i : Nat) (x : Slice) : (s.setSlice i x).hbmErr = s.hbmErr := rfl
@[simp] theorem State.setSlice_late (s : State) (i : Nat) (x : Slice) : (s.setSlice i x).late = s.late := rfl
@[simp] theorem State.setSlice_hostMem (s : State) (i : Nat) (x : Slice) : (s.setSlice i x).hostMem = s.hostMem := rfl
@[simp] theorem State.setSlice_hostBad (s : State) (i : Nat) (x : Slice) : (s.setSlice i x).hostBad = s.hostBad := rfl
@[simp] theorem State.setSlice_granary (s : State) (i : Nat) (x : Slice) : (s.setSlice i x).granary = s.granary := rfl
@[simp] theorem State.setSlice_granPois (s : State) (i : Nat) (x : Slice) : (s.setSlice i x).granPois = s.granPois := rfl
@[simp] theorem State.setSlice_granFlags (s : State) (i : Nat) (x : Slice) : (s.setSlice i x).granFlags = s.granFlags := rfl
@[simp] theorem State.setSlice_keys (s : State) (i : Nat) (x : Slice) : (s.setSlice i x).keys = s.keys := rfl
@[simp] theorem State.setSlice_tlb (s : State) (i : Nat) (x : Slice) : (s.setSlice i x).tlb = s.tlb := rfl
@[simp] theorem State.setSlice_faults (s : State) (i : Nat) (x : Slice) : (s.setSlice i x).faults = s.faults := rfl
@[simp] theorem State.setSlice_inval (s : State) (i : Nat) (x : Slice) : (s.setSlice i x).inval = s.inval := rfl
@[simp] theorem State.setSlice_cmds (s : State) (i : Nat) (x : Slice) : (s.setSlice i x).cmds = s.cmds := rfl
@[simp] theorem State.setSlice_acceptedCmds (s : State) (i : Nat) (x : Slice) : (s.setSlice i x).acceptedCmds = s.acceptedCmds := rfl
@[simp] theorem State.setSlice_commNth (s : State) (i : Nat) (x : Slice) : (s.setSlice i x).commNth = s.commNth := rfl
@[simp] theorem State.setSlice_peers (s : State) (i : Nat) (x : Slice) : (s.setSlice i x).peers = s.peers := rfl
@[simp] theorem State.setSlice_buckets (s : State) (i : Nat) (x : Slice) : (s.setSlice i x).buckets = s.buckets := rfl
@[simp] theorem State.setSlice_queues (s : State) (i : Nat) (x : Slice) : (s.setSlice i x).queues = s.queues := rfl
@[simp] theorem State.setSlice_gathers (s : State) (i : Nat) (x : Slice) : (s.setSlice i x).gathers = s.gathers := rfl
@[simp] theorem State.setSlice_accepting (s : State) (i : Nat) (x : Slice) : (s.setSlice i x).accepting = s.accepting := rfl
@[simp] theorem State.setSlice_frontFatal (s : State) (i : Nat) (x : Slice) : (s.setSlice i x).frontFatal = s.frontFatal := rfl
@[simp] theorem State.setSlice_tasks (s : State) (i : Nat) (x : Slice) : (s.setSlice i x).tasks = s.tasks := rfl
@[simp] theorem State.setSlice_tasksDue (s : State) (i : Nat) (x : Slice) : (s.setSlice i x).tasksDue = s.tasksDue := rfl
@[simp] theorem State.setSlice_robin (s : State) (i : Nat) (x : Slice) : (s.setSlice i x).robin = s.robin := rfl
@[simp] theorem State.setSlice_spent (s : State) (i : Nat) (x : Slice) : (s.setSlice i x).spent = s.spent := rfl
@[simp] theorem State.setSlice_exits (s : State) (i : Nat) (x : Slice) : (s.setSlice i x).exits = s.exits := rfl
@[simp] theorem State.setSlice_entries (s : State) (i : Nat) (x : Slice) : (s.setSlice i x).entries = s.entries := rfl
@[simp] theorem State.setSlice_dead (s : State) (i : Nat) (x : Slice) : (s.setSlice i x).dead = s.dead := rfl
@[simp] theorem State.setSlice_msix (s : State) (i : Nat) (x : Slice) : (s.setSlice i x).msix = s.msix := rfl
@[simp] theorem State.setSlice_sent (s : State) (i : Nat) (x : Slice) : (s.setSlice i x).sent = s.sent := rfl
@[simp] theorem State.setSlice_failing (s : State) (i : Nat) (x : Slice) : (s.setSlice i x).failing = s.failing := rfl
@[simp] theorem State.setSlice_retiring (s : State) (i : Nat) (x : Slice) : (s.setSlice i x).retiring = s.retiring := rfl
@[simp] theorem State.setSlice_errs (s : State) (i : Nat) (x : Slice) : (s.setSlice i x).errs = s.errs := rfl
@[simp] theorem State.setSlice_fixed (s : State) (i : Nat) (x : Slice) : (s.setSlice i x).fixed = s.fixed := rfl
@[simp] theorem State.setSlice_healthAt (s : State) (i : Nat) (x : Slice) : (s.setSlice i x).healthAt = s.healthAt := rfl
@[simp] theorem State.setSlice_linkPort (s : State) (i : Nat) (x : Slice) : (s.setSlice i x).linkPort = s.linkPort := rfl
@[simp] theorem State.setSlice_narrowed (s : State) (i : Nat) (x : Slice) : (s.setSlice i x).narrowed = s.narrowed := rfl
@[simp] theorem State.setSlice_hostLinks (s : State) (i : Nat) (x : Slice) : (s.setSlice i x).hostLinks = s.hostLinks := rfl
@[simp] theorem State.setSlice_homeTbl (s : State) (i : Nat) (x : Slice) : (s.setSlice i x).homeTbl = s.homeTbl := rfl
@[simp] theorem State.setSlice_dlTbl (s : State) (i : Nat) (x : Slice) : (s.setSlice i x).dlTbl = s.dlTbl := rfl
@[simp] theorem State.setSlice_counted (s : State) (i : Nat) (x : Slice) : (s.setSlice i x).counted = s.counted := rfl
@[simp] theorem State.setSlice_mrs (s : State) (i : Nat) (x : Slice) : (s.setSlice i x).mrs = s.mrs := rfl
@[simp] theorem State.setSlice_inReset (s : State) (i : Nat) (x : Slice) : (s.setSlice i x).inReset = s.inReset := rfl
@[simp] theorem State.setSlice_regs (s : State) (i : Nat) (x : Slice) : (s.setSlice i x).regs = s.regs := rfl

@[simp] theorem State.updSlice_cur (s : State) (i : Nat) (f : Slice → Slice) : (s.updSlice i f).cur = s.cur := rfl
@[simp] theorem State.updSlice_clock (s : State) (i : Nat) (f : Slice → Slice) : (s.updSlice i f).clock = s.clock := rfl
@[simp] theorem State.updSlice_fresh (s : State) (i : Nat) (f : Slice → Slice) : (s.updSlice i f).fresh = s.fresh := rfl
@[simp] theorem State.updSlice_nextId (s : State) (i : Nat) (f : Slice → Slice) : (s.updSlice i f).nextId = s.nextId := rfl
@[simp] theorem State.updSlice_schedule (s : State) (i : Nat) (f : Slice → Slice) : (s.updSlice i f).schedule = s.schedule := rfl
@[simp] theorem State.updSlice_answer (s : State) (i : Nat) (f : Slice → Slice) : (s.updSlice i f).answer = s.answer := rfl
@[simp] theorem State.updSlice_teams (s : State) (i : Nat) (f : Slice → Slice) : (s.updSlice i f).teams = s.teams := rfl
@[simp] theorem State.updSlice_clusters (s : State) (i : Nat) (f : Slice → Slice) : (s.updSlice i f).clusters = s.clusters := rfl
@[simp] theorem State.updSlice_launches (s : State) (i : Nat) (f : Slice → Slice) : (s.updSlice i f).launches = s.launches := rfl
@[simp] theorem State.updSlice_cores (s : State) (i : Nat) (f : Slice → Slice) : (s.updSlice i f).cores = s.cores := rfl
@[simp] theorem State.updSlice_routers (s : State) (i : Nat) (f : Slice → Slice) : (s.updSlice i f).routers = s.routers := rfl
@[simp] theorem State.updSlice_lantern (s : State) (i : Nat) (f : Slice → Slice) : (s.updSlice i f).lantern = s.lantern := rfl
@[simp] theorem State.updSlice_packets (s : State) (i : Nat) (f : Slice → Slice) : (s.updSlice i f).packets = s.packets := rfl
@[simp] theorem State.updSlice_seqs (s : State) (i : Nat) (f : Slice → Slice) : (s.updSlice i f).seqs = s.seqs := rfl
@[simp] theorem State.updSlice_hbm (s : State) (i : Nat) (f : Slice → Slice) : (s.updSlice i f).hbm = s.hbm := rfl
@[simp] theorem State.updSlice_hbmKey (s : State) (i : Nat) (f : Slice → Slice) : (s.updSlice i f).hbmKey = s.hbmKey := rfl
@[simp] theorem State.updSlice_hbmPois (s : State) (i : Nat) (f : Slice → Slice) : (s.updSlice i f).hbmPois = s.hbmPois := rfl
@[simp] theorem State.updSlice_hbmErr (s : State) (i : Nat) (f : Slice → Slice) : (s.updSlice i f).hbmErr = s.hbmErr := rfl
@[simp] theorem State.updSlice_late (s : State) (i : Nat) (f : Slice → Slice) : (s.updSlice i f).late = s.late := rfl
@[simp] theorem State.updSlice_hostMem (s : State) (i : Nat) (f : Slice → Slice) : (s.updSlice i f).hostMem = s.hostMem := rfl
@[simp] theorem State.updSlice_hostBad (s : State) (i : Nat) (f : Slice → Slice) : (s.updSlice i f).hostBad = s.hostBad := rfl
@[simp] theorem State.updSlice_granary (s : State) (i : Nat) (f : Slice → Slice) : (s.updSlice i f).granary = s.granary := rfl
@[simp] theorem State.updSlice_granPois (s : State) (i : Nat) (f : Slice → Slice) : (s.updSlice i f).granPois = s.granPois := rfl
@[simp] theorem State.updSlice_granFlags (s : State) (i : Nat) (f : Slice → Slice) : (s.updSlice i f).granFlags = s.granFlags := rfl
@[simp] theorem State.updSlice_keys (s : State) (i : Nat) (f : Slice → Slice) : (s.updSlice i f).keys = s.keys := rfl
@[simp] theorem State.updSlice_tlb (s : State) (i : Nat) (f : Slice → Slice) : (s.updSlice i f).tlb = s.tlb := rfl
@[simp] theorem State.updSlice_faults (s : State) (i : Nat) (f : Slice → Slice) : (s.updSlice i f).faults = s.faults := rfl
@[simp] theorem State.updSlice_inval (s : State) (i : Nat) (f : Slice → Slice) : (s.updSlice i f).inval = s.inval := rfl
@[simp] theorem State.updSlice_cmds (s : State) (i : Nat) (f : Slice → Slice) : (s.updSlice i f).cmds = s.cmds := rfl
@[simp] theorem State.updSlice_acceptedCmds (s : State) (i : Nat) (f : Slice → Slice) : (s.updSlice i f).acceptedCmds = s.acceptedCmds := rfl
@[simp] theorem State.updSlice_commNth (s : State) (i : Nat) (f : Slice → Slice) : (s.updSlice i f).commNth = s.commNth := rfl
@[simp] theorem State.updSlice_peers (s : State) (i : Nat) (f : Slice → Slice) : (s.updSlice i f).peers = s.peers := rfl
@[simp] theorem State.updSlice_buckets (s : State) (i : Nat) (f : Slice → Slice) : (s.updSlice i f).buckets = s.buckets := rfl
@[simp] theorem State.updSlice_queues (s : State) (i : Nat) (f : Slice → Slice) : (s.updSlice i f).queues = s.queues := rfl
@[simp] theorem State.updSlice_gathers (s : State) (i : Nat) (f : Slice → Slice) : (s.updSlice i f).gathers = s.gathers := rfl
@[simp] theorem State.updSlice_accepting (s : State) (i : Nat) (f : Slice → Slice) : (s.updSlice i f).accepting = s.accepting := rfl
@[simp] theorem State.updSlice_frontFatal (s : State) (i : Nat) (f : Slice → Slice) : (s.updSlice i f).frontFatal = s.frontFatal := rfl
@[simp] theorem State.updSlice_tasks (s : State) (i : Nat) (f : Slice → Slice) : (s.updSlice i f).tasks = s.tasks := rfl
@[simp] theorem State.updSlice_tasksDue (s : State) (i : Nat) (f : Slice → Slice) : (s.updSlice i f).tasksDue = s.tasksDue := rfl
@[simp] theorem State.updSlice_robin (s : State) (i : Nat) (f : Slice → Slice) : (s.updSlice i f).robin = s.robin := rfl
@[simp] theorem State.updSlice_spent (s : State) (i : Nat) (f : Slice → Slice) : (s.updSlice i f).spent = s.spent := rfl
@[simp] theorem State.updSlice_exits (s : State) (i : Nat) (f : Slice → Slice) : (s.updSlice i f).exits = s.exits := rfl
@[simp] theorem State.updSlice_entries (s : State) (i : Nat) (f : Slice → Slice) : (s.updSlice i f).entries = s.entries := rfl
@[simp] theorem State.updSlice_dead (s : State) (i : Nat) (f : Slice → Slice) : (s.updSlice i f).dead = s.dead := rfl
@[simp] theorem State.updSlice_msix (s : State) (i : Nat) (f : Slice → Slice) : (s.updSlice i f).msix = s.msix := rfl
@[simp] theorem State.updSlice_sent (s : State) (i : Nat) (f : Slice → Slice) : (s.updSlice i f).sent = s.sent := rfl
@[simp] theorem State.updSlice_failing (s : State) (i : Nat) (f : Slice → Slice) : (s.updSlice i f).failing = s.failing := rfl
@[simp] theorem State.updSlice_retiring (s : State) (i : Nat) (f : Slice → Slice) : (s.updSlice i f).retiring = s.retiring := rfl
@[simp] theorem State.updSlice_errs (s : State) (i : Nat) (f : Slice → Slice) : (s.updSlice i f).errs = s.errs := rfl
@[simp] theorem State.updSlice_fixed (s : State) (i : Nat) (f : Slice → Slice) : (s.updSlice i f).fixed = s.fixed := rfl
@[simp] theorem State.updSlice_healthAt (s : State) (i : Nat) (f : Slice → Slice) : (s.updSlice i f).healthAt = s.healthAt := rfl
@[simp] theorem State.updSlice_linkPort (s : State) (i : Nat) (f : Slice → Slice) : (s.updSlice i f).linkPort = s.linkPort := rfl
@[simp] theorem State.updSlice_narrowed (s : State) (i : Nat) (f : Slice → Slice) : (s.updSlice i f).narrowed = s.narrowed := rfl
@[simp] theorem State.updSlice_hostLinks (s : State) (i : Nat) (f : Slice → Slice) : (s.updSlice i f).hostLinks = s.hostLinks := rfl
@[simp] theorem State.updSlice_homeTbl (s : State) (i : Nat) (f : Slice → Slice) : (s.updSlice i f).homeTbl = s.homeTbl := rfl
@[simp] theorem State.updSlice_dlTbl (s : State) (i : Nat) (f : Slice → Slice) : (s.updSlice i f).dlTbl = s.dlTbl := rfl
@[simp] theorem State.updSlice_counted (s : State) (i : Nat) (f : Slice → Slice) : (s.updSlice i f).counted = s.counted := rfl
@[simp] theorem State.updSlice_mrs (s : State) (i : Nat) (f : Slice → Slice) : (s.updSlice i f).mrs = s.mrs := rfl
@[simp] theorem State.updSlice_inReset (s : State) (i : Nat) (f : Slice → Slice) : (s.updSlice i f).inReset = s.inReset := rfl
@[simp] theorem State.updSlice_regs (s : State) (i : Nat) (f : Slice → Slice) : (s.updSlice i f).regs = s.regs := rfl

@[simp] theorem State.setRouter_cur (s : State) (i : Nat) (x : Router) : (s.setRouter i x).cur = s.cur := rfl
@[simp] theorem State.setRouter_clock (s : State) (i : Nat) (x : Router) : (s.setRouter i x).clock = s.clock := rfl
@[simp] theorem State.setRouter_fresh (s : State) (i : Nat) (x : Router) : (s.setRouter i x).fresh = s.fresh := rfl
@[simp] theorem State.setRouter_nextId (s : State) (i : Nat) (x : Router) : (s.setRouter i x).nextId = s.nextId := rfl
@[simp] theorem State.setRouter_schedule (s : State) (i : Nat) (x : Router) : (s.setRouter i x).schedule = s.schedule := rfl
@[simp] theorem State.setRouter_answer (s : State) (i : Nat) (x : Router) : (s.setRouter i x).answer = s.answer := rfl
@[simp] theorem State.setRouter_teams (s : State) (i : Nat) (x : Router) : (s.setRouter i x).teams = s.teams := rfl
@[simp] theorem State.setRouter_clusters (s : State) (i : Nat) (x : Router) : (s.setRouter i x).clusters = s.clusters := rfl
@[simp] theorem State.setRouter_launches (s : State) (i : Nat) (x : Router) : (s.setRouter i x).launches = s.launches := rfl
@[simp] theorem State.setRouter_cores (s : State) (i : Nat) (x : Router) : (s.setRouter i x).cores = s.cores := rfl
@[simp] theorem State.setRouter_slices (s : State) (i : Nat) (x : Router) : (s.setRouter i x).slices = s.slices := rfl
@[simp] theorem State.setRouter_lantern (s : State) (i : Nat) (x : Router) : (s.setRouter i x).lantern = s.lantern := rfl
@[simp] theorem State.setRouter_packets (s : State) (i : Nat) (x : Router) : (s.setRouter i x).packets = s.packets := rfl
@[simp] theorem State.setRouter_seqs (s : State) (i : Nat) (x : Router) : (s.setRouter i x).seqs = s.seqs := rfl
@[simp] theorem State.setRouter_hbm (s : State) (i : Nat) (x : Router) : (s.setRouter i x).hbm = s.hbm := rfl
@[simp] theorem State.setRouter_hbmKey (s : State) (i : Nat) (x : Router) : (s.setRouter i x).hbmKey = s.hbmKey := rfl
@[simp] theorem State.setRouter_hbmPois (s : State) (i : Nat) (x : Router) : (s.setRouter i x).hbmPois = s.hbmPois := rfl
@[simp] theorem State.setRouter_hbmErr (s : State) (i : Nat) (x : Router) : (s.setRouter i x).hbmErr = s.hbmErr := rfl
@[simp] theorem State.setRouter_late (s : State) (i : Nat) (x : Router) : (s.setRouter i x).late = s.late := rfl
@[simp] theorem State.setRouter_hostMem (s : State) (i : Nat) (x : Router) : (s.setRouter i x).hostMem = s.hostMem := rfl
@[simp] theorem State.setRouter_hostBad (s : State) (i : Nat) (x : Router) : (s.setRouter i x).hostBad = s.hostBad := rfl
@[simp] theorem State.setRouter_granary (s : State) (i : Nat) (x : Router) : (s.setRouter i x).granary = s.granary := rfl
@[simp] theorem State.setRouter_granPois (s : State) (i : Nat) (x : Router) : (s.setRouter i x).granPois = s.granPois := rfl
@[simp] theorem State.setRouter_granFlags (s : State) (i : Nat) (x : Router) : (s.setRouter i x).granFlags = s.granFlags := rfl
@[simp] theorem State.setRouter_keys (s : State) (i : Nat) (x : Router) : (s.setRouter i x).keys = s.keys := rfl
@[simp] theorem State.setRouter_tlb (s : State) (i : Nat) (x : Router) : (s.setRouter i x).tlb = s.tlb := rfl
@[simp] theorem State.setRouter_faults (s : State) (i : Nat) (x : Router) : (s.setRouter i x).faults = s.faults := rfl
@[simp] theorem State.setRouter_inval (s : State) (i : Nat) (x : Router) : (s.setRouter i x).inval = s.inval := rfl
@[simp] theorem State.setRouter_cmds (s : State) (i : Nat) (x : Router) : (s.setRouter i x).cmds = s.cmds := rfl
@[simp] theorem State.setRouter_acceptedCmds (s : State) (i : Nat) (x : Router) : (s.setRouter i x).acceptedCmds = s.acceptedCmds := rfl
@[simp] theorem State.setRouter_commNth (s : State) (i : Nat) (x : Router) : (s.setRouter i x).commNth = s.commNth := rfl
@[simp] theorem State.setRouter_peers (s : State) (i : Nat) (x : Router) : (s.setRouter i x).peers = s.peers := rfl
@[simp] theorem State.setRouter_buckets (s : State) (i : Nat) (x : Router) : (s.setRouter i x).buckets = s.buckets := rfl
@[simp] theorem State.setRouter_queues (s : State) (i : Nat) (x : Router) : (s.setRouter i x).queues = s.queues := rfl
@[simp] theorem State.setRouter_gathers (s : State) (i : Nat) (x : Router) : (s.setRouter i x).gathers = s.gathers := rfl
@[simp] theorem State.setRouter_accepting (s : State) (i : Nat) (x : Router) : (s.setRouter i x).accepting = s.accepting := rfl
@[simp] theorem State.setRouter_frontFatal (s : State) (i : Nat) (x : Router) : (s.setRouter i x).frontFatal = s.frontFatal := rfl
@[simp] theorem State.setRouter_tasks (s : State) (i : Nat) (x : Router) : (s.setRouter i x).tasks = s.tasks := rfl
@[simp] theorem State.setRouter_tasksDue (s : State) (i : Nat) (x : Router) : (s.setRouter i x).tasksDue = s.tasksDue := rfl
@[simp] theorem State.setRouter_robin (s : State) (i : Nat) (x : Router) : (s.setRouter i x).robin = s.robin := rfl
@[simp] theorem State.setRouter_spent (s : State) (i : Nat) (x : Router) : (s.setRouter i x).spent = s.spent := rfl
@[simp] theorem State.setRouter_exits (s : State) (i : Nat) (x : Router) : (s.setRouter i x).exits = s.exits := rfl
@[simp] theorem State.setRouter_entries (s : State) (i : Nat) (x : Router) : (s.setRouter i x).entries = s.entries := rfl
@[simp] theorem State.setRouter_dead (s : State) (i : Nat) (x : Router) : (s.setRouter i x).dead = s.dead := rfl
@[simp] theorem State.setRouter_msix (s : State) (i : Nat) (x : Router) : (s.setRouter i x).msix = s.msix := rfl
@[simp] theorem State.setRouter_sent (s : State) (i : Nat) (x : Router) : (s.setRouter i x).sent = s.sent := rfl
@[simp] theorem State.setRouter_failing (s : State) (i : Nat) (x : Router) : (s.setRouter i x).failing = s.failing := rfl
@[simp] theorem State.setRouter_retiring (s : State) (i : Nat) (x : Router) : (s.setRouter i x).retiring = s.retiring := rfl
@[simp] theorem State.setRouter_errs (s : State) (i : Nat) (x : Router) : (s.setRouter i x).errs = s.errs := rfl
@[simp] theorem State.setRouter_fixed (s : State) (i : Nat) (x : Router) : (s.setRouter i x).fixed = s.fixed := rfl
@[simp] theorem State.setRouter_healthAt (s : State) (i : Nat) (x : Router) : (s.setRouter i x).healthAt = s.healthAt := rfl
@[simp] theorem State.setRouter_linkPort (s : State) (i : Nat) (x : Router) : (s.setRouter i x).linkPort = s.linkPort := rfl
@[simp] theorem State.setRouter_narrowed (s : State) (i : Nat) (x : Router) : (s.setRouter i x).narrowed = s.narrowed := rfl
@[simp] theorem State.setRouter_hostLinks (s : State) (i : Nat) (x : Router) : (s.setRouter i x).hostLinks = s.hostLinks := rfl
@[simp] theorem State.setRouter_homeTbl (s : State) (i : Nat) (x : Router) : (s.setRouter i x).homeTbl = s.homeTbl := rfl
@[simp] theorem State.setRouter_dlTbl (s : State) (i : Nat) (x : Router) : (s.setRouter i x).dlTbl = s.dlTbl := rfl
@[simp] theorem State.setRouter_counted (s : State) (i : Nat) (x : Router) : (s.setRouter i x).counted = s.counted := rfl
@[simp] theorem State.setRouter_mrs (s : State) (i : Nat) (x : Router) : (s.setRouter i x).mrs = s.mrs := rfl
@[simp] theorem State.setRouter_inReset (s : State) (i : Nat) (x : Router) : (s.setRouter i x).inReset = s.inReset := rfl
@[simp] theorem State.setRouter_regs (s : State) (i : Nat) (x : Router) : (s.setRouter i x).regs = s.regs := rfl

@[simp] theorem Group.updFrag_kind (g : Group) (e : Nat) (f : Frag → Frag) : (g.updFrag e f).kind = g.kind := rfl
@[simp] theorem Group.updFrag_port (g : Group) (e : Nat) (f : Frag → Frag) : (g.updFrag e f).port = g.port := rfl
@[simp] theorem Group.updFrag_slot (g : Group) (e : Nat) (f : Frag → Frag) : (g.updFrag e f).slot = g.slot := rfl
@[simp] theorem Group.updFrag_v (g : Group) (e : Nat) (f : Frag → Frag) : (g.updFrag e f).v = g.v := rfl
@[simp] theorem Group.updFrag_s (g : Group) (e : Nat) (f : Frag → Frag) : (g.updFrag e f).s = g.s := rfl
@[simp] theorem Group.updFrag_p (g : Group) (e : Nat) (f : Frag → Frag) : (g.updFrag e f).p = g.p := rfl
@[simp] theorem Group.updFrag_q (g : Group) (e : Nat) (f : Frag → Frag) : (g.updFrag e f).q = g.q := rfl
@[simp] theorem Group.updFrag_qPois (g : Group) (e : Nat) (f : Frag → Frag) : (g.updFrag e f).qPois = g.qPois := rfl
@[simp] theorem Group.updFrag_bl (g : Group) (e : Nat) (f : Frag → Frag) : (g.updFrag e f).bl = g.bl := rfl
@[simp] theorem Group.updFrag_sl (g : Group) (e : Nat) (f : Frag → Frag) : (g.updFrag e f).sl = g.sl := rfl
@[simp] theorem Group.updFrag_sh (g : Group) (e : Nat) (f : Frag → Frag) : (g.updFrag e f).sh = g.sh := rfl
@[simp] theorem Group.updFrag_cnt (g : Group) (e : Nat) (f : Frag → Frag) : (g.updFrag e f).cnt = g.cnt := rfl
@[simp] theorem Group.updFrag_flights (g : Group) (e : Nat) (f : Frag → Frag) : (g.updFrag e f).flights = g.flights := rfl
@[simp] theorem Group.updFrag_joins (g : Group) (e : Nat) (f : Frag → Frag) : (g.updFrag e f).joins = g.joins := rfl
@[simp] theorem Group.updFrag_sp (g : Group) (e : Nat) (f : Frag → Frag) : (g.updFrag e f).sp = g.sp := rfl
@[simp] theorem Group.updFrag_cur (g : Group) (e : Nat) (f : Frag → Frag) : (g.updFrag e f).cur = g.cur := rfl
@[simp] theorem Group.updFrag_issued (g : Group) (e : Nat) (f : Frag → Frag) : (g.updFrag e f).issued = g.issued := rfl
@[simp] theorem Group.updFrag_quantum (g : Group) (e : Nat) (f : Frag → Frag) : (g.updFrag e f).quantum = g.quantum := rfl
@[simp] theorem Group.updFrag_age (g : Group) (e : Nat) (f : Frag → Frag) : (g.updFrag e f).age = g.age := rfl
@[simp] theorem Group.updFrag_unselected (g : Group) (e : Nat) (f : Frag → Frag) : (g.updFrag e f).unselected = g.unselected := rfl
@[simp] theorem Group.updFrag_unselectedU (g : Group) (e : Nat) (f : Frag → Frag) : (g.updFrag e f).unselectedU = g.unselectedU := rfl
@[simp] theorem Group.updFrag_starved (g : Group) (e : Nat) (f : Frag → Frag) : (g.updFrag e f).starved = g.starved := rfl
@[simp] theorem Group.updFrag_clause (g : Group) (e : Nat) (f : Frag → Frag) : (g.updFrag e f).clause = g.clause := rfl
@[simp] theorem Group.updFrag_handler (g : Group) (e : Nat) (f : Frag → Frag) : (g.updFrag e f).handler = g.handler := rfl
@[simp] theorem Group.updFrag_stepping (g : Group) (e : Nat) (f : Frag → Frag) : (g.updFrag e f).stepping = g.stepping := rfl
@[simp] theorem Group.updFrag_haltPending (g : Group) (e : Nat) (f : Frag → Frag) : (g.updFrag e f).haltPending = g.haltPending := rfl
@[simp] theorem Group.updFrag_stopped (g : Group) (e : Nat) (f : Frag → Frag) : (g.updFrag e f).stopped = g.stopped := rfl
@[simp] theorem Group.updFrag_fail (g : Group) (e : Nat) (f : Frag → Frag) : (g.updFrag e f).fail = g.fail := rfl

@[simp] theorem Group.setV_kind (g : Group) (r : Nat) (m : Mask) (x : Lanes) : (g.setV r m x).kind = g.kind := rfl
@[simp] theorem Group.setV_port (g : Group) (r : Nat) (m : Mask) (x : Lanes) : (g.setV r m x).port = g.port := rfl
@[simp] theorem Group.setV_slot (g : Group) (r : Nat) (m : Mask) (x : Lanes) : (g.setV r m x).slot = g.slot := rfl
@[simp] theorem Group.setV_s (g : Group) (r : Nat) (m : Mask) (x : Lanes) : (g.setV r m x).s = g.s := rfl
@[simp] theorem Group.setV_p (g : Group) (r : Nat) (m : Mask) (x : Lanes) : (g.setV r m x).p = g.p := rfl
@[simp] theorem Group.setV_q (g : Group) (r : Nat) (m : Mask) (x : Lanes) : (g.setV r m x).q = g.q := rfl
@[simp] theorem Group.setV_qPois (g : Group) (r : Nat) (m : Mask) (x : Lanes) : (g.setV r m x).qPois = g.qPois := rfl
@[simp] theorem Group.setV_bl (g : Group) (r : Nat) (m : Mask) (x : Lanes) : (g.setV r m x).bl = g.bl := rfl
@[simp] theorem Group.setV_sl (g : Group) (r : Nat) (m : Mask) (x : Lanes) : (g.setV r m x).sl = g.sl := rfl
@[simp] theorem Group.setV_sh (g : Group) (r : Nat) (m : Mask) (x : Lanes) : (g.setV r m x).sh = g.sh := rfl
@[simp] theorem Group.setV_cnt (g : Group) (r : Nat) (m : Mask) (x : Lanes) : (g.setV r m x).cnt = g.cnt := rfl
@[simp] theorem Group.setV_flights (g : Group) (r : Nat) (m : Mask) (x : Lanes) : (g.setV r m x).flights = g.flights := rfl
@[simp] theorem Group.setV_frags (g : Group) (r : Nat) (m : Mask) (x : Lanes) : (g.setV r m x).frags = g.frags := rfl
@[simp] theorem Group.setV_joins (g : Group) (r : Nat) (m : Mask) (x : Lanes) : (g.setV r m x).joins = g.joins := rfl
@[simp] theorem Group.setV_sp (g : Group) (r : Nat) (m : Mask) (x : Lanes) : (g.setV r m x).sp = g.sp := rfl
@[simp] theorem Group.setV_cur (g : Group) (r : Nat) (m : Mask) (x : Lanes) : (g.setV r m x).cur = g.cur := rfl
@[simp] theorem Group.setV_issued (g : Group) (r : Nat) (m : Mask) (x : Lanes) : (g.setV r m x).issued = g.issued := rfl
@[simp] theorem Group.setV_quantum (g : Group) (r : Nat) (m : Mask) (x : Lanes) : (g.setV r m x).quantum = g.quantum := rfl
@[simp] theorem Group.setV_age (g : Group) (r : Nat) (m : Mask) (x : Lanes) : (g.setV r m x).age = g.age := rfl
@[simp] theorem Group.setV_unselected (g : Group) (r : Nat) (m : Mask) (x : Lanes) : (g.setV r m x).unselected = g.unselected := rfl
@[simp] theorem Group.setV_unselectedU (g : Group) (r : Nat) (m : Mask) (x : Lanes) : (g.setV r m x).unselectedU = g.unselectedU := rfl
@[simp] theorem Group.setV_starved (g : Group) (r : Nat) (m : Mask) (x : Lanes) : (g.setV r m x).starved = g.starved := rfl
@[simp] theorem Group.setV_clause (g : Group) (r : Nat) (m : Mask) (x : Lanes) : (g.setV r m x).clause = g.clause := rfl
@[simp] theorem Group.setV_handler (g : Group) (r : Nat) (m : Mask) (x : Lanes) : (g.setV r m x).handler = g.handler := rfl
@[simp] theorem Group.setV_stepping (g : Group) (r : Nat) (m : Mask) (x : Lanes) : (g.setV r m x).stepping = g.stepping := rfl
@[simp] theorem Group.setV_haltPending (g : Group) (r : Nat) (m : Mask) (x : Lanes) : (g.setV r m x).haltPending = g.haltPending := rfl
@[simp] theorem Group.setV_stopped (g : Group) (r : Nat) (m : Mask) (x : Lanes) : (g.setV r m x).stopped = g.stopped := rfl
@[simp] theorem Group.setV_fail (g : Group) (r : Nat) (m : Mask) (x : Lanes) : (g.setV r m x).fail = g.fail := rfl

@[simp] theorem Group.setS_kind (g : Group) (r : Nat) (e : Elem) : (g.setS r e).kind = g.kind := rfl
@[simp] theorem Group.setS_port (g : Group) (r : Nat) (e : Elem) : (g.setS r e).port = g.port := rfl
@[simp] theorem Group.setS_slot (g : Group) (r : Nat) (e : Elem) : (g.setS r e).slot = g.slot := rfl
@[simp] theorem Group.setS_v (g : Group) (r : Nat) (e : Elem) : (g.setS r e).v = g.v := rfl
@[simp] theorem Group.setS_p (g : Group) (r : Nat) (e : Elem) : (g.setS r e).p = g.p := rfl
@[simp] theorem Group.setS_q (g : Group) (r : Nat) (e : Elem) : (g.setS r e).q = g.q := rfl
@[simp] theorem Group.setS_qPois (g : Group) (r : Nat) (e : Elem) : (g.setS r e).qPois = g.qPois := rfl
@[simp] theorem Group.setS_bl (g : Group) (r : Nat) (e : Elem) : (g.setS r e).bl = g.bl := rfl
@[simp] theorem Group.setS_sl (g : Group) (r : Nat) (e : Elem) : (g.setS r e).sl = g.sl := rfl
@[simp] theorem Group.setS_sh (g : Group) (r : Nat) (e : Elem) : (g.setS r e).sh = g.sh := rfl
@[simp] theorem Group.setS_cnt (g : Group) (r : Nat) (e : Elem) : (g.setS r e).cnt = g.cnt := rfl
@[simp] theorem Group.setS_flights (g : Group) (r : Nat) (e : Elem) : (g.setS r e).flights = g.flights := rfl
@[simp] theorem Group.setS_frags (g : Group) (r : Nat) (e : Elem) : (g.setS r e).frags = g.frags := rfl
@[simp] theorem Group.setS_joins (g : Group) (r : Nat) (e : Elem) : (g.setS r e).joins = g.joins := rfl
@[simp] theorem Group.setS_sp (g : Group) (r : Nat) (e : Elem) : (g.setS r e).sp = g.sp := rfl
@[simp] theorem Group.setS_cur (g : Group) (r : Nat) (e : Elem) : (g.setS r e).cur = g.cur := rfl
@[simp] theorem Group.setS_issued (g : Group) (r : Nat) (e : Elem) : (g.setS r e).issued = g.issued := rfl
@[simp] theorem Group.setS_quantum (g : Group) (r : Nat) (e : Elem) : (g.setS r e).quantum = g.quantum := rfl
@[simp] theorem Group.setS_age (g : Group) (r : Nat) (e : Elem) : (g.setS r e).age = g.age := rfl
@[simp] theorem Group.setS_unselected (g : Group) (r : Nat) (e : Elem) : (g.setS r e).unselected = g.unselected := rfl
@[simp] theorem Group.setS_unselectedU (g : Group) (r : Nat) (e : Elem) : (g.setS r e).unselectedU = g.unselectedU := rfl
@[simp] theorem Group.setS_starved (g : Group) (r : Nat) (e : Elem) : (g.setS r e).starved = g.starved := rfl
@[simp] theorem Group.setS_clause (g : Group) (r : Nat) (e : Elem) : (g.setS r e).clause = g.clause := rfl
@[simp] theorem Group.setS_handler (g : Group) (r : Nat) (e : Elem) : (g.setS r e).handler = g.handler := rfl
@[simp] theorem Group.setS_stepping (g : Group) (r : Nat) (e : Elem) : (g.setS r e).stepping = g.stepping := rfl
@[simp] theorem Group.setS_haltPending (g : Group) (r : Nat) (e : Elem) : (g.setS r e).haltPending = g.haltPending := rfl
@[simp] theorem Group.setS_stopped (g : Group) (r : Nat) (e : Elem) : (g.setS r e).stopped = g.stopped := rfl
@[simp] theorem Group.setS_fail (g : Group) (r : Nat) (e : Elem) : (g.setS r e).fail = g.fail := rfl

@[simp] theorem Group.setShape_kind (g : Group) (i : Nat) (ws : List Elem) : (g.setShape i ws).kind = g.kind := rfl
@[simp] theorem Group.setShape_port (g : Group) (i : Nat) (ws : List Elem) : (g.setShape i ws).port = g.port := rfl
@[simp] theorem Group.setShape_slot (g : Group) (i : Nat) (ws : List Elem) : (g.setShape i ws).slot = g.slot := rfl
@[simp] theorem Group.setShape_v (g : Group) (i : Nat) (ws : List Elem) : (g.setShape i ws).v = g.v := rfl
@[simp] theorem Group.setShape_s (g : Group) (i : Nat) (ws : List Elem) : (g.setShape i ws).s = g.s := rfl
@[simp] theorem Group.setShape_p (g : Group) (i : Nat) (ws : List Elem) : (g.setShape i ws).p = g.p := rfl
@[simp] theorem Group.setShape_q (g : Group) (i : Nat) (ws : List Elem) : (g.setShape i ws).q = g.q := rfl
@[simp] theorem Group.setShape_qPois (g : Group) (i : Nat) (ws : List Elem) : (g.setShape i ws).qPois = g.qPois := rfl
@[simp] theorem Group.setShape_bl (g : Group) (i : Nat) (ws : List Elem) : (g.setShape i ws).bl = g.bl := rfl
@[simp] theorem Group.setShape_sl (g : Group) (i : Nat) (ws : List Elem) : (g.setShape i ws).sl = g.sl := rfl
@[simp] theorem Group.setShape_cnt (g : Group) (i : Nat) (ws : List Elem) : (g.setShape i ws).cnt = g.cnt := rfl
@[simp] theorem Group.setShape_flights (g : Group) (i : Nat) (ws : List Elem) : (g.setShape i ws).flights = g.flights := rfl
@[simp] theorem Group.setShape_frags (g : Group) (i : Nat) (ws : List Elem) : (g.setShape i ws).frags = g.frags := rfl
@[simp] theorem Group.setShape_joins (g : Group) (i : Nat) (ws : List Elem) : (g.setShape i ws).joins = g.joins := rfl
@[simp] theorem Group.setShape_sp (g : Group) (i : Nat) (ws : List Elem) : (g.setShape i ws).sp = g.sp := rfl
@[simp] theorem Group.setShape_cur (g : Group) (i : Nat) (ws : List Elem) : (g.setShape i ws).cur = g.cur := rfl
@[simp] theorem Group.setShape_issued (g : Group) (i : Nat) (ws : List Elem) : (g.setShape i ws).issued = g.issued := rfl
@[simp] theorem Group.setShape_quantum (g : Group) (i : Nat) (ws : List Elem) : (g.setShape i ws).quantum = g.quantum := rfl
@[simp] theorem Group.setShape_age (g : Group) (i : Nat) (ws : List Elem) : (g.setShape i ws).age = g.age := rfl
@[simp] theorem Group.setShape_unselected (g : Group) (i : Nat) (ws : List Elem) : (g.setShape i ws).unselected = g.unselected := rfl
@[simp] theorem Group.setShape_unselectedU (g : Group) (i : Nat) (ws : List Elem) : (g.setShape i ws).unselectedU = g.unselectedU := rfl
@[simp] theorem Group.setShape_starved (g : Group) (i : Nat) (ws : List Elem) : (g.setShape i ws).starved = g.starved := rfl
@[simp] theorem Group.setShape_clause (g : Group) (i : Nat) (ws : List Elem) : (g.setShape i ws).clause = g.clause := rfl
@[simp] theorem Group.setShape_handler (g : Group) (i : Nat) (ws : List Elem) : (g.setShape i ws).handler = g.handler := rfl
@[simp] theorem Group.setShape_stepping (g : Group) (i : Nat) (ws : List Elem) : (g.setShape i ws).stepping = g.stepping := rfl
@[simp] theorem Group.setShape_haltPending (g : Group) (i : Nat) (ws : List Elem) : (g.setShape i ws).haltPending = g.haltPending := rfl
@[simp] theorem Group.setShape_stopped (g : Group) (i : Nat) (ws : List Elem) : (g.setShape i ws).stopped = g.stopped := rfl
@[simp] theorem Group.setShape_fail (g : Group) (i : Nat) (ws : List Elem) : (g.setShape i ws).fail = g.fail := rfl

@[simp] theorem Group.setP_kind (g : Group) (i : Nat) (m v w : Mask) : (g.setP i m v w).kind = g.kind := rfl
@[simp] theorem Group.setP_port (g : Group) (i : Nat) (m v w : Mask) : (g.setP i m v w).port = g.port := rfl
@[simp] theorem Group.setP_slot (g : Group) (i : Nat) (m v w : Mask) : (g.setP i m v w).slot = g.slot := rfl
@[simp] theorem Group.setP_v (g : Group) (i : Nat) (m v w : Mask) : (g.setP i m v w).v = g.v := rfl
@[simp] theorem Group.setP_s (g : Group) (i : Nat) (m v w : Mask) : (g.setP i m v w).s = g.s := rfl
@[simp] theorem Group.setP_q (g : Group) (i : Nat) (m v w : Mask) : (g.setP i m v w).q = g.q := rfl
@[simp] theorem Group.setP_qPois (g : Group) (i : Nat) (m v w : Mask) : (g.setP i m v w).qPois = g.qPois := rfl
@[simp] theorem Group.setP_bl (g : Group) (i : Nat) (m v w : Mask) : (g.setP i m v w).bl = g.bl := rfl
@[simp] theorem Group.setP_sl (g : Group) (i : Nat) (m v w : Mask) : (g.setP i m v w).sl = g.sl := rfl
@[simp] theorem Group.setP_sh (g : Group) (i : Nat) (m v w : Mask) : (g.setP i m v w).sh = g.sh := rfl
@[simp] theorem Group.setP_cnt (g : Group) (i : Nat) (m v w : Mask) : (g.setP i m v w).cnt = g.cnt := rfl
@[simp] theorem Group.setP_flights (g : Group) (i : Nat) (m v w : Mask) : (g.setP i m v w).flights = g.flights := rfl
@[simp] theorem Group.setP_frags (g : Group) (i : Nat) (m v w : Mask) : (g.setP i m v w).frags = g.frags := rfl
@[simp] theorem Group.setP_joins (g : Group) (i : Nat) (m v w : Mask) : (g.setP i m v w).joins = g.joins := rfl
@[simp] theorem Group.setP_sp (g : Group) (i : Nat) (m v w : Mask) : (g.setP i m v w).sp = g.sp := rfl
@[simp] theorem Group.setP_cur (g : Group) (i : Nat) (m v w : Mask) : (g.setP i m v w).cur = g.cur := rfl
@[simp] theorem Group.setP_issued (g : Group) (i : Nat) (m v w : Mask) : (g.setP i m v w).issued = g.issued := rfl
@[simp] theorem Group.setP_quantum (g : Group) (i : Nat) (m v w : Mask) : (g.setP i m v w).quantum = g.quantum := rfl
@[simp] theorem Group.setP_age (g : Group) (i : Nat) (m v w : Mask) : (g.setP i m v w).age = g.age := rfl
@[simp] theorem Group.setP_unselected (g : Group) (i : Nat) (m v w : Mask) : (g.setP i m v w).unselected = g.unselected := rfl
@[simp] theorem Group.setP_unselectedU (g : Group) (i : Nat) (m v w : Mask) : (g.setP i m v w).unselectedU = g.unselectedU := rfl
@[simp] theorem Group.setP_starved (g : Group) (i : Nat) (m v w : Mask) : (g.setP i m v w).starved = g.starved := rfl
@[simp] theorem Group.setP_clause (g : Group) (i : Nat) (m v w : Mask) : (g.setP i m v w).clause = g.clause := rfl
@[simp] theorem Group.setP_handler (g : Group) (i : Nat) (m v w : Mask) : (g.setP i m v w).handler = g.handler := rfl
@[simp] theorem Group.setP_stepping (g : Group) (i : Nat) (m v w : Mask) : (g.setP i m v w).stepping = g.stepping := rfl
@[simp] theorem Group.setP_haltPending (g : Group) (i : Nat) (m v w : Mask) : (g.setP i m v w).haltPending = g.haltPending := rfl
@[simp] theorem Group.setP_stopped (g : Group) (i : Nat) (m v w : Mask) : (g.setP i m v w).stopped = g.stopped := rfl
@[simp] theorem Group.setP_fail (g : Group) (i : Nat) (m v w : Mask) : (g.setP i m v w).fail = g.fail := rfl

@[simp] theorem Group.setQ_kind (g : Group) (i : Nat) (b c : Bool) : (g.setQ i b c).kind = g.kind := rfl
@[simp] theorem Group.setQ_port (g : Group) (i : Nat) (b c : Bool) : (g.setQ i b c).port = g.port := rfl
@[simp] theorem Group.setQ_slot (g : Group) (i : Nat) (b c : Bool) : (g.setQ i b c).slot = g.slot := rfl
@[simp] theorem Group.setQ_v (g : Group) (i : Nat) (b c : Bool) : (g.setQ i b c).v = g.v := rfl
@[simp] theorem Group.setQ_s (g : Group) (i : Nat) (b c : Bool) : (g.setQ i b c).s = g.s := rfl
@[simp] theorem Group.setQ_p (g : Group) (i : Nat) (b c : Bool) : (g.setQ i b c).p = g.p := rfl
@[simp] theorem Group.setQ_bl (g : Group) (i : Nat) (b c : Bool) : (g.setQ i b c).bl = g.bl := rfl
@[simp] theorem Group.setQ_sl (g : Group) (i : Nat) (b c : Bool) : (g.setQ i b c).sl = g.sl := rfl
@[simp] theorem Group.setQ_sh (g : Group) (i : Nat) (b c : Bool) : (g.setQ i b c).sh = g.sh := rfl
@[simp] theorem Group.setQ_cnt (g : Group) (i : Nat) (b c : Bool) : (g.setQ i b c).cnt = g.cnt := rfl
@[simp] theorem Group.setQ_flights (g : Group) (i : Nat) (b c : Bool) : (g.setQ i b c).flights = g.flights := rfl
@[simp] theorem Group.setQ_frags (g : Group) (i : Nat) (b c : Bool) : (g.setQ i b c).frags = g.frags := rfl
@[simp] theorem Group.setQ_joins (g : Group) (i : Nat) (b c : Bool) : (g.setQ i b c).joins = g.joins := rfl
@[simp] theorem Group.setQ_sp (g : Group) (i : Nat) (b c : Bool) : (g.setQ i b c).sp = g.sp := rfl
@[simp] theorem Group.setQ_cur (g : Group) (i : Nat) (b c : Bool) : (g.setQ i b c).cur = g.cur := rfl
@[simp] theorem Group.setQ_issued (g : Group) (i : Nat) (b c : Bool) : (g.setQ i b c).issued = g.issued := rfl
@[simp] theorem Group.setQ_quantum (g : Group) (i : Nat) (b c : Bool) : (g.setQ i b c).quantum = g.quantum := rfl
@[simp] theorem Group.setQ_age (g : Group) (i : Nat) (b c : Bool) : (g.setQ i b c).age = g.age := rfl
@[simp] theorem Group.setQ_unselected (g : Group) (i : Nat) (b c : Bool) : (g.setQ i b c).unselected = g.unselected := rfl
@[simp] theorem Group.setQ_unselectedU (g : Group) (i : Nat) (b c : Bool) : (g.setQ i b c).unselectedU = g.unselectedU := rfl
@[simp] theorem Group.setQ_starved (g : Group) (i : Nat) (b c : Bool) : (g.setQ i b c).starved = g.starved := rfl
@[simp] theorem Group.setQ_clause (g : Group) (i : Nat) (b c : Bool) : (g.setQ i b c).clause = g.clause := rfl
@[simp] theorem Group.setQ_handler (g : Group) (i : Nat) (b c : Bool) : (g.setQ i b c).handler = g.handler := rfl
@[simp] theorem Group.setQ_stepping (g : Group) (i : Nat) (b c : Bool) : (g.setQ i b c).stepping = g.stepping := rfl
@[simp] theorem Group.setQ_haltPending (g : Group) (i : Nat) (b c : Bool) : (g.setQ i b c).haltPending = g.haltPending := rfl
@[simp] theorem Group.setQ_stopped (g : Group) (i : Nat) (b c : Bool) : (g.setQ i b c).stopped = g.stopped := rfl
@[simp] theorem Group.setQ_fail (g : Group) (i : Nat) (b c : Bool) : (g.setQ i b c).fail = g.fail := rfl

@[simp] theorem Group.pushBl_kind (g : Group) (m : Mask) (x y : Lanes) : (g.pushBl m x y).kind = g.kind := rfl
@[simp] theorem Group.pushBl_port (g : Group) (m : Mask) (x y : Lanes) : (g.pushBl m x y).port = g.port := rfl
@[simp] theorem Group.pushBl_slot (g : Group) (m : Mask) (x y : Lanes) : (g.pushBl m x y).slot = g.slot := rfl
@[simp] theorem Group.pushBl_v (g : Group) (m : Mask) (x y : Lanes) : (g.pushBl m x y).v = g.v := rfl
@[simp] theorem Group.pushBl_s (g : Group) (m : Mask) (x y : Lanes) : (g.pushBl m x y).s = g.s := rfl
@[simp] theorem Group.pushBl_p (g : Group) (m : Mask) (x y : Lanes) : (g.pushBl m x y).p = g.p := rfl
@[simp] theorem Group.pushBl_q (g : Group) (m : Mask) (x y : Lanes) : (g.pushBl m x y).q = g.q := rfl
@[simp] theorem Group.pushBl_qPois (g : Group) (m : Mask) (x y : Lanes) : (g.pushBl m x y).qPois = g.qPois := rfl
@[simp] theorem Group.pushBl_sl (g : Group) (m : Mask) (x y : Lanes) : (g.pushBl m x y).sl = g.sl := rfl
@[simp] theorem Group.pushBl_sh (g : Group) (m : Mask) (x y : Lanes) : (g.pushBl m x y).sh = g.sh := rfl
@[simp] theorem Group.pushBl_cnt (g : Group) (m : Mask) (x y : Lanes) : (g.pushBl m x y).cnt = g.cnt := rfl
@[simp] theorem Group.pushBl_flights (g : Group) (m : Mask) (x y : Lanes) : (g.pushBl m x y).flights = g.flights := rfl
@[simp] theorem Group.pushBl_frags (g : Group) (m : Mask) (x y : Lanes) : (g.pushBl m x y).frags = g.frags := rfl
@[simp] theorem Group.pushBl_joins (g : Group) (m : Mask) (x y : Lanes) : (g.pushBl m x y).joins = g.joins := rfl
@[simp] theorem Group.pushBl_sp (g : Group) (m : Mask) (x y : Lanes) : (g.pushBl m x y).sp = g.sp := rfl
@[simp] theorem Group.pushBl_cur (g : Group) (m : Mask) (x y : Lanes) : (g.pushBl m x y).cur = g.cur := rfl
@[simp] theorem Group.pushBl_issued (g : Group) (m : Mask) (x y : Lanes) : (g.pushBl m x y).issued = g.issued := rfl
@[simp] theorem Group.pushBl_quantum (g : Group) (m : Mask) (x y : Lanes) : (g.pushBl m x y).quantum = g.quantum := rfl
@[simp] theorem Group.pushBl_age (g : Group) (m : Mask) (x y : Lanes) : (g.pushBl m x y).age = g.age := rfl
@[simp] theorem Group.pushBl_unselected (g : Group) (m : Mask) (x y : Lanes) : (g.pushBl m x y).unselected = g.unselected := rfl
@[simp] theorem Group.pushBl_unselectedU (g : Group) (m : Mask) (x y : Lanes) : (g.pushBl m x y).unselectedU = g.unselectedU := rfl
@[simp] theorem Group.pushBl_starved (g : Group) (m : Mask) (x y : Lanes) : (g.pushBl m x y).starved = g.starved := rfl
@[simp] theorem Group.pushBl_clause (g : Group) (m : Mask) (x y : Lanes) : (g.pushBl m x y).clause = g.clause := rfl
@[simp] theorem Group.pushBl_handler (g : Group) (m : Mask) (x y : Lanes) : (g.pushBl m x y).handler = g.handler := rfl
@[simp] theorem Group.pushBl_stepping (g : Group) (m : Mask) (x y : Lanes) : (g.pushBl m x y).stepping = g.stepping := rfl
@[simp] theorem Group.pushBl_haltPending (g : Group) (m : Mask) (x y : Lanes) : (g.pushBl m x y).haltPending = g.haltPending := rfl
@[simp] theorem Group.pushBl_stopped (g : Group) (m : Mask) (x y : Lanes) : (g.pushBl m x y).stopped = g.stopped := rfl
@[simp] theorem Group.pushBl_fail (g : Group) (m : Mask) (x y : Lanes) : (g.pushBl m x y).fail = g.fail := rfl

@[simp] theorem Group.pushSl_kind (g : Group) (x y : Elem) : (g.pushSl x y).kind = g.kind := rfl
@[simp] theorem Group.pushSl_port (g : Group) (x y : Elem) : (g.pushSl x y).port = g.port := rfl
@[simp] theorem Group.pushSl_slot (g : Group) (x y : Elem) : (g.pushSl x y).slot = g.slot := rfl
@[simp] theorem Group.pushSl_v (g : Group) (x y : Elem) : (g.pushSl x y).v = g.v := rfl
@[simp] theorem Group.pushSl_s (g : Group) (x y : Elem) : (g.pushSl x y).s = g.s := rfl
@[simp] theorem Group.pushSl_p (g : Group) (x y : Elem) : (g.pushSl x y).p = g.p := rfl
@[simp] theorem Group.pushSl_q (g : Group) (x y : Elem) : (g.pushSl x y).q = g.q := rfl
@[simp] theorem Group.pushSl_qPois (g : Group) (x y : Elem) : (g.pushSl x y).qPois = g.qPois := rfl
@[simp] theorem Group.pushSl_bl (g : Group) (x y : Elem) : (g.pushSl x y).bl = g.bl := rfl
@[simp] theorem Group.pushSl_sh (g : Group) (x y : Elem) : (g.pushSl x y).sh = g.sh := rfl
@[simp] theorem Group.pushSl_cnt (g : Group) (x y : Elem) : (g.pushSl x y).cnt = g.cnt := rfl
@[simp] theorem Group.pushSl_flights (g : Group) (x y : Elem) : (g.pushSl x y).flights = g.flights := rfl
@[simp] theorem Group.pushSl_frags (g : Group) (x y : Elem) : (g.pushSl x y).frags = g.frags := rfl
@[simp] theorem Group.pushSl_joins (g : Group) (x y : Elem) : (g.pushSl x y).joins = g.joins := rfl
@[simp] theorem Group.pushSl_sp (g : Group) (x y : Elem) : (g.pushSl x y).sp = g.sp := rfl
@[simp] theorem Group.pushSl_cur (g : Group) (x y : Elem) : (g.pushSl x y).cur = g.cur := rfl
@[simp] theorem Group.pushSl_issued (g : Group) (x y : Elem) : (g.pushSl x y).issued = g.issued := rfl
@[simp] theorem Group.pushSl_quantum (g : Group) (x y : Elem) : (g.pushSl x y).quantum = g.quantum := rfl
@[simp] theorem Group.pushSl_age (g : Group) (x y : Elem) : (g.pushSl x y).age = g.age := rfl
@[simp] theorem Group.pushSl_unselected (g : Group) (x y : Elem) : (g.pushSl x y).unselected = g.unselected := rfl
@[simp] theorem Group.pushSl_unselectedU (g : Group) (x y : Elem) : (g.pushSl x y).unselectedU = g.unselectedU := rfl
@[simp] theorem Group.pushSl_starved (g : Group) (x y : Elem) : (g.pushSl x y).starved = g.starved := rfl
@[simp] theorem Group.pushSl_clause (g : Group) (x y : Elem) : (g.pushSl x y).clause = g.clause := rfl
@[simp] theorem Group.pushSl_handler (g : Group) (x y : Elem) : (g.pushSl x y).handler = g.handler := rfl
@[simp] theorem Group.pushSl_stepping (g : Group) (x y : Elem) : (g.pushSl x y).stepping = g.stepping := rfl
@[simp] theorem Group.pushSl_haltPending (g : Group) (x y : Elem) : (g.pushSl x y).haltPending = g.haltPending := rfl
@[simp] theorem Group.pushSl_stopped (g : Group) (x y : Elem) : (g.pushSl x y).stopped = g.stopped := rfl
@[simp] theorem Group.pushSl_fail (g : Group) (x y : Elem) : (g.pushSl x y).fail = g.fail := rfl

end Sys2Proof.Machine
end

