-- ==== Sys2Proof/Laws/Run.lean ====
section
/-! SUPPORT. The frame in which every meaning runs: what issuing, completing and trapping can do, said once. -/

namespace Sys2Proof.Machine

open Sys2Proof

/-- A group as the issue of an instruction leaves it before its meaning acts (R67, R175). -/
def Group.counted (g : Group) : Group := { g with issued := g.issued + 1, unselected := 0, unselectedU := 0, starved := false }

/-- Two groups hold the same registers, predicates, latches, counters and special registers. -/
structure SameData (g h : Group) : Prop where
  v : h.v = g.v
  s : h.s = g.s
  p : h.p = g.p
  q : h.q = g.q
  qPois : h.qPois = g.qPois
  bl : h.bl = g.bl
  sl : h.sl = g.sl
  sh : h.sh = g.sh
  cnt : h.cnt = g.cnt
  sp : h.sp = g.sp
  fail : h.fail = g.fail
  kind : h.kind = g.kind
  port : h.port = g.port
  flights : h.flights.map (·.id) = g.flights.map (·.id)
  stepping : g.stepping = none → h.stepping = none

theorem SameData.refl (g : Group) : SameData g g := by constructor <;> first | rfl | exact id

theorem SameData.trans {a b c : Group} (h1 : SameData a b) (h2 : SameData b c) : SameData a c where
  v := h2.v.trans h1.v
  s := h2.s.trans h1.s
  p := h2.p.trans h1.p
  q := h2.q.trans h1.q
  qPois := h2.qPois.trans h1.qPois
  bl := h2.bl.trans h1.bl
  sl := h2.sl.trans h1.sl
  sh := h2.sh.trans h1.sh
  cnt := h2.cnt.trans h1.cnt
  sp := h2.sp.trans h1.sp
  fail := h2.fail.trans h1.fail
  kind := h2.kind.trans h1.kind
  port := h2.port.trans h1.port
  flights := h2.flights.trans h1.flights
  stepping := fun h => h2.stepping (h1.stepping h)

theorem renameTo_none (l : List Nat) (e : Nat) : renameTo l e none = none := rfl

theorem SameData.fuse (g : Group) (j : Nat) : SameData g (g.fuse j).1 := by
  unfold Group.fuse
  split
  · exact .refl g
  · simp only []
    split
    · exact .refl g
    · constructor <;> first | rfl | (intro h; simp [h, renameTo_none])

theorem SameData.parkTest (g : Group) (e n : Nat) : SameData g (g.parkTest e n) := by
  induction n generalizing g e with
  | zero => exact .refl g
  | succ n ih =>
    simp only [Group.parkTest]
    split
    · exact .refl g
    · rename_i f _
      split
      · exact .refl g
      · rename_i j _
        split
        · exact .refl g
        · rename_i jn _
          split
          · have h1 : SameData g { g.updFrag e fun f => { f with parked := true, pc := jn.rcv } with
                joins := mapSet j { jn with arrived := jn.arrived ||| f.own } g.joins } := by
              constructor <;> first | rfl | exact id
            split
            · split
              · rename_i g2 e' heq
                have := SameData.fuse { g.updFrag e fun f => { f with parked := true, pc := jn.rcv } with
                  joins := mapSet j { jn with arrived := jn.arrived ||| f.own } g.joins } j
                rw [heq] at this
                exact (h1.trans this).trans (ih _ _)
              · rename_i g2 heq
                have := SameData.fuse { g.updFrag e fun f => { f with parked := true, pc := jn.rcv } with
                  joins := mapSet j { jn with arrived := jn.arrived ||| f.own } g.joins } j
                rw [heq] at this
                exact h1.trans this
            · exact h1
          · exact .refl g

theorem SameData.rotateFrom (g : Group) (e c : Nat) : SameData g (g.rotateFrom e c) := by
  unfold Group.rotateFrom; split
  · constructor <;> first | rfl | exact id
  · exact .refl g

theorem SameData.settle (g : Group) (c : Nat) : SameData g (g.settle c) := by
  unfold Group.settle Group.rotate
  (repeat' split) <;> first | exact .refl g | exact .rotateFrom ..

theorem SameData.parkMove (g : Group) (e c : Nat) (b : Bool) : SameData g (g.parkMove e c b) := by
  unfold Group.parkMove; split
  · exact .rotateFrom ..
  · exact .refl g

theorem SameData.handlerGone (g : Group) : SameData g g.handlerGone := by
  unfold Group.handlerGone Group.release
  split
  · split
    · constructor <;> first | rfl | exact id
    · exact .refl g
  · exact .refl g

theorem SameData.updFrag (g : Group) (e : Nat) (f : Frag → Frag) : SameData g (g.updFrag e f) := by
  constructor <;> first | rfl | exact id

theorem SameData.endClause (g : Group) (e : Nat) : SameData g (g.endClause e) := by
  have off : ∀ h : Group, SameData g h → SameData g { h with clause := none, flights := g.flights.map fun f => { f with inClause := false } } := by
    intro h k; exact ⟨k.v, k.s, k.p, k.q, k.qPois, k.bl, k.sl, k.sh, k.cnt, k.sp, k.fail, k.kind, k.port, by simp [Function.comp_def], k.stepping⟩
  have halt : ∀ b : Bool, SameData g (if b then g.updFrag e fun f => { f with halted := true } else g) := by
    intro b; cases b
    · exact .refl g
    · exact .updFrag ..
  exact off _ (halt _)

theorem SameData.countMember (g : Group) (e : Nat) (b : Bool) : SameData g (g.countMember e b) := by
  unfold Group.countMember
  split
  · exact .refl g
  · have last : ∀ g1 : Group, SameData g g1 → SameData g (if g1.inClause e then g1 else g1.updFrag e fun f => { f with exempt := false }) := by
      intro g1 h
      split
      · exact h
      · exact h.trans (.updFrag ..)
    apply last
    split
    · split
      · split
        · exact .endClause ..
        · constructor <;> first | rfl | exact id
      · exact .refl g
    · exact .refl g

/-- The end of an instruction changes the fragments of its group and nothing they compute with. -/
theorem SameData.finish (g : Group) (e : Nat) (pc next : Dword) (ctl : Ctl) (b : Bool) (c : Nat) :
    SameData g (g.finish e pc next ctl b c) := by
  unfold Group.finish
  refine SameData.trans ?_ (.settle _ _)
  refine SameData.trans ?_ (.parkMove _ _ _ _)
  refine SameData.trans ?_ (.handlerGone _)
  refine SameData.trans (.countMember g e b) ?_
  split
  · exact .refl _
  · split
    · exact .refl _
    · simp only []
      split
      · constructor <;> first | rfl | exact id
      · exact SameData.trans (by constructor <;> first | rfl | exact id) (.parkTest _ _ _)

@[simp] theorem rotateFrom_frags (g : Group) (e c : Nat) : (g.rotateFrom e c).frags = g.frags := by
  unfold Group.rotateFrom; split <;> rfl

@[simp] theorem settle_frags (g : Group) (c : Nat) : (g.settle c).frags = g.frags := by
  unfold Group.settle Group.rotate; (repeat' split) <;> simp

@[simp] theorem parkMove_frags (g : Group) (e c : Nat) (b : Bool) : (g.parkMove e c b).frags = g.frags := by
  unfold Group.parkMove; split <;> simp

/-- A fragment in which only the mark of a halt and the exemption from breakpoints may differ. -/
def SameBut (f h : Frag) : Prop := h = { f with halted := h.halted, exempt := h.exempt }

theorem updFrag_frag {g : Group} {e k : Nat} {f : Frag} {u : Frag → Frag} (h : mapGet? e g.frags = some f) (hu : ∀ x, SameBut x (u x)) :
    ∃ f', mapGet? e (g.updFrag k u).frags = some f' ∧ SameBut f f' := by
  unfold Group.updFrag
  by_cases hk : e = k
  · subst hk; exact ⟨u f, by simp [mapGet?_mapUpd_self, h], hu f⟩
  · exact ⟨f, by rw [← h]; exact mapGet?_mapUpd_ne hk .., rfl⟩

theorem SameBut.trans {a b c : Frag} (h1 : SameBut a b) (h2 : SameBut b c) : SameBut a c := by
  unfold SameBut at *; rw [h2, h1]

theorem countMember_frag {g : Group} {e : Nat} {f : Frag} (b : Bool) (h : mapGet? e g.frags = some f) :
    ∃ f', mapGet? e (g.countMember e b).frags = some f' ∧ SameBut f f' := by
  have last : ∀ g1 : Group, (∃ f', mapGet? e g1.frags = some f' ∧ SameBut f f') →
      ∃ f', mapGet? e (if g1.inClause e then g1 else g1.updFrag e fun f => { f with exempt := false }).frags = some f' ∧ SameBut f f' := by
    rintro g1 ⟨f1, h1, s1⟩
    split
    · exact ⟨f1, h1, s1⟩
    · obtain ⟨f2, h2, s2⟩ := updFrag_frag (k := e) (u := fun f => { f with exempt := false }) h1 fun _ => rfl
      exact ⟨f2, h2, s1.trans s2⟩
  unfold Group.countMember
  split
  · exact ⟨f, h, rfl⟩
  · apply last
    split
    · split
      · split
        · unfold Group.endClause
          have halt : ∀ b : Bool, ∃ f', mapGet? e (if b then g.updFrag e fun f => { f with halted := true } else g).frags = some f' ∧ SameBut f f' := by
            intro b; cases b
            · exact ⟨f, h, rfl⟩
            · exact updFrag_frag (k := e) (u := fun f => { f with halted := true }) h fun _ => rfl
          exact halt _
        · exact ⟨f, h, rfl⟩
      · exact ⟨f, h, rfl⟩
    · exact ⟨f, h, rfl⟩

theorem loopStep_sameBut {f h : Frag} (s : SameBut f h) (a n : Dword) : (loopStep h a n).2 = (loopStep f a n).2 := by
  unfold SameBut at s; rw [s]; unfold loopStep; simp only []; (repeat' split) <;> simp_all

theorem after_sameBut {f h : Frag} (s : SameBut f h) (pc next : Dword) (ctl : Ctl) : (h.after pc next ctl).2 = (f.after pc next ctl).2 := by
  cases ctl <;> simp only [Frag.after]
  · exact loopStep_sameBut s pc next
  all_goals (unfold SameBut at s; rw [s])

theorem handlerGone_frag {g : Group} {e : Nat} {f : Frag} (h : mapGet? e g.frags = some f) :
    ∃ f', mapGet? e g.handlerGone.frags = some f' ∧ f'.pc = f.pc := by
  unfold Group.handlerGone
  split
  · split
    · refine ⟨{ f with halted := false }, ?_, rfl⟩
      have := mapGet?_map e (fun f : Frag => { f with halted := false }) g.frags
      rw [h] at this
      exact this
    · exact ⟨f, h, rfl⟩
  · exact ⟨f, h, rfl⟩

theorem loopStep_jtop (f : Frag) (a n : Dword) : (loopStep f a n).1.jtop = f.jtop := by
  unfold loopStep; simp only []; (repeat' split) <;> rfl

/-- A fragment without a join goes where the instruction leads. -/
theorem finish_pc (g : Group) (e : Nat) (pc next : Dword) (ctl : Ctl) (b : Bool) (c : Nat) (f : Frag)
    (hf : mapGet? e g.frags = some f) (hj : f.jtop = none) (hctl : ctl ≠ .done) :
    ∃ f', mapGet? e (g.finish e pc next ctl b c).frags = some f' ∧ f'.pc = (f.after pc next ctl).2 := by
  obtain ⟨f0, h0, s0⟩ := countMember_frag b hf
  have hj0 : f0.jtop = none := by unfold SameBut at s0; rw [s0]; exact hj
  have hj' : (f0.after pc next ctl).1.jtop = none := by
    cases ctl <;> simp [Frag.after, loopStep_jtop, hj0]
  have fin : ∀ g1 : Group × Bool, mapGet? e g1.1.frags = some { (f0.after pc next ctl).1 with pc := (f0.after pc next ctl).2, wait := .none } →
      ∃ f', mapGet? e ((g1.1.handlerGone.parkMove e c g1.2).settle c).frags = some f' ∧ f'.pc = (f.after pc next ctl).2 := by
    intro g1 h1
    simp only [settle_frags, parkMove_frags]
    obtain ⟨f', h2, h3⟩ := handlerGone_frag h1
    exact ⟨f', h2, h3.trans (after_sameBut s0 ..)⟩
  have hset := mapGet?_mapSet_self e { (f0.after pc next ctl).1 with pc := (f0.after pc next ctl).2, wait := .none } (g.countMember e b).frags
  have test : ∀ h : Group, mapGet? e h.frags = some { (f0.after pc next ctl).1 with pc := (f0.after pc next ctl).2, wait := .none } →
      h.parkTest e 33 = h := by
    intro h hh; simp only [Group.parkTest, hh, hj']
  unfold Group.finish
  cases ctl with
  | done => exact absurd rfl hctl
  | _ =>
    simp only [h0]
    apply fin
    split
    · exact hset
    · rw [test _ hset]; exact hset

theorem group?_eq {s : State} {t i : Nat} {tm : Team} {g : Group} (ht : mapGet? t s.teams = some tm) (hg : mapGet? i tm.groups = some g) :
    s.group? t i = some (tm, g) := by
  simp [State.group?, ht, hg]

/-- A group of the state changed in place. -/
theorem OnlyGroup.of_teams {s s' : State} {iss : Issuer} {t : Team} {h : Group} {gs : Map Group}
    (ht : mapGet? iss.team s.teams = some t)
    (hrest : s' = { s with teams := s'.teams, fresh := s'.fresh })
    (hother : ∀ k, k ≠ iss.team → mapGet? k s'.teams = mapGet? k s.teams)
    (hteam : mapGet? iss.team s'.teams = some { t with groups := gs })
    (hg : ∀ k, k ≠ iss.gix → mapGet? k gs = mapGet? k t.groups) (hh : mapGet? iss.gix gs = some h) : OnlyGroup s s' iss h :=
  ⟨hrest, hother, t, _, ht, hteam, rfl, hg, hh⟩

/-- What a state must show to count as another one with one group changed; used forwards by the lemmas below. -/
structure GroupIs (s s' : State) (iss : Issuer) (t : Team) (h : Group) : Prop where
  rest : s' = { s with teams := s'.teams, fresh := s'.fresh }
  other : ∀ k, k ≠ iss.team → mapGet? k s'.teams = mapGet? k s.teams
  team : ∃ gs, mapGet? iss.team s'.teams = some { t with groups := gs } ∧
    (∀ k, k ≠ iss.gix → mapGet? k gs = mapGet? k t.groups) ∧ mapGet? iss.gix gs = some h

theorem GroupIs.only {s s' : State} {iss : Issuer} {t : Team} {h : Group} (ht : mapGet? iss.team s.teams = some t)
    (k : GroupIs s s' iss t h) : OnlyGroup s s' iss h := by
  obtain ⟨gs, h1, h2, h3⟩ := k.team
  exact .of_teams ht k.rest k.other h1 h2 h3

theorem GroupIs.refl {s : State} {iss : Issuer} {t : Team} {g : Group} (ht : mapGet? iss.team s.teams = some t)
    (hg : mapGet? iss.gix t.groups = some g) : GroupIs s s iss t g :=
  ⟨rfl, fun _ _ => rfl, t.groups, ht, fun _ _ => rfl, hg⟩

theorem GroupIs.group? {s s' : State} {iss : Issuer} {t : Team} {h : Group} (k : GroupIs s s' iss t h) :
    ∃ gs, s'.group? iss.team iss.gix = some ({ t with groups := gs }, h) := by
  obtain ⟨gs, h1, _, h3⟩ := k.team
  exact ⟨gs, group?_eq h1 h3⟩

theorem GroupIs.updGroup {s s' : State} {iss : Issuer} {t : Team} {h : Group} (k : GroupIs s s' iss t h) (f : Group → Group) :
    GroupIs s (s'.updGroup iss.team iss.gix f) iss t (f h) := by
  obtain ⟨gs, h1, h2, h3⟩ := k.team
  refine ⟨?_, ?_, mapUpd iss.gix f gs, ?_, ?_, ?_⟩
  · rw [k.rest]; rfl
  · intro j hj; simp only [State.updGroup]; rw [mapGet?_mapUpd_ne hj]; exact k.other j hj
  · simp [State.updGroup, mapGet?_mapUpd_self, h1]
  · intro j hj; rw [mapGet?_mapUpd_ne hj]; exact h2 j hj
  · simp [mapGet?_mapUpd_self, h3]

theorem GroupIs.setGroup {s s' : State} {iss : Issuer} {t : Team} {h : Group} (k : GroupIs s s' iss t h) (g : Group) :
    GroupIs s (s'.setGroup iss.team iss.gix g) iss t g := by
  obtain ⟨gs, h1, h2, h3⟩ := k.team
  refine ⟨?_, ?_, mapSet iss.gix g gs, ?_, ?_, ?_⟩
  · rw [k.rest]; rfl
  · intro j hj; simp only [State.setGroup]; rw [mapGet?_mapUpd_ne hj]; exact k.other j hj
  · simp [State.setGroup, mapGet?_mapUpd_self, h1]
  · intro j hj; rw [mapGet?_mapSet_ne hj]; exact h2 j hj
  · simp

theorem GroupIs.fresh {s s' : State} {iss : Issuer} {t : Team} {h : Group} (k : GroupIs s s' iss t h) (n : Nat) :
    GroupIs s { s' with fresh := n } iss t h :=
  ⟨by rw [k.rest], k.other, k.team⟩

theorem GroupIs.countIssue {s s' : State} {iss : Issuer} {t : Team} {h : Group} (k : GroupIs s s' iss t h) :
    GroupIs s (countIssue s' iss) iss t h.counted := (k.updGroup _).fresh _

/-- The front of an instruction that issues: its meaning is reached. -/
theorem begin_go {o : Op} {x : Args} {s : State} {iss : Issuer} {t : Team} {g : Group} {f : Frag} (h : Issues o x s iss t g f) :
    begin' o x s = .go (envOf o x s iss t g f) f := by
  have h1 := h.placed
  have h2 := h.guard
  have h3 := h.branch
  have h4 := h.allowed
  simp only [begin', h.cur, group?_eq h.team h.group, h.frag, h.ready, h.steady, h4, h.legal, h.clauseEnd, h.clear]
  cases hu : o.uniform with
  | false => simp [envOf, activeOf, guardBad, hu, nextOf, Option.isSome_iff_ne_none.1 h1]
  | true =>
    have h5 : ¬((guardU g x).2 = true ∧ isBranch o = true) := by
      intro hh; have := h3 hh.2; simp [guardBad, hu, hh.1] at this
    have h6 := h2 hu
    cases hg : (guardU g x).2 <;> cases hb : isBranch o <;>
      simp_all [envOf, activeOf, guardBad, nextOf, Option.isSome_iff_ne_none.1 h1]

/-- Every meaning that issues is its body in the frame of `run`. -/
theorem run_issues {o : Op} {x : Args} {s : State} {iss : Issuer} {t : Team} {g : Group} {f : Frag} (h : Issues o x s iss t g f)
    (body : Env → State → Except Stop (State × Ctl)) :
    run o x s body = match body (envOf o x s iss t g f) (countIssue s iss) with
      | .ok (s2, ctl) =>
        if g.inClause iss.entry && s2.parked iss.team iss.gix then .next (s2.interrupt iss.team iss.gix)
        else .next (complete (countIssue s iss) (envOf o x s iss t g f) f s2 ctl (decide (o = .clause ∨ o = .rte)))
      | .error (.trap tr) => .next (takeTrap (countIssue s iss) iss f.pc (nextOf x f) (activeOf o x g f) tr)
      | .error .stall => .next s := by
  simp only [run, begin_go h]; rfl

theorem afterStep_none {s : State} {t i : Nat} {tm : Team} {g : Group} (h : s.group? t i = some (tm, g)) (hs : g.stepping = none) :
    afterStep s t i = s := by
  simp [afterStep, h, hs]

/-- An instruction that changes its group alone completes. -/
theorem complete_group {o : Op} {x : Args} {s : State} {iss : Issuer} {t : Team} {g g1 : Group} {f : Frag}
    {s0 s2 : State} {ctl : Ctl} {opened : Bool} (k : GroupIs s s2 iss t g1) (hs : g1.stepping = none)
    (hok : ∀ p, leadsTo f f.pc (nextOf x f) ctl = some p → badAddr p = false) (hctl : ctl ≠ .hold) :
    ∃ h', GroupIs s (complete s0 (envOf o x s iss t g f) f s2 ctl opened) iss t h' ∧ SameData g1 h' ∧
      ∀ f1, mapGet? iss.entry g1.frags = some f1 → f1.jtop = none → ctl ≠ .done →
        ∃ f', mapGet? iss.entry h'.frags = some f' ∧ f'.pc = (f1.after f.pc (nextOf x f) ctl).2 := by
  have fin : ∃ h', GroupIs s (finish s2 iss f.pc (nextOf x f) ctl opened) iss t h' ∧ SameData g1 h' ∧
      ∀ f1, mapGet? iss.entry g1.frags = some f1 → f1.jtop = none → ctl ≠ .done →
        ∃ f', mapGet? iss.entry h'.frags = some f' ∧ f'.pc = (f1.after f.pc (nextOf x f) ctl).2 := by
    refine ⟨g1.finish iss.entry f.pc (nextOf x f) ctl opened s2.clock, ?_, .finish .., fun f1 hf1 hj hd => finish_pc _ _ _ _ _ _ _ f1 hf1 hj hd⟩
    have k2 := k.updGroup fun g => g.finish iss.entry f.pc (nextOf x f) ctl opened s2.clock
    unfold finish
    simp only []
    split
    · exact k2
    · obtain ⟨gs, hg⟩ := k2.group?
      rw [afterStep_none hg ((SameData.finish ..).stepping hs)]
      exact k2
  unfold complete
  cases hl : leadsTo f f.pc (nextOf x f) ctl with
  | none =>
    simp only [envOf, hl]
    cases ctl with
    | hold => exact absurd rfl hctl
    | _ => exact fin
  | some p =>
    simp only [envOf, hl, hok p hl]
    exact fin

/-- The group before the instruction, as its meaning sees it. -/
theorem countIssue_group? {o : Op} {x : Args} {s : State} {iss : Issuer} {t : Team} {g : Group} {f : Frag} (h : Issues o x s iss t g f) :
    ∃ tm, (countIssue s iss).group? iss.team iss.gix = some (tm, g.counted) := by
  obtain ⟨gs, hg⟩ := ((GroupIs.refl h.team h.group).countIssue).group?
  exact ⟨_, hg⟩

/-- What a meaning that changes its group alone is given. -/
def groupEnv (o : Op) (x : Args) (s : State) (iss : Issuer) (t : Team) (g : Group) (f : Frag) : Env :=
  ⟨iss, o, x, t.cfg, g.counted, f.pc, nextOf x f, activeOf o x g f, guardBad o x g, s.fresh, s.clock⟩

/-- A meaning that changes its group alone, and goes on. -/
theorem runG_completes {o : Op} {x : Args} {s : State} {iss : Issuer} {t : Team} {g : Group} {f : Frag} (h : Issues o x s iss t g f)
    {body : Env → Except Stop (Group × Ctl)} {g1 : Group} {ctl : Ctl}
    (hb : body (groupEnv o x s iss t g f) = .ok (g1, ctl)) (hs : g1.stepping = none)
    (hok : ∀ p, leadsTo f f.pc (nextOf x f) ctl = some p → badAddr p = false) (hctl : ctl ≠ .hold) :
    ∃ s' h', runG o x s body = .next s' ∧ OnlyGroup s s' iss h' ∧ SameData g1 h' ∧
      ∀ f1, mapGet? iss.entry g1.frags = some f1 → f1.jtop = none → ctl ≠ .done →
        ∃ f', mapGet? iss.entry h'.frags = some f' ∧ f'.pc = (f1.after f.pc (nextOf x f) ctl).2 := by
  obtain ⟨tm, hg⟩ := countIssue_group? h
  have k := ((GroupIs.refl h.team h.group).countIssue).setGroup g1
  obtain ⟨h', k', sd, pc⟩ := complete_group (o := o) (g := g) (s0 := countIssue s iss) (opened := decide (o = .clause ∨ o = .rte)) k hs hok hctl
  refine ⟨_, h', ?_, k'.only h.team, sd, pc⟩
  unfold runG
  rw [run_issues h]
  unfold groupEnv at hb
  have hp : ((countIssue s iss).setGroup iss.team iss.gix g1).parked iss.team iss.gix = false := h.walked
  simp only [envOf, hg, hb, hp, Bool.and_false]
  rfl

end Sys2Proof.Machine
end

