-- ==== Sys2Proof/Laws/Lane.lean ====
section
/-! SUPPORT. What the two frames of computing lane instructions write, and what they leave alone. -/

namespace Sys2Proof.Machine

open Sys2Proof

theorem laneAt_lanesTab (f : Nat → Elem) {l : Nat} (h : l < 32) : laneAt (lanesTab f) l = f l := by
  simp [laneAt, lanesTab, List.getD_eq_getElem?_getD, h]

theorem laneAt_zero (l : Nat) : laneAt Lanes.zero l = Elem.zero := by
  simp only [laneAt, Lanes.zero, List.getD_eq_getElem?_getD, List.getElem?_replicate]
  split <;> rfl

theorem laneAt_merge (m : Mask) (a b : Lanes) {l : Nat} (h : l < 32) :
    laneAt (mergeLanes m a b) l = if inMask m l then laneAt a l else laneAt b l := by
  simp [mergeLanes, laneAt_lanesTab _ h]

theorem vreg_setV_self (g : Group) (r : Nat) (m : Mask) (x : Lanes) : (g.setV r m x).vreg r = mergeLanes m x (g.vreg r) := by
  simp [Group.vreg, Group.setV]

theorem vreg_setV_ne {g : Group} {r k : Nat} (h : k ≠ r) (m : Mask) (x : Lanes) : (g.setV r m x).vreg k = g.vreg k := by
  simp only [Group.vreg, Group.setV]
  exact mapGetD_mapSet_ne h _ _ _

theorem holds_laneOut (e : Env) (l : Nat) (p : Bool) (x : Nat) : (laneOut e l p x).holds (if p then none else some x) := by
  cases p <;> simp [laneOut, Elem.holds, elemOf]

/-- One 32-bit result in each active lane, written and pushed. -/
theorem outV_wrote (g : Group) (d : Fld) (m : Mask) (x : Lanes) (r : Nat → Option Nat)
    (h : ∀ l, l < 32 → inMask m l = true → (laneAt x l).holds (r l)) : LaneWrote g (g.outV d m x) d m r where
  written := by
    rintro n rfl l hl
    simp only [Group.outV, Group.vreg, Group.pushBl]
    have := laneAt_merge m x (g.vreg n.toNat) hl
    rw [← vreg_setV_self] at this
    simp only [Group.vreg] at this
    split
    · rename_i hm; rw [this, if_pos hm]; exact h l hl hm
    · rename_i hm; rw [this, if_neg hm]
  others := by
    intro k hk
    cases d with
    | v n => exact vreg_setV_ne (Ne.symm (hk n rfl)) m x
    | _ => rfl
  latch := by
    refine ⟨⟨mergeLanes m x Lanes.zero, mergeLanes m Lanes.zero Lanes.zero⟩, ?_, ?_⟩
    · cases d <;> rfl
    · intro l hl
      rw [laneAt_merge _ _ _ hl]
      split
      · rename_i hm; exact h l hl hm
      · exact laneAt_zero l

/-- What an output to vector registers leaves alone. -/
theorem outV_frame (g : Group) (d : Fld) (m : Mask) (x : Lanes) :
    LaneFrame g (g.outV d m x) ∧ (g.outV d m x).p = g.p ∧ (g.outV d m x).sp = g.sp := by
  cases d <;> exact ⟨⟨⟨rfl, rfl⟩, ⟨rfl, rfl⟩, rfl, ⟨rfl, rfl, rfl, rfl, rfl⟩⟩, rfl, rfl⟩

theorem outV_wrote2 (g : Group) (d : Fld) (m : Mask) (lo hi : Lanes) (r q : Nat → Option Nat)
    (h : ∀ l, l < 32 → inMask m l = true → (laneAt lo l).holds (r l) ∧ (laneAt hi l).holds (q l)) :
    LaneWrote2 g (g.outV2 d m lo hi) d m r q where
  written := by
    rintro n rfl l hl
    have h1 : (g.outV2 (.v n) m lo hi).vreg n.toNat = mergeLanes m lo (g.vreg n.toNat) := by
      simp only [Group.outV2]
      show ((g.setV n.toNat m lo).setV (n.toNat + 1) m hi).vreg n.toNat = _
      rw [vreg_setV_ne (by omega), vreg_setV_self]
    have h2 : (g.outV2 (.v n) m lo hi).vreg (n.toNat + 1) = mergeLanes m hi (g.vreg (n.toNat + 1)) := by
      show ((g.setV n.toNat m lo).setV (n.toNat + 1) m hi).vreg (n.toNat + 1) = _
      rw [vreg_setV_self, vreg_setV_ne (by omega)]
    rw [h1, h2, laneAt_merge _ _ _ hl, laneAt_merge _ _ _ hl]
    split
    · rename_i hm; simpa [hm] using h l hl hm
    · simp
  others := by
    intro k hk
    cases d with
    | v n =>
      show ((g.setV n.toNat m lo).setV (n.toNat + 1) m hi).vreg k = _
      rw [vreg_setV_ne (Ne.symm (hk n rfl).2), vreg_setV_ne (Ne.symm (hk n rfl).1)]
    | _ => rfl
  latch := by
    refine ⟨⟨mergeLanes m lo Lanes.zero, mergeLanes m hi Lanes.zero⟩, ?_, ?_⟩
    · cases d <;> rfl
    · intro l hl
      rw [laneAt_merge _ _ _ hl, laneAt_merge _ _ _ hl]
      split
      · rename_i hm; simpa [hm] using h l hl hm
      · simp [laneAt_zero]

theorem outV2_frame (g : Group) (d : Fld) (m : Mask) (lo hi : Lanes) :
    LaneFrame g (g.outV2 d m lo hi) ∧ (g.outV2 d m lo hi).p = g.p ∧ (g.outV2 d m lo hi).sp = g.sp := by
  cases d <;> exact ⟨⟨⟨rfl, rfl⟩, ⟨rfl, rfl⟩, rfl, ⟨rfl, rfl, rfl, rfl, rfl⟩⟩, rfl, rfl⟩

/-- The statements above read the same of groups that agree on the data they speak of. -/
theorem LaneWrote.congr {g g' h h' : Group} {d : Fld} {m : Mask} {r r' : Nat → Option Nat} (w : LaneWrote g h d m r)
    (hg : g'.v = g.v) (hgb : g'.bl = g.bl) (hh : h'.v = h.v) (hb : h'.bl = h.bl) (hr : ∀ l, l < 32 → r' l = r l) : LaneWrote g' h' d m r' where
  written := by
    intro n hn l hl
    have := w.written n hn l hl
    simp only [Group.vreg, hg, hh, hr l hl] at this ⊢
    exact this
  others := by
    intro k hk
    have := w.others k hk
    simp only [Group.vreg, hg, hh] at this ⊢
    exact this
  latch := by
    obtain ⟨la, h1, h2⟩ := w.latch
    exact ⟨la, by rw [hb, h1, hgb], fun l hl => by have := h2 l hl; rwa [hr l hl]⟩

theorem LaneWrote2.congr {g g' h h' : Group} {d : Fld} {m : Mask} {r r' q q' : Nat → Option Nat} (w : LaneWrote2 g h d m r q)
    (hg : g'.v = g.v) (hgb : g'.bl = g.bl) (hh : h'.v = h.v) (hb : h'.bl = h.bl) (hr : ∀ l, l < 32 → r' l = r l)
    (hq : ∀ l, l < 32 → q' l = q l) : LaneWrote2 g' h' d m r' q' where
  written := by
    intro n hn l hl
    have := w.written n hn l hl
    simp only [Group.vreg, hg, hh, hr l hl, hq l hl] at this ⊢
    exact this
  others := by
    intro k hk
    have := w.others k hk
    simp only [Group.vreg, hg, hh] at this ⊢
    exact this
  latch := by
    obtain ⟨la, h1, h2⟩ := w.latch
    exact ⟨la, by rw [hb, h1, hgb], fun l hl => by have := h2 l hl; rwa [hr l hl, hq l hl]⟩

theorem mem_lanesOf {m : Mask} {l : Nat} : l ∈ lanesOf m ↔ l < 32 ∧ inMask m l = true := by
  simp [lanesOf, inMask, List.mem_filter]

theorem foldl_congr {α β : Type} (f g : α → β → α) (xs : List β) (a : α) (h : ∀ a, ∀ b ∈ xs, f a b = g a b) :
    xs.foldl f a = xs.foldl g a := by
  induction xs generalizing a with
  | nil => rfl
  | cons x xs ih =>
    simp only [List.foldl_cons, h a x (List.mem_cons_self ..)]
    exact ih _ fun a b hb => h a b (List.mem_cons_of_mem _ hb)

theorem gatherFlags_eq (m : Mask) (f : Nat → LaneRes) (fl : Nat → Nat)
    (h : ∀ l, l < 32 → inMask m l = true → (if (f l).pois then 0 else (f l).fl) = fl l) : gatherFlags m f = unionFlags m fl := by
  unfold gatherFlags unionFlags
  apply foldl_congr
  intro a l hl
  obtain ⟨h1, h2⟩ := mem_lanesOf.1 hl
  rw [← h l h1 h2]
  simp only []
  split <;> simp

/-- What a lane instruction with one 32-bit result does to its group. -/
theorem laneStep_spec (e : Env) (sr : Bool) (f : Nat → LaneRes) :
    LaneWrote e.g (laneStep e sr f) e.x.d e.act (fun l => if (f l).pois then none else some (f l).val) ∧
      LaneFrame e.g (laneStep e sr f) ∧ (laneStep e sr f).p = e.g.p ∧ (laneStep e sr f).stepping = e.g.stepping ∧
      (laneStep e sr f).frags = e.g.frags ∧
      SpecialAfter e.g (laneStep e sr f) (gatherFlags e.act f) (sr && decide (rndOf e.x = .sr) && decide (e.act ≠ 0#32)) := by
  have w := outV_wrote e.g e.x.d e.act (lanesTab fun l => if inMask e.act l then (let r := f l; laneOut e l r.pois r.val) else Elem.zero)
    (fun l => if (f l).pois then none else some (f l).val)
    (fun l hl hm => by rw [laneAt_lanesTab _ hl, if_pos hm]; exact holds_laneOut ..)
  have fr := outV_frame e.g e.x.d e.act (lanesTab fun l => if inMask e.act l then (let r := f l; laneOut e l r.pois r.val) else Elem.zero)
  obtain ⟨⟨hu, hq, hsh, ha⟩, hp, hsp⟩ := fr
  have hfr : ∀ (d : Fld) x, (e.g.outV d e.act x).frags = e.g.frags ∧ (e.g.outV d e.act x).stepping = e.g.stepping := by
    intro d x; cases d <;> exact ⟨rfl, rfl⟩
  unfold laneStep
  simp only []
  split <;> rename_i hc
  · refine ⟨w.congr rfl rfl rfl rfl (fun _ _ => rfl), ⟨⟨hu.s, hu.sl⟩, ⟨hq.q, hq.qPois⟩, hsh, ⟨ha.cnt, ha.fail, ha.flights, ha.kind, ha.port⟩⟩,
      hp, (hfr _ _).2, (hfr _ _).1, ?_⟩
    simp only [SpecialAfter, if_pos hc, Group.stepRng, Group.raise, hsp]
  · refine ⟨w.congr rfl rfl rfl rfl (fun _ _ => rfl), ⟨⟨hu.s, hu.sl⟩, ⟨hq.q, hq.qPois⟩, hsh, ⟨ha.cnt, ha.fail, ha.flights, ha.kind, ha.port⟩⟩,
      hp, (hfr _ _).2, (hfr _ _).1, ?_⟩
    simp only [SpecialAfter, if_neg hc, Group.raise, hsp]

/-- A statement about a meaning's group, read of the group that its completion leaves. -/
theorem LaneWrote.after {g g1 h : Group} {d : Fld} {m : Mask} {r : Nat → Option Nat} (w : LaneWrote g.counted g1 d m r)
    (sd : SameData g1 h) : LaneWrote g h d m r := w.congr rfl rfl sd.v sd.bl fun _ _ => rfl
theorem LaneWrote2.after {g g1 h : Group} {d : Fld} {m : Mask} {r q : Nat → Option Nat} (w : LaneWrote2 g.counted g1 d m r q)
    (sd : SameData g1 h) : LaneWrote2 g h d m r q := w.congr rfl rfl sd.v sd.bl (fun _ _ => rfl) fun _ _ => rfl
theorem SameLane.after {g g1 h : Group} (w : SameLane g.counted g1) (sd : SameData g1 h) : SameLane g h :=
  ⟨sd.v.trans w.v, sd.bl.trans w.bl⟩
theorem SameUniform.after {g g1 h : Group} (w : SameUniform g.counted g1) (sd : SameData g1 h) : SameUniform g h :=
  ⟨sd.s.trans w.s, sd.sl.trans w.sl⟩
theorem SameQ.after {g g1 h : Group} (w : SameQ g.counted g1) (sd : SameData g1 h) : SameQ g h :=
  ⟨sd.q.trans w.q, sd.qPois.trans w.qPois⟩
theorem SameAccesses.after {g g1 h : Group} (w : SameAccesses g.counted g1) (sd : SameData g1 h) : SameAccesses g h :=
  ⟨sd.cnt.trans w.cnt, sd.fail.trans w.fail, sd.flights.trans w.flights, sd.kind.trans w.kind, sd.port.trans w.port⟩
theorem LaneFrame.after {g g1 h : Group} (w : LaneFrame g.counted g1) (sd : SameData g1 h) : LaneFrame g h :=
  ⟨w.uniform.after sd, w.q.after sd, sd.sh.trans w.sh, w.acc.after sd⟩
theorem UniformFrame.after {g g1 h : Group} (w : UniformFrame g.counted g1) (sd : SameData g1 h) : UniformFrame g h :=
  ⟨w.lane.after sd, sd.p.trans w.p, sd.sh.trans w.sh, w.acc.after sd⟩
theorem SpecialAfter.after {g g1 h : Group} {fl : Nat} {b : Bool} (w : SpecialAfter g.counted g1 fl b) (sd : SameData g1 h) :
    SpecialAfter g h fl b := sd.sp.trans w

/-- A meaning that changes its group alone and goes on to the next address. -/
theorem runG_seq {i : Instr} {o : Op} {x : Args} {s : State} {iss : Issuer} {t : Team} {g : Group} {f : Frag} (h : Issues o x s iss t g f)
    (hs : g.stepping = none) (hok : badAddr (afterOf x f) = false) {body : Env → Except Stop (Group × Ctl)} {g1 : Group}
    (he : exec i s = runG o x s body) (hb : body (groupEnv o x s iss t g f) = .ok (g1, .seq))
    (h1 : g1.stepping = g.stepping) (h2 : g1.frags = g.frags) {P : Group → Prop} (hp : ∀ h, SameData g1 h → P h) :
    Completes i s iss f (afterOf x f) P := by
  obtain ⟨s', h', e1, e2, e3, e4⟩ := runG_completes h hb (h1.trans hs) (by intro p hp; simp only [leadsTo] at hp; cases hp; exact hok)
    (by simp)
  refine ⟨s', h', he.trans e1, e2, hp _ e3, fun hj => ?_⟩
  exact e4 f (by rw [h2]; exact h.frag) hj (by simp)

/-- A lane instruction with one 32-bit result completes. -/
theorem runLane_completes {i : Instr} {o : Op} {x : Args} {s : State} {iss : Issuer} {t : Team} {g : Group} {f : Frag}
    (h : Issues o x s iss t g f) (hs : g.stepping = none) (hok : badAddr (afterOf x f) = false) {sr : Bool} {fn : Env → Nat → LaneRes}
    (he : exec i s = runLane o x s sr fn) {r : Nat → Option Nat} {fl : Nat → Nat}
    (hr : ∀ l, l < 32 → (if (fn (groupEnv o x s iss t g f) l).pois then none else some (fn (groupEnv o x s iss t g f) l).val) = r l)
    (hf : ∀ l, l < 32 → (if (fn (groupEnv o x s iss t g f) l).pois then 0 else (fn (groupEnv o x s iss t g f) l).fl) = fl l) :
    Completes i s iss f (afterOf x f) fun h' =>
      LaneWrote g h' x.d (activeOf o x g f) r ∧ LaneFrame g h' ∧ h'.p = g.p ∧
        SpecialAfter g h' (unionFlags (activeOf o x g f) fl) (sr && decide (rndOf x = .sr) && decide (activeOf o x g f ≠ 0#32)) := by
  obtain ⟨w, fr, hp, hst, hfr, hsp⟩ := laneStep_spec (groupEnv o x s iss t g f) sr (fn (groupEnv o x s iss t g f))
  rw [gatherFlags_eq _ _ fl fun l hl _ => hf l hl] at hsp
  refine runG_seq h hs hok he rfl hst hfr fun h' sd => ?_
  exact ⟨(w.after sd).congr rfl rfl rfl rfl fun l hl => (hr l hl).symm, fr.after sd, sd.p.trans hp, hsp.after sd⟩

end Sys2Proof.Machine
end

