-- ==== Sys2Proof/Laws/PerInstr.lean ====
section
/-! SUPPORT. Lemmas for each constructor of Instr. -/

open Sys2Proof

/-- The operation and the operand fields that an instruction splits into make it again; a step of a unit has none. -/
def Sys2Proof.Laws.SplitMk.Statement (i : Instr) : Prop := ∀ o x, i.split = some (o, x) → o.mk x = i

theorem Sys2Proof.Laws.SplitMk.of_split {i : Instr} {o : Op} {x : Args} (h : i.split = some (o, x)) (hm : o.mk x = i) :
    Sys2Proof.Laws.SplitMk.Statement i := by
  intro o' x' h'; rw [h] at h'; cases h'; exact hm

theorem Sys2Proof.Laws.SplitMk.of_none {i : Instr} (h : i.split = none) : Sys2Proof.Laws.SplitMk.Statement i := by
  intro o x h'; rw [h] at h'; cases h'

theorem Sys2Proof.Laws.SplitMk.fadd (x : Args) : Statement (.fadd x) := of_split rfl rfl
theorem Sys2Proof.Laws.SplitMk.fsub (x : Args) : Statement (.fsub x) := of_split rfl rfl
theorem Sys2Proof.Laws.SplitMk.fmul (x : Args) : Statement (.fmul x) := of_split rfl rfl
theorem Sys2Proof.Laws.SplitMk.ffma (x : Args) : Statement (.ffma x) := of_split rfl rfl
theorem Sys2Proof.Laws.SplitMk.fmin (x : Args) : Statement (.fmin x) := of_split rfl rfl
theorem Sys2Proof.Laws.SplitMk.fmax (x : Args) : Statement (.fmax x) := of_split rfl rfl
theorem Sys2Proof.Laws.SplitMk.fcmp (x : Args) : Statement (.fcmp x) := of_split rfl rfl
theorem Sys2Proof.Laws.SplitMk.frnd (x : Args) : Statement (.frnd x) := of_split rfl rfl
theorem Sys2Proof.Laws.SplitMk.ffrc (x : Args) : Statement (.ffrc x) := of_split rfl rfl
theorem Sys2Proof.Laws.SplitMk.fclass (x : Args) : Statement (.fclass x) := of_split rfl rfl
theorem Sys2Proof.Laws.SplitMk.frcp (x : Args) : Statement (.frcp x) := of_split rfl rfl
theorem Sys2Proof.Laws.SplitMk.frsq (x : Args) : Statement (.frsq x) := of_split rfl rfl
theorem Sys2Proof.Laws.SplitMk.fsqrt (x : Args) : Statement (.fsqrt x) := of_split rfl rfl
theorem Sys2Proof.Laws.SplitMk.fexp2 (x : Args) : Statement (.fexp2 x) := of_split rfl rfl
theorem Sys2Proof.Laws.SplitMk.flog2 (x : Args) : Statement (.flog2 x) := of_split rfl rfl
theorem Sys2Proof.Laws.SplitMk.fsin (x : Args) : Statement (.fsin x) := of_split rfl rfl
theorem Sys2Proof.Laws.SplitMk.fcos (x : Args) : Statement (.fcos x) := of_split rfl rfl
theorem Sys2Proof.Laws.SplitMk.fldexp (x : Args) : Statement (.fldexp x) := of_split rfl rfl
theorem Sys2Proof.Laws.SplitMk.padd2 (x : Args) : Statement (.padd2 x) := of_split rfl rfl
theorem Sys2Proof.Laws.SplitMk.pmul2 (x : Args) : Statement (.pmul2 x) := of_split rfl rfl
theorem Sys2Proof.Laws.SplitMk.pfma2 (x : Args) : Statement (.pfma2 x) := of_split rfl rfl
theorem Sys2Proof.Laws.SplitMk.pmin2 (x : Args) : Statement (.pmin2 x) := of_split rfl rfl
theorem Sys2Proof.Laws.SplitMk.pmax2 (x : Args) : Statement (.pmax2 x) := of_split rfl rfl
theorem Sys2Proof.Laws.SplitMk.pdot2 (x : Args) : Statement (.pdot2 x) := of_split rfl rfl
theorem Sys2Proof.Laws.SplitMk.iadd (x : Args) : Statement (.iadd x) := of_split rfl rfl
theorem Sys2Proof.Laws.SplitMk.iaddc (x : Args) : Statement (.iaddc x) := of_split rfl rfl
theorem Sys2Proof.Laws.SplitMk.isub (x : Args) : Statement (.isub x) := of_split rfl rfl
theorem Sys2Proof.Laws.SplitMk.isubb (x : Args) : Statement (.isubb x) := of_split rfl rfl
theorem Sys2Proof.Laws.SplitMk.imul (x : Args) : Statement (.imul x) := of_split rfl rfl
theorem Sys2Proof.Laws.SplitMk.imulh (x : Args) : Statement (.imulh x) := of_split rfl rfl
theorem Sys2Proof.Laws.SplitMk.imad (x : Args) : Statement (.imad x) := of_split rfl rfl
theorem Sys2Proof.Laws.SplitMk.imin (x : Args) : Statement (.imin x) := of_split rfl rfl
theorem Sys2Proof.Laws.SplitMk.imax (x : Args) : Statement (.imax x) := of_split rfl rfl
theorem Sys2Proof.Laws.SplitMk.iabs (x : Args) : Statement (.iabs x) := of_split rfl rfl
theorem Sys2Proof.Laws.SplitMk.and (x : Args) : Statement (.and x) := of_split rfl rfl
theorem Sys2Proof.Laws.SplitMk.or (x : Args) : Statement (.or x) := of_split rfl rfl
theorem Sys2Proof.Laws.SplitMk.xor (x : Args) : Statement (.xor x) := of_split rfl rfl
theorem Sys2Proof.Laws.SplitMk.not (x : Args) : Statement (.not x) := of_split rfl rfl
theorem Sys2Proof.Laws.SplitMk.shl (x : Args) : Statement (.shl x) := of_split rfl rfl
theorem Sys2Proof.Laws.SplitMk.shr (x : Args) : Statement (.shr x) := of_split rfl rfl
theorem Sys2Proof.Laws.SplitMk.sar (x : Args) : Statement (.sar x) := of_split rfl rfl
theorem Sys2Proof.Laws.SplitMk.rotl (x : Args) : Statement (.rotl x) := of_split rfl rfl
theorem Sys2Proof.Laws.SplitMk.bfe (x : Args) : Statement (.bfe x) := of_split rfl rfl
theorem Sys2Proof.Laws.SplitMk.bfi (x : Args) : Statement (.bfi x) := of_split rfl rfl
theorem Sys2Proof.Laws.SplitMk.popc (x : Args) : Statement (.popc x) := of_split rfl rfl
theorem Sys2Proof.Laws.SplitMk.clz (x : Args) : Statement (.clz x) := of_split rfl rfl
theorem Sys2Proof.Laws.SplitMk.ctz (x : Args) : Statement (.ctz x) := of_split rfl rfl
theorem Sys2Proof.Laws.SplitMk.brev (x : Args) : Statement (.brev x) := of_split rfl rfl
theorem Sys2Proof.Laws.SplitMk.icmp (x : Args) : Statement (.icmp x) := of_split rfl rfl
theorem Sys2Proof.Laws.SplitMk.sel (x : Args) : Statement (.sel x) := of_split rfl rfl
theorem Sys2Proof.Laws.SplitMk.mov (x : Args) : Statement (.mov x) := of_split rfl rfl
theorem Sys2Proof.Laws.SplitMk.prmt (x : Args) : Statement (.prmt x) := of_split rfl rfl
theorem Sys2Proof.Laws.SplitMk.cvt (x : Args) : Statement (.cvt x) := of_split rfl rfl
theorem Sys2Proof.Laws.SplitMk.cvtpk (x : Args) : Statement (.cvtpk x) := of_split rfl rfl
theorem Sys2Proof.Laws.SplitMk.sxpack (x : Args) : Statement (.sxpack x) := of_split rfl rfl
theorem Sys2Proof.Laws.SplitMk.sxunpk (x : Args) : Statement (.sxunpk x) := of_split rfl rfl
theorem Sys2Proof.Laws.SplitMk.plop (x : Args) : Statement (.plop x) := of_split rfl rfl
theorem Sys2Proof.Laws.SplitMk.shfl (x : Args) : Statement (.shfl x) := of_split rfl rfl
theorem Sys2Proof.Laws.SplitMk.vote (x : Args) : Statement (.vote x) := of_split rfl rfl
theorem Sys2Proof.Laws.SplitMk.matchLanes (x : Args) : Statement (.matchLanes x) := of_split rfl rfl
theorem Sys2Proof.Laws.SplitMk.scan (x : Args) : Statement (.scan x) := of_split rfl rfl
theorem Sys2Proof.Laws.SplitMk.segred (x : Args) : Statement (.segred x) := of_split rfl rfl
theorem Sys2Proof.Laws.SplitMk.vrd (x : Args) : Statement (.vrd x) := of_split rfl rfl
theorem Sys2Proof.Laws.SplitMk.pref (x : Args) : Statement (.pref x) := of_split rfl rfl
theorem Sys2Proof.Laws.SplitMk.lds (x : Args) : Statement (.lds x) := of_split rfl rfl
theorem Sys2Proof.Laws.SplitMk.sts (x : Args) : Statement (.sts x) := of_split rfl rfl
theorem Sys2Proof.Laws.SplitMk.ats (x : Args) : Statement (.ats x) := of_split rfl rfl
theorem Sys2Proof.Laws.SplitMk.tsrd (x : Args) : Statement (.tsrd x) := of_split rfl rfl
theorem Sys2Proof.Laws.SplitMk.tswr (x : Args) : Statement (.tswr x) := of_split rfl rfl
theorem Sys2Proof.Laws.SplitMk.mma (x : Args) : Statement (.mma x) := of_split rfl rfl
theorem Sys2Proof.Laws.SplitMk.mmdual (x : Args) : Statement (.mmdual x) := of_split rfl rfl
theorem Sys2Proof.Laws.SplitMk.macrd (x : Args) : Statement (.macrd x) := of_split rfl rfl
theorem Sys2Proof.Laws.SplitMk.mvert (x : Args) : Statement (.mvert x) := of_split rfl rfl
theorem Sys2Proof.Laws.SplitMk.mprim (x : Args) : Statement (.mprim x) := of_split rfl rfl
theorem Sys2Proof.Laws.SplitMk.sample (x : Args) : Statement (.sample x) := of_split rfl rfl
theorem Sys2Proof.Laws.SplitMk.samplel (x : Args) : Statement (.samplel x) := of_split rfl rfl
theorem Sys2Proof.Laws.SplitMk.sampleg (x : Args) : Statement (.sampleg x) := of_split rfl rfl
theorem Sys2Proof.Laws.SplitMk.txq (x : Args) : Statement (.txq x) := of_split rfl rfl
theorem Sys2Proof.Laws.SplitMk.pxout (x : Args) : Statement (.pxout x) := of_split rfl rfl
theorem Sys2Proof.Laws.SplitMk.discard (x : Args) : Statement (.discard x) := of_split rfl rfl
theorem Sys2Proof.Laws.SplitMk.depthw (x : Args) : Statement (.depthw x) := of_split rfl rfl
theorem Sys2Proof.Laws.SplitMk.splatkey (x : Args) : Statement (.splatkey x) := of_split rfl rfl
theorem Sys2Proof.Laws.SplitMk.conic (x : Args) : Statement (.conic x) := of_split rfl rfl
theorem Sys2Proof.Laws.SplitMk.blend (x : Args) : Statement (.blend x) := of_split rfl rfl
theorem Sys2Proof.Laws.SplitMk.blendStage (x : Args) : Statement (.blendStage x) := of_split rfl rfl
theorem Sys2Proof.Laws.SplitMk.blendb (x : Args) : Statement (.blendb x) := of_split rfl rfl
theorem Sys2Proof.Laws.SplitMk.voxkey (x : Args) : Statement (.voxkey x) := of_split rfl rfl
theorem Sys2Proof.Laws.SplitMk.rigx (x : Args) : Statement (.rigx x) := of_split rfl rfl
theorem Sys2Proof.Laws.SplitMk.ldc (x : Args) : Statement (.ldc x) := of_split rfl rfl
theorem Sys2Proof.Laws.SplitMk.stc (x : Args) : Statement (.stc x) := of_split rfl rfl
theorem Sys2Proof.Laws.SplitMk.atc (x : Args) : Statement (.atc x) := of_split rfl rfl
theorem Sys2Proof.Laws.SplitMk.stm (x : Args) : Statement (.stm x) := of_split rfl rfl
theorem Sys2Proof.Laws.SplitMk.ld (x : Args) : Statement (.ld x) := of_split rfl rfl
theorem Sys2Proof.Laws.SplitMk.st (x : Args) : Statement (.st x) := of_split rfl rfl
theorem Sys2Proof.Laws.SplitMk.atom (x : Args) : Statement (.atom x) := of_split rfl rfl
theorem Sys2Proof.Laws.SplitMk.red (x : Args) : Statement (.red x) := of_split rfl rfl
theorem Sys2Proof.Laws.SplitMk.gld (x : Args) : Statement (.gld x) := of_split rfl rfl
theorem Sys2Proof.Laws.SplitMk.gst (x : Args) : Statement (.gst x) := of_split rfl rfl
theorem Sys2Proof.Laws.SplitMk.gop (x : Args) : Statement (.gop x) := of_split rfl rfl
theorem Sys2Proof.Laws.SplitMk.emitc (x : Args) : Statement (.emitc x) := of_split rfl rfl
theorem Sys2Proof.Laws.SplitMk.nop (x : Args) : Statement (.nop x) := of_split rfl rfl
theorem Sys2Proof.Laws.SplitMk.bra (x : Args) : Statement (.bra x) := of_split rfl rfl
theorem Sys2Proof.Laws.SplitMk.bru (x : Args) : Statement (.bru x) := of_split rfl rfl
theorem Sys2Proof.Laws.SplitMk.brv (x : Args) : Statement (.brv x) := of_split rfl rfl
theorem Sys2Proof.Laws.SplitMk.brx (x : Args) : Statement (.brx x) := of_split rfl rfl
theorem Sys2Proof.Laws.SplitMk.call (x : Args) : Statement (.call x) := of_split rfl rfl
theorem Sys2Proof.Laws.SplitMk.callx (x : Args) : Statement (.callx x) := of_split rfl rfl
theorem Sys2Proof.Laws.SplitMk.ret (x : Args) : Statement (.ret x) := of_split rfl rfl
theorem Sys2Proof.Laws.SplitMk.exit (x : Args) : Statement (.exit x) := of_split rfl rfl
theorem Sys2Proof.Laws.SplitMk.yield (x : Args) : Statement (.yield x) := of_split rfl rfl
theorem Sys2Proof.Laws.SplitMk.loop (x : Args) : Statement (.loop x) := of_split rfl rfl
theorem Sys2Proof.Laws.SplitMk.loopbrk (x : Args) : Statement (.loopbrk x) := of_split rfl rfl
theorem Sys2Proof.Laws.SplitMk.clause (x : Args) : Statement (.clause x) := of_split rfl rfl
theorem Sys2Proof.Laws.SplitMk.uadd (x : Args) : Statement (.uadd x) := of_split rfl rfl
theorem Sys2Proof.Laws.SplitMk.usub (x : Args) : Statement (.usub x) := of_split rfl rfl
theorem Sys2Proof.Laws.SplitMk.umul (x : Args) : Statement (.umul x) := of_split rfl rfl
theorem Sys2Proof.Laws.SplitMk.umulh (x : Args) : Statement (.umulh x) := of_split rfl rfl
theorem Sys2Proof.Laws.SplitMk.umad (x : Args) : Statement (.umad x) := of_split rfl rfl
theorem Sys2Proof.Laws.SplitMk.uand (x : Args) : Statement (.uand x) := of_split rfl rfl
theorem Sys2Proof.Laws.SplitMk.uor (x : Args) : Statement (.uor x) := of_split rfl rfl
theorem Sys2Proof.Laws.SplitMk.uxor (x : Args) : Statement (.uxor x) := of_split rfl rfl
theorem Sys2Proof.Laws.SplitMk.ushl (x : Args) : Statement (.ushl x) := of_split rfl rfl
theorem Sys2Proof.Laws.SplitMk.ushr (x : Args) : Statement (.ushr x) := of_split rfl rfl
theorem Sys2Proof.Laws.SplitMk.usar (x : Args) : Statement (.usar x) := of_split rfl rfl
theorem Sys2Proof.Laws.SplitMk.umin (x : Args) : Statement (.umin x) := of_split rfl rfl
theorem Sys2Proof.Laws.SplitMk.umax (x : Args) : Statement (.umax x) := of_split rfl rfl
theorem Sys2Proof.Laws.SplitMk.ucmp (x : Args) : Statement (.ucmp x) := of_split rfl rfl
theorem Sys2Proof.Laws.SplitMk.usel (x : Args) : Statement (.usel x) := of_split rfl rfl
theorem Sys2Proof.Laws.SplitMk.umov (x : Args) : Statement (.umov x) := of_split rfl rfl
theorem Sys2Proof.Laws.SplitMk.uli (x : Args) : Statement (.uli x) := of_split rfl rfl
theorem Sys2Proof.Laws.SplitMk.upopc (x : Args) : Statement (.upopc x) := of_split rfl rfl
theorem Sys2Proof.Laws.SplitMk.uclz (x : Args) : Statement (.uclz x) := of_split rfl rfl
theorem Sys2Proof.Laws.SplitMk.emr (x : Args) : Statement (.emr x) := of_split rfl rfl
theorem Sys2Proof.Laws.SplitMk.emw (x : Args) : Statement (.emw x) := of_split rfl rfl
theorem Sys2Proof.Laws.SplitMk.emand (x : Args) : Statement (.emand x) := of_split rfl rfl
theorem Sys2Proof.Laws.SplitMk.uldk (x : Args) : Statement (.uldk x) := of_split rfl rfl
theorem Sys2Proof.Laws.SplitMk.srr (x : Args) : Statement (.srr x) := of_split rfl rfl
theorem Sys2Proof.Laws.SplitMk.srw (x : Args) : Statement (.srw x) := of_split rfl rfl
theorem Sys2Proof.Laws.SplitMk.trap (x : Args) : Statement (.trap x) := of_split rfl rfl
theorem Sys2Proof.Laws.SplitMk.rte (x : Args) : Statement (.rte x) := of_split rfl rfl
theorem Sys2Proof.Laws.SplitMk.brk (x : Args) : Statement (.brk x) := of_split rfl rfl
theorem Sys2Proof.Laws.SplitMk.sleep (x : Args) : Statement (.sleep x) := of_split rfl rfl
theorem Sys2Proof.Laws.SplitMk.flags (x : Args) : Statement (.flags x) := of_split rfl rfl
theorem Sys2Proof.Laws.SplitMk.waitc (x : Args) : Statement (.waitc x) := of_split rfl rfl
theorem Sys2Proof.Laws.SplitMk.shld (x : Args) : Statement (.shld x) := of_split rfl rfl
theorem Sys2Proof.Laws.SplitMk.shst (x : Args) : Statement (.shst x) := of_split rfl rfl
theorem Sys2Proof.Laws.SplitMk.shset (x : Args) : Statement (.shset x) := of_split rfl rfl
theorem Sys2Proof.Laws.SplitMk.shget (x : Args) : Statement (.shget x) := of_split rfl rfl
theorem Sys2Proof.Laws.SplitMk.fsq (x : Args) : Statement (.fsq x) := of_split rfl rfl
theorem Sys2Proof.Laws.SplitMk.barInit (x : Args) : Statement (.barInit x) := of_split rfl rfl
theorem Sys2Proof.Laws.SplitMk.barArv (x : Args) : Statement (.barArv x) := of_split rfl rfl
theorem Sys2Proof.Laws.SplitMk.barWt (x : Args) : Statement (.barWt x) := of_split rfl rfl
theorem Sys2Proof.Laws.SplitMk.barTry (x : Args) : Statement (.barTry x) := of_split rfl rfl
theorem Sys2Proof.Laws.SplitMk.barInv (x : Args) : Statement (.barInv x) := of_split rfl rfl
theorem Sys2Proof.Laws.SplitMk.dbgmSend (x : Args) : Statement (.dbgmSend x) := of_split rfl rfl
theorem Sys2Proof.Laws.SplitMk.dbgmRecv (x : Args) : Statement (.dbgmRecv x) := of_split rfl rfl
theorem Sys2Proof.Laws.SplitMk.dbgmStat (x : Args) : Statement (.dbgmStat x) := of_split rfl rfl
theorem Sys2Proof.Laws.SplitMk.dbgmFown (x : Args) : Statement (.dbgmFown x) := of_split rfl rfl
theorem Sys2Proof.Laws.SplitMk.dbgmFmask (x : Args) : Statement (.dbgmFmask x) := of_split rfl rfl
theorem Sys2Proof.Laws.SplitMk.dbgmFpc (x : Args) : Statement (.dbgmFpc x) := of_split rfl rfl
theorem Sys2Proof.Laws.SplitMk.dbgmFinfo (x : Args) : Statement (.dbgmFinfo x) := of_split rfl rfl
theorem Sys2Proof.Laws.SplitMk.dbgmJmask (x : Args) : Statement (.dbgmJmask x) := of_split rfl rfl
theorem Sys2Proof.Laws.SplitMk.tsld (x : Args) : Statement (.tsld x) := of_split rfl rfl
theorem Sys2Proof.Laws.SplitMk.mbld (x : Args) : Statement (.mbld x) := of_split rfl rfl
theorem Sys2Proof.Laws.SplitMk.mbgth (x : Args) : Statement (.mbgth x) := of_split rfl rfl
theorem Sys2Proof.Laws.SplitMk.mtile (x : Args) : Statement (.mtile x) := of_split rfl rfl
theorem Sys2Proof.Laws.SplitMk.mwb (x : Args) : Statement (.mwb x) := of_split rfl rfl
theorem Sys2Proof.Laws.SplitMk.temit (x : Args) : Statement (.temit x) := of_split rfl rfl
theorem Sys2Proof.Laws.SplitMk.msetup (x : Args) : Statement (.msetup x) := of_split rfl rfl
theorem Sys2Proof.Laws.SplitMk.mdone (x : Args) : Statement (.mdone x) := of_split rfl rfl
theorem Sys2Proof.Laws.SplitMk.cbarArv (x : Args) : Statement (.cbarArv x) := of_split rfl rfl
theorem Sys2Proof.Laws.SplitMk.cbarWt (x : Args) : Statement (.cbarWt x) := of_split rfl rfl
theorem Sys2Proof.Laws.SplitMk.fence (x : Args) : Statement (.fence x) := of_split rfl rfl
theorem Sys2Proof.Laws.SplitMk.cctlPin (x : Args) : Statement (.cctlPin x) := of_split rfl rfl
theorem Sys2Proof.Laws.SplitMk.cctlUnpin (x : Args) : Statement (.cctlUnpin x) := of_split rfl rfl
theorem Sys2Proof.Laws.SplitMk.cctlDiscard (x : Args) : Statement (.cctlDiscard x) := of_split rfl rfl
theorem Sys2Proof.Laws.SplitMk.cctlClean (x : Args) : Statement (.cctlClean x) := of_split rfl rfl
theorem Sys2Proof.Laws.SplitMk.cctlQuery (x : Args) : Statement (.cctlQuery x) := of_split rfl rfl
theorem Sys2Proof.Laws.SplitMk.gupd (x : Args) : Statement (.gupd x) := of_split rfl rfl
theorem Sys2Proof.Laws.SplitMk.copy (x : Args) : Statement (.copy x) := of_split rfl rfl
theorem Sys2Proof.Laws.SplitMk.sort (x : Args) : Statement (.sort x) := of_split rfl rfl
theorem Sys2Proof.Laws.SplitMk.qpush (x : Args) : Statement (.qpush x) := of_split rfl rfl
theorem Sys2Proof.Laws.SplitMk.qpop (x : Args) : Statement (.qpop x) := of_split rfl rfl
theorem Sys2Proof.Laws.SplitMk.launch (x : Args) : Statement (.launch x) := of_split rfl rfl
theorem Sys2Proof.Laws.SplitMk.encsub (x : Args) : Statement (.encsub x) := of_split rfl rfl
theorem Sys2Proof.Laws.SplitMk.coll (x : Args) : Statement (.coll x) := of_split rfl rfl
theorem Sys2Proof.Laws.SplitMk.bkset (x : Args) : Statement (.bkset x) := of_split rfl rfl
theorem Sys2Proof.Laws.SplitMk.bkq (x : Args) : Statement (.bkq x) := of_split rfl rfl
theorem Sys2Proof.Laws.SplitMk.fragqQuantumExpiry (team gix : Nat) : Statement (.fragqQuantumExpiry team gix) := of_none rfl
theorem Sys2Proof.Laws.SplitMk.starvationTimeout (team gix : Nat) : Statement (.starvationTimeout team gix) := of_none rfl
theorem Sys2Proof.Laws.SplitMk.sleepExpiry (team gix entry : Nat) : Statement (.sleepExpiry team gix entry) := of_none rfl
theorem Sys2Proof.Laws.SplitMk.accessReturn (team gix path : Nat) : Statement (.accessReturn team gix path) := of_none rfl
theorem Sys2Proof.Laws.SplitMk.scratchpadAccessServed (core : Nat) : Statement (.scratchpadAccessServed core) := of_none rfl
theorem Sys2Proof.Laws.SplitMk.barrierArrival (team gix entry : Nat) : Statement (.barrierArrival team gix entry) := of_none rfl
theorem Sys2Proof.Laws.SplitMk.clusterBarrierArrival (team gix entry : Nat) : Statement (.clusterBarrierArrival team gix entry) := of_none rfl
theorem Sys2Proof.Laws.SplitMk.groupRetire (team gix : Nat) : Statement (.groupRetire team gix) := of_none rfl
theorem Sys2Proof.Laws.SplitMk.matrixPass (core : Nat) : Statement (.matrixPass core) := of_none rfl
theorem Sys2Proof.Laws.SplitMk.macroTileLoad (core : Nat) : Statement (.macroTileLoad core) := of_none rfl
theorem Sys2Proof.Laws.SplitMk.mwbWrite (core : Nat) : Statement (.mwbWrite core) := of_none rfl
theorem Sys2Proof.Laws.SplitMk.tsldElementLand (core pick : Nat) : Statement (.tsldElementLand core pick) := of_none rfl
theorem Sys2Proof.Laws.SplitMk.turningStoreAccess (core : Nat) : Statement (.turningStoreAccess core) := of_none rfl
theorem Sys2Proof.Laws.SplitMk.mtileStep (team gix : Nat) : Statement (.mtileStep team gix) := of_none rfl
theorem Sys2Proof.Laws.SplitMk.meshGroupPlacement (core : Nat) : Statement (.meshGroupPlacement core) := of_none rfl
theorem Sys2Proof.Laws.SplitMk.primitiveSetup (core : Nat) : Statement (.primitiveSetup core) := of_none rfl
theorem Sys2Proof.Laws.SplitMk.pixelGroupCreate (core : Nat) : Statement (.pixelGroupCreate core) := of_none rfl
theorem Sys2Proof.Laws.SplitMk.blendWalkerCopy (core pick : Nat) : Statement (.blendWalkerCopy core pick) := of_none rfl
theorem Sys2Proof.Laws.SplitMk.engineAccept (cmd : Nat) : Statement (.engineAccept cmd) := of_none rfl
theorem Sys2Proof.Laws.SplitMk.copyExecute (cmd : Nat) : Statement (.copyExecute cmd) := of_none rfl
theorem Sys2Proof.Laws.SplitMk.sortPass (die : Nat) : Statement (.sortPass die) := of_none rfl
theorem Sys2Proof.Laws.SplitMk.encodeFrame (cmd : Nat) : Statement (.encodeFrame cmd) := of_none rfl
theorem Sys2Proof.Laws.SplitMk.collectiveExecute (cmd : Nat) : Statement (.collectiveExecute cmd) := of_none rfl
theorem Sys2Proof.Laws.SplitMk.engineCompletionWrite (cmd : Nat) : Statement (.engineCompletionWrite cmd) := of_none rfl
theorem Sys2Proof.Laws.SplitMk.gatherRecordArrival (die : Nat) : Statement (.gatherRecordArrival die) := of_none rfl
theorem Sys2Proof.Laws.SplitMk.gatherDelayExpiry (die : Nat) : Statement (.gatherDelayExpiry die) := of_none rfl
theorem Sys2Proof.Laws.SplitMk.queueRefill (queue : Nat) : Statement (.queueRefill queue) := of_none rfl
theorem Sys2Proof.Laws.SplitMk.qcfgWrite (queue : Nat) (value : Dword) : Statement (.qcfgWrite queue value) := of_none rfl
theorem Sys2Proof.Laws.SplitMk.tsubpTailWrite (ctx : Nat) (value : Dword) : Statement (.tsubpTailWrite ctx value) := of_none rfl
theorem Sys2Proof.Laws.SplitMk.launchAccept (ctx : Nat) : Statement (.launchAccept ctx) := of_none rfl
theorem Sys2Proof.Laws.SplitMk.workingSetPrefetch (launch : Nat) : Statement (.workingSetPrefetch launch) := of_none rfl
theorem Sys2Proof.Laws.SplitMk.clusterPlacement (pick : Nat) : Statement (.clusterPlacement pick) := of_none rfl
theorem Sys2Proof.Laws.SplitMk.preemptCluster (cluster : Nat) : Statement (.preemptCluster cluster) := of_none rfl
theorem Sys2Proof.Laws.SplitMk.budgetPeriodReset (ctx : Nat) : Statement (.budgetPeriodReset ctx) := of_none rfl
theorem Sys2Proof.Laws.SplitMk.launchCompletion (launch : Nat) : Statement (.launchCompletion launch) := of_none rfl
theorem Sys2Proof.Laws.SplitMk.taskInputCopiesDone (launch : Nat) : Statement (.taskInputCopiesDone launch) := of_none rfl
theorem Sys2Proof.Laws.SplitMk.msixUnmask (fn vec : Nat) : Statement (.msixUnmask fn vec) := of_none rfl
theorem Sys2Proof.Laws.SplitMk.homeRequest (slice : Nat) : Statement (.homeRequest slice) := of_none rfl
theorem Sys2Proof.Laws.SplitMk.l2Fill (slice line : Nat) : Statement (.l2Fill slice line) := of_none rfl
theorem Sys2Proof.Laws.SplitMk.recall (core : Nat) : Statement (.recall core) := of_none rfl
theorem Sys2Proof.Laws.SplitMk.redPartialCombine (slice : Nat) : Statement (.redPartialCombine slice) := of_none rfl
theorem Sys2Proof.Laws.SplitMk.granaryBankOperation (bank : Nat) : Statement (.granaryBankOperation bank) := of_none rfl
theorem Sys2Proof.Laws.SplitMk.packetRoute (packet dir : Nat) : Statement (.packetRoute packet dir) := of_none rfl
theorem Sys2Proof.Laws.SplitMk.routerTimeout (packet : Nat) : Statement (.routerTimeout packet) := of_none rfl
theorem Sys2Proof.Laws.SplitMk.lanternArrival (stop : Nat) : Statement (.lanternArrival stop) := of_none rfl
theorem Sys2Proof.Laws.SplitMk.recoveryPacketArrival  : Statement (.recoveryPacketArrival) := of_none rfl
theorem Sys2Proof.Laws.SplitMk.l2Scrub (slice entry : Nat) : Statement (.l2Scrub slice entry) := of_none rfl
theorem Sys2Proof.Laws.SplitMk.dedupWindowExpiry (slice : Nat) : Statement (.dedupWindowExpiry slice) := of_none rfl
theorem Sys2Proof.Laws.SplitMk.dvfsPeriod (die : Nat) : Statement (.dvfsPeriod die) := of_none rfl
theorem Sys2Proof.Laws.SplitMk.faultRecordPost (die : Nat) : Statement (.faultRecordPost die) := of_none rfl
theorem Sys2Proof.Laws.SplitMk.frespRetry (die : Nat) (value : Dword) : Statement (.frespRetry die value) := of_none rfl
theorem Sys2Proof.Laws.SplitMk.frespFatal (die : Nat) (value : Dword) : Statement (.frespFatal die value) := of_none rfl
theorem Sys2Proof.Laws.SplitMk.xinvcWrite (value : Dword) : Statement (.xinvcWrite value) := of_none rfl
theorem Sys2Proof.Laws.SplitMk.invalidationComplete  : Statement (.invalidationComplete) := of_none rfl
theorem Sys2Proof.Laws.SplitMk.uncorrectableError (site : ErrSite) : Statement (.uncorrectableError site) := of_none rfl
theorem Sys2Proof.Laws.SplitMk.healthPeriodExpiry (failing : List Nat) : Statement (.healthPeriodExpiry failing) := of_none rfl
theorem Sys2Proof.Laws.SplitMk.linkFailure (stop dir : Nat) : Statement (.linkFailure stop dir) := of_none rfl
theorem Sys2Proof.Laws.SplitMk.kcmdLoad (value : Dword) : Statement (.kcmdLoad value) := of_none rfl
theorem Sys2Proof.Laws.SplitMk.kcmdClear (value : Dword) : Statement (.kcmdClear value) := of_none rfl
theorem Sys2Proof.Laws.SplitMk.bar2HostAccess (access : HostAccess) : Statement (.bar2HostAccess access) := of_none rfl
theorem Sys2Proof.Laws.SplitMk.dbgownWrite (core : Nat) (value : Dword) : Statement (.dbgownWrite core value) := of_none rfl
theorem Sys2Proof.Laws.SplitMk.dbgctlClr (core : Nat) : Statement (.dbgctlClr core) := of_none rfl
theorem Sys2Proof.Laws.SplitMk.dbgctlHalt (core : Nat) : Statement (.dbgctlHalt core) := of_none rfl
theorem Sys2Proof.Laws.SplitMk.dbgoutRead (core : Nat) : Statement (.dbgoutRead core) := of_none rfl
theorem Sys2Proof.Laws.SplitMk.dbginWrite (core : Nat) (value : Dword) : Statement (.dbginWrite core value) := of_none rfl
theorem Sys2Proof.Laws.SplitMk.tctlWrite (ctx : Nat) (value : Dword) : Statement (.tctlWrite ctx value) := of_none rfl
theorem Sys2Proof.Laws.SplitMk.ddmodeWrite (stop : Nat) (value : Dword) : Statement (.ddmodeWrite stop value) := of_none rfl
theorem Sys2Proof.Laws.SplitMk.commConfigWrite (comm word : Nat) (value : Dword) : Statement (.commConfigWrite comm word value) := of_none rfl
theorem Sys2Proof.Laws.SplitMk.exportWindowWrite (window word : Nat) (value : Dword) : Statement (.exportWindowWrite window word value) := of_none rfl
theorem Sys2Proof.Laws.SplitMk.bucketCountedWrite (bucket bytes : Nat) : Statement (.bucketCountedWrite bucket bytes) := of_none rfl
theorem Sys2Proof.Laws.SplitMk.fabricLinkUp (link peer : Nat) : Statement (.fabricLinkUp link peer) := of_none rfl
theorem Sys2Proof.Laws.SplitMk.hostLinkTraining (port width rate : Nat) : Statement (.hostLinkTraining port width rate) := of_none rfl
theorem Sys2Proof.Laws.SplitMk.fabricExitSend (packet plane : Nat) : Statement (.fabricExitSend packet plane) := of_none rfl
theorem Sys2Proof.Laws.SplitMk.fabricEntryRelease (flow : Nat) : Statement (.fabricEntryRelease flow) := of_none rfl
theorem Sys2Proof.Laws.SplitMk.fabricAck (flow number : Nat) : Statement (.fabricAck flow number) := of_none rfl
theorem Sys2Proof.Laws.SplitMk.fabricResend (flow number plane : Nat) : Statement (.fabricResend flow number plane) := of_none rfl
theorem Sys2Proof.Laws.SplitMk.rtoExpiry (flow : Nat) : Statement (.rtoExpiry flow) := of_none rfl
theorem Sys2Proof.Laws.SplitMk.fdeadDead (package : Nat) : Statement (.fdeadDead package) := of_none rfl
theorem Sys2Proof.Laws.SplitMk.fdeadLive (package : Nat) : Statement (.fdeadLive package) := of_none rfl
theorem Sys2Proof.Laws.SplitMk.packageReset  : Statement (.packageReset) := of_none rfl
theorem Sys2Proof.Laws.SplitMk.attestationReport (nonce : List Byte) : Statement (.attestationReport nonce) := of_none rfl
theorem Sys2Proof.Laws.SplitMk.registerWrite (fn offset : Nat) (value : Dword) : Statement (.registerWrite fn offset value) := of_none rfl
theorem Sys2Proof.Laws.SplitMk.minrunExpiry (cluster : Nat) : Statement (.minrunExpiry cluster) := of_none rfl
theorem Sys2Proof.Laws.SplitMk.budgetSpent (ctx : Nat) : Statement (.budgetSpent ctx) := of_none rfl
theorem Sys2Proof.Laws.SplitMk.linkRecalibration (link : LinkName) : Statement (.linkRecalibration link) := of_none rfl
end

