-- ==== Sys2Proof/Tests/Slice0.lean ====
section
/-! SUPPORT. The model's own tests: ill-formed instructions that the check refuses, words of the specification and what they decode to,
steps on small states, and for each statement with hypotheses states and operands that meet them. -/

open Sys2Proof Sys2Proof.Machine Sys2Proof.Claims

namespace Sys2Proof.Tests

-- The tests are checked one after the other: each at once would take a thread of its own.
set_option Elab.async false

/-- Operands that leave every field empty. -/
def z : Args := ⟨false, none, 0#3, 0#4, .none, .none, .none, .none, 0#12, 0#24⟩

/-- A legal field of a class. -/
def fill : Cls → Fld
  | .unused => .none
  | .vd _ _ => .v 8
  | .vs _ _ => .v 16
  | .vr _ => .v 16
  | .ud _ _ => .s 8
  | .us _ _ => .s 16
  | .ur _ => .s 16
  | .p => .p 1
  | .h => .h 1
  | .n _ => .n 0

/-- Operands of the long form that suit an operation, for MOD and a number in B. -/
def args (o : Op) (m : Nat := 0) (b : Nat := 0) : Args :=
  let b := match o.code.sel with | .onB n => n | _ => b
  let m := match o.code.sel with | .onOpx n => m + n | _ => m
  let g := sig o ⟨0, 0, b, 0, m⟩
  let num (c : Cls) (k : Nat) : Fld := match c with | .n _ => .n (BitVec.ofNat 8 k) | _ => fill c
  ⟨true, none, 0#3, 0#4, fill g.d, fill g.a, num g.b b, fill g.c, BitVec.ofNat 12 m, 0#24⟩

/-- The launch of the tests: one group, 240 registers, 16,384 bytes of scratchpad, eight barriers, eight macros, four turning stores; it enters at 0x1000, its
traps at 0x2000. -/
def rcd0 : List Byte :=
  toBytes 0x1000 8 ++ toBytes 0x2000 8 ++ toBytes 0 12 ++ toBytes 1 2 ++ toBytes 1 2 ++ [1, 1, 1, 30] ++ toBytes 16384 4 ++ [8, 1, 8, 4, 0, 0, 0xFF, 0] ++
    toBytes 0x0C0A050403020100 8 ++ toBytes 0 200
def launch0 : Launch :=
  { ctx := 0, rcd := rcd0, args := List.replicate 64 7#8, ext := [], rstate := [], deadline := 0, reason := 0, nextClu := 1, ended := 0, retired := 0
    status := 0, fetched := 0, phase := 2, copies := [], gathered := false, recs := [], flushes := [], dropped := 0, hiz := [] }
def cfg0 : TeamCfg := launch0.cfg 5

/-- A group with one fragment, of all 32 lanes, at 0x1000, and with the given uniform registers. -/
def grp (s : List (Nat × Nat) := []) : Group :=
  { Group.fresh .compute 0 (BitVec.allOnes 32) 0x1000#64 (Special.fresh 0 0 0 0 1 0) [] [] 0 with s := s.map fun q => (q.1, elemOf q.2) }
def team (g : Group) : Team :=
  { cfg := cfg0, cluster := 2, tix := 0, core := some 0, owner := none, image := 0, imageLost := [], groups := [(0, g)], scratch := [], scratchPois := []
    bars := List.replicate 8 BarWord.zero, mx := TeamMx.fresh 8 }
def cluster0 : Cluster := ⟨5, 0, 1, [1], [{ BarWord.zero with valid := true, expect := 1 }], 0, false, false, false⟩
def iss0 : Issuer := ⟨1, 0, 0⟩
def frag0 : Frag := ⟨BitVec.allOnes 32, BitVec.allOnes 32, 0x1000#64, none, Loop.off, Loop.off, false, false, .none, none, false⟩

/-- The machine with that group in the one team, on core 0, and its fragment about to issue. -/
def one (t : Team) : State :=
  { State.reset with cur := some iss0, nextId := 100, teams := [(1, t)], clusters := [(2, cluster0)], launches := [(5, launch0)] }
def st (g : Group) : State := one (team g)

/-- The addresses below 4 GiB of context 0 are mapped one to one, with every permission: tables at 0x10000, 0x11000 and 0x12000 hold a leaf of 4 GiB. -/
def mapped (s : State) : State :=
  { s with
    regs := [(ctxReg 0 0x60, 0x10001#64), (ctxReg 0 0x68, 0x10000#64)]
    tlb := [⟨0, 0, 2 ^ 32, 0, 0, false, 7⟩]
    hbm := cellPuts 0x10000 (toBytes 0x11003 8) (cellPuts 0x11000 (toBytes 0x12003 8) (cellPuts 0x12000 (toBytes 0x871 8) s.hbm)) }

/-- `Issues`, computed. -/
def issuesB (o : Op) (x : Args) (s : State) (iss : Issuer) (t : Team) (g : Group) (f : Frag) : Bool :=
  decide (s.cur = some iss) && decide (mapGet? iss.team s.teams = some t) && decide (mapGet? iss.gix t.groups = some g) &&
    decide (mapGet? iss.entry g.frags = some f) && t.core.isSome && f.ready && decide (f.wait = .none) && !s.parked iss.team iss.gix && !(g.inClause iss.entry && o.barred) &&
    operandsLegal o x g t.cfg (g.inClause iss.entry) && clauseEndOk g f iss.entry f.pc && !g.pending o x t.cfg.fs iss.entry && (!o.uniform || !(guardU g x).1) &&
    (!isBranch o || !guardBad o x g)

theorem issues_of {o : Op} {x : Args} {s : State} {iss : Issuer} {t : Team} {g : Group} {f : Frag} (h : issuesB o x s iss t g f = true) :
    Issues o x s iss t g f := by
  simp only [issuesB, Bool.and_eq_true, decide_eq_true_eq, Bool.or_eq_true, Bool.not_eq_true'] at h
  obtain ⟨⟨⟨⟨⟨⟨⟨⟨⟨⟨⟨⟨⟨h1, h2⟩, h3⟩, h4⟩, h5⟩, h6⟩, h6a⟩, h6b⟩, h7⟩, h8⟩, h9⟩, h10⟩, h11⟩, h12⟩ := h
  exact ⟨⟨h1, h2, h3, h4⟩, h5, h6, h6a, h6b, h7, h8, h9, h10, fun h => by simpa [h] using h11, fun h => by simpa [h] using h12⟩

/-- The hypotheses that the statements about instructions share: a well-formed instruction issues from the fragment of the team's group, outside single step, its
next address is within range, and the fragment has no join, waits for nothing and is not watched. -/
structure Runs (o : Op) (x : Args) (s : State) (t : Team) (g : Group) (f : Frag) : Prop where
  issues : Issues o x s iss0 t g f
  wf : x.wf o = true
  stepping : g.stepping = none
  address : badAddr (afterOf x f) = false
  join : f.jtop = none
  waits : noneWaits g = true
  watch : unwatched g = true
  free : (∀ n ∈ g.cnt, n < 63) ∧ ∀ y ∈ g.flights, y.acq = false
  open_ : g.inClause 0 = false

def runsB (o : Op) (x : Args) (s : State) (t : Team) (g : Group) (f : Frag) : Bool :=
  issuesB o x s iss0 t g f && x.wf o && decide (g.stepping = none) && !badAddr (afterOf x f) && decide (f.jtop = none) && noneWaits g && unwatched g &&
    g.cnt.all (fun n => decide (n < 63)) && g.flights.all (fun y => !y.acq) && !g.inClause 0

theorem runs_of {o : Op} {x : Args} {s : State} {t : Team} {g : Group} {f : Frag} (h : runsB o x s t g f = true) : Runs o x s t g f := by
  simp only [runsB, Bool.and_eq_true, decide_eq_true_eq, Bool.not_eq_true'] at h
  obtain ⟨⟨⟨⟨⟨⟨⟨⟨⟨h1, h2⟩, h3⟩, h4⟩, h5⟩, h6⟩, h7⟩, h8⟩, h9⟩, h10⟩ := h
  refine ⟨issues_of h1, h2, h3, h4, h5, h6, h7, ⟨fun n hn => ?_, fun y hy => ?_⟩, h10⟩
  · simpa using List.all_eq_true.1 h8 n hn
  · simpa using List.all_eq_true.1 h9 y hy

/-- An instruction of a group, in the one state of its kind. -/
abbrev RunsIn (o : Op) (x : Args) (g : Group) : Prop := Runs o x (st g) (team g) g frag0
abbrev runsIn (o : Op) (x : Args) (g : Group) : Bool := runsB o x (st g) (team g) g frag0

/-- The same, of several. -/
theorem all_run {os : List (Op × Args)} {g : Group} (h : (os.all fun q => runsIn q.1 q.2 g) = true) : ∀ q ∈ os, RunsIn q.1 q.2 g :=
  fun q hq => runs_of (List.all_eq_true.1 h q hq)

theorem each_runs {α : Type} {as : List α} {o : α → Op} {x : α → Args} {g : α → Group} (h : (as.all fun a => runsIn (o a) (x a) (g a)) = true) :
    ∀ a ∈ as, RunsIn (o a) (x a) (g a) := fun a ha => runs_of (List.all_eq_true.1 h a ha)

/-- Several instructions that a table of results covers. -/
theorem table_runs {α : Type} {F : Op → Args → Option α} {os : List Op} {m : Op → Args} {g : Group}
    (h : (os.all fun o => (F o (m o)).isSome && runsIn o (m o) g) = true) : ∀ o ∈ os, (∃ r, F o (m o) = some r) ∧ RunsIn o (m o) g := by
  intro o ho
  have := List.all_eq_true.1 h o ho
  rw [Bool.and_eq_true] at this
  exact ⟨Option.isSome_iff_exists.1 this.1, runs_of this.2⟩

/-- The instruction of an operation splits into it. -/
theorem split_mk (o : Op) (x : Args) : (o.mk x).split = some (o, x) := by cases o <;> rfl

/-! Witnesses: states and operands that meet the hypotheses of each statement about the lane set. -/

theorem witness_LaneIntegerResults :
    ∀ o ∈ [Op.iadd, .isub, .imul, .imulh, .imin, .imax, .iabs, .and, .or, .xor, .not, .shl, .shr, .sar, .rotl, .bfe, .bfi, .popc, .clz, .ctz, .brev],
      (∃ r, laneInt o (args o) = some r) ∧ RunsIn o (args o) (grp) := table_runs (by decide +kernel)

theorem witness_LaneFloatResults :
    (∀ o ∈ [Op.fadd, .fsub, .fmul, .ffma, .fmin, .fmax, .frnd, .ffrc, .fclass, .frcp, .frsq, .fsqrt, .fexp2, .flog2, .fsin, .fcos, .fldexp],
      (∃ r, laneFloat o (args o) = some r) ∧ RunsIn o (args o) (grp)) ∧
    (∀ o ∈ [Op.padd2, .pmul2, .pfma2, .pmin2, .pmax2],
      (∃ r, packedOp o = some r) ∧ RunsIn o { args o with fs := 1 } (grp)) ∧
    RunsIn .pdot2 { args .pdot2 with fs := 2 } (grp) :=
  ⟨table_runs (by decide +kernel), table_runs (F := fun o _ => packedOp o) (by decide +kernel), runs_of (by decide +kernel)⟩

theorem witness_LaneConversionAndPackingResults :
    (RunsIn .cvt { args .cvt with b := .n 0, c := .n 11 } (grp) ∧ fieldFmt cfg0.fs 0 = some .fp32 ∧ fieldFmt cfg0.fs 11 = some .int64) ∧
    (RunsIn .cvt { args .cvt with b := .n 0x26, c := .n 5 } (grp) ∧ fieldFmt cfg0.fs 0x26 = some .uint32 ∧ fieldFmt cfg0.fs 5 = some .int8) ∧
    (RunsIn .cvtpk { args .cvtpk with c := .n 1 } (grp) ∧ fieldFmt cfg0.fs 1 = some .fp16) ∧
    (RunsIn .sxunpk { args .sxunpk with b := .n 13 } (grp) ∧ RunsIn .sxpack { args .sxpack with b := .n 13 } (grp) ∧ fieldFmt cfg0.fs 13 = some .sx7) :=
  ⟨⟨runs_of (by decide +kernel), by decide +kernel, by decide +kernel⟩, ⟨runs_of (by decide +kernel), by decide +kernel, by decide +kernel⟩,
    ⟨runs_of (by decide +kernel), by decide +kernel⟩, runs_of (by decide +kernel), runs_of (by decide +kernel), by decide +kernel⟩

theorem witness_CarryAndWideProductResults :
    ∀ q ∈ [(Op.iaddc, args .iaddc), (.isubb, args .isubb), (.imad, args .imad)], RunsIn q.1 q.2 (grp) := all_run (by decide +kernel)

theorem witness_LanePredicateResults :
    (∀ q ∈ [(Op.icmp, { args .icmp with cond := 9 }), (.icmp, args .icmp), (.fcmp, { args .fcmp with cond := 7 }), (.plop, args .plop 0xFF)],
      RunsIn q.1 q.2 (grp)) ∧ (args .icmp).d = .p 1 ∧ (args .fcmp).sat = false ∧ (args .plop 0xFF).c = .p 1 :=
  ⟨all_run (by decide +kernel), by decide +kernel, by decide +kernel, by decide +kernel⟩

theorem witness_LaneCopyAndPermuteResults :
    (∀ q ∈ [(Op.mov, args .mov), (.sel, args .sel), (.prmt, args .prmt), (.shfl, args .shfl), (.shfl, args .shfl 0x13)], RunsIn q.1 q.2 (grp)) ∧
    (args .shfl 0x13).m / 4 % 8 = 4 ∧ (args .sel).c = .p 1 := ⟨all_run (by decide +kernel), by decide +kernel, by decide +kernel⟩

theorem witness_CrossLaneResults :
    (∀ q ∈ [(Op.vote, args .vote), (.vote, args .vote 3), (.matchLanes, args .matchLanes 3), (.vrd, args .vrd 11), (.scan, args .scan 0x1A), (.segred, args .segred 1)],
      RunsIn q.1 q.2 (grp)) ∧ (args .vote).a = .p 1 ∧ (args .segred 1).b = .p 1 := ⟨all_run (by decide +kernel), by decide +kernel, by decide +kernel⟩

theorem witness_PointInstructionResults :
    (∀ q ∈ [(Op.conic, args .conic), (.splatkey, args .splatkey), (.splatkey, args .splatkey 1), (.voxkey, args .voxkey 31)], RunsIn q.1 q.2 (grp)) ∧
    (args .conic).d = .v 8 ∧ (args .voxkey 31).c = .s 16 := ⟨all_run (by decide +kernel), by decide +kernel, by decide +kernel⟩

theorem witness_UniformIntegerResults :
    ∀ o ∈ [Op.uadd, .usub, .umul, .umulh, .uand, .uor, .uxor, .ushl, .ushr, .usar, .umin, .umax, .upopc, .uclz],
      (∃ r, uniformInt o (args o) = some r) ∧ RunsIn o (args o) (grp) := table_runs (by decide +kernel)

theorem witness_UniformMoveAndCompareResults :
    (∀ q ∈ [(Op.umad, args .umad), (.umov, args .umov), (.uli, args .uli), (.usel, args .usel), (.ucmp, { args .ucmp with cond := 9 })], RunsIn q.1 q.2 (grp)) ∧
    (args .usel).c = .p 1 ∧ (args .ucmp).d = .p 1 := ⟨all_run (by decide +kernel), by decide +kernel, by decide +kernel⟩

/-! Witnesses of the statements about special registers, control flow and traps. -/

/-- A fragment of some lanes, and a group of the given fragments. -/
def fragAt (m : Mask) (pc : Nat) (j : Option Nat := none) : Frag := { frag0 with own := m, emask := m, pc := BitVec.ofNat 64 pc, jtop := j }
def grpOf (fs : List (Nat × Frag)) (js : List (Nat × Join)) (s : List (Nat × Nat) := []) : Group := { grp s with frags := fs, joins := js }

/-- The hypotheses shared by statements that also speak of fragments under a join. -/
abbrev JoinRuns (o : Op) (x : Args) (g : Group) (f : Frag) : Prop :=
  issuesB o x (st g) iss0 (team g) g f = true ∧ g.stepping = none ∧ badAddr (afterOf x f) = false

theorem witness_SpecialRegisterReads :
    (RunsIn .srr { args .srr with a := .n 6 } (grp) ∧ specialAt (grp).sp 6 = some (0, false)) ∧
    (RunsIn .srr { args .srr with a := .n 0x1F } (grp) ∧ specialAt (grp).sp 0x1F = some (0, true)) ∧
    RunsIn .srr { args .srr with a := .n 0 } (grp) ∧ RunsIn .emr (args .emr) (grp) :=
  ⟨⟨runs_of (by decide +kernel), by decide +kernel⟩, ⟨runs_of (by decide +kernel), by decide +kernel⟩, runs_of (by decide +kernel), runs_of (by decide +kernel)⟩

/-- FRAGQ takes 255 and refuses 0 and 256; a watchpoint refuses reserved space 3. -/
theorem witness_SpecialRegisterWrites :
    (∀ v ∈ [255, 0, 256], RunsIn .srw { args .srw with d := .n 5 } (grp [(16, v)])) ∧
    (∀ v ∈ [0xC0000000, 0x98000000], RunsIn .srw { args .srw with d := .n 0x13 } (grp [(17, v)])) ∧
    (let f : Frag := { fragAt 2 0x1040 with wait := .tile true (some ⟨.int8, 0, 0, false, false, [], true⟩) 8 }
     let g := grpOf [(0, fragAt 1 0x1000), (1, f)] []
     JoinRuns .srw { args .srw with d := .n 11 } g (fragAt 1 0x1000) ∧
       (g.frags.any fun k => match k.2.wait with | .tile _ (some _) _ => true | _ => false) = true) ∧
    (specialAt (grp).sp 5).isSome = true ∧ (specialAt (grp).sp 0x13).isSome = true ∧
    (bit 0x9800000000000000 63 && decide (0x9800000000000000 / 2 ^ 59 % 4 = 3)) = true :=
  ⟨each_runs (by decide +kernel), each_runs (by decide +kernel), by decide +kernel, by decide +kernel, by decide +kernel, by decide +kernel⟩

theorem witness_FlagsAndMaskWrites :
    RunsIn .flags (args .flags) (grp [(16, 1)]) ∧ RunsIn .emw (args .emw) (grp [(16, 1)]) ∧ RunsIn .emand (args .emand) (grp [(16, 1)]) ∧
    RunsIn .emw (args .emw) (grp) ∧
    (let g := grpOf [(0, fragAt 1 0x1000 (some 0)), (1, fragAt 2 0x1040 (some 0))] [(0, ⟨0x1100#64, 3#32, 0#32, none⟩)]
     JoinRuns .emw (args .emw) g (fragAt 1 0x1000 (some 0)) ∧ g.inClause 0 = false ∧ (3#32 &&& ~~~(0#32 ||| 1#32)) ≠ (0#32 : Mask)) :=
  ⟨runs_of (by decide +kernel), runs_of (by decide +kernel), runs_of (by decide +kernel), runs_of (by decide +kernel), by decide +kernel⟩

/-- ULDK at the last words of the argument block that can be read, and of the record. -/
theorem witness_ShapeSlotAndLaunchReads :
    RunsIn .shset { args .shset with a := .n 15 } (grp) ∧ RunsIn .shget { args .shget with b := .n 15 } (grp) ∧ RunsIn .fsq { args .fsq with fs := 7 } (grp) ∧
    (RunsIn .uldk { args .uldk 60 1 with a := .n 1 } (grp) ∧ 60 + 4 * 1 ≤ launch0.args.length) ∧
    (RunsIn .uldk { args .uldk 224 8 with a := .n 0 } (grp) ∧ 224 + 4 * 8 ≤ launch0.rcd.length) :=
  ⟨runs_of (by decide +kernel), runs_of (by decide +kernel), runs_of (by decide +kernel), ⟨runs_of (by decide +kernel), by decide +kernel⟩,
    runs_of (by decide +kernel), by decide +kernel⟩

/-- BRU and BRV with their predicate set in every lane, in none and in some. -/
def predGrp (m : Mask) : Group := { grp with p := List.replicate 8 ⟨m, 0#32⟩ }
def xBru : Args := { args .bru with imm := 8#24 }
def xBrv : Args := { args .brv 3 with imm := 8#24 }

theorem witness_BranchesReachTheirTargets :
    (∀ q ∈ [(Op.bra, { args .bra with imm := 8#24 }), (.call, { args .call with imm := 8#24 })], RunsIn q.1 q.2 (grp)) ∧
    (∀ q ∈ [(Op.brx, args .brx), (.callx, args .callx)], RunsIn q.1 q.2 (grp [(16, 0x1100)])) ∧ RunsIn .ret (args .ret) (grp [(126, 0x1100)]) ∧
    (∀ m ∈ [0xFFFFFFFF#32, 0#32, 1#32], RunsIn .bru xBru (predGrp m)) ∧ ((predGrp 1#32).pred 1).pois &&& frag0.emask = 0#32 ∧
    badAddr (targetOf xBru frag0) = false ∧ badAddr 0x1100#64 = false :=
  ⟨all_run (by decide +kernel), all_run (by decide +kernel), runs_of (by decide +kernel), each_runs (by decide +kernel), by decide +kernel,
    by decide +kernel, by decide +kernel⟩

theorem witness_BrvSplitsTheFragment :
    (∀ m ∈ [0#32, 0xFFFFFFFF#32, 1#32], RunsIn .brv xBrv (predGrp m)) ∧ badAddr (targetOf xBrv frag0) = false ∧
    (0x1000#64 + 12#64 ≠ targetOf xBrv frag0 ∧ 0x1000#64 + 12#64 ≠ nextOf xBrv frag0) ∧
    mapFree (predGrp 1#32).joins 0 32 = some 0 ∧ mapFree (predGrp 1#32).frags 0 32 = some 1 :=
  ⟨each_runs (by decide +kernel), by decide +kernel, by decide +kernel, by decide +kernel, by decide +kernel⟩

/-- EXIT of every lane, and of some of a fragment's lanes. -/
theorem witness_ExitRemovesTheActiveLanes :
    RunsIn .exit (args .exit) (grp) ∧ ((st grp).core 0).openSlot 1 0 = none ∧
    (let f := { frag0 with emask := 1#32 }
     Runs .exit (args .exit) (st (grpOf [(0, f)] [])) (team (grpOf [(0, f)] [])) (grpOf [(0, f)] []) f) :=
  ⟨runs_of (by decide +kernel), by decide +kernel, runs_of (by decide +kernel)⟩

/-- LOOP with a level free, with one open and with both; with a count, and with none: its instruction at the target is in memory. -/
def loopGrp (a b : Bool) (n : Nat) : Group :=
  grpOf [(0, { frag0 with loop0 := ⟨a, 3#32, 0x1000#64, 0x1040#64⟩, loop1 := ⟨b, 2#32, 0x1000#64, 0x1040#64⟩ })] [] [(16, n)]
def loopFrag (a b : Bool) : Frag := { frag0 with loop0 := ⟨a, 3#32, 0x1000#64, 0x1040#64⟩, loop1 := ⟨b, 2#32, 0x1000#64, 0x1040#64⟩ }
theorem witness_LoopLevelsOpenAndClose :
    (∀ q ∈ [(false, false), (true, false), (true, true)], ∀ o ∈ [Op.loop, .loopbrk], ∀ n ∈ [1, 0],
      runsB o { args o with imm := (if o = .loop then 16#24 else 0#24) } (st (loopGrp q.1 q.2 n)) (team (loopGrp q.1 q.2 n)) (loopGrp q.1 q.2 n) (loopFrag q.1 q.2) = true) ∧
    ((nextOf { args .loop with imm := 16#24 } frag0).toNat ≤ (targetOf { args .loop with imm := 16#24 } frag0).toNat) ∧
    (targetOf { args .loop with imm := 1#24 } frag0).toNat < (nextOf { args .loop with imm := 1#24 } frag0).toNat := by decide +kernel

/-- LOOP and LOOPBRK at the end address of a level, and LOOP with a count of zero, whose target holds NOP. -/
def endFrag : Frag := { frag0 with loop0 := ⟨true, 3#32, 0xFF0#64, 0x1000#64⟩ }
def nopAt (pa : Nat) (s : State) : State := { mapped s with hbm := cellPuts pa (toBytes 0x80FFFFFF 4) (mapped s).hbm }
theorem witness_LoopAtAnEndAddressAndOfNoCount :
    (∀ o ∈ [Op.loop, .loopbrk],
      let x := { args o with imm := (if o = .loop then 16#24 else 0#24) }
      let g := grpOf [(0, endFrag)] [] [(16, 1)]
      issuesB o x (st g) iss0 (team g) g endFrag = true ∧ badAddr (afterOf x endFrag) = false ∧ badAddr (loopStep { endFrag with loop0 := Loop.off } 0x1000#64 0x1008#64).2 = false) ∧
    (let x := { args .loop with imm := 16#24 }
     let s := nopAt 0x1040 (st (loopGrp false false 0))
     issuesB .loop x s iss0 (team (loopGrp false false 0)) (loopGrp false false 0) (loopFrag false false) = true ∧
       ((countIssue s iss0).fetchInstr 0 0 5 0x1040).2 = .ok (.nop z) 1 ∧ operandsLegal .nop z (loopGrp false false 0) cfg0 false = true ∧
       badAddr 0x1044#64 = false) := by decide +kernel

theorem witness_ClausesQuantaAndWaits :
    RunsIn .clause (args .clause 0 1) (grp) ∧ RunsIn .nop (args .nop) (grp) ∧ RunsIn .yield (args .yield) (grp) ∧
    (∀ v ∈ [0, 1], RunsIn .sleep (args .sleep) (grp [(16, v)])) ∧
    (∀ v ∈ [0, 2, 62, 63], RunsIn .waitc { args .waitc with a := .n 2 } { grp [(16, v)] with cnt := [0, 0, 2, 0, 0, 0, 0, 0] }) :=
  ⟨runs_of (by decide +kernel), runs_of (by decide +kernel), runs_of (by decide +kernel), each_runs (by decide +kernel), each_runs (by decide +kernel)⟩

/-- Outside a clause and in one; in a handler, and in a launch without a vector. -/
theorem issuing_one (g : Group) (f : Frag) (h : g.frags = [(0, f)]) : Issuing (st g) iss0 (team g) g f :=
  ⟨rfl, rfl, rfl, by rw [h]; rfl⟩
def clauseGrp : Group := { grp with clause := some ⟨0, 0, 0xFF8#64, 2, 5#32, 9#64⟩ }
theorem witness_TrapEntry :
    (Issuing (st grp) iss0 (team grp) grp frag0 ∧ (grp).handler = none ∧ (team grp).cfg.trapv ≠ BitVec.allOnes 64 ∧ (grp).inClause 0 = false) ∧
    (Issuing (st clauseGrp) iss0 (team clauseGrp) clauseGrp frag0 ∧ clauseGrp.handler = none ∧ clauseGrp.clause = some ⟨0, 0, 0xFF8#64, 2, 5#32, 9#64⟩) ∧
    (Issuing (st { grp with handler := some 0 }) iss0 (team { grp with handler := some 0 }) { grp with handler := some 0 } frag0) :=
  ⟨⟨issuing_one _ _ rfl, rfl, by decide +kernel, rfl⟩, ⟨issuing_one _ _ rfl, rfl, rfl⟩, issuing_one _ _ rfl⟩

theorem witness_SoftwareTrapsAndReturn :
    RunsIn .trap (args .trap 0 200) (grp) ∧ RunsIn .brk (args .brk) (grp) ∧ RunsIn .rte (args .rte) (grp) ∧
    (let g := { grp with handler := some 0, sp := { (grp).sp with trappc := 0x1040#64 } }
     RunsIn .rte (args .rte) g ∧ g.handler = some 0 ∧ g.clause = none ∧ g.sp.step.getLsbD 0 = false) ∧
    (let g := { grpOf [(0, frag0), (1, { fragAt 0 0x1080 with halted := true })] [] with
       handler := some 0, sp := { (grp).sp with trappc := 0x1040#64, step := 0x101#32 } }
     Runs .rte (args .rte) (st g) (team g) g frag0 ∧ g.sp.step.getLsbD 0 = true ∧ mapGet? 1 g.frags = some { fragAt 0 0x1080 with halted := true }) :=
  ⟨runs_of (by decide +kernel), runs_of (by decide +kernel), runs_of (by decide +kernel), ⟨runs_of (by decide +kernel), rfl, rfl, by decide +kernel⟩,
    runs_of (by decide +kernel), by decide +kernel, rfl⟩

/-- Each way in which an instruction does not reach its meaning: barred in a clause; a latch outside one; the last address of a loop inside a clause; a register
that awaits a return; a branch under a poisoned guard; a uniform instruction that its guard suppresses. -/
theorem witness_IssueChecks :
    ((Op.mk .clause (args .clause 0 1)).split = some (.clause, args .clause 0 1) ∧ Issuing (st clauseGrp) iss0 (team clauseGrp) clauseGrp frag0 ∧ frag0.ready = true ∧ frag0.wait = .none ∧
      clauseGrp.inClause 0 = true ∧ Op.clause.barred = true) ∧
    (operandsLegal .mov { args .mov with a := .bl 0 } (grp) cfg0 false = false) ∧
    (let f := { frag0 with loop0 := ⟨true, 3#32, 0xFF0#64, 0x1000#64⟩ }
     let g := { clauseGrp with frags := [(0, f)] }
     Issuing (st g) iss0 (team g) g f ∧ clauseEndOk g f 0 f.pc = false ∧ operandsLegal .mov (args .mov) g cfg0 true = true) ∧
    (let y : Flight := ⟨9, 0, 0, 0x1000#64, false, .v 16 1, 1#32, true, false, false, false, 0, [], [], false, 0, 0, none, 0, false⟩
     ({ grp with flights := [y] } : Group).pending .mov (args .mov) cfg0.fs 0 = true) ∧
    (let g := { grp with qPois := 0xFF#8 }
     let x : Args := { args .bra with guard := some ⟨1, false⟩ }
     guardBad .bra x g = true ∧ isBranch .bra = true ∧ operandsLegal .bra x g cfg0 false = true) ∧
    (let x : Args := { args .uadd with guard := some ⟨1, true⟩ }
     (guardU (grp) x).1 = true ∧ guardBad .uadd x (grp) = false ∧ operandsLegal .uadd x (grp) cfg0 false = true) := by
  refine ⟨⟨rfl, issuing_one _ _ rfl, by decide +kernel, rfl, by decide +kernel, by decide +kernel⟩, by decide +kernel, ⟨issuing_one _ _ rfl, by decide +kernel, by decide +kernel⟩,
    by decide +kernel, by decide +kernel, by decide +kernel⟩

theorem witness_NextAddressRangeTrap :
    let f := fragAt 1 0x1FFFFFFFFFFFFF8
    let g := grpOf [(0, f)] []
    issuesB .iadd (args .iadd) (st g) iss0 (team g) g f = true ∧ badAddr (afterOf (args .iadd) f) = true := by decide +kernel

/-! Witnesses of the statements about accesses. -/

abbrev RunsMapped (o : Op) (x : Args) (g : Group) : Prop := Runs o x (mapped (st g)) (team g) g frag0

/-- With the lanes of the fragment, and under a guard that leaves none. -/
def off (x : Args) : Args := { x with guard := some ⟨0, true⟩ }

theorem witness_ScratchpadAndWindowAccessesIssue :
    (∀ o ∈ [Op.lds, .sts, .ats, .ldc, .stc, .atc, .stm], (∃ r, nearForm o (args o) = some r) ∧ RunsIn o (args o) (grp)) ∧
    (∀ q ∈ [(Op.lds, off (args .lds)), (.ats, args .ats 0x0A), (.ldc, args .ldc 2)], RunsIn q.1 q.2 (grp)) ∧
    (∀ o ∈ [Op.lds, .sts, .ats, .ldc, .stc, .atc, .stm], ∀ l ∈ List.range 32, ∀ r ∈ nearForm o (args o),
      cleanLane (grp) (args o) r.1 false l = true ∧ near (grp) (args o) r.1 l % r.1.w = 0 ∧ near (grp) (args o) r.1 l + r.1.w ≤ 16384) ∧
    guardV (grp) (off (args .lds)) frag0.emask = 0#32 ∧ guardV (grp) (args .lds) frag0.emask ≠ 0#32 :=
  ⟨table_runs (by decide +kernel), all_run (by decide +kernel), by decide +kernel, by decide +kernel, by decide +kernel⟩

def lineAcc (x : Args) (g : Group) (fm : Form) : LaneAcc :=
  ⟨fm.w, fm.act, far g x fm, fun _ => false, (List.range fm.n).map fun j => lanesTab fun l => (dataAt g fm.ty fm.data fm.n l).getD j Elem.zero,
    if fm.new then (List.range fm.n).map fun j => lanesTab fun l => (dataAt g .int x.c fm.n l).getD j Elem.zero else []⟩

theorem witness_GlobalAccessesIssue :
    ∀ o ∈ [Op.ld, .st, .atom, .red], ∀ r ∈ farForm o (args o), r.2 ≠ 4 ∧ runsB o (args o) (mapped (st grp)) (team grp) grp frag0 = true ∧
      (∀ l ∈ List.range 32, cleanLane grp (args o) r.1 true l = true ∧ far grp (args o) r.1 l < 2 ^ 57 ∧ far grp (args o) r.1 l % r.1.w = 0) ∧
      ((countIssue (mapped (st grp)) iss0).resolveParts 1 0 0 (countIssue (mapped (st grp)) iss0).nextId
        ((envOf o (args o) (mapped (st grp)) iss0 (team grp) grp frag0).lineParts (countIssue (mapped (st grp)) iss0) (lineAcc (args o) grp r.1)
          (o = .ld && decide (mOpx (args o).m / 8 % 4 ≠ 1)))).isSome = true := by decide +kernel

theorem witness_GranaryAccessesIssue :
    ∀ q ∈ [(Op.gld, args .gld), (.gst, args .gst), (.gop, args .gop), (.gop, args .gop 0x20)], (∃ r, farForm q.1 q.2 = some (r, 4)) ∧
      runsB q.1 q.2 (st grp) (team grp) grp frag0 = true ∧
      ∀ l ∈ List.range 32, ∀ r ∈ farForm q.1 q.2, cleanLane grp q.2 r.1 false l = true ∧ near grp q.2 r.1 l % r.1.w = 0 := by
  intro q hq
  refine ⟨?_, ?_⟩
  · simp only [List.mem_cons, List.not_mem_nil, or_false] at hq
    rcases hq with rfl | rfl | rfl | rfl <;> exact ⟨_, rfl⟩
  · revert q; decide +kernel

/-- An access of the group in flight, its part, and a request. -/
def req (a : Act) (lanes : List LaneReq) (tgt : Target) (ret : Ret := .part 1 0 9 0) (pa : Nat := 0) : Req :=
  ⟨a, lanes, ⟨pa, 0, false, 0, pa⟩, tgt, ret, some 0, 0, false, false, false, 0, 9, false⟩
def flight (path : Nat) (ps : List Part) (dst : Dst := .none) (got : Map (List Elem) := []) (id : Nat := 9) : Flight :=
  ⟨id, path, 0, 0x1000#64, false, dst, 0xFFFFFFFF#32, true, false, false, false, 0, ps, got, false, 0, 0, none, 0, false⟩
def flying (y : Flight) (g : Group := grp) : Group := { g with flights := [y], cnt := listUpd y.path (fun _ => 1) g.cnt }
def onCore (k : Core) (s : State) : State := { s with cores := [(0, k)] }

/-- Words of a shape register. -/
def shaped (i : Nat) (ws : List Nat) (g : Group := grp) : Group := { g with sh := [(i, (List.range 16).map fun k => elemOf (ws.getD k 0))] }

theorem witness_ShapeAndRangeAccessesIssue :
    (∀ q ∈ [(Op.shld, args .shld, Act.load 64 false, true, ([] : List Word)), (.shst, args .shst, .store 64, false, ((grp).shape 1).map Elem.val)],
      runsB q.1 q.2.1 (mapped (st grp)) (team grp) grp frag0 = true ∧
      (let s1 := countIssue (mapped (st grp)) iss0
       (s1.resolveParts 1 0 0 s1.nextId [((envOf q.1 q.2.1 (mapped (st grp)) iss0 (team grp) grp frag0).part s1 0 q.2.2.1 [⟨0, 0, q.2.2.2.2, []⟩] ⟨0, 0, false, 0, 0⟩ .unit
         q.2.2.2.1, 0)]).isSome = true)) ∧
    (args .shld).d = .h 1 ∧ (args .shst).d = .h 1 ∧
    (∀ n ∈ [1, 2 ^ 24], RunsIn .gupd (args .gupd) (grp [(16, 0), (17, n)])) ∧
    (∀ m ∈ [2, 3], RunsIn .gupd (args .gupd m) (grp [(16, 0), (17, 1)])) ∧ (grp).sregs (.s 16) 3 = List.replicate 3 (elemOf 0) ∧
    RunsIn .gupd { args .gupd with b := .s 17 } (grp [(17, 2 ^ 24)]) ∧ slotFmt cfg0.fs 0 = some .fp32 :=
  ⟨by decide +kernel, by decide +kernel, by decide +kernel, each_runs (by decide +kernel), each_runs (by decide +kernel), by decide +kernel, runs_of (by decide +kernel), by decide +kernel⟩

/-- CCTL with the least and the greatest size. -/
def cctlGrp (n : Nat) : Group := grp [(18, n)]
def xCctl (o : Op) : Args := { args o with b := .s 18 }
theorem witness_PrefetchCacheControlAndFence :
    RunsIn .pref (args .pref) (grp) ∧
    (∀ o ∈ [Op.cctlPin, .cctlUnpin, .cctlDiscard, .cctlClean], ∀ n ∈ [128, 2 ^ 31],
      runsB o (xCctl o) (mapped (st (cctlGrp n))) (team (cctlGrp n)) (cctlGrp n) frag0 = true) ∧
    (let e := envOf .cctlPin (xCctl .cctlPin) (mapped (st (cctlGrp 128))) iss0 (team (cctlGrp 128)) (cctlGrp 128) frag0
     (match (e.pages (countIssue (mapped (st (cctlGrp 128))) iss0) permR 0 128).2 with | some (.ok ps) => ps.length | _ => 0) = 1) ∧
    (runsB .cctlQuery (xCctl .cctlQuery) (mapped (st (cctlGrp 255))) (team (cctlGrp 255)) (cctlGrp 255) frag0 = true) ∧
    (∀ m ∈ [0, 0x200], RunsIn .fence (args .fence m) grp) :=
  ⟨runs_of (by decide +kernel), by decide +kernel, by decide +kernel, by decide +kernel, each_runs (by decide +kernel)⟩

/-- A load of 4 bytes, a store and an atomic at the head of the queue of core 0, for lane 3 at the last word of the scratchpad. -/
def scrAct (a : Act) : State :=
  let r := req a [⟨3, 16380, [5#32], [6#32]⟩] (.scratch 1)
  onCore { Core.reset with scrQ := [⟨1, r⟩] } (one (team (flying (flight 0 [⟨r, .sent⟩]))))
theorem witness_ScratchpadServesTheOldestAccess :
    ∀ a ∈ [Act.load 4 false, .store 4, .atom 10 false],
      let s := scrAct a
      let r := req a [⟨3, 16380, [5#32], [6#32]⟩] (.scratch 1)
      ((s.core 0).scrQ = [⟨1, r⟩] ∧ r.ret = .part 1 0 9 0) ∧
      (s.group? 1 0).map (fun q => q.2.flight? 9) = some (some (flight 0 [⟨r, .sent⟩])) ∧ (mapGet? 1 s.teams).map (fun t => (zeroWf t.scratch, t.scratchPois)) = some (true, []) := by
  decide +kernel

theorem witness_AtomicOperations : (32 = 32 ∨ 32 = 64) ∧ (64 = 32 ∨ 64 = 64) ∧ 2 ^ 32 - 1 < 2 ^ 32 ∧ 2 ^ 64 - 1 < 2 ^ 64 := by decide

/-- The oldest access of path 1 while a part of it is out, and when all is done, for each kind of destination. -/
theorem witness_AccessReturnWritesTheDestination :
    (∀ st' ∈ [PartSt.sent, .done], ∀ d ∈ [Dst.v 8 2, .s 8 2, .sh 1, .none],
      let y := flight 1 [⟨req (.load 8 false) [⟨0, 0, [], []⟩] .home, st'⟩] d [(0, [elemOf 1, elemOf 2])]
      let s := one (team (flying y))
      (s.group? 1 0).map Prod.snd = some (flying y) ∧ (flying y).flights.find? (fun f => decide (f.path = 1)) = some y ∧ y.open_ = decide (st' = .sent) ∧
        noneWaits (flying y) = true) := by decide +kernel

/-- A team whose first barrier word is valid, or broken; the last number, and the first beyond. -/
def barTeam (w : BarWord) (g : Group) : Team := { team g with bars := listSet 7 w (List.replicate 8 BarWord.zero) }
def usableWord : BarWord := ⟨3, true, false, 2, 0#32⟩
theorem witness_NamedBarrierInstructions :
    (∀ w ∈ [usableWord, { usableWord with broken := true }, BarWord.zero], ∀ b ∈ [7, 8], ∀ v ∈ [0, 1, 3, 32, 33], ∀ o ∈ [Op.barInit, .barInv, .barWt, .barTry],
      let g := grp [(18, b), (19, v)]
      let x := { args o with a := .s 18, b := if o = .barInv then .none else .s 19 }
      runsB o x (one (barTeam w g)) (barTeam w g) g frag0 = true) ∧
    (args .barTry).d = .p 1 := by decide +kernel

theorem witness_ArrivalsAndClusterBarriersIssue :
    (∀ o ∈ [Op.barArv, .cbarArv, .cbarWt], ∀ v ∈ [0, 1],
      let g := grp [(16, 0), (18, v)]
      let x := { args o with b := if o = .cbarWt then .s 18 else .none }
      let t := { team g with bars := List.replicate 8 usableWord }
      runsB o x (one t) t g frag0 = true ∧ mapGet? t.cluster (one t).clusters = some cluster0) ∧
    (∀ o ∈ [Op.cbarArv, .cbarWt], RunsIn o (args o) (grp [(16, 1)])) ∧ cluster0.bars.length = 1 := by
  refine ⟨by decide +kernel, each_runs (by decide +kernel), rfl⟩

/-- A fragment that waits for its arrival, which its word counts, has counted, or cannot count. -/
def arrGrp (w : Wait) : Group := { grpOf [(0, { frag0 with wait := w })] [] with flights := [flight 8 []] }
theorem witness_ArrivalEvents :
    (∀ w ∈ [usableWord, { usableWord with arrived := 1#32 }, { usableWord with broken := true }, BarWord.zero],
      let g := arrGrp (.arrive 7 8 0 0 4 false)
      let s := one (barTeam w g)
      (s.group? 1 0).map Prod.snd = some g ∧ g.frags = [(0, { frag0 with wait := .arrive 7 8 0 0 4 false })] ∧
        arrivalReady s 0 g 0 0 0 false = some (flight 8 []) ∧ g.stepping = none) ∧
    (let g := arrGrp (.carrive 0 8 0 0 4 false)
     let s := one (team g)
     (s.group? 1 0).map Prod.snd = some g ∧ arrivalReady s 0 g 0 0 0 true = some (flight 8 []) ∧ mapGet? 2 s.clusters = some cluster0) := by decide +kernel

/-- Core 0 under debug of context 0, with a mailbox full, and not under debug. -/
def debugged (n : Nat) (s : State) : State := onCore { Core.reset with dbgOut := List.replicate n 1#32 } { s with regs := [(0x00400000, 0x8000000000000000#64)] }
theorem witness_DebugUnitInstructions :
    (∀ n ∈ [0, 15, 16], ∀ o ∈ [Op.dbgmSend, .dbgmRecv, .dbgmStat, .dbgmFown, .dbgmFmask, .dbgmFpc, .dbgmFinfo, .dbgmJmask], ∀ e ∈ [0, 31],
      let g := grp [(16, e)]
      runsB o (args o) (debugged n (st g)) (team g) g frag0 = true ∧ ((debugged n (st g)).reg 0x00400000).testBit 63 = true ∧ (args o).d ≠ .p 0) ∧
    (∀ o ∈ [Op.dbgmSend, .dbgmRecv], RunsIn o (args o) grp) ∧ ((st grp).reg 0x00400000).testBit 63 = false :=
  ⟨by decide +kernel, each_runs (by decide +kernel), by decide +kernel⟩

/-- A quantum that has run out, one that has not, a sleep that ends or lasts, and a group that has ended. -/
theorem witness_GroupTimingEvents :
    (∀ n ∈ [31, 32], ((st { grp with issued := n }).group? 1 0).map Prod.snd = some { grp with issued := n }) ∧
    (grp).quantum = 32 ∧ (grp).nextReady 0 = some 0 ∧
    (∀ c ∈ [0, 1], let f := { frag0 with wait := .sleep c 4 }
      mapGet? 0 (grpOf [(0, f)] []).frags = some f ∧ (st (grpOf [(0, f)] [])).clock = 0) ∧
    (let g := grpOf [] []
     g.flights = [] ∧ (∀ p, p < 7 → g.cnt.getD p 0 = 0) ∧ g.kind = .compute ∧ g.holdsPoison 240 = false ∧ mapGet? 5 (st g).launches = some launch0 ∧
       mapSorted (team g).groups = true ∧ mapSorted (st g).teams = true) := by decide +kernel

/-! Witnesses of the statements about the matrix engine, the turning store and graphics. -/

/-- A team whose macros hold the INT8 family. -/
def int8Team (g : Group) : Team := { team g with mx := { TeamMx.fresh 8 with macros := List.replicate 8 ⟨.int8, []⟩ } }
def int8Line : LineAt := ⟨false, false, .int8, 0, 128⟩
def mmC (o : Op) : Fld := if o = .mmdual then .n 7 else .none
theorem witness_MatrixCommandsIssue :
    slotFmt cfg0.fs 5 = some .int8 ∧
    (∀ o ∈ [Op.mma, .mmdual], ∀ x ∈ [{ args o with fs := 5, c := mmC o }, { args o with fs := 5, c := mmC o, guard := some ⟨0, true⟩ }],
      runsB o x (one (int8Team grp)) (int8Team grp) grp frag0 = true ∧ runsB o x (st grp) (team grp) grp frag0 = true) ∧
    ((int8Team grp).mx.macros[0]?).map Macro.fam = some .int8 ∧ ((team grp).mx.macros[0]?).map Macro.fam = some .none ∧
    (int8Line.mis = false ∧ int8Line.out (team grp) = false ∧ ((team grp).readLine int8Line .rne fun _ => 0).bad = false) ∧
    spacesRest (one (int8Team grp)) iss0 (int8Team grp) grp = true ∧ rowsUsed (one (int8Team grp)) (int8Team grp) = 0 ∧
    (let c : MxCmd := ⟨1, 0, 3, 0, .pass .int8 true [] 0 0 0 false false⟩
     let s := onCore { Core.reset with mx := ⟨[c]⟩ } (one (int8Team grp))
     rowsUsed s (int8Team grp) = 1 ∧ runsB .mma { args .mma with fs := 5 } s (int8Team grp) grp frag0 = true) ∧
    (let x := { args .mbld with fs := 5, b := .s 18 }
     let g := grp [(18, 128)]
     runsB .mbld x (st g) (team g) g frag0 = true ∧ ((List.range 128).all fun n => !(⟨false, false, .int8, n * 128, 128⟩ : LineAt).out (team g)) = true) := by decide +kernel

/-- MWB of the first row and of all 32, and with a control word that it refuses; MACRD. -/
theorem witness_MwbAndMacrdIssue :
    (∀ c ∈ [2 ^ 5, 32 * 2 ^ 5, 0x8000, 0x800, 0, 31 + 2 ^ 6],
      let g := grp [(18, 0), (20, 0), (22, c + 128 * 65536)]
      let x := { args .mwb with a := .s 18, b := .s 20, c := .s 22 }
      runsB .mwb x (st g) (team g) g frag0 = true ∧ bankRests (st g) iss0 (team g) 0 = true) ∧
    runsB .macrd (args .macrd) (st grp) (team grp) grp frag0 = true ∧ bankRests (st grp) iss0 (team grp) 0 = true ∧
    (∀ l ∈ List.range 32, (laneAt ((grp).srcV .int (.v 16)) l).pois = false) := by decide +kernel

/-- A gather whose rows are all beyond NROWS, and one of a row with no entry. -/
theorem witness_GatheredTilesIssue :
    ∀ n ∈ [0, 1],
      let g := shaped 1 [6 + 256 * 5, 0, 4096, 8192, 0, 0, n]
      runsB .mbgth { args .mbgth with d := .n 0 } (st g) (team g) g frag0 = true ∧ spacesRest (st g) iss0 (team g) g = true ∧
        (g.shape 1).all (fun e => !e.pois) = true ∧ ((g.shape 1).getD 6 Elem.zero).nat = n ∧
        (∀ i ∈ List.range 8, ((team g).arrByte false i).2 = false ∧ ((team g).arrByte false i).1 = 0#8) := by decide +kernel

/-- TSRD and TSWR; TSLD of a window of two elements, of which one is out of bounds. -/
def tsldGrp : Group := shaped 1 [2 + 256 * 5, 0, 0, 1, 1, 64, 0, 0, 0, 2 + 65536, 65532, 2]
theorem witness_TurningStoreAccessesIssue :
    (∀ o ∈ [Op.tsrd, .tswr], RunsIn o (args o) grp) ∧
    (runsB .tsld (args .tsld) (mapped (st tsldGrp)) (team tsldGrp) tsldGrp frag0 = true ∧ (tsldGrp.shape 1).all (fun e => !e.pois) = true ∧
      ((countIssue (mapped (st tsldGrp)) iss0).resolveParts 1 0 0 (mapped (st tsldGrp)).nextId
        ((envOf .tsld (args .tsld) (mapped (st tsldGrp)) iss0 (team tsldGrp) tsldGrp frag0).tileParts (countIssue (mapped (st tsldGrp)) iss0) 1
          (byLine [(65532, 0)]))).isSome = true) := ⟨each_runs (by decide +kernel), by decide +kernel⟩

/-- A pass, a tile load and a write-back at the head of the queue of core 0. -/
def mxState (op : MxOp) : State := onCore { Core.reset with mx := ⟨[⟨1, 0, 9, 0, op⟩]⟩ } (one (int8Team (flying (flight 6 [⟨req (.load 4 false) [] .unit, .sent⟩]))))
theorem witness_MatrixEngineEvents :
    (∀ op ∈ [MxOp.pass .int8 true [] 7 7 31 false false, .load 7 [], .wb 7 9 0 (31 + 32) 0 0 0 1#64 0],
      ((mxState op).core 0).mx.q = [] ++ ⟨1, 0, 9, 0, op⟩ :: [] ∧ (mapGet? 1 (mxState op).teams).map Team.memWf = some true) ∧ Fmt.ofCode 9 = some .int32 := by
  decide +kernel

/-- A store and a load in the turning store's queue; an element of TSLD that lands, whole and poisoned. -/
def tsState (a : Act) : State :=
  let r := req a [⟨0, 65532, [5#32], []⟩] .turning
  onCore { Core.reset with tsQ := [⟨1, r⟩] } (one (team (flying (flight 6 [⟨r, .sent⟩]))))
def landing (e : Elem) : Flight := flight 6 [⟨req (.load 4 false) [⟨0, 0, [], []⟩] .home, .done⟩, ⟨req (.load 4 false) [] .unit, .sent⟩] .none [(65532, [e])]
theorem witness_TurningStoreEvents :
    (∀ a ∈ [Act.load 4 false, .store 4],
      let r := req a [⟨0, 65532, [5#32], []⟩] .turning
      ((tsState a).core 0).tsQ = [⟨1, r⟩] ∧ ((tsState a).group? 1 0).map (fun q => q.2.flight? 9) = some (some (flight 6 [⟨r, .sent⟩])) ∧
        (mapGet? 1 (tsState a).teams).map (fun t => (t.memWf, t.mx.tsPois)) = some (true, [])) ∧
    (∀ e ∈ [elemOf 5, ⟨0#32, true⟩],
      let s := one (team (flying (landing e)))
      (s.copiesOf 0 6)[0]? = some (1, 0, 9, 65532) ∧ (s.group? 1 0).map (fun q => q.2.flight? 9) = some (some (landing e)) ∧
        noneWaits (flying (landing e)) = true) := by decide +kernel

/-- A tile sequence of one tile and one batch of 32 rows, INT8 from the turning store: opening it, resuming it, and its two steps. -/
def seqGrp (w : Dword) (waits : Wait) : Group :=
  let sh (ws : List Nat) : List Elem := (List.range 16).map fun k => elemOf (ws.getD k 0)
  let l := [1 + 256 * 5, 0, 128, 0, 128]
  { grpOf [(0, { frag0 with wait := waits })] [] with
    sh := [(1, sh [7 + 2 * 256 + 3 * 4096, 1, 32, 0]), (2, sh l), (3, sh l)], sp := { (grp).sp with seqstate := w } }
def seqWordOf (row step : Nat) : Dword := BitVec.ofNat 64 (2 ^ 63 + 1 * 2 ^ 52 + row * 2 ^ 32 + step)
def oneTile (g : Group) (step : Nat) : Bool :=
  match g.tileSeq 8 1 with
  | .ok q => decide (q.kt = 1 ∧ q.nt = 1 ∧ q.mt = 1 ∧ q.mrows = 32 ∧ step < q.kt * q.period)
  | .error _ => false
theorem witness_TileSequences :
    ∀ g ∈ [seqGrp 0#64 .none, seqGrp (seqWordOf 0 0) .none, seqGrp (seqWordOf 31 1) .none],
      runsB .mtile (args .mtile) (st g) (team g) g frag0 = true ∧ oneTile g 1 = true := by decide +kernel
/-- Every line that a step reads is in place, and none traps. -/
def linesRead (t : Team) (g : Group) (row step : Nat) : Bool :=
  match g.tileSeq 8 1 with
  | .ok q =>
    let y := if step = 0 then q.b else q.a
    let lines := if step = 0 then List.range (famN .int8) else (List.range 32).filter fun r => decide (row ≤ r)
    lines.all fun i =>
      let at_ : LineAt := ⟨y.sp, y.col, y.fmt, (y.base + i * y.lstr) % 2 ^ 32, 128⟩
      decide (i < y.nlines) && !at_.mis && !at_.out t && !(t.readLine at_ q.rnd fun _ => 0).bad
  | .error _ => false
def tileStep0 : TileStep := ⟨.int8, 7, 0, false, false, [(31, [], 0)], true⟩
theorem witness_TileSteps :
    (∀ q ∈ [(0, 0), (0, 1), (31, 1)], ∀ now ∈ [none, some tileStep0],
      let g := seqGrp (seqWordOf q.1 q.2) (.tile true now 8)
      let s := one (int8Team g)
      (s.group? 1 0).map Prod.snd = some g ∧ g.frags = [(0, { frag0 with wait := .tile true now 8 })] ∧ spacesRest s iss0 (int8Team g) g = true ∧
        oneTile g q.2 = true ∧ linesRead (int8Team g) g q.1 q.2 = true ∧ ((int8Team g).mx.macros[7]?).map Macro.fam = some .int8 ∧
        ((team g).mx.macros[7]?).map Macro.fam = some .none) := by decide +kernel

/-! Witnesses of the statements about textures, graphics, engines and queues. -/

/-- A texture of one 4-byte texel at 0x4000, its descriptor at 0x2000: in memory, so that it is read. -/
def texWords : List Nat := [0x4000, 0, 0x10001, 1, 0, 0, 0, 0]
def texState (ws : List Nat) (g : Group) : State := { mapped (st g) with hbm := cellPuts 0x2000 (ws.flatMap (toBytes · 4) ++ List.replicate 32 0#8) (mapped (st g)).hbm }
def texGrp (c : Nat) : Group := grp [(16, 0), (18, c)]
def xTex (o : Op) : Args := { args o with c := .s 18, mod := (args o).mod }
def descOf (o : Op) (s : State) (g : Group) : Option (List Word × Bool) :=
  match ((envOf o (xTex o) s iss0 (team g) g frag0).readDesc (countIssue s iss0) 0x2000).2 with
  | .ok ws bad => some (ws, bad)
  | _ => none
def texMeets (o : Op) (c : Nat) (ws : List Nat) : Bool := runsB o (xTex o) (texState ws (texGrp c)) (team (texGrp c)) (texGrp c) frag0
theorem witness_TextureInstructionsIssue :
    (∀ o ∈ [Op.sample, .samplel, .sampleg, .txq], texMeets o 0x2000 texWords = true ∧ texMeets o 0x2004 texWords = true ∧
      (match descOf o (texState texWords (texGrp 0x2000)) (texGrp 0x2000) with | some (ws, bad) => !bad && (texDesc ws).isSome | none => false) = true ∧
      (match descOf o (texState [1] (texGrp 0x2000)) (texGrp 0x2000) with | some (ws, bad) => !bad && (texDesc ws).isNone | none => false) = true) ∧
    (∀ o ∈ [Op.sample, .samplel, .sampleg],
      let s := texState texWords (texGrp 0x2000)
      let e := envOf o (xTex o) s iss0 (team (texGrp 0x2000)) (texGrp 0x2000) frag0
      (match e.readDesc (countIssue s iss0) 0x2000 with
        | (s2, .ok ws _) => (match texDesc ws with
          | some d => (s2.resolveParts 1 0 0 s2.nextId (e.textureParts s2 0 ws (e.lanePlan o d (fun _ => 0) fun _ => 0) d.bytes).2).isSome
          | none => false)
        | _ => false) = true) := by decide +kernel

theorem witness_SplatInstructionsIssue :
    (∀ q ∈ [(Op.blend, { args .blend with c := .v 20 }), (.blendb, { args .blendb with d := .v 32 }), (.rigx, args .rigx), (.rigx, off (args .rigx))],
      runsB q.1 q.2 (st grp) (team grp) grp frag0 = true ∧ (laneAt ((grp).srcV .int q.2.b) 31).nat + 64 ≤ cfg0.scratch) ∧
    (runsB .blendStage (args .blendStage 0x800) (mapped (st grp)) (team grp) grp frag0 = true ∧
      ((countIssue (mapped (st grp)) iss0).resolveParts 1 0 0 100
        [(((envOf .blendStage (args .blendStage 0x800) (mapped (st grp)) iss0 (team grp) grp frag0).part (countIssue (mapped (st grp)) iss0) 0 (.load 64 false)
          ((lanesOf frag0.emask).map fun l => ⟨l, 0, [0#32], []⟩) ⟨0, 0, false, 0, 0⟩ .unit true).relaxed, 0)]).isSome = true) := by decide +kernel

/-- A record that the blend walker copies, whole and poisoned, for the one lane of its slot, and with a higher lane of the same slot. -/
def walking (e : Elem) (hi : List LaneReq) : Flight :=
  flight 0 [⟨req (.load 64 false) (⟨3, 0, [16320#32], []⟩ :: hi) .home, .done⟩, ⟨req (.load 64 false) [] .unit, .sent⟩] .none [(3, List.replicate 16 e)]
theorem witness_BlendWalkerCopiesARecord :
    ∀ e ∈ [elemOf 5, ⟨0#32, true⟩], ∀ hi ∈ [[], [(⟨4, 64, [16320#32], []⟩ : LaneReq)]],
      let y := walking e hi
      let s := one (team (flying y))
      (s.copiesOf 0 0)[0]? = some (1, 0, 9, 3) ∧ (s.group? 1 0).map (fun q => q.2.flight? 9) = some (some y) ∧ mapGet? 3 y.got = some (List.replicate 16 e) ∧ (s.core 0).scrQ = [] ∧
        (y.parts.flatMap fun p => p.req.lanes).find? (fun r => decide (r.lane = 3)) = some ⟨3, 0, [16320#32], []⟩ ∧ noneWaits (flying y) = true := by decide +kernel

/-- A group of a kind, with the slots of its core: none, one of its own that is open, four. -/
def kindGrp (k : GroupKind) (s : List (Nat × Nat) := []) : Group := { grp s with kind := k }
def slotOf (t : Nat) (p : Option Nat) : Slot := ⟨t, 0, 0, 5, 0x1000#64, 256, 256, 0, [], [], p, 0⟩
def rendered (n : Nat) (g : Group) : State :=
  onCore { Core.reset with rend := { Render.reset with slots := (List.range n).map fun i => (i, slotOf (if n = 1 then 1 else 7) none) } } (st g)
def mineIs (n : Nat) (g : Group) : Option Nat :=
  (((rendered n g).core 0).rend.slots.find? fun q => decide (q.2.team = 1 ∧ q.2.gix = 0) && q.2.pub.isNone).map Prod.fst
theorem witness_GraphicsInstructions :
    (∀ n ∈ [0, 4], ∀ v ∈ [0, 1, 64, 65], let g := kindGrp .task [(16, v)]
      runsB .temit (args .temit) (rendered n g) (team g) g frag0 = true ∧ ((rendered n g).core 0).rend.slots.length = n) ∧
    (∀ n ∈ [0, 1, 4], ∀ v ∈ [0, 1, 256, 257], let g := kindGrp .mesh [(18, v), (19, v)]
      runsB .msetup { args .msetup with a := .s 18, b := .s 19 } (rendered n g) (team g) g frag0 = true ∧ mineIs n g = (if n = 1 then some 0 else none)) ∧
    (∀ n ∈ [0, 1], ∀ o ∈ [Op.mvert, .mprim, .mdone], let g := kindGrp .mesh
      runsB o (args o) (rendered n g) (team g) g frag0 = true ∧ ∀ l ∈ List.range 32, (laneAt (g.srcV .int (.v 16)) l).nat < 256) ∧
    (∀ k ∈ [GroupKind.pixel, .compute], ∀ o ∈ [Op.discard, .depthw, .pxout], let g := kindGrp k
      runsB o (args o) (rendered 0 g) (team g) g frag0 = true) ∧
    (∀ o ∈ [Op.temit, .msetup, .mvert, .mprim, .mdone], runsB o (args o) (st grp) (team grp) grp frag0 = true) ∧
    launch0.nodisc = false ∧ launch0.nodepthw = false ∧ ({ launch0 with rstate := List.replicate 15 0#8 ++ [8#8] } : Launch).ntgt = 8 := by decide +kernel

/-- A mesh group that waits to be placed, a published slot, quads that wait for a pixel group. -/
def drawLaunch : Launch := { launch0 with ext := toBytes 0x3000 8 ++ toBytes 0x3800 8 ++ toBytes 0 8 ++ [1, 1, 4] ++ List.replicate 40 0#8 }
def drawState (r : Render) : State := { onCore { Core.reset with rend := { r with reserved := [(5, 4)] } } State.reset with launches := [(5, drawLaunch)] }
def helperQuad : List QuadLane := List.replicate 4 ⟨false, [7#32]⟩
theorem witness_RenderEvents :
    (let s := drawState { Render.reset with meshQ := [⟨5, (2, 0), [elemOf 3], 0, 1⟩] }
     s.savedMesh 0 = none ∧ s.nextMesh 0 = some ⟨5, (2, 0), [elemOf 3], 0, 1⟩ ∧ (s.portFor 0 (8 * drawLaunch.x 0x18 1)).isSome = true) ∧
    (let sl : Slot := { slotOf 7 (some 0) with np := 1, prims := [(0, ⟨0x80000000#32, false⟩)] }
     let s := drawState { Render.reset with slots := [(0, sl)], published := 1 }
     s.rendWaits 0 = false ∧ (s.core 0).rend.nextSlot = some (0, sl) ∧ drawLaunch.early = false ∧ (s.core 0).rend.work = [] ∧
       (s.pixPort 0 5 (8 * drawLaunch.x 0x19 1)).isSome = true) ∧
    (let s := drawState { Render.reset with work := [⟨5, List.replicate 9 helperQuad⟩] }
     (s.core 0).rend.work = [⟨5, List.replicate 9 helperQuad⟩] ∧ (s.pixPort 0 5 (8 * drawLaunch.x 0x19 1)).isSome = true) := by decide +kernel

/-! Witnesses of the statements about engines, queues and the front end. -/

/-- Descriptors: a copy of four INT8 elements, a sort of one key of 8 bits, an all-reduce of 32 FP32 elements, a frame of 64 by 64 pixels. -/
def wordsOf (ws : List Nat) : List Word := (List.range 16).map fun k => BitVec.ofNat 32 (ws.getD k 0)
def copyWords : List Nat := [3 + 5 * 256 + 5 * 65536, 0x4000, 0, 4, 1, 0, 0, 0, 0, 4 + 65536, 0x8000]
def sortWords : List Nat := [4 + 8 * 256, 0x4000, 0, 0, 0, 0x6000, 0, 0, 0, 0x8000, 0, 0, 0, 1, 0]
def collWords : List Nat := [5, 0x4000, 0, 0x6000, 0, 32, 0]
def encBytes : List Byte := toBytes 0x100000 8 ++ toBytes 256 4 ++ toBytes 64 2 ++ toBytes 64 2 ++ List.replicate 16 0#8 ++ toBytes 0x200000 8 ++ toBytes 0x100000 4 ++
  List.replicate 4 0#8 ++ toBytes 0x400000 8 ++ toBytes 0x10000 4 ++ List.replicate 68 0#8

/-- Communicator 0 is enabled for context 0, with one rank: this package. -/
def comms (s : State) : State := { s with regs := [(ctxReg 0 0x60, 0x10001#64), (ctxReg 0 0x68, 0x10000#64), (commReg 0 0, 0x8000000100000000#64), (commReg 0 8, 0x40000#64)] }
def engGrp (ws : List Nat) (a : Nat) : Group := shaped 1 ws (grp [(18, a), (20, 0), (22, 0)])
def engState (g : Group) : State := { mapped (st g) with regs := (comms (st g)).regs }
def engMeets (o : Op) (g : Group) : Bool := runsB o { args o (if o = .launch then 0x900 else 0x800) with a := .s 18 } (engState g) (team g) g frag0
theorem witness_EngineCommandsIssue :
    (∀ a ∈ [0, 8], engMeets .copy (engGrp copyWords a) = true ∧ engMeets .sort (engGrp sortWords a) = true ∧ engMeets .coll (engGrp collWords a) = true ∧
      engMeets .encsub (engGrp [] a) = true ∧ engMeets .launch (engGrp [] (16 * a)) = true) ∧
    (∀ o ∈ [Op.copy, .sort, .coll], engMeets o (engGrp [] 0) = true) ∧
    ((copyDesc? (wordsOf copyWords)).isSome ∧ copyDesc? (wordsOf []) = none ∧ (sortDesc? (wordsOf sortWords)).isSome ∧ sortDesc? (wordsOf []) = none ∧
      (collDesc? (engState grp) (wordsOf collWords)).isSome ∧ collDesc? (engState grp) (wordsOf []) = none) ∧
    ((copyDesc? (wordsOf copyWords)).map fun d => d.scratchOk 16384) = some true ∧
    ((copyDesc? (wordsOf ([3 + 5 * 256 + 5 * 65536 + 2 ^ 24, 16384] ++ copyWords.drop 2))).map fun d => d.scratchOk 16384) = some false := by decide +kernel

theorem witness_BksetEmitcAndLaunchIssue :
    (∀ n ∈ [0, 255, 256], let g := engGrp collWords n
      runsB .bkset { args .bkset 0x800 with a := .s 18, b := .s 20, c := .s 22 } (engState g) (team g) g frag0 = true) ∧
    (let g := engGrp collWords 0
     let e := envOf .bkset { args .bkset 0x800 with a := .s 18, b := .s 20, c := .s 22 } (engState g) iss0 (team g) g frag0
     (match (e.pages (countIssue (engState g) iss0) permR 0x4000 1).2 with | some (.ok ps) => ps.length | _ => 0) = 1 ∧
       ((engState g).leafOf 0 0x4000).map (fun l => decide (0x4000 + 128 ≤ l.va + l.size)) = some true) ∧
    (∀ c ∈ [0, 15, 16], let g := grp [(18, c)]
      runsB .emitc { args .emitc 0x600 with c := .s 18 } (st g) (team g) g frag0 = true ∧
        runsB .emitc (off { args .emitc 0x600 with c := .s 18 }) (st g) (team g) g frag0 = true) := by decide +kernel

/-- QPUSH and QPOP at the last queue, and beyond; BKQ of a counter that is free, armed, fired. -/
def bucketOf (x : BucketSt) : Bucket := ⟨x, 0, 3, false, 128, ⟨0x4000, 0, false, 0, 0x4000⟩, wordsOf collWords, 0, 7⟩
theorem witness_QueueAndBucketInstructions :
    (∀ n ∈ [0, 255, 256], ∀ o ∈ [Op.qpush, .qpop, .bkq], let g := grp [(18, n)]
      runsB o { args o (if o = .bkq then 0 else 0x600) with a := .s 18 } (st g) (team g) g frag0 = true) ∧
    (grp).cnt.length = 8 ∧ (st grp).queueTenant 255 = 0 ∧
    (∀ b ∈ [BucketSt.armed, .fired], mapGet? 0 { st grp with buckets := [(0, bucketOf b)] }.buckets = some (bucketOf b)) := by decide +kernel

/-- A command of each engine that has left its group. -/
def cmdOf (k : CmdKind) (ws : List Nat) : Cmd := { Cmd.fresh k 0 0 0 (wordsOf ws) 0x8000 7 with at_ := 0x5000 }
def withCmd (c : Cmd) (at_ : Nat := 0) (bs : List Byte := []) : State :=
  { engState grp with cmds := [(7, c)], hbm := cellPuts at_ bs (mapped (st grp)).hbm }
def ones : List Byte := List.replicate 128 1#8
theorem witness_EngineAcceptance :
    (∀ c ∈ [cmdOf .copy copyWords, cmdOf .sort sortWords, cmdOf .encode [], cmdOf .coll collWords, { cmdOf (.arm 0) collWords with range := some (⟨0x4000, 0, false, 0, 0x4000⟩, 128) }],
      mapGet? 7 (withCmd c).cmds = some c ∧ (withCmd c).cmdSent c = true ∧ (withCmd c).cmdFaulted 7 = false ∧ c.accepted = none ∧
        (withCmd c).held (fun x => decide (x.kind = .sort ∧ x.die = c.die)) = 0 ∧ mapSorted (withCmd c).cmds = true) ∧
    (match ((withCmd (cmdOf .encode []) 0x5000 encBytes).engineRead 7 (cmdOf .encode []) 0x5000 128).2 with
      | some (bs, s) => decide (s = 0) && (encDesc? (bs.map (·.1))).isSome | none => false) = true ∧
    (match ((withCmd (cmdOf .coll collWords) 0x40000 (List.replicate 128 0#8)).rankMap 0).2 with | some rs => ranksOk rs 0 0 | none => false) = true ∧
    mapGet? 0 (withCmd (cmdOf (.arm 0) [])).buckets = none := by decide +kernel

/-- Commands under way, at each stage: a line to read, the result formed, a line to write. -/
def under (c : Cmd) (stage : Nat) (left : List Nat) (out : List EngWrite) : Cmd := { c with accepted := some 0, stage := stage, left := left, out := out }
def alone (s : State) (pa : Nat) : State :=
  let q : Place := ⟨pa, 0, false, 0, pa⟩
  { s with slices := [(s.homeOf q, { Slice.reset with tags := [(lineNo pa, ⟨0, some 0, false, false, none, false, false⟩)]
                                                      entries := [(0, ⟨⟨List.replicate 128 1#8, 0#32⟩, 1, 0, false⟩)] })] }
theorem witness_EngineWork :
    (∀ q ∈ [(0, []), (1, [0x100]), (1, [])], ∀ o ∈ [[], [EngWrite.refused], [.scratch 1 [(0, (5#8, false)), (1, (6#8, true))]], [.gran [(0, (5#8, false))]]],
      let c := under (cmdOf .copy copyWords) q.1 q.2 o
      (withCmd c).cmdReady 7 c = true ∧ (withCmd c).cmdBehind c (fun x => decide (x.kind = .copy ∧ x.chan = c.chan)) = false ∧ zeroWf (team grp).scratch = true ∧
        cellsWf (withCmd c).granary = true) ∧
    (∀ q ∈ [(0, []), (1, [0x80]), (1, []), (2, []), (3, [0xC0]), (3, [])],
      let c := under (cmdOf .sort sortWords) q.1 q.2 []
      (withCmd c).sortNext 0 = some (7, c) ∧ (withCmd c).cmdFaulted 7 = false) ∧
    (∀ q ∈ [(0, []), (1, [0x2000]), (1, []), (3, [0x8000]), (3, [])],
      let c := { under (cmdOf .encode []) q.1 q.2 [] with desc := (List.range 32).map fun i => BitVec.ofNat 32 (blockField encBytes (4 * i) 4) }
      (withCmd c).cmdReady 7 c = true ∧ (encDesc? (c.desc.flatMap fun w => toBytes w.toNat 4)).isSome = true) ∧
    (∀ q ∈ [(0, []), (1, [0x80]), (1, []), (3, [0xC0]), (3, [])],
      let c := { under (cmdOf .coll collWords) q.1 q.2 [] with ranks := [0] }
      (withCmd c).cmdReady 7 c = true ∧ (collDesc? (withCmd c) c.desc).isSome = true ∧ (c.ranks.any fun r => (withCmd c).dead.contains r) = false) ∧
    (let s := alone (withCmd (cmdOf .copy copyWords)) 0x8000
     s.resolve ⟨0x8000, 0, false, 0, 0x8000⟩ 128 2 = some ⟨0x8000, 0, false, 0, 0x8000⟩ ∧ s.keyOn 0 = true ∧ s.partialsOf (lineNo 0x8000) 0 = []) := by decide +kernel

/-- A line that is read, one that is owned, and the units of a copy. -/
theorem witness_EngineReadsAndWrites :
    (let c := under (cmdOf .sort sortWords) 1 [0x80] []
     (State.engineRead { withCmd c 0x4000 ones with fresh := 1 } 7 c 0x4000 128).2.isSome = true) ∧
    (let c := under (cmdOf .sort sortWords) 3 [0xC0] []
     (State.ownLine { withCmd c 0x6000 ones with fresh := 1 } 7 c 0xC0 []).2.isSome = true) ∧
    (let c := under (cmdOf .copy copyWords) 1 [0x100] []
     (match copyDesc? c.desc with
     | some d => (State.copyUnits { withCmd c 0x4000 ones with fresh := 1 } 7 c d d.units).2.isSome
     | none => false) = true) ∧
    (∀ r ∈ [false, true], ∀ i ∈ [none, some 5],
      let c := { cmdOf .copy copyWords with accepted := some 0, ended := true, recorded := r, input := i }
      let s := alone (withCmd c) 0x8000
      mapGet? 7 s.cmds = some c ∧ s.cmdFaulted 7 = false ∧ mapSorted s.cmds = true ∧
        (match (s.enginePieces 0 0 (if r then 0x8000 else 0x8008) 8 permW (c.kind.stop 0) (.engine 7) (some 7)).2 with | some ps => ps.length | none => 0) = 1) := by decide +kernel

/-! Witnesses of the statements about queues, gathering, the front end and scheduling. -/

/-- `Alone`, computed. -/
def aloneB (s : State) (q : Place) : Bool :=
  s.keyOn q.key && decide (s.partialsOf (lineNo q.pa) q.key = []) && s.late.all (fun w => decide (lineNo w.1.pa ≠ lineNo q.pa)) &&
    match (s.slice (s.homeOf q)).tags, (s.slice (s.homeOf q)).entries with
    | [(ln, ⟨k, some e, _, _, _, _, false⟩)], [(e', ⟨l, 1, k', _⟩)] => decide (ln = lineNo q.pa ∧ k = q.key ∧ e' = e ∧ k' = q.key ∧ l.bytes.length = 128)
    | _, _ => false

theorem alone_of {s : State} {q : Place} (h : aloneB s q = true) : ∃ l, Alone s q l := by
  simp only [aloneB, Bool.and_eq_true, decide_eq_true_eq, List.all_eq_true] at h
  obtain ⟨⟨⟨h1, h2⟩, h3⟩, h4⟩ := h
  split at h4
  · rename_i ln k e d n w x e' l k' ix ht he
    simp only [decide_eq_true_eq] at h4
    obtain ⟨rfl, rfl, rfl, rfl, h5⟩ := h4
    exact ⟨l, h1, h2, h5, h3, e', d, n, w, x, ix, ht, he⟩
  · simp at h4

theorem witness_TheLineOfACommandStandsAlone : ∃ l, Alone (alone (withCmd (cmdOf .copy copyWords)) 0x8000) ⟨0x8000, 0, false, 0, 0x8000⟩ l :=
  alone_of (by decide +kernel)

/-- Queue 255 of context 0, with a ring of 8 entries at 0x3000, on or off, and an operation on it of a group that waits for the answer. -/
def qGrp : Group := { grpOf [(0, { frag0 with wait := .queue 8 false })] [] with flights := [flight 9 [⟨req .prefetch [] .unit, .sent⟩]] }
def qState (on : Bool) (k : HwQueue) (c : Cmd) : State :=
  { mapped (st qGrp) with
    cmds := [(7, c)], queues := [(255, k)]
    regs := (queueReg 255 0, BitVec.ofNat 64 ((if on then 2 ^ 63 else 0) + 1)) :: (queueReg 255 8, 0x3000#64) :: (mapped (st qGrp)).regs }
def qCmd (k : CmdKind) : Cmd := { Cmd.fresh k 3 0 0 [] 0 0 with issuer := some (1, 0, 9), blk := List.replicate 16 (elemOf 5), dst := 8, pred := 7 }
def held (n rcnt : Nat) : HwQueue := { HwQueue.reset with chip := List.replicate n (List.replicate 16 (elemOf 3)), rcnt := rcnt }
theorem witness_HardwareQueues :
    (∀ on ∈ [true, false], ∀ k ∈ [held 0 0, held 31 0, held 32 0, held 32 7, held 32 8, held 0 1], ∀ w ∈ [CmdKind.push 255, .pop 255],
      let s := qState on k (qCmd w)
      mapGet? 7 s.cmds = some (qCmd w) ∧ s.cmdSent (qCmd w) = true ∧ s.cmdFaulted 7 = false ∧ s.queueTurn 7 (qCmd w) 255 = true ∧ (qCmd w).stage = 0 ∧
        (qCmd w).wait = 0 ∧ (qCmd w).status = 0 ∧ mapSorted s.cmds = true ∧ s.queue 255 = k ∧ s.queueOn 255 = on ∧ s.ringSize 255 = 8 ∧
        (s.group? 1 0).map Prod.snd = some qGrp ∧ qGrp.flights.map (·.id) = [9]) ∧
    (let s := alone (qState true (held 32 7) (qCmd (.push 255))) 0x3000
     (match s.ringPlace 255 0 permW (some 7) with
       | (s1, some (.ok p)) => decide (p.pa = 0x3000) && decide (s1.resolve { p with pa := p.pa / 128 * 128 } 128 2 = some { p with pa := 0x3000 }) && aloneB s1 { p with pa := 0x3000 }
       | _ => false) = true) ∧
    (let s := alone (qState true (held 31 1) (qCmd (.pop 255))) 0x3000
     (match s.ringPlace 255 0 permR none with
       | (s1, some (.ok p)) => decide ((s1.readPieces [(p, 64)]).2.1.length = 64)
       | _ => false) = true) := by decide +kernel

/-- A record that continues a bin, begins one, or finds none free; a bin that is due, of a sound template and of none; a counter armed or fired. -/
def emitCmd : Cmd := Cmd.fresh .emitc 0 0 0 ([0x1000#32, 0#32, 2#32] ++ List.replicate 13 9#32) 0 0
def ctx0 : Map Dword :=
  [(ctxReg 0 0, 0x8000000000000000#64), (ctxReg 0 8, 0x3000#64), (ctxReg 0 0x10, 0x100000000#64), (ctxReg 0 0x40, 0x10000000000#64), (ctxReg 0 0x48, 0x3000#64),
    (ctxReg 0 0x60, 0x10001#64), (ctxReg 0 0x68, 0x10000#64)]
def binOf (n : Nat) : Bin := ⟨0, 2, 0x1000, 0, List.replicate n (List.replicate 16 1#32)⟩
def gathering (bins : List Bin) : State := { mapped State.reset with cmds := [(7, emitCmd)], regs := ctx0, gathers := [(0, ⟨bins, []⟩)] }
/-- Two lines that stand at their homes. -/
def inL2 (pa : Nat) (bs : List Byte) (s : State) : State :=
  let line (i : Nat) : Slice := { Slice.reset with
    tags := [(pa / 128 + i, ⟨0, some 0, false, false, none, false, false⟩)], entries := [(0, ⟨⟨(bs.drop (128 * i)).take 128, 0#32⟩, 1, 0, false⟩)] }
  { s with slices := mapSet (homeIndex (pa / 128)) (line 0) (mapSet (homeIndex (pa / 128 + 1)) (line 1) s.slices) }
/-- A template: one group, 8 registers; and a record of one, of a draw's ring. -/
def template : List Byte :=
  toBytes 0x1000 8 ++ toBytes (2 ^ 64 - 1) 8 ++ toBytes 0 12 ++ toBytes 1 2 ++ toBytes 1 2 ++ [1, 1, 1, 1] ++ toBytes 0 4 ++ [0, 0, 0, 0, 0, 6, 0xFF, 0] ++
    toBytes 0 8 ++ toBytes 0 200
theorem witness_GatherAndBucketEvents :
    (∀ q ∈ [[binOf 30], [], [binOf 32], List.replicate 64 (binOf 32)],
      let s := gathering q
      (s.cmds.filter fun x => decide (x.2.kind = .emitc ∧ x.2.die = 0)) = [(7, emitCmd)] ∧ s.cmdSent emitCmd = true ∧ s.ctxOn 0 = true ∧ mapSorted s.cmds = true ∧
        (s.gatherOf 0).bins = q) ∧
    (∀ q ∈ [(template, 1), (List.replicate 256 0#8, 32)],
      let (t, n) := q
      let s : State := inL2 0x3200 t { gathering [binOf n] with clock := 0x400 }
      ((s.gatherOf 0).bins.find? fun x => (decide (x.recs.length = 32) || decide (x.oldest + bits (s.reg (ctxReg x.ctx 0x50)) 15 0 ≤ s.clock)) && s.ctxOn x.ctx &&
        !s.frontWaits (.template 0 x.ctx x.tmpl)) = some (binOf n) ∧ (s.frontRead 0 0 0x3200 256 (.template 0 0 2)).2 = .bytes t) ∧
    (∀ b ∈ [BucketSt.armed, .fired], ∀ n ∈ [127, 128],
      let s : State := { st grp with counted := [(0, n)], buckets := [(0, bucketOf b)] }
      (0, n) ∈ s.counted ∧ mapGet? 0 s.buckets = some (bucketOf b) ∧ (bucketOf b).total = 128) := by decide +kernel

/-- A ring whose next record is the given one. -/
def ring (rcd : List Byte) : State := inL2 0x3000 rcd { mapped State.reset with regs := ctx0 }
def soundRcd : List Byte := template
def taskRcd : List Byte := template.take 0x2C ++ [2#8] ++ (template.drop 0x2D).take 0x2B ++ toBytes 0x3400 8 ++ template.drop 0x60
/-- The record of the ring is read, with what it names, and refused by the check given, 0 for none. -/
def accepts (s : State) (r : List Byte) (reason : Nat) : Bool :=
  match State.frontRead { s with fresh := s.fresh + 1, accepting := mapSet 0 ⟨none, none, none, none, none, none, false⟩ s.accepting } 0 0 0x3000 256 (.frontEnd 0) with
  | (s1, .bytes b) => decide (b = r) && (match s1.readRest 0 ⟨none, some r, none, none, none, none, false⟩ with
    | (s2, a2, ok) => ok && decide (s2.refusal (a2.launch 0) a2.kdesc a2.bad = reason))
  | _ => false
theorem witness_FrontEndEvents :
    ((ring []).reg (ctxReg 0 0x10) = 2 ^ 32 ∧ 16 * 2 ^ bits ((ring []).reg (ctxReg 0 8)) 3 0 = 16 ∧ (ring []).ctxOn 0 = true ∧ (ring []).frontWaits (.frontEnd 0) = false ∧
      mapGet? 0 (ring []).accepting = none ∧ (ring []).cmds = [] ∧ (ring []).tasksDue = []) ∧
    accepts (ring soundRcd) soundRcd 0 = true := by decide +kernel

/-- A launch with one working set or dead range of a line, which has ended, or been refused. -/
def rangedLaunch (reason : Nat) : Launch :=
  { launch0 with
    rcd := toBytes 0 0x40 ++ toBytes 0x8000 8 ++ toBytes 7 8 ++ toBytes 0 16 ++ toBytes 0x4000 8 ++ toBytes 128 8 ++ toBytes 0 48 ++ toBytes 0x4000 8 ++ toBytes 128 8 ++ toBytes 0 80
    reason := reason }
def launching (l : Launch) (s : State) : State := { s with launches := [(5, l)] }
theorem witness_LaunchWork :
    accepts (ring (List.replicate 256 0#8)) (List.replicate 256 0#8) 1 = true ∧
    blockField (soundRcd.take 0x40 ++ [8#8] ++ soundRcd.drop 0x41) 0x40 8 % 16 ≠ 0 ∧ blockField taskRcd 0x2C 1 = 2 ∧
    (let l := rangedLaunch 0
     let s := launching l (mapped State.reset)
     mapGet? 5 s.launches = some l ∧ (l.reason = 0 ∧ l.gathered = false ∧ l.phase ≠ 0) ∧ (l.lines 0x60)[l.fetched]? = some 0x4000 ∧
       (match s.translate 0 0x4000 permR with
         | (s1, .ok p) => decide (spaceOf p.pa = .hbm) && s1.keyOn p.key && !s1.ownedBy p 128 permR none
         | _ => false) = true) ∧
    (let l := { rangedLaunch 0 with phase := 1 }
     mapGet? 5 (launching l State.reset).launches = some l ∧ l.phase = 1 ∧ l.copies = []) ∧
    (∀ g ∈ [true, false], let l := { rangedLaunch 6 with gathered := g }
      let s := launching l (alone (mapped State.reset) 0x8000)
      mapGet? 5 s.launches = some l ∧ s.launchOver 5 l = true ∧ s.frontWaits (.completion 5) = false ∧ mapSorted s.launches = true ∧
        (s.frontWrite 0 0x8008 (toBytes 0 8) (.completion 5)).2.isSome = true ∧ (s.frontWrite 0 0x8000 (toBytes 7 8) (.completion 5)).2.isSome = true) ∧
    (let l := { rangedLaunch 0 with ended := 0, nextClu := 0 }
     let s := launching l State.reset
     s.launchOver 5 l = true ∧ (l.lines 0xA0)[l.dropped]? = some 0x4000 ∧ (match (s.translate 0 0x4000 permW).2 with | .error _ => true | .ok _ => false) = true) := by
  decide +kernel

/-- A launch that can be placed; a cluster that can be saved, whose MINRUN has passed, or has not. -/
def placing : State := launching { launch0 with nextClu := 0 } { State.reset with regs := ctx0, nextId := 100 }
def saving : State :=
  { one (team grp) with
    cur := none, regs := [(ctxReg 0 0, 0x8000000000000000#64), (ctxReg 0 0x20, 0x1000000010#64), (ctxReg 0 0x28, 0x10#64)], buckets := [(0, bucketOf .armed)]
    clusters := [(2, { cluster0 with preempting := true })] }
theorem witness_SchedulingEvents :
    (let l := { launch0 with nextClu := 0 }
     (placing.pickLaunch []).map (fun q => (q.1, q.2.1)) = some (5, l) ∧ mapGet? 5 placing.launches = some l ∧ l.coop = false ∧ l.gathered = false ∧
       (∀ c ∈ placing.clustersOf 5, c.2.saved = false) ∧ (placing.saveFits l).isSome = true ∧ (placing.placesFor 5 l []).isEmpty = false) ∧
    State.reset.pickLaunch [] = none ∧
    (mapGet? 2 saving.clusters = some { cluster0 with preempting := true } ∧ (∀ x ∈ saving.teamsWith 2, saving.teamDrained x.1 x.2 = true ∧ x.2.cfg.ctx = 0) ∧
      saving.teamsWith 2 = [(1, team grp)] ∧ mapSorted saving.teams = true ∧ (team grp).core = some 0 ∧ (team grp).owner = none ∧
      ∀ k ∈ saving.coresOf 2, ((saving.core k).l1.any fun l => match l.2.st with | .uo _ => true | _ => false) = false ∧ (saving.core k).flushes = []) ∧
    (saving.ctxOn 0 = true ∧ mapSorted saving.clusters = true ∧ mapGet? 5 saving.launches = some launch0 ∧ launch0.ctx = 0 ∧ cluster0.launch = 5) ∧
    (∀ c ∈ [saving.reg 0x00B00010, 0], mapGet? 2 { saving with clock := c }.clusters = some { cluster0 with preempting := true } ∧ cluster0.saved = false) ∧
    (bits (saving.reg (ctxReg 0 0x20)) 63 32 = 16 ∧ bits (saving.reg (ctxReg 0 0x20)) 31 0 = 16 ∧ bits (saving.reg (ctxReg 0 0x28)) 31 0 = 16) := by decide +kernel

/-! Witnesses of the statements about the homes, the network, faults and errors. -/

/-- A packet from core 2 that has come to stop 1, the home of the line at 0x8000; and a request of the core in it. -/
def packet (b : Body) (here : Nat := 1) (loc : Loc := .arrived 0) : Packet := ⟨.request, 2, 1, here, 0, 0, b, loc, 0, none, none, 0, 0, false⟩
def asked (a : Act) (tgt : Target) (pa : Nat := 0x8000) (key : Nat := 0) : Req :=
  { req a [⟨0, pa, [5#32], [6#32]⟩, ⟨31, pa + 124, [5#32], [6#32]⟩] tgt with place := ⟨pa, key, false, 0, pa⟩, core := some 2 }
def carrying (b : Body) (s : State := State.reset) (loc : Loc := .arrived 0) (here : Nat := 1) : State :=
  { s with packets := [(7, packet b here loc)], nextId := 100 }
/-- The whole line at 0x8000, at its home. -/
def lineOf (s : State) : State := inL2 0x8000 (List.replicate 128 3#8) s
def partialOf : Partial := ⟨0, false, 1#32, List.replicate 32 9#32, 0#32, [(1, 0)], none⟩
def heldB (s : State) (i ln key : Nat) : Bool :=
  match (s.slice i).tags, (s.slice i).entries with
  | [(n, ⟨k, some e, _, _, none, _, false⟩)], [(e', ⟨l, 1, k', _⟩)] => decide (n = ln ∧ k = key ∧ e' = e ∧ k' = key ∧ l.bytes.length = 128)
  | _, _ => false
theorem held_of {s : State} {i ln key : Nat} (h : heldB s i ln key = true) : ∃ l, HeldAt s i ln key l := by
  unfold heldB at h
  split at h
  · rename_i n k e d nn x e' l k' ix ht he
    simp only [decide_eq_true_eq] at h
    obtain ⟨rfl, rfl, rfl, rfl, h5⟩ := h
    exact ⟨l, h5, e', d, nn, x, ix, ht, he⟩
  · simp at h
theorem witness_TheLineOfARequestIsHeld : ∃ l, HeldAt (carrying (.access (asked (.load 4 false) .home)) (lineOf State.reset)) 1 256 0 l := held_of (by decide +kernel)

/-- A core with a line that it updates only, and with one that it caches. -/
def l1With (st : L1St) : Core := { Core.reset with l1 := [(256, ⟨⟨0x8000, 0, false, 0, 0x8000⟩, st⟩), (300, ⟨⟨0x9600, 0, false, 0, 0x9600⟩, st⟩)] }
theorem witness_HomeSliceEvents :
    (∀ a ∈ [Act.load 4 false, .store 4, .atom 0 false, .load 64 true], ∀ s ∈ [lineOf State.reset, State.reset], ∀ key ∈ [0, 1],
      let r := asked a .home 0x8000 key
      let s := carrying (.access r) s
      s.inbox 1 = [(7, packet (.access r))] ∧ s.behind 7 (packet (.access r)) = false ∧ (s.slice 1).dirs = [] ∧ mapSorted s.packets = true ∧
        s.keyOn key = decide (key = 0) ∧ flushComing s 256 = false ∧ lineNo 0x8000 = 256) ∧
    ((carrying (.access (asked (.store 4) .home))).slice 1).tags = [] ∧ ((carrying (.access (asked (.store 4) .home))).slice 1).fills = [] ∧
    (∀ a ∈ [Act.load 4 false, .store 4, .atom 0 false, .atom 9 true, .atom 1 false], ∀ bad ∈ [[], [2 ^ 39]],
      let r := asked a (.host 0) (2 ^ 51)
      let s := carrying (.access r) { State.reset with hostBad := bad }
      s.inbox 1 = [(7, packet (.access r))] ∧ s.behind 7 (packet (.access r)) = false ∧ mapSorted s.packets = true ∧ cellsWf s.hostMem = true ∧
        s.hostOk (2 ^ 51) = decide (bad = [])) ∧
    ({ State.reset with slices := [(1, { Slice.reset with fills := [(256, 0)] })] }.slice 1).fills.find? (fun f => decide (f.1 = 256)) = some (256, 0) ∧
    (∀ q ∈ [L1St.v ⟨List.replicate 128 1#8, 0#32⟩, .uo partialOf],
      let s := { carrying (.recall 256 true) with packets := [(7, { packet (.recall 256 true) with src := 1, dst := 2, here := 2, cls := .recall })], cores := [(2, l1With q)] }
      ((s.inbox 2).find? fun q => match q.2.body with | .recall _ _ => true | .drain _ _ => true | _ => false) =
        some (7, { packet (.recall 256 true) with src := 1, dst := 2, here := 2, cls := .recall }) ∧ mapSorted (s.core 2).l1 = true ∧
      mapGet? 256 (s.core 2).l1 = some ⟨⟨0x8000, 0, false, 0, 0x8000⟩, q⟩) ∧
    (let b := Body.flushed ⟨0x8000, 0, false, 0, 0x8000⟩ partialOf 2 3
     let s := carrying b (lineOf State.reset)
     s.inbox 1 = [(7, packet b)] ∧ s.behind 7 (packet b) = false ∧ s.keyOn 0 = true ∧ (s.slice 1).dirs = [] ∧ heldB s 1 256 0 = true) ∧
    (∀ w ∈ [none, some 16], ({ State.reset with slices := [(1, { Slice.reset with adapt := ⟨true, w, 31, 16, 1⟩ })] }.slice 1).adapt = ⟨true, w, 31, 16, 1⟩) := by
  decide +kernel

/-- A data entry, of any poison. -/
theorem witness_HomeSliceScrub (p : BitVec 32) :
    mapGet? 0 ({ State.reset with slices := [(1, { Slice.reset with entries := [(0, ⟨⟨[], p⟩, 1, 0, true⟩)] })] }.slice 1).entries = some ⟨⟨[], p⟩, 1, 0, true⟩ := rfl

theorem witness_GranaryBankOperations :
    ∀ a ∈ [Act.load 4 false, .store 8, .atom 9 false, .gupd 0 0 5 4 [0#32, 0#32, 0#32, 0#32] 0], ∀ k ∈ [0, 2],
      let r := asked a (.bank 1) 0x40000
      let s := { carrying (.access r) with regs := [(0x00B40040, BitVec.ofNat 64 k)] }
      s.sliceRetired 1 = decide (k = 2) ∧ s.inbox 1 = [(7, packet (.access r))] ∧ s.bankBehind r = false ∧ (s.slice 1).dirs = [] ∧ mapSorted s.packets = true ∧ cellsWf s.granary = true := by
  decide +kernel

/-- Packets that go one hop, which is the last or not, to a router with room or with none; that have waited long, and just come; the Lantern beside an armed router
and another, with a packet on its lane, and in its buffer. -/
def moving (hops : Nat) (others : Nat := 0) : State :=
  let here := if hops = 1 then neighbour 1 1 else neighbour (neighbour 1 1) 1
  let p : Packet := packet (.access (asked (.store 4) .home)) here .net
  { State.reset with
    nextId := 100, clock := 100, packets := (7, p) :: (List.range others).map fun v => (8 + v, { p with here := neighbour here 0, via := some (here, 0), vc := v }) }
theorem witness_NetworkEvents :
    (∀ h ∈ [1, 2], ∀ n ∈ [0, 3, 4],
      let s := moving h n
      let p := packet (.access (asked (.store 4) .home)) (if h = 1 then neighbour 1 1 else neighbour (neighbour 1 1) 1) .net
      mapGet? 7 s.packets = some p ∧ p.loc = .net ∧ 0 ∈ s.outputs p ∧ s.heldBack 7 p = false ∧ decide (neighbour p.here 0 = p.dst) = decide (h = 1) ∧
        s.freeChannel p.here 0 = ([some 0, none, none, some 3, none].getD n none)) ∧
    (∀ c ∈ [0, 0xFFFF], let s := { moving 2 with clock := c }
      (s.packets.all fun q => decide (q.2.since + bits (s.reg (stopReg q.2.here 0x08)) 15 0 ≤ s.clock ∧ q.2.fired = false ∧ s.heldBack 7 q.2 = false)) = decide (c = 0xFFFF)) ∧
    (∀ a ∈ [none, some 7], let s := { moving 2 with lantern := ⟨0, none, none, true⟩, routers := [(1, { Router.reset with armed := a })] }
      s.lantern.works = true ∧ s.lantern.carry = none ∧ s.lantern.buf = none ∧ (s.lantern.at_ + 1) % 256 = 1 ∧ (s.router 1).armed = a ∧ (mapGet? 7 s.packets).isSome = true) ∧
    (∀ q ∈ [(some 7, none), (none, some 7)], let s := { moving 2 with lantern := ⟨0, q.1, q.2, true⟩ }
      s.lantern.carry = q.1 ∧ s.lantern.buf = q.2 ∧ (mapGet? 7 s.packets).map (fun p => p.pkg) = some none) ∧
    (Router.reset.lnkw.length = 4 ∧ ((moving 2).packets.all fun q => decide (q.2.since ≠ (moving 2).clock)) = true) ∧ 17000 % 17000 = 0 ∧ 16999 % 17000 ≠ 0 := by
  decide +kernel

/-- Entries of the fault buffer for each unit that faults; records that wait, and a ring with room or full, in host memory; a translation that is dropped. -/
def faultOf (w : Faulter) : FaultEntry := ⟨0, 0x4000, 1, 1, 4, 0, 0, w, 1, true⟩
def faulting (w : Faulter) (s : State := mapped (st grp)) : State := { s with faults := [(0, [faultOf w])] }
def loadPart : Part := ⟨req (.load 4 false) [⟨3, 0x4010, [], []⟩] .unit (pa := 0x4000), .faulted⟩
def answered (s : State) : Bool := decide (((s.faultBuf 0).filter fun x => decide (x.ctx = bits 0x4000 5 0 ∧ x.va / 4096 % 2 ^ 45 = bits 0x4000 56 12)).length = 1)
theorem witness_FaultEvents :
    (∀ tail ∈ [0, 127, 128], ∀ irq ∈ [0, 2 ^ 63],
      let s : State := { faulting (.frontEnd 0) with regs := [(dieReg 0 0, 0x8000000000000#64), (dieReg 0 8, BitVec.ofNat 64 (tail * 2 ^ 32)), (irqcfg, BitVec.ofNat 64 irq)] }
      (s.faultBuf 0).find? FaultEntry.record = some (faultOf (.frontEnd 0)) ∧ 128 * 2 ^ bits (s.reg (dieReg 0 0)) 3 0 = 128 ∧
        bits (s.reg (dieReg 0 8)) 63 32 = tail ∧ bit (s.reg irqcfg) 63 = decide (irq = 2 ^ 63) ∧ spaceOf (bits (s.reg (dieReg 0 0)) 51 12 * 4096) = .host 0) ∧
    (State.reset.faultBuf 0).find? FaultEntry.record = none ∧
    (∀ w ∈ [Faulter.fetch 1 0 0, .engine 7, .member 1 0 0 0x1000#64 1#32 0x4000, .frontEnd 0], answered (faulting w) = true) ∧
    (let g := flying (flight 0 [loadPart])
     let full : Map (List FaultEntry) := [(0, [{ faultOf (.frontEnd 1) with ctx := 1, count := 4096 }])]
     ∀ q ∈ [(mapped (st g), [], some false), (st g, [], some true), (st g, full, none)],
      let s : State := { q.1 with faults := [(0, faultOf (.part 1 0 9 0) :: mapGetD 0 [] q.2.1)] }
      answered s = true ∧ (s.group? 1 0).map (fun q => (q.1.core, q.2.flights)) = some (some 0, [flight 0 [loadPart]]) ∧
        (State.resolvePart { s with faults := q.2.1 } 1 0 0 9 0 loadPart).map (fun r => decide (r.2.st = .faulted)) = q.2.2) ∧
    answered (mapped (st grp)) = false ∧
    (grp).handler = none ∧ (grp).inClause 0 = false ∧ cfg0.trapv ≠ BitVec.allOnes 64 ∧ noneWaits (flying (flight 0 [loadPart])) = true ∧
    (Cmd.fresh .copy 0 0 0 [] 0 0).ended = false ∧ (Cmd.fresh .copy 0 0 0 [] 0 0).kind ≠ .encode := by decide +kernel

/-- An invalidation of nothing and of a page; one under way, of a page that an access uses, and of one that none does. -/
theorem witness_Invalidations :
    (∀ v ∈ [0, 1, 2 ^ 62], decide (bits v 31 0 = 0 ∧ bit v 62 = false) = decide (v = 0)) ∧ (mapped State.reset).inval = none ∧
    (let g := flying (flight 0 [{ loadPart with st := .sent }])
     let entry : TlbEntry := ⟨0, 0x4000, 0x1000, 0x4000, 0, false, 7⟩
     ∀ i ∈ [(⟨0, 0x4000, 1, false⟩ : Inval), ⟨0, 0x9000, 1, false⟩],
      let s : State := { st g with inval := some i, tlb := [{ entry with va := i.va }] }
      s.invalBusy 0 (s.tlb.filter fun e => e.meets i.ctx i.va i.npg i.all) = decide (i.va = 0x4000) ∧ s.heldLines (s.tlb.filter fun e => e.meets i.ctx i.va i.npg i.all) = [] ∧
        bit (s.reg xinvc) 63 = false) := by decide +kernel

/-- A machine in which an error can meet whatever the statement names. -/
def whole : State :=
  let mx : TeamMx := { TeamMx.fresh 8 with macros := [⟨.int8, [[some (.fin false 1 0, false)]]⟩], banks := List.replicate 8 [(31, List.replicate 128 (elemOf 0))] }
  { one { team { grp with v := [(0, List.replicate 32 (elemOf 1))] } with mx := mx } with
    cores := [(0, { l1With (.uo partialOf) with mx := ⟨[⟨1, 0, 9, 0, .pass .int8 true [] 0 0 0 false false⟩]⟩ }), (1, l1With (.v ⟨List.replicate 128 1#8, 0#32⟩))]
    slices := (lineOf State.reset).slices }
theorem witness_UncorrectableErrors :
    (whole.teams.map fun t => (t.1, t.2.core)) = [(1, some 0)] ∧ (whole.teams.map fun t => [t.2.bars.length, t.2.cfg.nbar, t.2.cfg.scratch, t.2.cfg.tsq, t.2.cfg.macros]) = [[8, 8, 16384, 4, 8]] ∧
    ((whole.group? 1 0).map fun q => ((q.2.vreg 0).length, (q.1.mx.macros[0]?).map fun x => ((x.tile[0]?).bind fun col => col[0]?).isSome)) = some (32, some true) ∧
    ((whole.group? 1 0).map fun q => (mapGetD 31 [] (q.1.mx.banks.getD 7 [])).length) = some 128 ∧
    (mapGet? 2 whole.clusters).map (fun c => (c.saved, c.bars.length, c.teams)) = some (false, 1, [1]) ∧
    ((whole.core 0).l1.map fun l => decide (l.2.st = .uo partialOf)) = [true, true] ∧ ((whole.core 1).l1.map fun l => decide (l.2.st = .uo partialOf)) = [false, false] ∧
    ((whole.core 0).mx.q[0]?).isSome = true ∧ heldB whole 1 256 0 = true := by decide +kernel

theorem witness_ErrorLogAndHealth :
    (∀ tail ∈ [0, 127, 128],
      let s : State := { State.reset with regs := [(elogb, 0x8000000000000#64), (elogp, BitVec.ofNat 64 (tail * 2 ^ 32))] }
      decide (128 * 2 ^ bits (s.reg elogb) 3 0 ≤ (bits (s.reg elogp) 63 32 + 2 ^ 32 - bits (s.reg elogp) 31 0) % 2 ^ 32) = decide (tail = 128) ∧
        bits (s.reg elogb) 63 52 = 0 ∧ spaceOf (bits (s.reg elogb) 51 12 * 4096 + 32 * (tail % 128)) = .host 0 ∧
        s.hostOk (bits (s.reg elogb) 51 12 * 4096 + 32 * (tail % 128)) = true ∧ cellsWf s.hostMem = true) ∧
    (∀ c ∈ [0, 2 ^ 20], ∀ f ∈ [[], [3], [512]], ∀ u ∈ [3, 512],
      let s : State := { State.reset with clock := c, failing := f, regs := [(hctl, BitVec.ofNat 64 (2 ^ 32 * 1000 + 2 ^ 16 + 2 ^ 8))] }
      let h := s.reg hctl
      decide (s.clock < s.healthAt + bits h 63 32 ∨ bits h 63 32 = 0) = decide (c = 0) ∧ s.coreRetired 3 = false ∧ s.teamsOn 3 = [] ∧ s.linkOn 0 0 = true ∧
        (((List.range 1552).filter fun k => [u].contains k || decide (bits h 15 8 ≤ mapGetD k 0 s.errs) || decide (bits h 31 16 ≤ mapGetD k 0 s.fixed)).filter
          fun k => s.failing.contains k) = (if f = [u] then [u] else [])) ∧
    (State.reset.router 0).lnkw.length = 4 := by decide +kernel

/-! Witnesses of the statements about the fabric, the registers, the package and the step. -/

/-- A machine with a trained link to port 3, and flows to package 5. -/
def fabric : State := { State.reset with nextId := 100, clock := 0x200000, linkPort := [(0, 3)], regs := [(flnk 0, 1#64), (0x00C50008, 0x19F0A0#64)] }
def leaving : Packet := { packet (.access { asked (.store 4) (.remote 5) with ret := .cmd 7 0 }) 2 .exit with pkg := some 5 }
def entering (b : Body) : Packet := packet b (exitStop 5) (.arrived 0)
def farReq : Req := { asked (.store 4) .home (2 ^ 50) with ret := .remote 9 4 }
theorem witness_FabricEvents :
    (∀ q ∈ [(15, 287), (16, 0), (0, 288)], decide (q.1 < 16 ∧ q.2 < 288) = decide (q = ((15, 287) : Nat × Nat))) ∧ mapSorted fabric.linkPort = true ∧
    (∀ q ∈ fabric.linkPort, q.1 < 16 ∧ q.2 < 288) ∧
    (let s := { fabric with packets := [(7, leaving)] }
     mapGet? 7 s.packets = some leaving ∧ leaving.pkg = some 5 ∧ s.linkUp 0 = true ∧ s.linkUp 1 = false ∧ (s.exitFlow 20).kept = [] ∧
       fabricStop 0 ≠ exitStop 5 ∧ fabricStop 5 = exitStop 5 ∧ State.linkUp { s with regs := [(flnk 5, 1#64)] } 5 = true ∧
       Packet.between { leaving with body := .leg 20 0, pkg := none } = true) ∧
    (let s := { fabric with exits := [(20, ⟨1, [(0, 0, leaving)], [], 0, false⟩)] }
     ((s.exitFlow 20).kept.any fun k => decide (k.1 = 0)) = true ∧ ((s.exitFlow 20).kept.any fun k => decide (k.1 = 1)) = false ∧ (s.exitFlow 20).reported = false ∧
       (s.exitFlow 20).last + bits (s.reg 0x00C50008) 31 0 ≤ s.clock) ∧
    (∀ e ∈ [2 ^ 63, 0],
      let s := { fabric with entries := [(20, ⟨3, [], [(3, entering (.access farReq))]⟩)], regs := [(0x00C51000, BitVec.ofNat 64 (e + 0x2000000000180000)), (0x00C51008, 0x8000000000004000#64)] }
      mapGet? (s.entryFlow 20).next (s.entryFlow 20).held = some (entering (.access farReq)) ∧ (s.entryFlow 20).ahead = [] ∧
        (s.exported { farReq with ret := .remote 5 4, core := none, scope := 5, fill := false } 5).isSome = decide (e = 2 ^ 63) ∧
        ∀ r2 ∈ s.exported { farReq with ret := .remote 5 4, core := none, scope := 5, fill := false } 5, s.homeOf r2.place ≠ exitStop 5) ∧
    (let b := Body.reply (.part 1 0 9 0) [] 0 0 none 0
     let s : State := { st grp with entries := [(21, ⟨3, [], [(3, entering b)]⟩)] }
     (s.entryFlow 21).held = [(3, entering b)] ∧ s.retStop (.part 1 0 9 0) (exitStop 5) ≠ exitStop 5) ∧
    (∀ d ∈ [[], [5]], (287 < 288 ∧ 5 ∈ { fabric with dead := d }.dead) = (287 < 288 ∧ d = [5])) ∧
    (let s : State := { fabric with packets := [(7, leaving)], cmds := [(7, Cmd.fresh .copy 0 0 0 [] 0 0)] }
     s.packets = (7, leaving) :: s.packets.filter (fun p => decide (p.2.bound ≠ some 5)) ∧ mapGet? 7 s.cmds = some (Cmd.fresh .copy 0 0 0 [] 0 0) ∧ (s.exitFlow 20).open_ = [] ∧ s.teams = []) := by
  decide +kernel

theorem witness_RegisterWrites :
    0xFFF % 8 ≠ 0 ∧ 64 ≤ 64 ∧ 0x00B40058 % 8 = 0 ∧ 0x00B40058 < 0x00B40060 ∧ 0x009001F8 < 0x00900200 ∧ bits (0x1000000000000001#64).toNat 62 60 = 1 ∧
    bits (0x2000000000000FFF#64).toNat 62 60 = 2 ∧ bits (0x8000000000000000#64).toNat 63 62 = 2 ∧ bits (0x4000000000000000#64).toNat 63 62 = 1 ∧ bits (1#64).toNat 1 0 = 1 ∧
    bits (2#64).toNat 1 0 = 2 := by decide +kernel

/-- The key command of a key ID of which a slice holds a dirty line, or a clean one. -/
def keyed (d : Bool) : State :=
  { State.reset with slices := [(1, { Slice.reset with tags := [(256, ⟨0, some 0, d, false, none, false, false⟩)], entries := [(0, ⟨⟨List.replicate 128 1#8, 0#32⟩, 1, 0, true⟩)] })] }
def packageOf (on : Bool) (c : List (Nat × Cmd)) : State :=
  { lineOf State.reset with cmds := c, regs := [(0x00C00000, BitVec.ofNat 64 (if on then 2 ^ 63 else 0)), (0x00C51000, BitVec.ofNat 64 (if on then 2 ^ 63 else 0)), (ctxReg 1 0x70, 1#64)] }
def collCmd : Cmd := { Cmd.fresh .coll 0 0 0 (List.replicate 16 0#32) 0 0 with accepted := some 0 }
/-- A stage of the firmware with a key and a signature of its own, found by hand, and one whose image is another. -/
def stage0 (image : Byte) : Config.FwStage :=
  ⟨[image], 3,
   (0x15404d46b562c78fe7338b1eb9e22493b65198ca890d59fdab4b2733849774c7a401dd66f836a61fb0a08a0dafc7a3585c7f37e2aa1d18ec12b3a58c8232bad5ea6,
    0x77f2590e238888142c8015b81e66fe539c30d320198e4e08387c8fd668d48191ff4c29e762e90b5014840ceeca69201dab09e9799874e2e9d2f43b5fbd516ef52e),
   0x7b54b66836c1fbdd13d2441d9e1434dc62ca677fb68f5fe66a464baadecdbd00576f8d6b5ac3bcc80844b7d50b1cc6603444bbe7cfcf8fc0aa1ee3c636d9e339,
   0x7b54b66836c1fbdd13d2441d9e1434dc62ca677fb68f5fe66a464baadecdbd00576f8d6b5ac3bcc80844b7d50b1cc6603444bbe7cfcf8fc0aa1ee3c636d9e339, [], 2⟩
theorem witness_FirmwareStages :
    ecdsaOk (stage0 1#8).key (stage0 1#8).r (stage0 1#8).s (stage0 1#8).image = true ∧
    ecdsaOk (stage0 1#8).key (stage0 1#8).r 0 (stage0 1#8).image = false ∧
    (stage0 1#8).mr < 4 ∧ (List.replicate 4 0#512)[(stage0 1#8).mr]? = some 0#512 ∧ 3 ≤ (stage0 1#8).version ∧ (stage0 1#8).version < 4 := by decide +kernel

/-- SHA-512 of nothing and of "abc", as FIPS 180 gives their first words. -/
theorem test_sha512 :
    (sha512 []).take 8 = bytesBig 0xcf83e1357eefb8bd 8 ∧ (sha512 [0x61#8, 0x62#8, 0x63#8]).take 8 = bytesBig 0xddaf35a193617aba 8 := by decide +kernel

theorem witness_PackageEvents :
    (∀ v ∈ [0, 1, 4095], decide (bits v 11 0 = 0) = decide (v = 0)) ∧ ((keyed true).cores = [] ∧ (keyed true).packets = [] ∧ mapSorted (keyed true).keys = true ∧
      mapSorted (keyed true).slices = true) ∧
    (∀ d ∈ [true, false], let s := keyed d
      (s.slice 1).tags = [(256, ⟨0, some 0, d, false, none, false, false⟩)] ∧ ((s.slice 1).entries.map fun e => (e.1, e.2.line.bytes.length)) = [(0, 128)] ∧ cellsWf s.hbm = true ∧
        (s.slices.all fun x => decide (x.1 = 1 ∨ x.2.tags = [])) = true) ∧ (keyed true).keyOn 0 = true ∧
    (∀ b ∈ [true, false], bit ((packageOf b []).reg 0x00C00000) 63 = b ∧ bit ((packageOf b []).reg 0x00C51000) 63 = b ∧ (packageOf b []).cmds = []) ∧
    (collCmd.kind = .coll ∧ bits (dW collCmd.desc 6) 7 0 = 0 ∧ collCmd.ended = false ∧ collCmd.accepted = some 0 ∧ collCmd.issuer = none) ∧
    State.cmdSent { st (flying (flight 0 [{ loadPart with st := .todo }])) with cmds := [(7, collCmd)] } { collCmd with issuer := some (1, 0, 9), accepted := none } = false ∧
    (∀ fn ∈ [0, 1], let s := packageOf true []
      let q : Place := ⟨0x8000, bits (s.reg (ctxReg fn 0x70)) 63 52, false, 0, 0⟩
      aloneB s q = true ∧ (s.peekLine q).pois = 0#32 ∧ ((mapGet? 256 (s.slice (s.homeOf q)).tags).map fun t => t.w) = some none ∧
        decide (0x8000 + 128 ≤ (if fn = 0 then 2 ^ 39 else min (bits (s.reg (ctxReg fn 0x70)) 6 0) 64 * 2 ^ 30)) = true) ∧
    (packageOf true []).fnPort 63 = 0 ∧ (∀ c ∈ State.reset.retiring, c < 256) := by decide +kernel

/-- Words that stand at 0x1000 of context 0, where the one group is about to issue. -/
def stepAt (ws : List Nat) : State :=
  { mapped (st grp) with
    cur := none, schedule := [.issue 1 0], hbm := cellPuts 0x1000 (ws.flatMap (toBytes · 4)) (mapped (st grp)).hbm }
/-- `BytesAt` in HBM, computed, and the state after it. -/
def bytesB (s : State) (t : Team) (c va : Nat) (w : Word) : Bool :=
  !s.mustWait (dieOf c) t.cfg.ctx va &&
    match s.translate t.cfg.ctx va permX with
    | (s1, .ok p) => decide (spaceOf p.pa = .hbm) && decide ((s1.peekPhys p 4).map (fun bs => bs.map (·.1)) = some (toBytes w.toNat 4)) &&
      (match s1.codeLine c t.cfg.launch p with | none => true | some l => decide (wordOfLine l.bytes p.pa = w.toNat))
    | _ => false
def fetched (s : State) (t : Team) (c va : Nat) : State :=
  match s.translate t.cfg.ctx va permX with
  | (s1, .ok p) => (match s1.codeLine c t.cfg.launch p with | none => s1.keepCode c p | some _ => s1)
  | (s1, _) => s1
theorem bytes_of {s : State} {t : Team} {c va : Nat} {w : Word} (h : bytesB s t c va w = true) : BytesAt s (fetched s t c va) t c va w := by
  simp only [bytesB, Bool.and_eq_true, Bool.not_eq_true'] at h
  obtain ⟨h0, h⟩ := h
  split at h
  · rename_i s1 p hq
    simp only [Bool.and_eq_true, decide_eq_true_eq] at h
    obtain ⟨⟨h1, h2⟩, h3⟩ := h
    obtain ⟨bs, hb, h2⟩ := Option.map_eq_some_iff.1 h2
    refine ⟨h0, s1, p, bs, hq, hb, h2, ?_⟩
    rw [if_pos h1]
    simp only [fetched, hq]
    split <;> simp_all
  · simp at h

theorem at_issue (ws : List Nat) (h : (({ stepAt ws with schedule := [] } : State).selected exec 1 0 && !({ stepAt ws with schedule := [] } : State).parked 1 0) = true) :
    AtIssue (stepAt ws) { stepAt ws with schedule := [] } iss0 (team grp) grp frag0 0 where
  move := ⟨[], rfl, rfl⟩
  up := rfl
  selected := ((Bool.and_eq_true _ _).mp h).1
  group := rfl
  sorted := rfl
  core := rfl
  runs := ⟨rfl, (Bool.not_eq_true' _).mp ((Bool.and_eq_true _ _).mp h).2⟩
  quantum := .inl (by decide)
  cur := rfl
  frag := rfl
  ready := ⟨rfl, rfl⟩
  calm := ⟨rfl, rfl⟩
  address := by decide +kernel
  watch := .inr (.inr (by decide +kernel))

/-- An instruction of one word, and of two; an encoding that is none. -/
theorem witness_StepRunsTheDecodedInstruction :
    let s (ws : List Nat) : State := { stepAt ws with schedule := [] }
    let two : List Nat := [0xCD040485, 0xFF009000]
    AtIssue (stepAt [0x80FFFFFF]) (s [0x80FFFFFF]) iss0 (team grp) grp frag0 0 ∧
      (∃ s1, BytesAt (s [0x80FFFFFF]) s1 (team grp) 0 0x1000 0x80FFFFFF#32) ∧ decode (wordBytes [0x80FFFFFF#32, 0#32, 0#32]) = .ok (.nop z) 1 ∧
    AtIssue (stepAt two) (s two) iss0 (team grp) grp frag0 0 ∧
      (∃ s1 s2, BytesAt (s two) s1 (team grp) 0 0x1000 0xCD040485#32 ∧ BytesAt s1 s2 (team grp) 0 0x1004 0xFF009000#32) ∧
      decode (wordBytes [0xCD040485#32, 0xFF009000#32, 0#32]) =
        .ok (.uadd { z with long := true, guard := some ⟨2, false⟩, d := .s 4, a := .s 4, b := .uconst 1 }) 2 :=
  ⟨at_issue _ (by decide +kernel), ⟨_, bytes_of (by decide +kernel)⟩, by decide +kernel, at_issue _ (by decide +kernel),
    ⟨_, _, bytes_of (by decide +kernel), bytes_of (by decide +kernel)⟩, by decide +kernel⟩

theorem witness_EncodingsThatAreNotInstructions :
    AtIssue (stepAt [0x2DFFFFFF]) { stepAt [0x2DFFFFFF] with schedule := [] } iss0 (team grp) grp frag0 0 ∧
    (∃ s1, BytesAt { stepAt [0x2DFFFFFF] with schedule := [] } s1 (team grp) 0 0x1000 0x2DFFFFFF#32) ∧
    (let w := 0x2DFFFFFF#32
     members (w.getLsbD 31) (bits w.toNat 29 24) ≤ bits (0xFF000000#32).toNat 23 20 ∧ w.getLsbD 30 = false) ∧
    opOf 0x03090205#32 0xFF000000#32 = .inr .ffma ∧ (sig .ffma (rawOf 0x03090205#32 0xFF000000#32)).c ≠ .unused :=
  ⟨at_issue _ (by decide +kernel), ⟨_, bytes_of (by decide +kernel)⟩, by decide +kernel, by decide +kernel, by decide +kernel⟩

/-- Words that an instruction has, a reset state whose memories are canonical, and a step of it. -/
theorem witness_DecodeOfEncodeIsTheInstruction : (Instr.nop z).wellFormed = true ∧ (encode (.nop z)).isSome = true := by decide +kernel
theorem witness_DecodedWordsAreTheEncoding : decode (wordBytes [0x80FFFFFF#32]) = .ok (.nop z) 1 := by decide +kernel
theorem witness_StepKeepsMemoriesCanonical : State.reset.memWf = true ∧ (match step State.reset with | .next _ => true | _ => false) = true := by decide +kernel

/-! The check on syntax refuses a term that breaks each of its rules; words of the specification's tables decode to what they stand for; and one step of a few
instructions, with values of the specification's own tables or worked out by hand from its rules. -/

/-- A class of operand that the field is not of: a uniform register, a beat latch as a destination, an odd pair, a predicate, a literal of a bulk register, a uniform
latch and a shape register where none belongs; an operand that the instruction has not. -/
theorem test_ill_formed_operands :
    ∀ i ∈ [Instr.fadd { args .fadd with d := .s 3 }, .fadd { args .fadd with d := .v 0xF0 }, .iadd { args .iadd with d := .p 1 }, .imad { args .imad with d := .v 3, mod := 0x080 },
      .uadd { args .uadd with a := .v 2 }, .shld { args .shld with d := .v 1 }, .mma { args .mma with b := .v 1 }, .fadd { args .fadd with c := .v 1 }],
      i.wellFormed = false := by decide +kernel

/-- A branch offset where there is none, an operand beside an offset, an immediate of 17 bits, and an operand of an instruction without any. -/
theorem test_ill_formed_layouts :
    ∀ i ∈ [Instr.fadd { args .fadd with imm := 1 }, .bra { args .bra with a := .s 1 }, .uli { args .uli with imm := 0x10000 }, .nop { args .nop with d := .s 1 },
      .exit { args .exit with imm := 1 }], i.wellFormed = false := by decide +kernel

/-- MOD with reserved bits, a format slot where none is read, two trailing words, a condition of no meaning, a condition where there is none, a guarded CLAUSE, and a
short form of what only the long form says. -/
theorem test_ill_formed_extensions :
    ∀ i ∈ [Instr.fadd { args .fadd with mod := 5 }, .iadd { args .iadd with fs := 1 }, .fadd { args .fadd with a := .lit 1, b := .uref 2 },
      .icmp { args .icmp with cond := 15 }, .fadd { args .fadd with cond := 1 }, .clause { args .clause 0 1 with guard := some ⟨1, true⟩ },
      .fadd { args .fadd with long := false, guard := some ⟨1, true⟩ }, .fadd { args .fadd with long := false, mod := 1 }], i.wellFormed = false := by decide +kernel

/-- And it takes what the same terms are without the fault. -/
theorem test_well_formed :
    ∀ i ∈ [Instr.fadd (args .fadd), .iadd (args .iadd), .imad (args .imad), .uadd (args .uadd), .shld (args .shld), .mma (args .mma), .bra (args .bra), .uli (args .uli),
      .nop (args .nop), .exit (args .exit), .icmp (args .icmp), .clause (args .clause 0 1)], i.wellFormed = true := by decide +kernel

/-- The worked examples of R98: a short move of a special source, a move under a rounding mode and an inline constant, and a guarded addition of a literal. -/
theorem test_decode_worked_examples :
    decode (wordBytes [0x1301FAFF#32]) = .ok (.mov { z with d := .v 1, a := .lane }) 1 ∧
    decode (wordBytes [0x0A0201FC#32, 5#32]) = .ok (.iadd { z with d := .v 2, a := .v 1, b := .uref 5 }) 2 ∧
    decode (wordBytes [0x420300F8#32, 0xFF000001#32]) = .ok (.fmul { z with long := true, d := .v 3, a := .v 0, b := .const 4, mod := 1 }) 2 ∧
    decode (wordBytes [0x400303FE#32, 0xFF007000#32, 0x40200000#32]) =
      .ok (.fadd { z with long := true, guard := some ⟨1, true⟩, d := .v 3, a := .v 3, b := .lit 0x40200000 }) 3 := by decide +kernel

/-- The matrix engine: MMA into bank 19 with slot 2 and ZA; MTILE of sh7; MBGTH of macro 2 by sh6. -/
theorem test_decode_matrix :
    decode (wordBytes [0x65130AFF#32, 0xFF040080#32]) = .ok (.mma { z with long := true, fs := 2, d := .n 0x13, a := .v 10, mod := 0x080 }) 2 ∧
    decode (wordBytes [0xA8FF07FF#32]) = .ok (.mtile { z with a := .h 7 }) 1 ∧
    decode (wordBytes [0xA70206FF#32]) = .ok (.mbgth { z with d := .n 2, a := .h 6 }) 1 := by decide +kernel

/-- Global memory: a guarded ATOM with the inline constant 1; RED of FP32 with a literal and its base in C. -/
theorem test_decode_memory :
    decode (wordBytes [0x7A2E2CF5#32, 0xFF00F900#32]) = .ok (.atom { z with long := true, guard := some ⟨3, true⟩, d := .v 46, a := .v 44, b := .const 1, mod := 0x900 }) 2 ∧
    decode (wordBytes [0x7BFF2AFE#32, 0x2900F001#32, 4#32]) =
      .ok (.red { z with long := true, guard := some ⟨3, true⟩, a := .v 42, b := .lit 4, c := .v 41, mod := 1 }) 3 := by decide +kernel

/-- Splats, engines and control: BLEND and BLENDB with a uniform register, SORT of sh0, LOOP of 2 passes, ULI, EXIT. -/
theorem test_decode_units_and_control :
    decode (wordBytes [0x701002FC#32, 0x14000000#32, 0x1C#32]) = .ok (.blend { z with long := true, d := .v 16, a := .v 2, b := .uref 28, c := .v 20 }) 3 ∧
    decode (wordBytes [0x712018FC#32, 0x02000000#32, 0x1C#32]) = .ok (.blendb { z with long := true, d := .v 32, a := .v 24, b := .uref 28, c := .v 2 }) 3 ∧
    decode (wordBytes [0xF2001416#32, 0xFF000900#32]) = .ok (.sort { z with long := true, d := .h 0, a := .s 20, b := .s 22, mod := 0x900 }) 2 ∧
    decode (wordBytes [0xCA000005#32, 0x86000000#32]) = .ok (.loop { z with long := true, c := .uconst 2, imm := 5 }) 2 ∧
    decode (wordBytes [0x9502FFFD#32]) = .ok (.uli { z with d := .s 2, imm := 0xFFFD }) 1 ∧
    decode (wordBytes [0x88FFFFFF#32]) = .ok (.exit z) 1 := by decide +kernel

/-- What the group holds after an instruction of it. -/
def after (i : Instr) (g : Group) : Option Group :=
  match exec i (st g) with
  | .next s => (s.group? 1 0).map (·.2)
  | _ => none
def lanes (r : Nat) (f : Nat → Nat) (g : Group) : Group := { g with v := mapSet r ((List.range 32).map fun l => elemOf (f l)) g.v }
def word (r l : Nat) (g : Option Group) : Option Nat := g.map fun g => (laneAt (g.vreg r) l).val.toNat

/-- R132: a sum wraps at 32 bits; each lane by itself. -/
theorem test_iadd_wraps :
    (let g := after (.iadd { z with d := .v 5, a := .v 5, b := .const 1 }) (lanes 5 (fun l => 0xFFFFFFFF - l) grp)
     (word 5 0 g, word 5 1 g, word 5 31 g)) = (some 0, some 0xFFFFFFFF, some 0xFFFFFFE1) := by decide +kernel

/-- R136: 1.5 and 2.5 in FP32 make 4.0; a signalling NaN makes the canonical one (R23). -/
theorem test_fadd :
    (let g := after (.fadd { z with d := .v 5, a := .v 5, b := .lit 0x40200000 }) (lanes 5 (fun l => if l = 0 then 0x3FC00000 else 0x7F800001) grp)
     (word 5 0 g, word 5 1 g)) = (some 0x40800000, some 0x7FC00000) := by decide +kernel

/-- A uniform addition under a guard that is false writes nothing and goes on. -/
theorem test_uadd_guarded :
    ((after (.uadd { z with long := true, guard := some ⟨2, true⟩, d := .s 4, a := .s 4, b := .uconst 1 }) (grp [(4, 7)])).map fun g =>
      ((g.sreg 4).val.toNat, (mapGet? 0 g.frags).map fun f => f.pc.toNat)) = some (7, some 0x1008) := by decide +kernel

/-- R107: EXIT of the only fragment takes all its lanes. -/
theorem test_exit : ((after (.exit z) grp).map fun g => g.frags.length) ≠ some 1 := by decide +kernel

/-- Step fetches what `withFetchWord` lays, as the first instruction after reset. -/
theorem test_step_of_fetch_word :
    (match step (State.reset.withFetchWord 32 0x0A0505F5) with
      | .next s => s.teams.map fun t => t.2.groups.map fun g => (g.2.frags.map fun f => f.2.pc.toNat, (laneAt (g.2.vreg 5) 31).val.toNat)
      | _ => []) = [[([0x1004], 1)]] := by decide +kernel

end Sys2Proof.Tests
end

section
/-! Facts about sorted maps, bytes and bits that the proofs below share. -/

namespace Sys2Proof.Machine

open Sys2Proof

/-- The keys of a sorted map: the first is below all others. -/
theorem mapSorted_cons {α : Type} {p : Nat × α} {m : Map α} :
    mapSorted (p :: m) = true ↔ (∀ q ∈ m, p.1 < q.1) ∧ mapSorted m = true := by
  induction m generalizing p with
  | nil => simp [mapSorted]
  | cons q m ih =>
    simp only [mapSorted, Bool.and_eq_true, decide_eq_true_eq, List.forall_mem_cons]
    refine ⟨fun ⟨hpq, hs⟩ => ⟨⟨hpq, fun r hr => Nat.lt_trans hpq ((ih.1 hs).1 r hr)⟩, hs⟩, fun ⟨⟨hpq, _⟩, hs⟩ => ⟨hpq, hs⟩⟩

/-- A value that is found at a key stands in the map under it. -/
theorem mem_of_mapGet? {α : Type} {k : Nat} {v : α} {m : Map α} (h : mapGet? k m = some v) : (k, v) ∈ m := by
  induction m with
  | nil => simp [mapGet?] at h
  | cons p m ih =>
    obtain ⟨j, w⟩ := p
    simp only [mapGet?] at h
    split at h
    · rename_i hj
      simp_all
    · exact List.mem_cons_of_mem _ (ih h)

/-- Setting a key of a sorted map to the value it has changes nothing. -/
theorem mapSet_self {α : Type} {k : Nat} {v : α} {m : Map α} (hs : mapSorted m = true) (h : mapGet? k m = some v) : mapSet k v m = m := by
  induction m with
  | nil => simp [mapGet?] at h
  | cons p m ih =>
    obtain ⟨j, w⟩ := p
    obtain ⟨first, rest⟩ := mapSorted_cons.1 hs
    by_cases hj : j = k
    · subst hj
      have hw : w = v := by simpa [mapGet?] using h
      simp [mapSet, hw]
    · have hm : mapGet? k m = some v := by simpa [mapGet?, hj] using h
      have below : j < k := first _ (mem_of_mapGet? hm)
      simp [mapSet, hj, Nat.lt_asymm below, ih rest hm]

/-- Updating a key whose value the update leaves as it is changes nothing. -/
theorem mapUpd_self {α : Type} {k : Nat} {v : α} {f : α → α} {m : Map α} (h : mapGet? k m = some v) (hf : f v = v) : mapUpd k f m = m := by
  induction m with
  | nil => rfl
  | cons p m ih =>
    obtain ⟨j, w⟩ := p
    by_cases hj : j = k
    · subst hj
      have hw : w = v := by simpa [mapGet?] using h
      simp [mapUpd, hw, hf]
    · have hm : mapGet? k m = some v := by simpa [mapGet?, hj] using h
      simp [mapUpd, hj, ih hm]

/-- The bytes of a number that has n bytes make the number again (R8). -/
theorem ofBytes_toBytes (x n : Nat) (h : x < 256 ^ n) : ofBytes (toBytes x n) = x := by
  induction n generalizing x with
  | zero => simp [toBytes, ofBytes]; omega
  | succ n ih =>
    have hd : x / 256 < 256 ^ n := by rw [Nat.div_lt_iff_lt_mul (by decide), ← Nat.pow_succ]; exact h
    simp only [toBytes, ofBytes, ih _ hd, BitVec.toNat_ofNat]
    omega

@[simp] theorem length_toBytes (x n : Nat) : (toBytes x n).length = n := by
  induction n generalizing x with
  | zero => rfl
  | succ n ih => simp [toBytes, ih]

/-- A word is read from its four bytes (R8). -/
theorem ofBytes_wordBytes (w : Word) : BitVec.ofNat 32 (ofBytes (toBytes w.toNat 4)) = w := by
  rw [ofBytes_toBytes _ _ w.isLt, BitVec.ofNat_toNat, BitVec.setWidth_eq]

/-- The bytes of a number, one at a time (R8). -/
theorem ofBytes_byte (bs : List Byte) (k : Nat) : ofBytes bs / 2 ^ (8 * k) % 256 = (bs.getD k 0#8).toNat := by
  induction bs generalizing k with
  | nil => simp [ofBytes]
  | cons b bs ih =>
    have hb : b.toNat < 256 := b.isLt
    cases k with
    | zero => simp only [ofBytes, List.getD_cons_zero]; omega
    | succ k =>
      have hdiv : (b.toNat + 256 * ofBytes bs) / 256 = ofBytes bs := by omega
      rw [ofBytes, show 2 ^ (8 * (k + 1)) = 256 * 2 ^ (8 * k) by rw [Nat.mul_add, Nat.pow_add, Nat.mul_comm], ← Nat.div_div_eq_div_mul, hdiv,
        List.getD_cons_succ]
      exact ih k

/-- Two bits that stand side by side. -/
theorem bits_pair (x k : Nat) : bits x (k + 1) k = 2 * (bit x (k + 1)).toNat + (bit x k).toNat := by
  have h1 : x.testBit (k + 1) = (x >>> k).testBit 1 := by rw [Nat.testBit_shiftRight]
  have h0 : x.testBit k = (x >>> k).testBit 0 := by rw [Nat.testBit_shiftRight, Nat.add_zero]
  simp only [bits, bit, h1, h0, Nat.toNat_testBit, show k + 1 + 1 - k = 2 by omega]
  omega

/-- The upper of two bits alone is set, or the lower alone. -/
theorem bits_pair_two {x k : Nat} (h : bits x (k + 1) k = 2) : bit x (k + 1) = true ∧ bit x k = false := by
  rw [bits_pair] at h
  cases h1 : bit x (k + 1) <;> cases h0 : bit x k <;> simp_all
theorem bits_pair_one {x k : Nat} (h : bits x (k + 1) k = 1) : bit x (k + 1) = false ∧ bit x k = true := by
  rw [bits_pair] at h
  cases h1 : bit x (k + 1) <;> cases h0 : bit x k <;> simp_all

end Sys2Proof.Machine
end

section
/-! What the register map answers (R12, R309, R326, R386, R387, R401): the block of each address, and the values that reset leaves there. -/

namespace Sys2Proof.Machine

open Sys2Proof

/-- An entry of a home table as its register shows it (R309). -/
theorem tableWord_byte (tbl : Map Nat) (base k : Nat) (hk : k < 8) :
    tableWord tbl base / 2 ^ (8 * k) % 256 = mapGetD (base + k) (base + k) tbl % 256 := by
  simp [tableWord, ofBytes_byte, hk]

/-- Registers of a context's block, read through its function (R387). -/
theorem readReg_ctx (s : State) (t off : Nat) (ho : off < 0x100) (h8 : off % 8 = 0) : s.readReg t (0x1000 + off) = s.reg (ctxReg t off) := by
  unfold State.readReg
  rw [if_neg (by omega), if_neg (by omega), if_pos (by omega), Nat.add_sub_cancel_left]

/-- What stands above the MSI-X table is the physical function's own. -/
theorem readReg_pf (s : State) (off : Nat) (ho : 0x2400 < off) (h8 : off % 8 = 0) : s.readReg 0 off = s.readPf off := by
  unfold State.readReg
  rw [if_neg (by omega), if_neg (by omega), if_neg (by omega), if_neg (by omega), if_pos rfl]

/-- A register of a stop's block (R326). -/
theorem readReg_stop (s : State) (i off : Nat) (hi : i < 256) (ho : off < 0x100) (h8 : off % 8 = 0) :
    s.readReg 0 (stopReg i off) = s.readStop i off := by
  unfold stopReg
  rw [readReg_pf s _ (by omega) (by omega)]
  unfold State.readPf
  rw [if_neg (by omega), if_pos (by omega), show (0x00800000 + 0x100 * i + off - 0x00800000) / 0x100 = i by omega,
    show (0x00800000 + 0x100 * i + off) % 0x100 = off by omega]

/-- A register of the home tables (R309): eight entries of the device-wide table, or of the die-local one. -/
theorem readReg_homeTable (s : State) (i : Nat) (hi : i < 256) : s.readReg 0 (0x00900000 + i / 8 * 8) = tableWord s.homeTbl (i / 8 * 8) := by
  rw [readReg_pf s _ (by omega) (by omega)]
  unfold State.readPf
  rw [if_neg (by omega), if_neg (by omega), if_pos (by omega), Nat.add_sub_cancel_left]

theorem readReg_dieTable (s : State) (i : Nat) (hi : i < 256) : s.readReg 0 (0x00900100 + i / 8 * 8) = tableWord s.dlTbl (i / 8 * 8) := by
  rw [readReg_pf s _ (by omega) (by omega)]
  unfold State.readPf
  rw [if_neg (by omega), if_neg (by omega), if_neg (by omega), if_pos (by omega), Nat.add_sub_cancel_left]

/-- A register of a queue (R401). -/
theorem readReg_queue (s : State) (q off : Nat) (hq : q < 256) (ho : off < 0x40) (h8 : off % 8 = 0) :
    s.readReg 0 (queueReg q off) = s.readQueue q off := by
  unfold queueReg
  rw [readReg_pf s _ (by omega) (by omega)]
  unfold State.readPf
  rw [if_neg (by omega), if_neg (by omega), if_neg (by omega), if_neg (by omega), if_pos (by omega),
    show (0x00A00000 + 0x40 * q + off - 0x00A00000) / 0x40 = q by omega, show (0x00A00000 + 0x40 * q + off) % 0x40 = off by omega]

/-- The registers of the communicators, of the links and of the windows read as they are stored (R456, R469, R471). -/
theorem readReg_package (s : State) (off : Nat) (lo : 0x00C00000 ≤ off) (hk : off < 0x00C20000 ∨ 0x00C20040 ≤ off) (h8 : off % 8 = 0) :
    s.readReg 0 off = s.reg off := by
  rw [readReg_pf s _ (by omega) h8]
  unfold State.readPf xinvc
  rw [if_neg (by omega), if_neg (by omega), if_neg (by omega), if_neg (by omega), if_neg (by omega), if_neg (by omega), if_neg (by omega),
    if_neg (by omega), if_neg (by omega)]

/-- No register is stored at reset: each holds its reset value. -/
theorem reg_reset (off : Nat) : State.reset.reg off = regReset off := rfl

/-- The reset values of a context's block (R387): WEIGHT 1 in TCTL, GDELAY in TGATH, and zeros. -/
theorem regReset_ctx (t off : Nat) (ht : t < 64) (ho : off < 0x100) :
    regReset (ctxReg t off) = if off = 0 then 0x10000 else if off = 0x50 then 0x400 else 0 := by
  unfold regReset ctxReg
  rw [if_neg (by omega), if_neg (by omega), if_neg (by omega), if_neg (by omega), if_neg (by omega), if_neg (by omega), if_neg (by omega),
    if_pos (by omega), show (0x00B10000 + 0x100 * t + off) % 0x100 = off by omega]

/-- The reset values of a stop's block (R326): the time-out alone is not zero. -/
theorem regReset_stop (i off : Nat) (hi : i < 256) (ho : off < 0x100) : regReset (stopReg i off) = if off = 8 then 0x400 else 0 := by
  unfold regReset stopReg
  rw [if_neg (by omega), if_neg (by omega), if_neg (by omega), if_neg (by omega), if_neg (by omega), if_neg (by omega), if_neg (by omega),
    if_neg (by omega)]
  by_cases h : off = 8
  · rw [if_pos (by omega), if_pos h]
  · rw [if_neg (by omega), if_neg h]

/-- A link is untrained and off at reset (R469). -/
theorem regReset_link (p : Nat) (hp : p < 16) : regReset (0x00C50100 + 8 * p) = 0xC := by
  unfold regReset
  rw [if_neg (by omega), if_neg (by omega), if_neg (by omega), if_neg (by omega), if_neg (by omega), if_neg (by omega), if_pos (by omega)]

/-- Queues, communicators and windows reset to zero (R401, R456, R471). -/
theorem regReset_zero (off : Nat) (h : 0x00A00000 ≤ off ∧ off < 0x00A04000 ∨ 0x00C00000 ≤ off ∧ off < 0x00C01000 ∨ 0x00C51000 ≤ off) : regReset off = 0 := by
  unfold regReset
  rw [if_neg (by omega), if_neg (by omega), if_neg (by omega), if_neg (by omega), if_neg (by omega), if_neg (by omega), if_neg (by omega),
    if_neg (by omega), if_neg (by omega)]

/-- What reset leaves in the block of a stop (R326): its place, TO, the slice in service, and nothing held. -/
theorem readStop_reset (i : Nat) (hi : i < 256) :
    State.reset.readStop i 0 = stopY i * 2 ^ 20 + stopX i * 2 ^ 16 + dieOf i * 2 ^ 8 + i ∧ State.reset.readStop i 0x08 = 0x400 ∧
    State.reset.readStop i 0x18 = 4 ∧ State.reset.readStop i 0x20 = 0 := by
  have netctl : State.reset.netctl i = bits (regReset (stopReg i 8)) 15 0 := by
    simp [State.netctl, State.router, mapGetD, mapGet?, State.reset, Router.reset]
    rfl
  have serving : State.reset.sliceRetired i = false := by
    have : ∀ k < 4, regReset (0x00B40040 + 8 * k) = 0 := by decide +kernel
    rw [State.sliceRetired, reg_reset, this _ (by omega), bit, Nat.zero_testBit]
  refine ⟨rfl, ?_, ?_, ?_⟩
  · rw [show State.reset.readStop i 0x08 = State.reset.netctl i from rfl, netctl, regReset_stop i 8 hi (by omega)]
    rfl
  · rw [show State.reset.readStop i 0x18 = (if State.reset.sliceRetired i then 0 else 4) + bits (regReset (stopReg i 0x18)) 1 0 from rfl, serving,
      regReset_stop i 0x18 hi (by omega)]
    rfl
  · rw [show State.reset.readStop i 0x20 = Slice.reset.totals from rfl]
    simp [Slice.totals, Slice.reset]

/-- Settles O37: each address is led to its block and the block's reset value is read there. -/
theorem resetValues : Obligations.ResetValues := by
  refine ⟨fun fn _ => rfl, by decide +kernel, fun i hi => ?_, fun t ht => ⟨?_, ?_, fun off hoff => ?_, ?_⟩, fun p hp => ?_, rfl, rfl, rfl, rfl, rfl,
    rfl, rfl, rfl, rfl⟩
  · obtain ⟨place, timeout, mode, totals⟩ := readStop_reset i hi
    have stop (a off : Nat) (ha : a = stopReg i off) (ho : off < 0x100) (h8 : off % 8 = 0) :
        State.reset.readReg 0 a = State.reset.readStop i off := ha ▸ readReg_stop State.reset i off hi ho h8
    refine ⟨?_, ?_, ?_, ?_, ?_, ?_, ?_, ?_, ?_⟩
    · rw [stop (0x00800000 + 0x100 * i) 0 rfl (by omega) rfl, place]
      unfold dieOf
      omega
    · rw [stop _ 8 (by unfold stopReg; omega) (by omega) rfl, timeout]
    · rw [stop _ 0x18 (by unfold stopReg; omega) (by omega) rfl, mode]
    · rw [stop _ 0x20 (by unfold stopReg; omega) (by omega) rfl, totals]
    · rw [readReg_homeTable _ i hi, tableWord_byte _ _ _ (by omega)]
      simp only [State.reset, mapGetD, mapGet?, Option.getD_none]
      omega
    · rw [readReg_dieTable _ i hi, tableWord_byte _ _ _ (by omega)]
      simp only [State.reset, mapGetD, mapGet?, Option.getD_none]
      omega
    · refine (readReg_queue State.reset i 0 hi (by omega) rfl).trans ?_
      exact regReset_zero (queueReg i 0) (by unfold queueReg; omega)
    · rw [show 0x00A00010 + 0x40 * i = queueReg i 0x10 by unfold queueReg; omega, readReg_queue _ i 0x10 hi (by omega) rfl,
        show State.reset.readQueue i 0x10 = HwQueue.reset.rcnt * 2 ^ 32 + HwQueue.reset.chip.length from rfl]
      simp [HwQueue.reset]
    · rw [readReg_package _ _ (by omega) (by omega) (by omega)]
      exact regReset_zero _ (by omega)
  · exact (readReg_ctx State.reset t 0 (by omega) rfl).trans (regReset_ctx t 0 ht (by omega))
  · exact (readReg_ctx State.reset t 0x50 (by omega) rfl).trans (regReset_ctx t 0x50 ht (by omega))
  · have known : off < 0x100 ∧ off % 8 = 0 ∧ off ≠ 0 ∧ off ≠ 0x50 := by revert off; decide
    obtain ⟨small, h8, h0, h50⟩ := known
    rw [readReg_ctx _ t off small h8, reg_reset, regReset_ctx t off ht small, if_neg h0, if_neg h50]
  · rw [readReg_package _ _ (by omega) (by omega) (by omega)]
    exact regReset_zero _ (by omega)
  · rw [readReg_package _ _ (by omega) (by omega) (by omega)]
    exact regReset_link p hp

end Sys2Proof.Machine
end

section
/-! What a write of a register does (R6): the block that each address leads to, and what the block stores. -/

namespace Sys2Proof.Machine

open Sys2Proof Sys2Proof.Claims

/-- A register after a register is stored. -/
theorem reg_setReg (s : State) (off v r : Nat) : (s.setReg off v).reg r = if r = off then v % 2 ^ 64 else s.reg r := by
  unfold State.reg State.setReg
  rw [mapGet?_mapSet]
  by_cases h : r = off <;> simp [h]

/-- A register holds 64 bits. -/
theorem reg_lt (s : State) (off : Nat) : s.reg off < 2 ^ 64 := by
  unfold State.reg
  split
  · exact BitVec.isLt _
  · simp only [regReset]
    (repeat' split) <;> decide

/-- An event that stores one register and does nothing else. -/
theorem registerTakes_of_setReg {i : Instr} {s : State} {off v : Nat} (h : exec i s = .next (s.setReg off v)) (hv : v < 2 ^ 64) :
    RegisterTakes i s off v :=
  ⟨_, h, rfl, by rw [reg_setReg, if_pos rfl, Nat.mod_eq_of_lt hv], fun r hr => by rw [reg_setReg, if_neg hr]⟩

/-- The bits of a register that a mask leaves fit it. -/
theorem and_lt (v : Dword) (m : Nat) : v.toNat &&& m < 2 ^ 64 := Nat.lt_of_le_of_lt Nat.and_le_left v.isLt

/-- The low half of a register replaced, the high half kept. -/
theorem setBits_low (x v : Nat) (hx : x < 2 ^ 64) : setBits x 31 0 (bits v 31 0) = bits x 63 32 * 2 ^ 32 + bits v 31 0 := by
  simp only [setBits, bits, Nat.shiftRight_eq_div_pow]
  omega

theorem high_low_lt (x v : Nat) : bits x 63 32 * 2 ^ 32 + bits v 31 0 < 2 ^ 64 := by
  simp only [bits, Nat.shiftRight_eq_div_pow]
  omega

/-- An event that always leads to a next state. -/
def Answers (e : State → Out) : Prop := ∀ s, ∃ s', e s = .next s'

/-- A write that such an event performs is the event. -/
theorem Answers.out {e : State → Out} (h : Answers e) (s : State) : .next (outState s (e s)) = e s := by
  obtain ⟨s', hs⟩ := h s
  rw [hs]
  rfl

theorem answers_xinvcWrite (v : Dword) : Answers (execXinvcWrite v) := fun s => by
  unfold execXinvcWrite; simp only []; split <;> exact ⟨_, rfl⟩
theorem answers_kcmdLoad (v : Dword) : Answers (execKcmdLoad v) := fun s => by
  unfold execKcmdLoad; simp only []; split <;> exact ⟨_, rfl⟩
theorem answers_kcmdClear (v : Dword) : Answers (execKcmdClear v) := fun s => by
  unfold execKcmdClear; simp only []; split <;> exact ⟨_, rfl⟩
theorem answers_fdeadDead (p : Nat) : Answers (execFdeadDead p) := fun s => by
  unfold execFdeadDead; split <;> exact ⟨_, rfl⟩
theorem answers_dbgctlHalt (c : Nat) : Answers (execDbgctlHalt c) := fun s => by
  unfold execDbgctlHalt; simp only []; split <;> exact ⟨_, rfl⟩
theorem answers_qcfgWrite (q : Nat) (v : Dword) : Answers (execQcfgWrite q v) := fun s => by
  unfold execQcfgWrite; simp only []; (repeat' split) <;> exact ⟨_, rfl⟩
theorem answers_tctlWrite (t : Nat) (v : Dword) : Answers (execTctlWrite t v) := fun s => by
  unfold execTctlWrite; simp only []; split <;> exact ⟨_, rfl⟩
theorem answers_tsubpTailWrite (t : Nat) (v : Dword) : Answers (execTsubpTailWrite t v) := fun s => by
  unfold execTsubpTailWrite; simp only []; split <;> exact ⟨_, rfl⟩
theorem answers_commConfigWrite (n w : Nat) (v : Dword) : Answers (execCommConfigWrite n w v) := fun s => by
  unfold execCommConfigWrite; simp only []; (repeat' split) <;> exact ⟨_, rfl⟩
theorem answers_exportWindowWrite (n w : Nat) (v : Dword) : Answers (execExportWindowWrite n w v) := fun s => by
  unfold execExportWindowWrite; simp only []; (repeat' split) <;> exact ⟨_, rfl⟩

/-! ### The blocks of the register map -/

/-- What stands above the MSI-X table of function 0 is the physical function's block. -/
theorem writeReg_pf (s : State) (off : Nat) (v : Dword) (ho : 0x2400 ≤ off) (h8 : off % 8 = 0) : s.writeReg 0 off v = s.writePf off v := by
  unfold State.writeReg
  iterate 3 rw [if_neg (by omega)]
  rw [if_pos rfl]

theorem writeReg_core (s : State) (c off : Nat) (v : Dword) (hc : c < 256) (ho : off < 0x40) (h8 : off % 8 = 0) :
    s.writeReg 0 (coreReg c off) v = s.writeCore c off v := by
  unfold coreReg
  rw [writeReg_pf s _ v (by omega) (by omega)]
  unfold State.writePf
  rw [if_pos (by omega)]
  rw [show (0x00400000 + 0x40 * c + off - 0x00400000) / 0x40 = c by omega, show (0x00400000 + 0x40 * c + off) % 0x40 = off by omega]

theorem writeReg_stop (s : State) (i off : Nat) (v : Dword) (hi : i < 256) (ho : off < 0x100) (h8 : off % 8 = 0) :
    s.writeReg 0 (stopReg i off) v = s.writeStop i off v := by
  unfold stopReg
  rw [writeReg_pf s _ v (by omega) (by omega)]
  unfold State.writePf
  rw [if_neg (by omega)]
  rw [if_pos (by omega)]
  rw [show (0x00800000 + 0x100 * i + off - 0x00800000) / 0x100 = i by omega, show (0x00800000 + 0x100 * i + off) % 0x100 = off by omega]

theorem writeReg_queue (s : State) (q off : Nat) (v : Dword) (hq : q < 256) (ho : off < 0x40) (h8 : off % 8 = 0) :
    s.writeReg 0 (queueReg q off) v = s.writeQueue q off v := by
  unfold queueReg
  rw [writeReg_pf s _ v (by omega) (by omega)]
  unfold State.writePf
  iterate 2 rw [if_neg (by omega)]
  rw [if_pos (by omega)]
  rw [show (0x00A00000 + 0x40 * q + off - 0x00A00000) / 0x40 = q by omega, show (0x00A00000 + 0x40 * q + off) % 0x40 = off by omega]

/-- A context's block through the physical function, and through the function that serves it (R387). -/
theorem writeReg_ctx_pf (s : State) (t off : Nat) (v : Dword) (ht : t < 64) (ho : off < 0x100) (h8 : off % 8 = 0) :
    s.writeReg 0 (ctxReg t off) v = s.writeCtx t off v true := by
  unfold ctxReg
  rw [writeReg_pf s _ v (by omega) (by omega)]
  unfold State.writePf
  iterate 4 rw [if_neg (by omega)]
  rw [if_pos (by omega)]
  rw [show (0x00B10000 + 0x100 * t + off - 0x00B10000) / 0x100 = t by omega, show (0x00B10000 + 0x100 * t + off) % 0x100 = off by omega]
theorem writeReg_ctx (s : State) (t off : Nat) (v : Dword) (ht : t < 64) (ho : off < 0x100) (h8 : off % 8 = 0) :
    s.writeReg t (0x1000 + off) v = s.writeCtx t off v (decide (t = 0)) := by
  unfold State.writeReg
  rw [if_neg (by omega), if_pos (by omega), Nat.add_sub_cancel_left]

theorem writeReg_die (s : State) (d off : Nat) (v : Dword) (hd : d < 4) (ho : off < 0x40) (h8 : off % 8 = 0) :
    s.writeReg 0 (dieReg d off) v = s.writeDie d off v := by
  unfold dieReg
  rw [writeReg_pf s _ v (by omega) (by omega)]
  unfold State.writePf xinva xinvc
  iterate 7 rw [if_neg (by omega)]
  rw [if_pos (by omega)]
  rw [show (0x00B30000 + 0x40 * d + off - 0x00B30000) / 0x40 = d by omega, show (0x00B30000 + 0x40 * d + off) % 0x40 = off by omega]

theorem writeReg_comm (s : State) (n w : Nat) (v : Dword) (hn : n < 256) (hw : w < 2) :
    s.writeReg 0 (commReg n (8 * w)) v = outState s (execCommConfigWrite n w v s) := by
  unfold commReg
  rw [writeReg_pf s _ v (by omega) (by omega)]
  unfold State.writePf xinva xinvc elogb elogp estat hctl
  iterate 12 rw [if_neg (by omega)]
  rw [if_pos (by omega)]
  rw [show (0x00C00000 + 0x10 * n + 8 * w - 0x00C00000) / 0x10 = n by omega, show (0x00C00000 + 0x10 * n + 8 * w) % 0x10 / 8 = w by omega]

theorem writeReg_window (s : State) (n w : Nat) (v : Dword) (hn : n < 64) (hw : w < 2) :
    s.writeReg 0 (winReg n (8 * w)) v = outState s (execExportWindowWrite n w v s) := by
  unfold winReg
  rw [writeReg_pf s _ v (by omega) (by omega)]
  unfold State.writePf xinva xinvc elogb elogp estat hctl kcmd
  iterate 20 rw [if_neg (by omega)]
  rw [if_pos (by omega)]
  rw [show (0x00C51000 + 0x10 * n + 8 * w - 0x00C51000) / 0x10 = n by omega, show (0x00C51000 + 0x10 * n + 8 * w) % 0x10 / 8 = w by omega]

theorem writeReg_kdata (s : State) (i : Nat) (v : Dword) (hi : i < 8) : s.writeReg 0 (kdata i) v = s.setReg (kdata i) v.toNat := by
  unfold kdata
  rw [writeReg_pf s _ v (by omega) (by omega)]
  unfold State.writePf xinva xinvc elogb elogp estat hctl
  iterate 13 rw [if_neg (by omega)]
  rw [if_pos (by omega)]

/-! ### What the blocks store -/

/-- A write that stores one register. -/
theorem registerTakes_of_writeReg {fn a off w : Nat} {v : Dword} {s : State} (h : s.writeReg fn a v = s.setReg off w) (hw : w < 2 ^ 64) :
    RegisterTakes (.registerWrite fn a v) s off w :=
  registerTakes_of_setReg (congrArg Host.Outcome.next h) hw

/-- A write that an event performs. -/
theorem exec_registerWrite_of_event {fn a : Nat} {v : Dword} {s : State} {e : State → Out} {i : Instr} (h : s.writeReg fn a v = outState s (e s))
    (hi : exec i s = e s) (he : Answers e) : exec (.registerWrite fn a v) s = exec i s := by
  rw [hi, ← he.out s, ← h]
  rfl

/-- The registers of a context that its own function writes too (R387, R405). -/
theorem writeCtx_open (s : State) (t : Nat) (v : Dword) (pf : Bool) {off mask : Nat}
    (h : (off, mask) ∈ [(0x08, 0xFFFFFFFFFFFFF00F), (0x18, 0xFFFFFFFFFFFFFFFF), (0x48, 0xFFFFFFFFFFFFFF00), (0x50, 0xFFFF), (0x58, 0xFFFFFFFFFFFFFFFF),
      (0x78, 0x800000000000003F)]) : s.writeCtx t off v pf = s.setReg (ctxReg t off) (v.toNat &&& mask) := by
  simp only [List.mem_cons, Prod.mk.injEq, List.not_mem_nil, or_false] at h
  rcases h with ⟨rfl, rfl⟩ | ⟨rfl, rfl⟩ | ⟨rfl, rfl⟩ | ⟨rfl, rfl⟩ | ⟨rfl, rfl⟩ | ⟨rfl, rfl⟩ <;> rfl

/-- The registers of a context that only the physical function writes (R387, R405, R453). -/
theorem writeCtx_pf (s : State) (t : Nat) (v : Dword) {off mask : Nat}
    (h : (off, mask) ∈ [(0x30, 0x3FF01FF), (0x38, 0xFFFFFFFFFFFFF), (0x40, 0xFFFFFFFFFFFFFFFF), (0x60, 0xFFFFFFFFFFFFF001), (0x68, 0xFFF0FFF),
      (0x70, 0xFFFFFFFFC000007F)]) :
    s.writeCtx t off v true = s.setReg (ctxReg t off) (v.toNat &&& mask) ∧ s.writeCtx t off v false = s := by
  simp only [List.mem_cons, Prod.mk.injEq, List.not_mem_nil, or_false] at h
  rcases h with ⟨rfl, rfl⟩ | ⟨rfl, rfl⟩ | ⟨rfl, rfl⟩ | ⟨rfl, rfl⟩ | ⟨rfl, rfl⟩ | ⟨rfl, rfl⟩ <;> exact ⟨rfl, rfl⟩

/-- The registers of the physical function's block whose bits a mask leaves (R386, R409, R417, R452, R455). -/
theorem writePf_masked (s : State) (v : Dword) {off mask : Nat}
    (h : (off, mask) ∈ [(0x00B00008, 0xFFFFFFFF), (0x00B00010, 0xFFFFFFFF), (0x00B20000, 0x1FFFFFFFFFFF000), (0x00B40000, 0xFFFFFFFFFFFFF00F),
      (0x00B40018, 0xFFFFFFFFFFFFFF00), (0x00C30000, 0xFFFFFFFFFFFFFFFF), (0x00C60000, 0xE0000000003F3F3F)]) :
    s.writeReg 0 off v = s.setReg off (v.toNat &&& mask) := by
  have low : bits v.toNat 31 0 = v.toNat &&& 0xFFFFFFFF := (Nat.and_two_pow_sub_one_eq_mod v.toNat 32).symm
  have all : v.toNat = v.toNat &&& 0xFFFFFFFFFFFFFFFF :=
    ((Nat.and_two_pow_sub_one_eq_mod v.toNat 64).trans (Nat.mod_eq_of_lt v.isLt)).symm
  simp only [List.mem_cons, Prod.mk.injEq, List.not_mem_nil, or_false] at h
  rcases h with ⟨rfl, rfl⟩ | ⟨rfl, rfl⟩ | ⟨rfl, rfl⟩ | ⟨rfl, rfl⟩ | ⟨rfl, rfl⟩ | ⟨rfl, rfl⟩ | ⟨rfl, rfl⟩
  · exact congrArg (s.setReg _) low
  · exact congrArg (s.setReg _) low
  · rfl
  · rfl
  · rfl
  · exact congrArg (s.setReg _) all
  · rfl

/-- The identity, the clock, the retirements, FABID and the home tables are read-only (R12, R309, R386, R417, R469). -/
theorem writePf_readOnly (s : State) (v : Dword) {off : Nat} (h : off = 0 ∨ off = 0x00B00000 ∨ (0x00B40020 ≤ off ∧ off < 0x00B40060) ∨ off = 0x00C50000 ∨
    (0x00900000 ≤ off ∧ off < 0x00900200)) (h8 : off % 8 = 0) : s.writeReg 0 off v = s := by
  by_cases h0 : off = 0
  · subst h0
    rfl
  · rw [writeReg_pf s off v (by omega) h8]
    unfold State.writePf xinva xinvc elogb elogp estat hctl kcmd irqcfg
    iterate 22 rw [if_neg (by omega)]

/-- KCMD loads or clears by its operation (R451). -/
theorem exec_write_kcmd (v : Dword) (s : State) :
    (bits v.toNat 62 60 = 1 → exec (.registerWrite 0 kcmd v) s = exec (.kcmdLoad v) s) ∧
    (bits v.toNat 62 60 = 2 → exec (.registerWrite 0 kcmd v) s = exec (.kcmdClear v) s) := by
  refine ⟨fun load => ?_, fun clear => ?_⟩
  · exact exec_registerWrite_of_event (e := execKcmdLoad v) (if_pos load) rfl (answers_kcmdLoad v)
  · have noLoad : bits v.toNat 62 60 ≠ 1 := by omega
    exact exec_registerWrite_of_event (e := execKcmdClear v) ((if_neg noLoad).trans (if_pos clear)) rfl (answers_kcmdClear v)

/-- FDEAD declares a package dead or live by the bit that is written (R469). -/
theorem exec_write_fdead (v : Dword) (s : State) :
    (bits v.toNat 63 62 = 2 → exec (.registerWrite 0 0x00C50010 v) s = exec (.fdeadDead (bits v.toNat 8 0)) s) ∧
    (bits v.toNat 63 62 = 1 → exec (.registerWrite 0 0x00C50010 v) s = exec (.fdeadLive (bits v.toNat 8 0)) s) := by
  have block : s.writeReg 0 0x00C50010 v = s.writeFdead v.toNat := rfl
  refine ⟨fun h => ?_, fun h => ?_⟩
  · obtain ⟨dead, live⟩ := bits_pair_two h
    have acts : s.writeFdead v.toNat = outState s (execFdeadDead (bits v.toNat 8 0) s) := by simp [State.writeFdead, dead, live]
    exact exec_registerWrite_of_event (block.trans acts) rfl (answers_fdeadDead _)
  · obtain ⟨dead, live⟩ := bits_pair_one h
    have acts : s.writeFdead v.toNat = outState s (execFdeadLive (bits v.toNat 8 0) s) := by simp [State.writeFdead, dead, live]
    exact exec_registerWrite_of_event (block.trans acts) rfl fun _ => ⟨_, rfl⟩

/-- FRESP answers the entries of a page with RETRY or FATAL (R412). -/
theorem exec_write_fresp (v : Dword) (s : State) (d : Nat) (hd : d < 4) :
    (bits v.toNat 63 62 = 1 → exec (.registerWrite 0 (dieReg d 0x10) v) s = exec (.frespRetry d v) s) ∧
    (bits v.toNat 63 62 = 2 → exec (.registerWrite 0 (dieReg d 0x10) v) s = exec (.frespFatal d v) s) := by
  have block := writeReg_die s d 0x10 v hd (by omega) rfl
  refine ⟨fun retry => ?_, fun fatal => ?_⟩
  · exact exec_registerWrite_of_event (e := execFrespRetry d v) (block.trans (if_pos retry)) rfl fun _ => ⟨_, rfl⟩
  · have noRetry : bits v.toNat 63 62 ≠ 1 := by omega
    exact exec_registerWrite_of_event (e := execFrespFatal d v) (block.trans ((if_neg noRetry).trans (if_pos fatal))) rfl fun _ => ⟨_, rfl⟩

/-- DBGCTL halts the groups of the core, or empties its mailboxes, by the bit that is written (R213). -/
theorem exec_write_dbgctl (v : Dword) (s : State) (c : Nat) (hc : c < 256) :
    (bits v.toNat 1 0 = 1 → exec (.registerWrite 0 (coreReg c 0x08) v) s = exec (.dbgctlHalt c) s) ∧
    (bits v.toNat 1 0 = 2 → exec (.registerWrite 0 (coreReg c 0x08) v) s = exec (.dbgctlClr c) s) := by
  have block := writeReg_core s c 0x08 v hc (by omega) rfl
  refine ⟨fun h => ?_, fun h => ?_⟩
  · obtain ⟨clear, halt⟩ := bits_pair_one h
    have acts : s.writeCore c 0x08 v = outState s (execDbgctlHalt c s) := by simp [State.writeCore, clear, halt]
    exact exec_registerWrite_of_event (block.trans acts) rfl (answers_dbgctlHalt c)
  · obtain ⟨clear, halt⟩ := bits_pair_two h
    have acts : s.writeCore c 0x08 v = outState s (execDbgctlClr c s) := by simp [State.writeCore, clear, halt]
    exact exec_registerWrite_of_event (block.trans acts) rfl fun _ => ⟨_, rfl⟩

/-- Settles O31: each address is led to its block; a block stores what its mask leaves, or performs its event. -/
theorem registerWrites : Obligations.RegisterWrites := by
  refine ⟨fun fn off v s h => ?_, fun v s off mask h => registerTakes_of_writeReg (writePf_masked s v h) (and_lt v mask),
    fun v s off h h8 => congrArg Host.Outcome.next (writePf_readOnly s v h h8), fun v s i d hi hd => ?_, fun v s => ?_, fun v s n w hw => ?_,
    fun v s d c q t i hd hc hq ht hi => ?_, fun v s t ht => ?_⟩
  · have ignored : s.writeReg fn off v = s := by
      unfold State.writeReg
      rw [if_pos (by omega)]
    exact congrArg Host.Outcome.next ignored
  · rw [show 0x00B30008 + 0x40 * d = dieReg d 8 by unfold dieReg; omega]
    have head : s.writeReg 0 (dieReg d 8) v = s.setReg (dieReg d 8) (bits (s.reg (dieReg d 8)) 63 32 * 2 ^ 32 + bits v.toNat 31 0) :=
      (writeReg_die s d 8 v hd (by omega) rfl).trans (congrArg (s.setReg _) (setBits_low _ _ (reg_lt s _)))
    exact ⟨registerTakes_of_writeReg (writeReg_kdata s i v hi) v.isLt,
      registerTakes_of_writeReg (writeReg_die s d 0 v hd (by omega) rfl) (and_lt v _), registerTakes_of_writeReg head (high_low_lt _ _)⟩
  · have cap : bits v.toNat 15 0 < 2 ^ 16 := Nat.mod_lt _ (by decide)
    have rto : bits v.toNat 31 0 < 2 ^ 32 := Nat.mod_lt _ (by decide)
    have head : s.writeReg 0 elogp v = s.setReg elogp (bits (s.reg elogp) 63 32 * 2 ^ 32 + bits v.toNat 31 0) :=
      congrArg (s.setReg elogp) (setBits_low _ _ (reg_lt s elogp))
    obtain ⟨load, clear⟩ := exec_write_kcmd v s
    obtain ⟨dead, live⟩ := exec_write_fdead v s
    exact ⟨registerTakes_of_writeReg head (high_low_lt _ _), registerTakes_of_writeReg rfl (Nat.lt_of_le_of_lt Nat.and_le_left (reg_lt s estat)),
      registerTakes_of_writeReg rfl (by omega), registerTakes_of_writeReg rfl (by omega),
      exec_registerWrite_of_event rfl rfl (answers_xinvcWrite v), load, clear, dead, live⟩
  · exact ⟨fun hn => exec_registerWrite_of_event (writeReg_comm s n w v hn hw) rfl (answers_commConfigWrite n w v),
      fun hn => exec_registerWrite_of_event (writeReg_window s n w v hn hw) rfl (answers_exportWindowWrite n w v)⟩
  · rw [show 0x00B30010 + 0x40 * d = dieReg d 0x10 by unfold dieReg; omega, show 0x00400018 + 0x40 * c = coreReg c 0x18 by unfold coreReg; omega,
      show 0x00400008 + 0x40 * c = coreReg c 0x08 by unfold coreReg; omega, show 0x00800018 + 0x100 * i = stopReg i 0x18 by unfold stopReg; omega,
      show 0x00B10010 + 0x100 * t = ctxReg t 0x10 by unfold ctxReg; omega]
    obtain ⟨retry, fatal⟩ := exec_write_fresp v s d hd
    obtain ⟨halt, clear⟩ := exec_write_dbgctl v s c hc
    refine ⟨retry, fatal, ?_, ?_, halt, clear, ?_, ?_, ?_, ?_, ?_⟩
    · exact exec_registerWrite_of_event (e := execDbgownWrite c v) (writeReg_core s c 0 v hc (by omega) rfl) rfl fun _ => ⟨_, rfl⟩
    · exact exec_registerWrite_of_event (e := execDbginWrite c v) (writeReg_core s c 0x18 v hc (by omega) rfl) rfl fun _ => ⟨_, rfl⟩
    · exact exec_registerWrite_of_event (writeReg_queue s q 0 v hq (by omega) rfl) rfl (answers_qcfgWrite q v)
    · exact exec_registerWrite_of_event (e := execDdmodeWrite i v) (writeReg_stop s i 0x18 v hi (by omega) rfl) rfl fun _ => ⟨_, rfl⟩
    · exact exec_registerWrite_of_event (writeReg_ctx_pf s t 0 v ht (by omega) rfl) rfl (answers_tctlWrite t v)
    · exact exec_registerWrite_of_event (writeReg_ctx_pf s t 0x10 v ht (by omega) rfl) rfl (answers_tsubpTailWrite t v)
    · exact exec_registerWrite_of_event (writeReg_ctx s t 0x10 v ht (by omega) rfl) rfl (answers_tsubpTailWrite t v)
  · have closed (off : Nat) (h0 : 0 < t) (small : off < 0x100) (h8 : off % 8 = 0) : s.writeReg t (0x1000 + off) v = s.writeCtx t off v false := by
      rw [writeReg_ctx s t off v ht small h8, decide_eq_false (by omega)]
    refine ⟨fun off mask h => ?_, fun off mask h => ?_, fun h0 => ⟨congrArg Host.Outcome.next (closed 0 h0 (by omega) rfl),
      congrArg Host.Outcome.next (closed 0x20 h0 (by omega) rfl)⟩⟩
    · have known : off < 0x100 ∧ off % 8 = 0 := by
        simp only [List.mem_cons, Prod.mk.injEq, List.not_mem_nil, or_false] at h
        omega
      obtain ⟨small, h8⟩ := known
      exact ⟨registerTakes_of_writeReg ((writeReg_ctx s t off v ht small h8).trans (writeCtx_open s t v _ h)) (and_lt v mask),
        registerTakes_of_writeReg ((writeReg_ctx_pf s t off v ht small h8).trans (writeCtx_open s t v _ h)) (and_lt v mask)⟩
    · have known : off < 0x100 ∧ off % 8 = 0 := by
        simp only [List.mem_cons, Prod.mk.injEq, List.not_mem_nil, or_false] at h
        omega
      obtain ⟨small, h8⟩ := known
      obtain ⟨stored, ignored⟩ := writeCtx_pf s t v h
      exact ⟨registerTakes_of_writeReg ((writeReg_ctx_pf s t off v ht small h8).trans stored) (and_lt v mask),
        fun h0 => congrArg Host.Outcome.next ((closed off h0 small h8).trans ignored)⟩

end Sys2Proof.Machine
end

section
/-! From the bytes in memory to the instruction that a step executes (R8, R67, R93, R174, R204). -/

namespace Sys2Proof.Machine

open Sys2Proof Sys2Proof.Claims

/-- The team and the group of an issuer stand in the maps of the state. -/
theorem group?_some {s : State} {tid gix : Nat} {t : Team} {g : Group} (h : s.group? tid gix = some (t, g)) :
    mapGet? tid s.teams = some t ∧ mapGet? gix t.groups = some g := by
  unfold State.group? at h
  split at h
  · simp at h
  · split at h
    · simp at h
    · simp_all

/-- A group put back as it stands changes nothing. -/
theorem setGroup_self {s : State} {tid gix : Nat} {t : Team} {g : Group} (h : s.group? tid gix = some (t, g)) (hs : mapSorted t.groups = true) :
    s.setGroup tid gix g = s := by
  obtain ⟨ht, hg⟩ := group?_some h
  unfold State.setGroup
  rw [mapUpd_self ht (by rw [mapSet_self hs hg])]

/-- The bytes of words give each word back at its place. -/
theorem wordAt?_wordBytes (ws : List Word) (i : Nat) : wordAt? (wordBytes ws) i = ws[i]? := by
  have cons (w : Word) (ws : List Word) : wordBytes (w :: ws) = toBytes w.toNat 4 ++ wordBytes ws := rfl
  induction ws generalizing i with
  | nil => simp [wordAt?, wordBytes]
  | cons w ws ih =>
    cases i with
    | zero =>
      unfold wordAt?
      rw [cons, Nat.mul_zero, List.drop_zero, List.take_append_of_le_length (by simp), List.take_of_length_le (by simp)]
      simp [ofBytes_wordBytes]
    | succ i =>
      have step : wordAt? (wordBytes (w :: ws)) (i + 1) = wordAt? (wordBytes ws) i := by
        unfold wordAt?
        rw [cons, List.drop_append, List.drop_eq_nil_of_le (by rw [length_toBytes]; omega), List.nil_append, length_toBytes, show 4 * (i + 1) - 4 = 4 * i by omega]
      rw [step, ih, List.getElem?_cons_succ]

/-- Words that name no operation decode to no instruction (R92, R93). -/
theorem opOf_inl_ne_ok {w x : Word} {d : Decoded} (h : opOf w x = .inl d) (i : Instr) (n : Nat) : d ≠ .ok i n := by
  unfold opOf at h
  split at h
  · cases h
    simp
  · split at h
    · cases h
      simp
    · cases h

/-- What decoding calls the length of an instruction is the number of words that are fetched for it (R93). -/
theorem wordCount_of_decodeWords {w x t : Word} {i : Instr} {n : Nat} (h : decodeWords w x t = .ok i n) : wordCount w x = n := by
  unfold decodeWords at h
  split at h
  · rename_i d hd
    exact absurd h (opOf_inl_ne_ok hd i n)
  · split at h
    · cases h
    · cases h
      rfl

/-- The words counted are those of the form, or one more (R77, R88). -/
theorem wordCount_cases (w x : Word) :
    wordCount w x = (if bit w.toNat 30 then 2 else 1) ∨ wordCount w x = (if bit w.toNat 30 then 2 else 1) + 1 := by
  simp only [wordCount]
  split
  · exact .inl rfl
  · split
    · exact .inr rfl
    · exact .inl rfl

/-- Bytes that stand at an address are what a fetch of it delivers (R95). -/
theorem fetchWord_of_bytesAt {s s' : State} {t : Team} {c va : Nat} {w : Word} (h : BytesAt s s' t c va w) :
    s.fetchWord c t.cfg.ctx t.cfg.launch va = (s', .ok w) := by
  obtain ⟨room, s1, p, bs, walk, there, word, after⟩ := h
  have value : ofBytes (bs.map (·.1)) = w.toNat := by rw [word, ofBytes_toBytes _ _ w.isLt]
  unfold State.fetchWord
  rw [show dieOf (coreStop c) = dieOf c from rfl, room, walk]
  simp only [there, value, Bool.false_eq_true, if_false]
  have force_eq (f : Nat → State × Except (Option (Nat × WalkFault)) Word) : force w.toNat f = f w.toNat := by
    unfold force; split <;> simp_all
  rw [force_eq, BitVec.ofNat_toNat, BitVec.setWidth_eq]
  by_cases hbm : spaceOf p.pa = .hbm
  · rw [if_neg (by simp [hbm])]
    rw [if_pos hbm] at after
    cases cached : s1.codeLine c t.cfg.launch p with
    | none =>
      simp only [cached] at after ⊢
      rw [after]
    | some l =>
      simp only [cached] at after ⊢
      obtain ⟨same, old⟩ := after
      rw [if_pos old, same]
  · rw [if_pos hbm]
    rw [if_neg hbm] at after
    rw [after]

/-- The instruction that three words decode to is the one a fetch delivers, when as many of them stand in memory as it has (R93). -/
theorem fetchInstr_of_decode {s s1 s2 s3 : State} {t : Team} {c pc : Nat} {w0 w1 w2 : Word} {i : Instr} {n : Nat}
    (h0 : BytesAt s s1 t c pc w0) (h1 : if 2 ≤ n then BytesAt s1 s2 t c (pc + 4) w1 else s2 = s1)
    (h2 : if 3 ≤ n then BytesAt s2 s3 t c (pc + 8) w2 else s3 = s2) (hd : decode (wordBytes [w0, w1, w2]) = .ok i n) :
    s.fetchInstr c t.cfg.ctx t.cfg.launch pc = (s3, .ok i n) := by
  simp only [decode, wordAt?_wordBytes, List.getElem?_cons_zero, List.getElem?_cons_succ] at hd
  simp only [State.fetchInstr, fetchWord_of_bytesAt h0]
  cases long : bit w0.toNat 30 with
  | false =>
    simp only [long, Bool.false_eq_true, if_false] at hd ⊢
    rcases wordCount_cases w0 shortExt with count | count <;> simp only [long, Bool.false_eq_true, if_false] at count
    · simp only [count, if_true] at hd ⊢
      obtain rfl : 1 = n := count.symm.trans (wordCount_of_decodeWords hd)
      simp only [Nat.reduceLeDiff, if_false] at h1 h2
      rw [h2, h1, hd]
      rfl
    · simp only [count, Nat.reduceAdd, Nat.reduceEqDiff, if_false, Nat.reduceSub, List.getElem?_cons_succ, List.getElem?_cons_zero,
        Nat.reduceMul] at hd ⊢
      obtain rfl : 2 = n := count.symm.trans (wordCount_of_decodeWords hd)
      simp only [Nat.le_refl, Nat.reduceLeDiff, if_true, if_false] at h1 h2
      simp only [fetchWord_of_bytesAt h1, hd, h2, ofDecoded]
  | true =>
    simp only [long, if_true] at hd ⊢
    rcases wordCount_cases w0 w1 with count | count <;> simp only [long, if_true] at count
    · simp only [count, if_true] at hd
      obtain rfl : 2 = n := count.symm.trans (wordCount_of_decodeWords hd)
      simp only [Nat.le_refl, Nat.reduceLeDiff, if_true, if_false] at h1 h2
      simp only [fetchWord_of_bytesAt h1, count, if_true]
      rw [h2, hd]
      rfl
    · simp only [count, Nat.reduceAdd, Nat.reduceEqDiff, if_false, Nat.reduceSub, List.getElem?_cons_succ, List.getElem?_cons_zero] at hd
      obtain rfl : 3 = n := count.symm.trans (wordCount_of_decodeWords hd)
      simp only [Nat.le_refl, Nat.reduceLeDiff, if_true] at h1 h2
      simp only [fetchWord_of_bytesAt h1, count, Nat.reduceAdd, Nat.reduceEqDiff, if_false, Nat.reduceMul]
      simp only [fetchWord_of_bytesAt h2, hd, ofDecoded]

/-- A group whose current fragment is ready stays as it is before an issue (R67). -/
theorem settle_self {g : Group} {f : Frag} {clock : Nat} (hf : mapGet? g.cur g.frags = some f) (hr : f.ready = true) : g.settle clock = g := by
  unfold Group.settle
  split
  · rfl
  · simp [hf, hr]

/-- A group that is about to issue comes to the instruction that its fragment's program counter leads to (R67, R204, R410). -/
theorem prep_of_fetch {s s0 s3 : State} {iss : Issuer} {t : Team} {g : Group} {f : Frag} {c n : Nat} {i : Instr} (h : AtIssue s s0 iss t g f c)
    (hf : s0.fetchInstr c t.cfg.ctx t.cfg.launch f.pc.toNat = (s3, .ok i n)) : s0.prep iss.team iss.gix = .run i { s3 with cur := some iss } := by
  obtain ⟨frozen, parked⟩ := h.runs
  obtain ⟨ready, wait⟩ := h.ready
  obtain ⟨halt, trap⟩ := h.calm
  have stays : g.settle s0.clock = g := settle_self (h.cur ▸ h.frag) ready
  have quantum : ¬(g.issued ≥ g.quantum ∧ g.clause.isNone = true) := by
    rintro ⟨spent, noClause⟩
    rcases h.quantum with q | q
    · omega
    · simp_all
  have watch : (if (g.handler.isSome || f.exempt) = true then none else g.sp.hit f.pc) = none := by
    rcases h.watch with w | w | w <;> simp [w]
  simp only [State.prep, h.group, h.core, frozen, parked, Bool.or_self, Bool.false_eq_true, if_false, stays, if_neg quantum,
    setGroup_self h.group h.sorted, h.cur, h.frag, ready, Bool.not_true, trap, Option.isNone_none, halt, wait, ne_eq, not_true_eq_false, and_false]
  simp only [State.prepFrag, halt, Bool.false_eq_true, if_false, trap, h.address, hf, watch]

/-- The step of a machine whose next move is the issue of a group executes what the group comes to, and leaves no mark of the issuer (R174). -/
theorem step_of_prep {s s0 s3 : State} {iss : Issuer} {t : Team} {g : Group} {f : Frag} {c : Nat} {i : Instr} (h : AtIssue s s0 iss t g f c)
    (hp : s0.prep iss.team iss.gix = .run i s3) : step s = clearCur (exec i s3) := by
  obtain ⟨ms, sched, rest⟩ := h.move
  have acts : (s.inReset && !(Move.issue iss.team iss.gix).resets) = false := by rw [h.up, Bool.false_and]
  unfold step State.stepWith
  rw [sched]
  simp only [acts, Bool.false_eq_true, if_false]
  rw [← rest]
  simp only [State.move, h.selected, if_true, State.issue, hp]

/-- Settles O40: fetch and decoding agree, and nothing else stands between the program counter and the execution. -/
theorem stepRunsTheDecodedInstruction : Obligations.StepRunsTheDecodedInstruction := by
  refine ⟨fun s s0 s1 s2 s3 iss t g f c w0 w1 w2 i n h h0 h1 h2 hd => ?_, fun s s' i ms sched up he => ?_, fun s m ms down sched other => ?_,
    fun s down sched => ?_⟩
  · have run : step s = clearCur (exec i { s3 with cur := some iss }) := step_of_prep h (prep_of_fetch h (fetchInstr_of_decode h0 h1 h2 hd))
    exact ⟨fun s' he => by rw [run, he]; rfl, fun r he => by rw [run, he]; rfl, fun r he => by rw [run, he]; rfl⟩
  · have acts : (s.inReset && !(Move.event i).resets) = false := by
      rcases up with up | rfl
      · simp [up]
      · simp [Move.resets]
    unfold step State.stepWith
    rw [sched]
    simp only [acts, Bool.false_eq_true, if_false, State.move, he]
    rfl
  · unfold step State.stepWith
    rw [sched]
    simp [down, Move.resets, other]
  · unfold step State.stepWith
    rw [sched]
    simp [down]

end Sys2Proof.Machine
end

section
/-! The write of the host through BAR2 (R453), and a line that the L1 of a core lists twice. -/

namespace Sys2Proof.Machine

open Sys2Proof Sys2Proof.Claims

/-- The first line of HBM under key ID 0. -/
def firstLine : Place := ⟨0, 0, false, 0, 0⟩

/-- A line of ones without poison. -/
def onesLine : Line := ⟨List.replicate 128 1#8, 0#32⟩

/-- A partial of RED that adds 1 to the first element of its line (R183). -/
def addOne : Partial := ⟨0, false, 1#32, 1#32 :: List.replicate 31 0#32, 0#32, [], none⟩

/-- The first line stands alone at its home; core 0 lists it twice in its L1, first in V, then in UO with a partial. -/
def listedTwice : State :=
  { State.reset with
    slices := [(0, { Slice.reset with tags := [(0, ⟨0, some 0, false, false, none, false, false⟩)], entries := [(0, ⟨onesLine, 1, 0, true⟩)] })]
    cores := [(0, { Core.reset with l1 := [(0, ⟨firstLine, .v onesLine⟩), (0, ⟨firstLine, .uo addOne⟩)] })] }

/-- The copy in V hides the partial: the line counts as one that no core holds. -/
theorem alone_listedTwice : Alone listedTwice firstLine onesLine :=
  ⟨rfl, by decide +kernel, List.length_replicate, by simp [listedTwice, State.reset], 0, false, false, none, false, true, rfl, rfl⟩

/-- The first byte of the first line, as a coherent reader sees it after an event. -/
def firstByteAfter (o : Out) : Option Byte :=
  match o with
  | .next s => (s.peekLine firstLine).bytes.head?
  | _ => none

/-- The write drops the copy in V, which uncovers the partial: of the byte 2 that the host wrote a reader sees 3. -/
theorem firstByte_after_write : firstByteAfter (exec (.bar2HostAccess (.write 0 0 [2#8])) listedTwice) = some 3#8 := by decide +kernel

/-- Refutes O32: its clause of the host's write asks of the L1s only that a recall would bring in no partial (`Alone`), and, unlike the statement of a
core's recalls, not that an L1 lists its lines in order, each once. In the state `listedTwice` the V copy that the write drops (R322) stands before
a UO copy of the same line, whose partial then reaches the reader. -/
theorem not_packageEvents : ¬ Obligations.PackageEvents := by
  rintro ⟨-, -, -, -, bar2, -⟩
  obtain ⟨-, -, within⟩ := bar2 0 0 1 [2#8] listedTwice
  have unowned : ∀ t, mapGet? (0 / 128) (listedTwice.slice (listedTwice.homeOf firstLine)).tags = some t → t.w = none := by
    intro t ht
    obtain rfl : (⟨0, some 0, false, false, none, false, false⟩ : Tag) = t := Option.some.inj ht
    rfl
  obtain ⟨-, s', write, -, -, bytes⟩ := within onesLine firstLine rfl alone_listedTwice unowned rfl (by decide) rfl (by decide) (by decide +kernel)
  have seen := firstByte_after_write
  rw [write] at seen
  simp [firstByteAfter, bytes] at seen

end Sys2Proof.Machine
end

section
/-! The floating-point, packed and converting instructions of the lane set, where each source lists its 32 lanes: results, flags, draws, and the
frame (R83, R131, R136 to R145, R156 to R160). -/

namespace Sys2Proof.Machine

open Sys2Proof Sys2Proof.Claims

/-- The sources A, B and C of an instruction list an element for each of the 32 lanes (R49). -/
def FullSources (g : Group) (x : Args) : Prop := ∀ ty, ∀ f ∈ [x.a, x.b, x.c], (g.srcV ty f).length = 32

/-- It is enough that each vector register that is listed, and each latch that a source names, holds 32 elements. -/
theorem fullSources_of_listed {g : Group} {x : Args} (regs : ∀ p ∈ g.v, p.2.length = 32)
    (latches : ∀ i, .bl i ∈ [x.a, x.b, x.c] → (latchAt g.bl i.toNat).lo.length = 32) : FullSources g x := by
  intro ty f hf
  cases f with
  | v n =>
    simp only [Group.srcV, Group.vreg, mapGetD]
    cases found : mapGet? n.toNat g.v with
    | none => rfl
    | some xs => exact regs _ (mem_of_mapGet? found)
  | bl i => exact latches i hf
  | _ => rfl

/-- A lane instruction with one 32-bit result: in each active lane the value, or poison; FLAGS gathers the flags of the lanes that are not poisoned,
RNGSTATE steps where the instruction drew, and nothing else changes. -/
def LaneResult (g : Group) (x : Args) (act : Mask) (bad : Nat → Bool) (r : Nat → Nat × Nat) (drew : Bool) (h : Group) : Prop :=
  LaneWrote g h x.d act (fun l => if bad l then none else some (r l).1) ∧ LaneFrame g h ∧ h.p = g.p ∧
    SpecialAfter g h (unionFlags act fun l => if bad l then 0 else (r l).2) drew

/-! ### Sources under their modifiers -/

theorem laneAt_map {xs : Lanes} {f : Elem → Elem} {l : Nat} (h : l < xs.length) : laneAt (xs.map f) l = f (laneAt xs l) := by
  simp [laneAt, List.getD_eq_getElem?_getD, h]

/-- A sign bit that is set or cleared, or changed, leaves the value within its width. -/
theorem flipBit_lt {k y : Nat} (h : y < 2 ^ (k + 1)) : (if y.testBit k then y - 2 ^ k else y + 2 ^ k) < 2 ^ (k + 1) := by
  rw [Nat.pow_succ] at *
  split
  · omega
  · next clear =>
    have below : y < 2 ^ k := by
      refine Nat.lt_of_not_le fun above => clear ?_
      have one : y / 2 ^ k = 1 := Nat.div_eq_of_lt_le (by omega) (by omega)
      rw [Nat.testBit_eq_decide_div_mod_eq, one]
      rfl
    omega

/-- The modifiers change the sign bit alone: the value keeps its width (R83). -/
theorem srcMod_lt {abs neg : Bool} {k x : Nat} (h : x < 2 ^ (k + 1)) : srcMod abs neg k x < 2 ^ (k + 1) := by
  have cleared : (if abs then (if x.testBit k then x - 2 ^ k else x) else x) < 2 ^ (k + 1) := by
    split
    · split <;> omega
    · exact h
  unfold srcMod
  cases neg with
  | false => exact cleared
  | true => exact flipBit_lt cleared

theorem srcF_lt (x : Args) (k : Nat) (a : Word) : srcF x k a < 2 ^ 32 := srcMod_lt a.isLt

section
variable {e : Env} {l : Nat} (full : FullSources e.g e.x) (hl : l < 32)
include full hl

theorem laneAt_fa :
    laneAt e.fa l = ⟨BitVec.ofNat 32 (srcF e.x 0 (laneAt (e.g.srcV .fp32 e.x.a) l).val), (laneAt (e.g.srcV .fp32 e.x.a) l).pois⟩ :=
  laneAt_map (by rw [full _ _ (by simp)]; exact hl)

theorem laneAt_fb :
    laneAt e.fb l = ⟨BitVec.ofNat 32 (srcF e.x 1 (laneAt (e.g.srcV .fp32 e.x.b) l).val), (laneAt (e.g.srcV .fp32 e.x.b) l).pois⟩ :=
  laneAt_map (by rw [full _ _ (by simp)]; exact hl)

theorem laneAt_fc :
    laneAt e.fc l = ⟨BitVec.ofNat 32 (srcF e.x 2 (laneAt (e.g.srcV .fp32 e.x.c) l).val), (laneAt (e.g.srcV .fp32 e.x.c) l).pois⟩ :=
  laneAt_map (by rw [full _ _ (by simp)]; exact hl)

end

@[simp] theorem nat_srcF (x : Args) (k : Nat) (a : Word) (p : Bool) : Elem.nat ⟨BitVec.ofNat 32 (srcF x k a), p⟩ = srcF x k a := by
  rw [Elem.nat, BitVec.toNat_ofNat, Nat.mod_eq_of_lt (srcF_lt x k a)]

/-! ### Completion -/

/-- Where the meaning of an instruction makes one result in each active lane, the instruction completes with these results. -/
theorem laneStep_completes {i : Instr} {o : Op} {x : Args} {s : State} {iss : Issuer} {t : Team} {g : Group} {f : Frag} (h : Issues o x s iss t g f)
    (hs : g.stepping = none) (hok : badAddr (afterOf x f) = false) {body : Env → Except Stop (Group × Ctl)} {sr : Bool} {fn : Nat → LaneRes}
    {bad : Nat → Bool} {r : Nat → Nat × Nat} (he : exec i s = runG o x s body)
    (hb : body (groupEnv o x s iss t g f) = .ok (laneStep (groupEnv o x s iss t g f) sr fn, .seq))
    (hr : ∀ l, l < 32 → fn l = ⟨(r l).1, bad l, (r l).2⟩) :
    Completes i s iss f (afterOf x f)
      (LaneResult g x (activeOf o x g f) bad r (sr && decide (rndOf x = .sr) && decide (activeOf o x g f ≠ 0#32))) := by
  obtain ⟨wrote, frame, preds, step, frags, special⟩ := laneStep_spec (groupEnv o x s iss t g f) sr fn
  rw [gatherFlags_eq _ _ (fun l => if bad l then 0 else (r l).2) fun l hl _ => by rw [hr l hl]] at special
  refine runG_seq h hs hok he hb step frags fun h' same => ?_
  exact ⟨(wrote.after same).congr rfl rfl rfl rfl fun l hl => by rw [hr l hl], frame.after same, same.p.trans preds, special.after same⟩

/-- The same of an instruction in the frame `runLane`, whose meaning m is. -/
theorem lane_completes {i : Instr} {o : Op} {x : Args} {s : State} {iss : Issuer} {t : Team} {g : Group} {f : Frag} (h : Issues o x s iss t g f)
    (hs : g.stepping = none) (hok : badAddr (afterOf x f) = false) {m : Out} {sr : Bool} {fn : Env → Nat → LaneRes} {bad : Nat → Bool}
    {r : Nat → Nat × Nat} (he : exec i s = m) (hm : m = runLane o x s sr fn)
    (hr : ∀ l, l < 32 → fn (groupEnv o x s iss t g f) l = ⟨(r l).1, bad l, (r l).2⟩) :
    Completes i s iss f (afterOf x f)
      (LaneResult g x (activeOf o x g f) bad r (sr && decide (rndOf x = .sr) && decide (activeOf o x g f ≠ 0#32))) :=
  laneStep_completes h hs hok (he.trans hm) rfl hr

section
variable {i : Instr} {o : Op} {x : Args} {s : State} {iss : Issuer} {t : Team} {g : Group} {f : Frag} (h : Issues o x s iss t g f)
  (hs : g.stepping = none) (hok : badAddr (afterOf x f) = false) (full : FullSources g x)
include h hs hok full

/-- FP32 instructions of one, two and three sources (R131). -/
theorem fp1_completes {fn : Env → Nat → Nat → Nat × Nat} {m : Out} (he : exec i s = m)
    (hm : m = runLane o x s (drawsRng o) fun e => fp1 e (fn e)) {r : Nat → Nat × Nat}
    (hr : ∀ l, fn (groupEnv o x s iss t g f) l (srcF x 0 (laneAt (g.srcV .fp32 x.a) l).val) = r l) :
    Completes i s iss f (afterOf x f) (LaneResult g x (activeOf o x g f) (srcPois g .fp32 .fp32 .fp32 x 1)
      (fun l => (satF x (r l).1, (r l).2)) (stepsRng o x (activeOf o x g f))) := by
  refine lane_completes h hs hok he hm fun l hl => ?_
  have a := laneAt_fa (e := groupEnv o x s iss t g f) full hl
  simp only [fp1, a, nat_srcF, srcPois, Nat.reduceLeDiff, decide_false, Bool.false_and, Bool.or_false, ← hr]
  rfl

theorem fp2_completes {fn : Env → Nat → Nat → Nat → Nat × Nat} {m : Out} (he : exec i s = m)
    (hm : m = runLane o x s (drawsRng o) fun e => fp2 e (fn e)) {r : Nat → Nat × Nat}
    (hr : ∀ l, fn (groupEnv o x s iss t g f) l (srcF x 0 (laneAt (g.srcV .fp32 x.a) l).val) (srcF x 1 (laneAt (g.srcV .fp32 x.b) l).val) = r l) :
    Completes i s iss f (afterOf x f) (LaneResult g x (activeOf o x g f) (srcPois g .fp32 .fp32 .fp32 x 2)
      (fun l => (satF x (r l).1, (r l).2)) (stepsRng o x (activeOf o x g f))) := by
  refine lane_completes h hs hok he hm fun l hl => ?_
  have a := laneAt_fa (e := groupEnv o x s iss t g f) full hl
  have b := laneAt_fb (e := groupEnv o x s iss t g f) full hl
  simp only [fp2, a, b, nat_srcF, srcPois, Nat.reduceLeDiff, decide_false, decide_true, Bool.false_and, Bool.true_and, Bool.or_false, ← hr]
  rfl

theorem fp3_completes {fn : Env → Nat → Nat → Nat → Nat → Nat × Nat} {m : Out} (he : exec i s = m)
    (hm : m = runLane o x s (drawsRng o) fun e => fp3 e (fn e)) {r : Nat → Nat × Nat}
    (hr : ∀ l, fn (groupEnv o x s iss t g f) l (srcF x 0 (laneAt (g.srcV .fp32 x.a) l).val) (srcF x 1 (laneAt (g.srcV .fp32 x.b) l).val)
      (srcF x 2 (laneAt (g.srcV .fp32 x.c) l).val) = r l) :
    Completes i s iss f (afterOf x f) (LaneResult g x (activeOf o x g f) (srcPois g .fp32 .fp32 .fp32 x 3)
      (fun l => (satF x (r l).1, (r l).2)) (stepsRng o x (activeOf o x g f))) := by
  refine lane_completes h hs hok he hm fun l hl => ?_
  have a := laneAt_fa (e := groupEnv o x s iss t g f) full hl
  have b := laneAt_fb (e := groupEnv o x s iss t g f) full hl
  have c := laneAt_fc (e := groupEnv o x s iss t g f) full hl
  simp only [fp3, a, b, c, nat_srcF, srcPois, Nat.le_refl, Nat.reduceLeDiff, decide_true, Bool.true_and, ← hr]
  rfl

end

/-- An instruction that splits into an operation and its operand fields is made of them. -/
theorem eq_mk_of_split {i : Instr} {o : Op} {x : Args} (h : i.split = some (o, x)) : i = o.mk x := by
  cases i <;> cases h <;> rfl

/-- The modifiers leave the bits below the sign bit. -/
theorem srcMod_mod (abs neg : Bool) (k x : Nat) : srcMod abs neg k x % 2 ^ k = x % 2 ^ k := by
  have sub : ∀ y : Nat, y.testBit k = true → (y - 2 ^ k) % 2 ^ k = y % 2 ^ k :=
    fun y set => (Nat.mod_eq_sub_mod (Nat.ge_two_pow_of_testBit set)).symm
  have cleared : (if abs then (if x.testBit k then x - 2 ^ k else x) else x) % 2 ^ k = x % 2 ^ k := by
    split
    · split
      · next set => exact sub x set
      · rfl
    · rfl
  have flipped : ∀ y : Nat, (if y.testBit k then y - 2 ^ k else y + 2 ^ k) % 2 ^ k = y % 2 ^ k := by
    intro y
    split
    · next set => exact sub y set
    · exact Nat.add_mod_right y (2 ^ k)
  unfold srcMod
  cases neg with
  | false => exact cleared
  | true => exact (flipped _).trans cleared

/-- Whether a pattern is a NaN, and of which kind, is said by the bits below its sign (R22). -/
theorem unpack_eq_nan_of_mod_eq {f : FSpec} {x y : Nat} {q : Bool} (one : 1 ≤ f.p) (hp : f.p < f.width)
    (low : x % 2 ^ (f.width - 1) = y % 2 ^ (f.width - 1))
    (h : f.unpack x = .nan q) : f.unpack y = .nan q := by
  have agree : ∀ j, j < f.width - 1 → x.testBit j = y.testBit j := by
    intro j hj
    simpa [Nat.testBit_mod_two_pow, hj] using congrArg (Nat.testBit · j) low
  have frac : x % 2 ^ (f.p - 1) = y % 2 ^ (f.p - 1) := Nat.eq_of_testBit_eq fun j => by
    by_cases hj : j < f.p - 1
    · simp [Nat.testBit_mod_two_pow, hj, agree j (by omega)]
    · simp [Nat.testBit_mod_two_pow, hj]
  have ex : bits x (f.width - 2) (f.p - 1) = bits y (f.width - 2) (f.p - 1) := Nat.eq_of_testBit_eq fun j => by
    by_cases hj : j < f.width - 2 + 1 - (f.p - 1)
    · simp [bits, Nat.testBit_mod_two_pow, hj, agree (f.p - 1 + j) (by omega)]
    · simp [bits, Nat.testBit_mod_two_pow, hj]
  simp only [FSpec.unpack, frac, ex] at h ⊢
  (repeat' split at h) <;> simp_all

/-- FSUB adds its second source with the sign changed, of a NaN too (R136). -/
theorem add_flip_of_nan {b : Nat} {q : Bool} (h : fp32.unpack b = .nan q) (mode : Rnd) (draw a : Nat) :
    fp32.add mode draw a b = fp32.add mode draw a (fp32.flip b) := by
  have flipped : fp32.unpack (fp32.flip b) = .nan q := unpack_eq_nan_of_mod_eq (by decide) (by decide) (srcMod_mod false true 31 b).symm h
  simp only [FSpec.add, h, flipped]

/-- What `Claims.LaneFloatResultsHold` says, of sources that list their lanes. -/
theorem laneFloat_completes {i : Instr} {o : Op} {x : Args} {s : State} {iss : Issuer} {t : Team} {g : Group} {f : Frag} {n : Nat}
    {fn : Nat → Word → Word → Word → Nat × Nat} (hi : i.split = some (o, x)) (hf : laneFloat o x = some (n, fn)) (h : Issues o x s iss t g f)
    (hs : g.stepping = none) (hok : badAddr (afterOf x f) = false) (full : FullSources g x) :
    let tb : CTy := if o = .fldexp then .int else .fp32
    let r (l : Nat) : Nat × Nat := fn (drawOf g.sp.rngstate.toNat l 0) (laneAt (g.srcV .fp32 x.a) l).val (laneAt (g.srcV tb x.b) l).val
      (laneAt (g.srcV .fp32 x.c) l).val
    Completes i s iss f (afterOf x f) (LaneResult g x (activeOf o x g f) (srcPois g .fp32 tb .fp32 x n)
      (fun l => (satF x (r l).1, (r l).2)) (stepsRng o x (activeOf o x g f))) := by
  intro tb r
  obtain rfl := eq_mk_of_split hi
  unfold laneFloat at hf
  split at hf <;> cases hf
  case h_1 => exact fp2_completes (i := .fadd x) (m := execFadd x s) h hs hok full rfl rfl fun _ => rfl
  case h_2 =>
    refine fp2_completes (i := .fsub x) (m := execFsub x s) h hs hok full rfl rfl fun l => ?_
    split
    · next nan => exact add_flip_of_nan nan _ _ _
    · rfl
  case h_3 => exact fp2_completes (i := .fmul x) (m := execFmul x s) h hs hok full rfl rfl fun _ => rfl
  case h_4 => exact fp3_completes (i := .ffma x) (m := execFfma x s) h hs hok full rfl rfl fun _ => rfl
  case h_5 => exact fp2_completes (i := .fmin x) (m := execFmin x s) h hs hok full rfl rfl fun _ => rfl
  case h_6 => exact fp2_completes (i := .fmax x) (m := execFmax x s) h hs hok full rfl rfl fun _ => rfl
  case h_7 => exact fp1_completes (i := .frnd x) (m := execFrnd x s) h hs hok full rfl rfl fun _ => rfl
  case h_8 => exact fp1_completes (i := .ffrc x) (m := execFfrc x s) h hs hok full rfl rfl fun _ => rfl
  case h_9 => exact fp1_completes (i := .fclass x) (m := execFclass x s) h hs hok full rfl rfl fun _ => rfl
  case h_10 => exact fp1_completes (i := .frcp x) (m := execFrcp x s) h hs hok full rfl rfl fun _ => rfl
  case h_11 => exact fp1_completes (i := .frsq x) (m := execFrsq x s) h hs hok full rfl rfl fun _ => rfl
  case h_12 => exact fp1_completes (i := .fsqrt x) (m := execFsqrt x s) h hs hok full rfl rfl fun _ => rfl
  case h_13 => exact fp1_completes (i := .fexp2 x) (m := execFexp2 x s) h hs hok full rfl rfl fun _ => rfl
  case h_14 => exact fp1_completes (i := .flog2 x) (m := execFlog2 x s) h hs hok full rfl rfl fun _ => rfl
  case h_15 => exact fp1_completes (i := .fsin x) (m := execFsin x s) h hs hok full rfl rfl fun _ => rfl
  case h_16 => exact fp1_completes (i := .fcos x) (m := execFcos x s) h hs hok full rfl rfl fun _ => rfl
  case h_17 =>
    refine lane_completes (i := .fldexp x) (m := execFldexp x s) h hs hok rfl rfl fun l hl => ?_
    have a := laneAt_fa (e := groupEnv .fldexp x s iss t g f) full hl
    simp only [a, nat_srcF, srcPois, Nat.reduceLeDiff, decide_false, decide_true, Bool.false_and, Bool.true_and, Bool.or_false]
    rfl

/-! ### Packed instructions -/

/-- The modifiers of a packed source act on each of its elements (R83, R144). -/
theorem half_packedMod (abs neg : Bool) (a : Word) (p : Bool) {j : Nat} (hj : j < 2) :
    half (Elem.nat ⟨BitVec.ofNat 32 (packedMod abs neg a.toNat), p⟩) j = srcMod abs neg 15 (a.extractLsb' (16 * j) 16).toNat := by
  have word := a.isLt
  have low : srcMod abs neg 15 (a.toNat % 65536) < 2 ^ 16 := srcMod_lt (Nat.mod_lt _ (by decide))
  have high : srcMod abs neg 15 (a.toNat / 65536) < 2 ^ 16 := srcMod_lt (by omega)
  obtain rfl | rfl : j = 0 ∨ j = 1 := by omega
  · have part : (a.extractLsb' (16 * 0) 16).toNat = a.toNat % 65536 := by simp
    rw [part, half, bits, Elem.nat, BitVec.toNat_ofNat, packedMod, Nat.shiftRight_eq_div_pow]
    omega
  · have part : (a.extractLsb' (16 * 1) 16).toNat = a.toNat / 65536 := by
      rw [BitVec.extractLsb'_toNat, Nat.shiftRight_eq_div_pow]
      omega
    rw [part, half, bits, Elem.nat, BitVec.toNat_ofNat, packedMod, Nat.shiftRight_eq_div_pow]
    omega

section
variable {e : Env} {ty : CTy} {l : Nat} (full : FullSources e.g e.x) (hl : l < 32)
include full hl

/-- A packed source is poisoned as its register is, and its elements are those of the register under the modifiers (R144). -/
theorem laneAt_pa : (laneAt (e.pa ty) l).pois = (laneAt (e.g.srcV ty e.x.a) l).pois ∧
    ∀ j, j < 2 → half (laneAt (e.pa ty) l).nat j = srcH e.x 0 j (laneAt (e.g.srcV ty e.x.a) l).val := by
  have entry : laneAt (e.pa ty) l = _ := laneAt_map (by rw [full _ _ (by simp)]; exact hl)
  exact entry ▸ ⟨rfl, fun _ => half_packedMod _ _ _ _⟩

theorem laneAt_pb : (laneAt (e.pb ty) l).pois = (laneAt (e.g.srcV ty e.x.b) l).pois ∧
    ∀ j, j < 2 → half (laneAt (e.pb ty) l).nat j = srcH e.x 1 j (laneAt (e.g.srcV ty e.x.b) l).val := by
  have entry : laneAt (e.pb ty) l = _ := laneAt_map (by rw [full _ _ (by simp)]; exact hl)
  exact entry ▸ ⟨rfl, fun _ => half_packedMod _ _ _ _⟩

theorem laneAt_pc' : (laneAt (e.pc' ty) l).pois = (laneAt (e.g.srcV ty e.x.c) l).pois ∧
    ∀ j, j < 2 → half (laneAt (e.pc' ty) l).nat j = srcH e.x 2 j (laneAt (e.g.srcV ty e.x.c) l).val := by
  have entry : laneAt (e.pc' ty) l = _ := laneAt_map (by rw [full _ _ (by simp)]; exact hl)
  exact entry ▸ ⟨rfl, fun _ => half_packedMod _ _ _ _⟩

end

/-- The result of a packed instruction from the results of its elements (R28, R144). -/
def packedResult (sp : FSpec) (sat : Bool) (r : Nat → Nat × Nat) : Nat × Nat :=
  let clamp (v : Nat) : Nat := if sat then sp.sat01 v else v
  (clamp (r 0).1 + 65536 * clamp (r 1).1, (r 0).2 ||| (r 1).2)

section
variable {i : Instr} {o : Op} {x : Args} {s : State} {iss : Issuer} {t : Team} {g : Group} {f : Frag} (h : Issues o x s iss t g f)
  (hs : g.stepping = none) (hok : badAddr (afterOf x f) = false) (full : FullSources g x)
include h hs hok full

/-- Packed instructions of two sources, elements apart (R145). -/
theorem packed2_completes {fn : FSpec → Nat → Nat → Nat → Nat × Nat} {m : Out} (he : exec i s = m)
    (hm : m = runLane o x s (drawsRng o) fun e => packed2 e fn) {sp : FSpec} {ty : CTy} (slot : packedFmt t.cfg.fs x = (sp, ty))
    {r : Nat → Nat → Nat × Nat}
    (hr : ∀ l j, fn sp (drawOf g.sp.rngstate.toNat l j) (srcH x 0 j (laneAt (g.srcV ty x.a) l).val)
      (srcH x 1 j (laneAt (g.srcV ty x.b) l).val) = r l j) :
    Completes i s iss f (afterOf x f) (LaneResult g x (activeOf o x g f) (srcPois g ty ty ty x 2) (fun l => packedResult sp x.sat (r l))
      (stepsRng o x (activeOf o x g f))) := by
  refine lane_completes h hs hok he hm fun l hl => ?_
  obtain ⟨poisA, a⟩ := laneAt_pa (e := groupEnv o x s iss t g f) (ty := ty) full hl
  obtain ⟨poisB, b⟩ := laneAt_pb (e := groupEnv o x s iss t g f) (ty := ty) full hl
  have spec : packedSpec (groupEnv o x s iss t g f) = (sp, ty) := slot
  simp only [packed2, spec, poisA, poisB, a, b, Nat.reduceLT, srcPois, Nat.reduceLeDiff, decide_false, decide_true, Bool.false_and, Bool.true_and,
    Bool.or_false, packedResult, ← hr]
  rfl

/-- What `Claims.LanePackedResultsHold` says of the packed instructions but PDOT2, of sources that list their lanes. -/
theorem packedOp_completes {n : Nat} {fn : FSpec → Rnd → Nat → Nat → Nat → Nat → Nat × Nat} (hi : i.split = some (o, x))
    (hf : packedOp o = some (n, fn)) :
    let sp := (packedFmt t.cfg.fs x).1
    let ty := (packedFmt t.cfg.fs x).2
    let r (l j : Nat) : Nat × Nat := fn sp (rndOf x) (drawOf g.sp.rngstate.toNat l j) (srcH x 0 j (laneAt (g.srcV ty x.a) l).val)
      (srcH x 1 j (laneAt (g.srcV ty x.b) l).val) (srcH x 2 j (laneAt (g.srcV ty x.c) l).val)
    Completes i s iss f (afterOf x f) (LaneResult g x (activeOf o x g f) (srcPois g ty ty ty x n) (fun l => packedResult sp x.sat (r l))
      (stepsRng o x (activeOf o x g f))) := by
  intro sp ty r
  obtain rfl := eq_mk_of_split hi
  unfold packedOp at hf
  split at hf <;> cases hf
  case h_1 => exact packed2_completes (i := .padd2 x) (m := execPadd2 x s) h hs hok full rfl rfl rfl fun _ _ => rfl
  case h_2 => exact packed2_completes (i := .pmul2 x) (m := execPmul2 x s) h hs hok full rfl rfl rfl fun _ _ => rfl
  case h_4 => exact packed2_completes (i := .pmin2 x) (m := execPmin2 x s) h hs hok full rfl rfl rfl fun _ _ => rfl
  case h_5 => exact packed2_completes (i := .pmax2 x) (m := execPmax2 x s) h hs hok full rfl rfl rfl fun _ _ => rfl
  case h_3 =>
    refine lane_completes (i := .pfma2 x) (m := execPfma2 x s) h hs hok rfl rfl fun l hl => ?_
    obtain ⟨poisA, a⟩ := laneAt_pa (e := groupEnv .pfma2 x s iss t g f) (ty := ty) full hl
    obtain ⟨poisB, b⟩ := laneAt_pb (e := groupEnv .pfma2 x s iss t g f) (ty := ty) full hl
    obtain ⟨poisC, c⟩ := laneAt_pc' (e := groupEnv .pfma2 x s iss t g f) (ty := ty) full hl
    have spec : packedSpec (groupEnv .pfma2 x s iss t g f) = (sp, ty) := rfl
    simp only [spec, poisA, poisB, poisC, a, b, c, Nat.reduceLT, srcPois, Nat.le_refl, Nat.reduceLeDiff, decide_true, Bool.true_and]
    rfl

/-- What `Claims.LanePackedResultsHold` says of PDOT2, of sources that list their lanes. -/
theorem pdot2_completes (hi : i = .pdot2 x) (ho : o = .pdot2) :
    let sp := (packedFmt t.cfg.fs x).1
    let ty := (packedFmt t.cfg.fs x).2
    let p (l j : Nat) : Term × Nat :=
      mulTerm (sp.unpack (srcH x 0 j (laneAt (g.srcV ty x.a) l).val)) (sp.unpack (srcH x 1 j (laneAt (g.srcV ty x.b) l).val))
    let r (l : Nat) : Nat × Nat := fp32.ofTerm (rndOf x) (drawOf g.sp.rngstate.toNat l 0)
      (Term.add (rndOf x) (Term.add (rndOf x) (p l 0) (p l 1)) (fp32.unpack (srcF x 2 (laneAt (g.srcV .fp32 x.c) l).val)).term)
    Completes i s iss f (afterOf x f) (LaneResult g x (activeOf o x g f) (srcPois g ty ty .fp32 x 3) (fun l => (satF x (r l).1, (r l).2))
      (stepsRng o x (activeOf o x g f))) := by
  intro sp ty p r
  subst hi ho
  refine lane_completes (m := execPdot2 x s) h hs hok rfl rfl fun l hl => ?_
  obtain ⟨poisA, a⟩ := laneAt_pa (e := groupEnv .pdot2 x s iss t g f) (ty := ty) full hl
  obtain ⟨poisB, b⟩ := laneAt_pb (e := groupEnv .pdot2 x s iss t g f) (ty := ty) full hl
  have c := laneAt_fc (e := groupEnv .pdot2 x s iss t g f) full hl
  have spec : packedSpec (groupEnv .pdot2 x s iss t g f) = (sp, ty) := rfl
  simp only [spec, poisA, poisB, a, b, c, nat_srcF, Nat.reduceLT, srcPois, Nat.le_refl, Nat.reduceLeDiff, decide_true, Bool.true_and]
  rfl

end

/-! ### Conversions and blocks -/

/-- A 64-bit lane result, of which the value is split into the words of a pair (R50, R56). -/
def LaneResult2 (g : Group) (x : Args) (act : Mask) (bad : Nat → Bool) (r : Nat → Nat × Nat) (drew : Bool) (h : Group) : Prop :=
  LaneWrote2 g h x.d act (fun l => if bad l then none else some ((r l).1 % 2 ^ 32)) (fun l => if bad l then none else some ((r l).1 / 2 ^ 32)) ∧
    LaneFrame g h ∧ h.p = g.p ∧ SpecialAfter g h (unionFlags act fun l => if bad l then 0 else (r l).2) drew

/-- FLAGS raised, and RNGSTATE stepped where the instruction drew, of a group with the same special registers (R40, R46). -/
theorem specialAfter_raise {g h : Group} (same : h.sp = g.sp) (fl : Nat) (drew : Bool) :
    SpecialAfter g (if drew then (h.raise fl).stepRng else h.raise fl) fl drew := by
  cases drew <;> simp [SpecialAfter, Group.raise, Group.stepRng, same]

/-- What an instruction whose meaning makes a 64-bit result in each active lane does to its group, when RNGSTATE steps if it drew. -/
theorem laneStep2_spec (e : Env) (drew : Bool) (fn : Nat → LaneRes) :
    let h := if drew then (laneStep2 e fn).stepRng else laneStep2 e fn
    LaneWrote2 e.g h e.x.d e.act (fun l => if (fn l).pois then none else some ((fn l).val % 2 ^ 32))
        (fun l => if (fn l).pois then none else some ((fn l).val / 2 ^ 32)) ∧
      LaneFrame e.g h ∧ h.p = e.g.p ∧ h.stepping = e.g.stepping ∧ h.frags = e.g.frags ∧ SpecialAfter e.g h (gatherFlags e.act fn) drew := by
  intro h
  let lo := lanesTab fun l => if inMask e.act l then laneOut e l (fn l).pois ((fn l).val % 2 ^ 32) else Elem.zero
  let hi := lanesTab fun l => if inMask e.act l then laneOut e (l + 32) (fn l).pois ((fn l).val / 2 ^ 32) else Elem.zero
  have wrote := outV_wrote2 e.g e.x.d e.act lo hi (fun l => if (fn l).pois then none else some ((fn l).val % 2 ^ 32))
    (fun l => if (fn l).pois then none else some ((fn l).val / 2 ^ 32)) fun l hl ha => by
      simp only [lo, hi, laneAt_lanesTab _ hl, if_pos ha]
      exact ⟨holds_laneOut .., holds_laneOut ..⟩
  obtain ⟨frame, preds, special⟩ := outV2_frame e.g e.x.d e.act lo hi
  have rest : (e.g.outV2 e.x.d e.act lo hi).stepping = e.g.stepping ∧ (e.g.outV2 e.x.d e.act lo hi).frags = e.g.frags := by
    cases e.x.d <;> exact ⟨rfl, rfl⟩
  obtain ⟨uniform, q, sh, acc⟩ := frame
  have stepped := specialAfter_raise special (gatherFlags e.act fn)
  cases drew <;>
    exact ⟨wrote.congr rfl rfl rfl rfl (fun _ _ => rfl) fun _ _ => rfl,
      ⟨⟨uniform.s, uniform.sl⟩, ⟨q.q, q.qPois⟩, sh, ⟨acc.cnt, acc.fail, acc.flights, acc.kind, acc.port⟩⟩, preds, rest.1, rest.2, stepped _⟩

/-- What `Claims.LaneConversionResultsHold` says of CVT, and of SXUNPK below, holds of all sources: neither changes a list of elements before it
reads from it. -/
theorem cvt_completes {x : Args} {s : State} {iss : Issuer} {t : Team} {g : Group} {f : Frag} {src dst : Fmt} (h : Issues .cvt x s iss t g f)
    (hs : g.stepping = none) (hok : badAddr (afterOf x f) = false) (hb : fieldFmt t.cfg.fs (fldIdx x.b) = some src)
    (hc : fieldFmt t.cfg.fs (fldIdx x.c) = some dst) :
    let lo (l : Nat) : Elem := laneAt (g.srcV (cvtTy src) x.a) l
    let hi (l : Nat) : Elem := laneAt (g.srcVHi (cvtTy src) x.a) l
    let v (l : Nat) : Nat := if src.is64 then pairNat (lo l) (hi l) else (lo l).nat
    let r (l : Nat) : Nat × Nat := cvt src dst (rndOf x) (drawOf g.sp.rngstate.toNat l 0) x.sat (cvtSrc src x.m (v l))
    let bad (l : Nat) : Bool := (lo l).pois || (src.is64 && (hi l).pois)
    let act := guardV g x f.emask
    let drew := (src.isFloat || dst.isFloat) && decide (rndOf x = .sr) && decide (act ≠ 0#32)
    Completes (.cvt x) s iss f (afterOf x f) (if dst.is64 then LaneResult2 g x act bad r drew else LaneResult g x act bad r drew) := by
  intro lo hi v r bad act drew
  have he : exec (.cvt x) s = execCvt x s := rfl
  unfold execCvt at he
  have fb : fieldFmt (groupEnv .cvt x s iss t g f).cfg.fs (fldIdx x.b) = some src := hb
  have fc : fieldFmt (groupEnv .cvt x s iss t g f).cfg.fs (fldIdx x.c) = some dst := hc
  cases wide : dst.is64 with
  | false =>
    exact laneStep_completes (sr := src.isFloat || dst.isFloat) (fn := fun l => ⟨(r l).1, bad l, (r l).2⟩) h hs hok he
      (by simp only [fb, fc, Option.getD_some, wide, Bool.false_eq_true, if_false]; rfl) fun _ _ => rfl
  | true =>
    obtain ⟨wrote, frame, preds, step, frags, special⟩ :=
      laneStep2_spec (groupEnv .cvt x s iss t g f) drew fun l => ⟨(r l).1, bad l, (r l).2⟩
    rw [gatherFlags_eq _ _ (fun l => if bad l then 0 else (r l).2) fun _ _ _ => rfl] at special
    refine runG_seq h hs hok he (by simp only [fb, fc, Option.getD_some, wide, if_true]; rfl) step frags fun h' same => ?_
    exact ⟨wrote.after same, frame.after same, same.p.trans preds, special.after same⟩

/-- SXUNPK completes with the value of the element word in each active lane (R160). -/
theorem sxunpk_completes {x : Args} {s : State} {iss : Issuer} {t : Team} {g : Group} {f : Frag} {b : Fmt} (h : Issues .sxunpk x s iss t g f)
    (hs : g.stepping = none) (hok : badAddr (afterOf x f) = false) (hb : fieldFmt t.cfg.fs (fldIdx x.b) = some b) :
    let a (l : Nat) : Elem := laneAt (g.srcV .int x.a) l
    Completes (.sxunpk x) s iss f (afterOf x f)
      (LaneResult g x (guardV g x f.emask) (fun l => (a l).pois) (fun l => sxUnpack (sxN b) (a l).nat) false) := by
  have fb : fieldFmt (groupEnv .sxunpk x s iss t g f).cfg.fs (fldIdx x.b) = some b := hb
  refine lane_completes (m := execSxunpk x s) h hs hok rfl rfl fun l _ => ?_
  simp only [fb, Option.getD_some]
  rfl

/-- What `Claims.LaneConversionResultsHold` says of CVTPK, of sources that list their lanes. -/
theorem cvtpk_completes {x : Args} {s : State} {iss : Issuer} {t : Team} {g : Group} {f : Frag} {dst : Fmt} (h : Issues .cvtpk x s iss t g f)
    (hs : g.stepping = none) (hok : badAddr (afterOf x f) = false) (full : FullSources g x) (hc : fieldFmt t.cfg.fs (fldIdx x.c) = some dst) :
    let src : Fmt := if dst.isFloat then .fp32 else .int32
    let w : Nat := if dst.isFloat then (fspecOf dst).width else intWidth dst
    let ty : CTy := if dst.isFloat then .fp32 else .int
    let v (k l : Nat) (e : Elem) : Nat × Nat :=
      cvt src dst (rndOf x) (drawOf g.sp.rngstate.toNat l k) x.sat (if dst.isFloat then srcF x k e.val else e.nat)
    let r0 (l : Nat) : Nat × Nat := v 0 l (laneAt (g.srcV ty x.a) l)
    let r1 (l : Nat) : Nat × Nat := v 1 l (laneAt (g.srcV ty x.b) l)
    let act := guardV g x f.emask
    Completes (.cvtpk x) s iss f (afterOf x f) (LaneResult g x act (srcPois g ty ty ty x 2)
      (fun l => ((r0 l).1 % 2 ^ w + (r1 l).1 % 2 ^ w * 2 ^ w, (r0 l).2 ||| (r1 l).2))
      (dst.isFloat && decide (rndOf x = .sr) && decide (act ≠ 0#32))) := by
  intro src w ty v r0 r1 act
  have he : exec (.cvtpk x) s = execCvtpk x s := rfl
  unfold execCvtpk at he
  have fc : fieldFmt (groupEnv .cvtpk x s iss t g f).cfg.fs (fldIdx x.c) = some dst := hc
  refine laneStep_completes h hs hok he (by simp only [fc, Option.getD_some]; rfl) fun l hl => ?_
  have a := laneAt_fa (e := groupEnv .cvtpk x s iss t g f) full hl
  have b := laneAt_fb (e := groupEnv .cvtpk x s iss t g f) full hl
  cases float : dst.isFloat with
  | false =>
    simp only [float, srcPois, Bool.false_eq_true, if_false, Nat.reduceLeDiff, decide_false, decide_true, Bool.false_and, Bool.true_and,
      Bool.or_false, r0, r1, v, src, w, ty]
    rfl
  | true =>
    simp only [float, a, b, nat_srcF, srcPois, if_true, Nat.reduceLeDiff, decide_false, decide_true, Bool.false_and, Bool.true_and,
      Bool.or_false, r0, r1, v, src, w, ty]
    rfl

/-- A source under its modifiers is poisoned as its register is (R83). -/
theorem pois_fa (e : Env) (l : Nat) : (laneAt e.fa l).pois = (laneAt (e.g.srcV .fp32 e.x.a) l).pois := by
  simp only [laneAt, Env.fa, List.getD_eq_getElem?_getD, List.getElem?_map]
  cases (e.g.srcV .fp32 e.x.a)[l]? <;> rfl

/-- The values that enter the block of half k of the group, and whether one of them is poisoned (R159). -/
theorem blockValues_eq {e : Env} (full : FullSources e.g e.x) {k : Nat} (hk : k < 2) :
    ((List.range 16).map fun i => if inMask e.act (16 * k + i) then fp32.unpack (laneAt e.fa (16 * k + i)).nat else .fin false 0 0) =
      (List.range 16).map fun i =>
        if inMask e.act (16 * k + i) then fp32.unpack (srcF e.x 0 (laneAt (e.g.srcV .fp32 e.x.a) (16 * k + i)).val) else .fin false 0 0 :=
  List.map_congr_left fun i hi => by
    have := List.mem_range.1 hi
    rw [laneAt_fa full (by omega), nat_srcF]

theorem blockPois_eq (e : Env) (k : Nat) :
    ((List.range 16).any fun i => inMask e.act (16 * k + i) && (laneAt e.fa (16 * k + i)).pois) =
      (List.range 16).any fun i => inMask e.act (16 * k + i) && (laneAt (e.g.srcV .fp32 e.x.a) (16 * k + i)).pois :=
  List.any_congr rfl fun i => by rw [pois_fa]

/-- What `Claims.SxpackEncodesABlockForEachHalfHold` says, of sources that list their lanes. -/
theorem sxpack_completes {x : Args} {s : State} {iss : Issuer} {t : Team} {g : Group} {f : Frag} {b : Fmt} (h : Issues .sxpack x s iss t g f)
    (hs : g.stepping = none) (hok : badAddr (afterOf x f) = false) (full : FullSources g x) (hb : fieldFmt t.cfg.fs (fldIdx x.b) = some b) :
    let act := guardV g x f.emask
    let a (l : Nat) : Elem := laneAt (g.srcV .fp32 x.a) l
    let block (h : Nat) : SxBlock × List Nat :=
      sxEncode ((List.range 16).map fun i => if inMask act (16 * h + i) then fp32.unpack (srcF x 0 (a (16 * h + i)).val) else .fin false 0 0)
        (sxN b) (rndOf x) (fun i => drawOf g.sp.rngstate.toNat (16 * h + i) i) x.sat
    let bad (l : Nat) : Bool := (List.range 16).any fun i => inMask act (16 * (l / 16) + i) && (a (16 * (l / 16) + i)).pois
    Completes (.sxpack x) s iss f (afterOf x f) (LaneResult g x act bad
      (fun l => (sxWord (block (l / 16)).1 (sxN b) (l % 16), (block (l / 16)).2.getD (l % 16) 0))
      (decide (rndOf x = .sr) && decide (act ≠ 0#32))) := by
  intro act a block bad
  have he : exec (.sxpack x) s = execSxpack x s := rfl
  unfold execSxpack at he
  have fb : fieldFmt (groupEnv .sxpack x s iss t g f).cfg.fs (fldIdx x.b) = some b := hb
  refine laneStep_completes (sr := true) h hs hok he (by simp only [fb, Option.getD_some]; rfl) fun l hl => ?_
  by_cases low : l < 16
  · have half : l / 16 = 0 := by omega
    simp only [low, if_true, half, bad, block, blockValues_eq (e := groupEnv .sxpack x s iss t g f) full (k := 0) (by decide), blockPois_eq]
    rfl
  · have half : l / 16 = 1 := by omega
    simp only [low, if_false, half, bad, block, blockValues_eq (e := groupEnv .sxpack x s iss t g f) full (k := 1) (by decide), blockPois_eq]
    rfl

end Sys2Proof.Machine
end

section
/-! A vector register that is listed with fewer than 32 elements: the source modifiers (R83) pass over the lanes it does not list. -/

namespace Sys2Proof.Machine

open Sys2Proof Sys2Proof.Claims

/-- The element of lane l of vector register n of the issuer's group, as an instruction leaves it. -/
def elementAfter (iss : Issuer) (n l : Nat) (o : Out) : Option Elem :=
  match o with
  | .next s => (s.group? iss.team iss.gix).map fun q => laneAt (q.2.vreg n) l
  | _ => none

/-- An instruction that completes with a lane result leaves it in the elements of its register in the active lanes. -/
theorem elementAfter_of_completes {i : Instr} {s : State} {iss : Issuer} {f : Frag} {dest : Dword} {P : Group → Prop} {g : Group} {n : BitVec 8}
    {act : Mask} {r : Nat → Option Nat} (c : Completes i s iss f dest P) (w : ∀ h, P h → LaneWrote g h (.v n) act r) {l : Nat} (hl : l < 32)
    (ha : inMask act l = true) : ∃ e, elementAfter iss n.toNat l (exec i s) = some e ∧ e.holds (r l) := by
  obtain ⟨s', h, run, only, result, -⟩ := c
  obtain ⟨-, t, -, team, -, -, group⟩ := only.team
  have wrote := (w h result).written n rfl l hl
  rw [if_pos ha] at wrote
  exact ⟨_, by rw [run, elementAfter, group?_eq team group]; rfl, wrote⟩

/-- A group at 0x1000 with all 32 lanes, whose register v0 is listed with no element. -/
def noLanes : Group :=
  Group.fresh .compute 0 (BitVec.allOnes 32) 0x1000#64 (Special.fresh 0 0 0 0 1 0) [(0, [])] [] 0

/-- Its one fragment, its team, and the machine in which the fragment is about to issue. -/
def noLanesFrag : Frag := ⟨BitVec.allOnes 32, BitVec.allOnes 32, 0x1000#64, none, Loop.off, Loop.off, false, false, .none, none, false⟩
def noLanesTeam : Team :=
  { cfg := ⟨0, 0, 8, 1, 0, 0, 0, 0, [], 0x1000#64, 0#64⟩, cluster := 0, tix := 0, core := some 0, owner := none, image := 0, imageLost := []
    groups := [(0, noLanes)], scratch := [], scratchPois := [], bars := [], mx := TeamMx.fresh 0 }
def noLanesIssuer : Issuer := ⟨0, 0, 0⟩
def noLanesState : State := { State.reset with cur := some noLanesIssuer, teams := [(0, noLanesTeam)] }

/-- FRND v1, -v0, to the nearest even integer. -/
def frndMinusV0 : Args := ⟨true, none, 0#3, 0#4, .v 1, .v 0, .none, .none, 0x080#12, 0#24⟩

/-- CVTPK v1, -v0, v0, to FP16. -/
def cvtpkMinusV0 : Args := ⟨true, none, 0#3, 0#4, .v 1, .v 0, .v 0, .n 1, 0x080#12, 0#24⟩

/-- Both are instructions that have an encoding. -/
theorem wf_frndMinusV0_cvtpkMinusV0 : frndMinusV0.wf .frnd = true ∧ cvtpkMinusV0.wf .cvtpk = true := by decide +kernel

theorem issuing_noLanesState : Issuing noLanesState noLanesIssuer noLanesTeam noLanes noLanesFrag := ⟨rfl, rfl, rfl, rfl⟩

theorem issues_frndMinusV0 : Issues .frnd frndMinusV0 noLanesState noLanesIssuer noLanesTeam noLanes noLanesFrag :=
  ⟨issuing_noLanesState, rfl, rfl, rfl, rfl, rfl, by decide +kernel, rfl, by decide +kernel, nofun, nofun⟩

theorem issues_cvtpkMinusV0 : Issues .cvtpk cvtpkMinusV0 noLanesState noLanesIssuer noLanesTeam noLanes noLanesFrag :=
  ⟨issuing_noLanesState, rfl, rfl, rfl, rfl, rfl, by decide +kernel, rfl, by decide +kernel, nofun, nofun⟩

/-- The model delivers +0 in lane 0: the lane that v0 does not list reads as zero, and is not negated. -/
theorem elementAfter_frndMinusV0 : elementAfter noLanesIssuer 1 0 (exec (.frnd frndMinusV0) noLanesState) = some ⟨0#32, false⟩ := by decide +kernel
theorem elementAfter_cvtpkMinusV0 : elementAfter noLanesIssuer 1 0 (exec (.cvtpk cvtpkMinusV0) noLanesState) = some ⟨0#32, false⟩ := by decide +kernel

/-- Refutes O41: the statement ranges over groups whose registers list any number of elements, and negates a lane that its register does not list
(R83), where the model modifies the listed elements alone. In `noLanesState`, FRND v1, -v0 leaves +0, and the statement asks for -0. With the
premise `FullSources g x` it holds: `laneFloat_completes`, `packedOp_completes`, `pdot2_completes`. -/
theorem not_laneFloatResults : ¬ Obligations.LaneFloatResults := by
  rintro ⟨float, -⟩
  have completes := float (.frnd frndMinusV0) .frnd frndMinusV0 _ _ _ _ _ _ _ rfl rfl issues_frndMinusV0 rfl (by decide +kernel)
  obtain ⟨e, run, result⟩ := elementAfter_of_completes completes (fun _ p => p.1) (l := 0) (by decide) (by decide +kernel)
  have minusZero : e = ⟨0x80000000#32, false⟩ := result.trans (by decide +kernel)
  have plusZero := elementAfter_frndMinusV0.symm.trans run
  simp [minusZero] at plusZero

/-- Refutes O42: as O41, in its clause of CVTPK. In `noLanesState`, CVTPK v1, -v0, v0 to FP16 leaves +0 in the low half of lane 0, and the statement
asks for -0. With the premise `FullSources g x` it holds: `cvt_completes`, `cvtpk_completes`, `sxunpk_completes`, `sxpack_completes`. -/
theorem not_laneConversionAndPackingResults : ¬ Obligations.LaneConversionAndPackingResults := by
  rintro ⟨conversion, -⟩
  obtain ⟨-, cvtpk, -⟩ := conversion cvtpkMinusV0 noLanesState noLanesIssuer noLanesTeam noLanes noLanesFrag rfl (by decide +kernel)
  have completes := cvtpk .fp16 issues_cvtpkMinusV0 rfl
  obtain ⟨e, run, result⟩ := elementAfter_of_completes completes (fun _ p => p.1) (l := 0) (by decide) (by decide +kernel)
  have minusZero : e = ⟨0x8000#32, false⟩ := result.trans (by decide +kernel)
  have plusZero := elementAfter_cvtpkMinusV0.symm.trans run
  simp [minusZero] at plusZero

end Sys2Proof.Machine
end
